-- ==== Sys2Proof/Word.lean ====
section
/-!
DEFINITION. The words of TKBT: command and result words are 32 bits (10_state.md R31, R32), the wire moves
bytes (20_memory.md R64).
-/

namespace Sys2Proof

/-- A command or result word (10_state.md R31, R32). -/
abbrev Word := BitVec 32

/-- A byte on the wire: a register address, a value or received data (20_memory.md R64). -/
abbrev Byte := BitVec 8

end Sys2Proof
end

