-- ==== Sys2Proof/Syntax.lean ====
section
/-!
DEFINITION. The commands of TKBT: one constructor for each row of the opcode map (30_encoding.md R87).
A word that names no command is no term of `Instr`: the decoder rejects it (R88, R89).
-/

namespace Sys2Proof

/-- The three GPIO lines (10_state.md R22), the values 0, 1 and 2 of the LINE field (30_encoding.md R84). -/
inductive Line where
  /-- The clock line. -/
  | scl
  /-- The data line. -/
  | sda
  /-- The interrupt/reset line. -/
  | int
  deriving DecidableEq, Repr

/-- The commands, each with exactly the operands of its encoding (30_encoding.md R86, R87). -/
inductive Instr where
  /-- SETLINE (41_bus_primitives.md R111): release a bus line, or drive it low. -/
  | setline (line : Line) (asInput : Bool)
  /-- GETLINE (R112): sample a bus line. -/
  | getline (line : Line)
  /-- WAITCLK (R117): release SCL and wait for it to read high. -/
  | waitclk
  /-- GDIR (R120): set the direction of a line. -/
  | gdir (line : Line) (asInput : Bool)
  /-- GSET (R122): write the output latch of a line. -/
  | gset (line : Line) (level : Bool)
  /-- GGET (R124): sample a line. -/
  | gget (line : Line)
  /-- DELAY.BIT (42_delay_unit.md R141). -/
  | delayBit
  /-- DELAY.HALF (R142). -/
  | delayHalf
  /-- DELAY.US (R143). -/
  | delayUs (imm : BitVec 16)
  /-- DELAY.MS (R144). -/
  | delayMs (imm : BitVec 16)
  /-- START (43_transport.md R161). -/
  | start
  /-- STOP (R163). -/
  | stop
  /-- SEND (R171). -/
  | send (value : Byte)
  /-- RECV (R181). -/
  | recv
  /-- MODEENTRY (44_mode_entry.md R203). -/
  | modeentry
  /-- MSEND (45_register_access.md R221). -/
  | msend (addr value : Byte)
  /-- MRECV (R231). -/
  | mrecv (addr : Byte)
  deriving DecidableEq, Repr

end Sys2Proof
end

