-- ==== Sys2Proof/WellFormed.lean ====
section
/-!
DEFINITION. Which terms of `Instr` an encoding exists for (30_encoding.md R84): SETLINE and GETLINE accept only
the two bus lines.
-/

namespace Sys2Proof

/-- SCL and SDA are the two lines of the bus; INT is not one of them (10_state.md R22). -/
def Line.onBus : Line → Bool
  | .scl => true
  | .sda => true
  | .int => false

/-- The operands an encoding admits: "SETLINE and GETLINE accept only 0 and 1" (30_encoding.md R84). Every other
operand type holds exactly the values its field can take. -/
def Instr.wellFormed : Instr → Bool
  | .setline line _ => line.onBus
  | .getline line => line.onBus
  | .waitclk => true
  | .gdir _ _ => true
  | .gset _ _ => true
  | .gget _ => true
  | .delayBit => true
  | .delayHalf => true
  | .delayUs _ => true
  | .delayMs _ => true
  | .start => true
  | .stop => true
  | .send _ => true
  | .recv => true
  | .modeentry => true
  | .msend _ _ => true
  | .mrecv _ => true

end Sys2Proof
end

