-- ==== Sys2Proof/Decode.lean ====
section
/-!
DEFINITION. The decoder of command words, total and rejecting by name (30_encoding.md R80 to R90), and after it the
encoder, written from the same format tables (R81 to R83, R91).
-/

namespace Sys2Proof

/-- Why a word names no command: the cases of 30_encoding.md R89, in its order. A rejected word still runs: it
completes with CODE = ILLEGAL. -/
inductive Reject where
  /-- An OP that is not in the opcode map. -/
  | unusedOpcode
  /-- A reserved bit is set. -/
  | reservedBit
  /-- LINE = 3. -/
  | lineReserved
  /-- LINE = 2 in SETLINE or GETLINE. -/
  | lineNotOnBus
  /-- V = 1 in GETLINE or GGET. -/
  | sampleWithV
  /-- DELAY with U ≥ 4. -/
  | delayUnit
  /-- DELAY with U ∈ {0, 1} and a nonzero count. -/
  | delayCount
  /-- U ≠ 0 in SEND, MSEND or MRECV. -/
  | unitField
  /-- A ≠ 0 in SEND, or B ≠ 0 in MRECV. -/
  | byteField
  deriving DecidableEq, Repr

/-! ### Fields -/

/-- `OP = w[31:24]` (30_encoding.md R80). -/
def opField (w : Word) : BitVec 8 := w.extractLsb' 24 8
/-- `LINE = w[17:16]` (R82). -/
def lineField (w : Word) : BitVec 2 := w.extractLsb' 16 2
/-- `V = w[0]` (R82). -/
def vField (w : Word) : Bool := w.getLsbD 0
/-- The reserved bits `w[23:18]` and `w[15:1]` of format R (R82) are all 0. -/
def reservedRClear (w : Word) : Bool := w.extractLsb' 18 6 == 0#6 && w.extractLsb' 1 15 == 0#15
/-- The reserved bits `w[23:0]` of format N (R81) are all 0. -/
def reservedNClear (w : Word) : Bool := w.extractLsb' 0 24 == 0#24
/-- `U = w[23:16]` (R83). -/
def uField (w : Word) : BitVec 8 := w.extractLsb' 16 8
/-- `A = w[15:8]` (R83). -/
def aField (w : Word) : Byte := w.extractLsb' 8 8
/-- `B = w[7:0]` (R83). -/
def bField (w : Word) : Byte := w.extractLsb' 0 8
/-- `IMM16 = A:B = w[15:0]` (R83). -/
def immField (w : Word) : BitVec 16 := w.extractLsb' 0 16

/-- The line a LINE field names; 3 is reserved (30_encoding.md R84). -/
def lineOfField (f : BitVec 2) : Option Line :=
  if f = 0#2 then some .scl else if f = 1#2 then some .sda else if f = 2#2 then some .int else none

/-! ### The decoder -/

/-- Format N: no operand, every bit below OP is 0 (30_encoding.md R81). -/
def decodeN (i : Instr) (w : Word) : Except Reject Instr :=
  if reservedNClear w then .ok i else .error .reservedBit

/-- Format R over the lines `accept` admits (R82, R84). -/
def decodeR (accept : Line → Bool) (build : Line → Bool → Except Reject Instr) (w : Word) : Except Reject Instr :=
  if reservedRClear w then
    match lineOfField (lineField w) with
    | none => .error .lineReserved
    | some l => if accept l then build l (vField w) else .error .lineNotOnBus
  else .error .reservedBit

/-- GETLINE and GGET: V must be 0 (R85). -/
def decodeSample (build : Line → Instr) (l : Line) (v : Bool) : Except Reject Instr :=
  if v then .error .sampleWithV else .ok (build l)

/-- DELAY: U selects the unit; only the microsecond and millisecond forms take a count (R83, R87). -/
def decodeDelay (w : Word) : Except Reject Instr :=
  if uField w = 0#8 then (if immField w = 0#16 then .ok .delayBit else .error .delayCount)
  else if uField w = 1#8 then (if immField w = 0#16 then .ok .delayHalf else .error .delayCount)
  else if uField w = 2#8 then .ok (.delayUs (immField w))
  else if uField w = 3#8 then .ok (.delayMs (immField w))
  else .error .delayUnit

/-- SEND: U = 0 and A = 0 (R87). -/
def decodeSend (w : Word) : Except Reject Instr :=
  if uField w = 0#8 then (if aField w = 0#8 then .ok (.send (bField w)) else .error .byteField)
  else .error .unitField

/-- MSEND: U = 0 (R87). -/
def decodeMsend (w : Word) : Except Reject Instr :=
  if uField w = 0#8 then .ok (.msend (aField w) (bField w)) else .error .unitField

/-- MRECV: U = 0 and B = 0 (R87). -/
def decodeMrecv (w : Word) : Except Reject Instr :=
  if uField w = 0#8 then (if bField w = 0#8 then .ok (.mrecv (aField w)) else .error .byteField)
  else .error .unitField

/-- The opcode map (30_encoding.md R87, R88): one line for each OP. -/
def decode (w : Word) : Except Reject Instr :=
  if opField w = 0x01#8 then decodeR Line.onBus (fun l v => .ok (.setline l v)) w
  else if opField w = 0x02#8 then decodeR Line.onBus (decodeSample .getline) w
  else if opField w = 0x03#8 then decodeN .waitclk w
  else if opField w = 0x04#8 then decodeR (fun _ => true) (fun l v => .ok (.gdir l v)) w
  else if opField w = 0x05#8 then decodeR (fun _ => true) (fun l v => .ok (.gset l v)) w
  else if opField w = 0x06#8 then decodeR (fun _ => true) (decodeSample .gget) w
  else if opField w = 0x10#8 then decodeDelay w
  else if opField w = 0x20#8 then decodeN .start w
  else if opField w = 0x21#8 then decodeN .stop w
  else if opField w = 0x22#8 then decodeSend w
  else if opField w = 0x23#8 then decodeN .recv w
  else if opField w = 0x30#8 then decodeN .modeentry w
  else if opField w = 0x40#8 then decodeMsend w
  else if opField w = 0x41#8 then decodeMrecv w
  else .error .unusedOpcode

/-- The instruction the decoder reads from the bits `w` of an opcode-table row, bit 0 the least significant: a
command is one 32-bit word, written whole (30_encoding.md R80), so its bits are the word's bits. -/
def decodeTableWord (nbits w : Nat) : Option Instr :=
  match decode (BitVec.ofNat 32 (w % 2 ^ nbits)) with
  | .ok i => some i
  | .error _ => none

/-! ### The encoder -/

/-- The LINE field of a line (30_encoding.md R84). -/
def fieldOfLine : Line → BitVec 2
  | .scl => 0#2
  | .sda => 1#2
  | .int => 2#2

/-- The V bit of a flag (R85). -/
def fieldOfFlag (b : Bool) : BitVec 1 := BitVec.ofBool b

/-- Format N: `OP`, then 24 reserved zeros (R81). -/
def encodeN (op : BitVec 8) : Word := op ++ 0#24

/-- Format R: `OP`, six zeros, LINE, fifteen zeros, V (R82). -/
def encodeR (op : BitVec 8) (l : Line) (v : Bool) : Word := op ++ 0#6 ++ fieldOfLine l ++ 0#15 ++ fieldOfFlag v

/-- Format I: `OP`, U, A, B (R83). -/
def encodeI (op u : BitVec 8) (a b : Byte) : Word := op ++ u ++ a ++ b

/-- Format I with `A:B` as one count (R83). -/
def encodeImm (op u : BitVec 8) (imm : BitVec 16) : Word := op ++ u ++ imm

/-- The word of a command (30_encoding.md R87, R91). For an ill-formed term it is a word the decoder rejects. -/
def encode : Instr → Word
  | .setline l v => encodeR 0x01#8 l v
  | .getline l => encodeR 0x02#8 l false
  | .waitclk => encodeN 0x03#8
  | .gdir l v => encodeR 0x04#8 l v
  | .gset l v => encodeR 0x05#8 l v
  | .gget l => encodeR 0x06#8 l false
  | .delayBit => encodeImm 0x10#8 0#8 0#16
  | .delayHalf => encodeImm 0x10#8 1#8 0#16
  | .delayUs imm => encodeImm 0x10#8 2#8 imm
  | .delayMs imm => encodeImm 0x10#8 3#8 imm
  | .start => encodeN 0x20#8
  | .stop => encodeN 0x21#8
  | .send b => encodeI 0x22#8 0#8 0#8 b
  | .recv => encodeN 0x23#8
  | .modeentry => encodeN 0x30#8
  | .msend a b => encodeI 0x40#8 0#8 a b
  | .mrecv a => encodeI 0x41#8 0#8 a 0#8

/-! ### The opcode map as the spec prints it -/

/-- One row of 30_encoding.md R87 as R88 searches it: `(w & mask) == match`, and for GDIR, GSET and GGET also
`LINE ≠ 3` (the row's `extra_ok`). -/
structure OpcodeRow where
  mask : Word
  pattern : Word
  lineNot3 : Bool
  deriving DecidableEq, Repr

/-- The 17 rows with the masks and patterns of spec/opcode_table.json, in its order. -/
def opcodeRows : List OpcodeRow :=
  [⟨0xFFFEFFFE#32, 0x01000000#32, false⟩, ⟨0xFFFEFFFF#32, 0x02000000#32, false⟩, ⟨0xFFFFFFFF#32, 0x03000000#32, false⟩,
   ⟨0xFFFCFFFE#32, 0x04000000#32, true⟩, ⟨0xFFFCFFFE#32, 0x05000000#32, true⟩, ⟨0xFFFCFFFF#32, 0x06000000#32, true⟩,
   ⟨0xFFFFFFFF#32, 0x10000000#32, false⟩, ⟨0xFFFFFFFF#32, 0x10010000#32, false⟩, ⟨0xFFFF0000#32, 0x10020000#32, false⟩,
   ⟨0xFFFF0000#32, 0x10030000#32, false⟩, ⟨0xFFFFFFFF#32, 0x20000000#32, false⟩, ⟨0xFFFFFFFF#32, 0x21000000#32, false⟩,
   ⟨0xFFFFFF00#32, 0x22000000#32, false⟩, ⟨0xFFFFFFFF#32, 0x23000000#32, false⟩, ⟨0xFFFFFFFF#32, 0x30000000#32, false⟩,
   ⟨0xFFFF0000#32, 0x40000000#32, false⟩, ⟨0xFFFF00FF#32, 0x41000000#32, false⟩]

/-- R88's test of one row: `(w & r.mask) == r.match and r.extra_ok(w)`. -/
def OpcodeRow.hits (r : OpcodeRow) (w : Word) : Bool :=
  w &&& r.mask == r.pattern && (!r.lineNot3 || lineField w != 3#2)

/-- The place of a command's row in `opcodeRows`. -/
def rowIndex : Instr → Nat
  | .setline _ _ => 0
  | .getline _ => 1
  | .waitclk => 2
  | .gdir _ _ => 3
  | .gset _ _ => 4
  | .gget _ => 5
  | .delayBit => 6
  | .delayHalf => 7
  | .delayUs _ => 8
  | .delayMs _ => 9
  | .start => 10
  | .stop => 11
  | .send _ => 12
  | .recv => 13
  | .modeentry => 14
  | .msend _ _ => 15
  | .mrecv _ => 16

end Sys2Proof
end

