-- ==== Sys2Proof/Config.lean ====
section
/-!
DEFINITION. What an implementation fixes (00_scope.md R5) and the free values. Every open value is an `opaque`
constant with no body: nothing can be proved of it. The values the spec does give stand in Machine/Operands.lean.
-/

namespace Sys2Proof

/-- The parameters of R5 that a command's steps read. The command definitions take them as an argument ("A model
takes each as an argument"); `exec` runs at `Config.params`. -/
structure Params where
  /-- `T_BIT_NS`, one bit period in ns: open, a natural number. -/
  tBitNs : Nat
  /-- `N_PRECISE`, the iteration ceiling of the clock-high wait: open, at least 1. -/
  nPrecise : Nat
  /-- `T_POLL_NS`, the least time of one poll iteration: open, at least 1. -/
  tPollNs : Nat
  deriving DecidableEq, Repr

/-- The constraints R5 puts on the open parameters. -/
abbrev Params.wf (p : Params) : Prop := 1 ≤ p.nPrecise ∧ 1 ≤ p.tPollNs

/-- `T_HALF_NS = T_BIT_NS div 2` (R5, 42_delay_unit.md R142). -/
def Params.tHalfNs (p : Params) : Nat := p.tBitNs / 2

/-- What the Peer does to the two bus lines: `true` pulls the line low (10_state.md R23). -/
structure PeerLow where
  scl : Bool
  sda : Bool
  deriving DecidableEq, Repr, Inhabited

/-- A step of one of the two agents that wait for nobody (00_scope.md R4). -/
inductive OwnStep where
  /-- The Peer takes a new drive (10_state.md R23). -/
  | peer (drive : PeerLow)
  /-- Time advances, in ns (R30). -/
  | time (ns : Nat)
  deriving DecidableEq, Repr

/-- How far Time gets in a list of own steps. -/
def elapsed : List OwnStep → Nat
  | [] => 0
  | .peer _ :: es => elapsed es
  | .time ns :: es => ns + elapsed es

/-- The Peer's drive after a list of own steps; `p` is its drive before them. -/
def lastDrive (p : PeerLow) : List OwnStep → PeerLow
  | [] => p
  | .peer q :: es => lastDrive q es
  | .time _ :: es => lastDrive p es

/-- The drives the Peer takes in a list of own steps. -/
def drives : List OwnStep → List PeerLow
  | [] => []
  | .peer q :: es => q :: drives es
  | .time _ :: es => drives es

/-- What the environment settles at one Engine or host step: the values the spec calls a draw. -/
structure Draw where
  /-- The steps the Peer and Time take, in their order, before the Engine's or the Host's step has its effect: a delay's
  duration (42_delay_unit.md R140), a poll's (41_bus_primitives.md R114), that of an untimed step (R145), and every change
  of the Peer's drive meanwhile (10_state.md R23). -/
  own : List OwnStep
  /-- The level a sample reads where the spec leaves it open: a line in contention (R25), INT as an input (R27). -/
  level : Bool
  /-- The bits a read of RES gives where the spec leaves them open: unwritten fields (R48), most fields while
  BUSY = 1 (R38). -/
  res : Word
  deriving DecidableEq, Repr, Inhabited

/-! ### Open parameters (R5, 92_eei_decisions.md) -/

/-- `T_BIT_NS` (92_eei_decisions.md D10). -/
opaque Config.tBitNs : Nat
/-- `N_PRECISE` less 1 (D13: at least 1). -/
opaque Config.nPreciseLessOne : Nat
/-- `T_POLL_NS` less 1 (D11: at least 1). -/
opaque Config.tPollNsLessOne : Nat
/-- `BLOCK_BASE` in words (D3: a 4-byte-aligned host address). -/
opaque Config.blockBaseWord : Nat
/-- `PIN_SCL`, `PIN_SDA` and `PIN_INT` (D3). No rule depends on them. -/
opaque Config.pinNumbers : Nat × Nat × Nat
/-- `T_PWR_ON_NS` (D27). -/
opaque Config.tPwrOnNs : Nat
/-- `T_SETTLE_NS` (D27). -/
opaque Config.tSettleNs : Nat

/-- The parameters of this block. -/
def Config.params : Params :=
  { tBitNs := Config.tBitNs, nPrecise := Config.nPreciseLessOne + 1, tPollNs := Config.tPollNsLessOne + 1 }

/-- `BLOCK_BASE` (20_memory.md R67). -/
def Config.blockBase : Nat := 4 * Config.blockBaseWord

/-! ### Free values -/

/-- The n-th draw of a run, where the state lists none (Machine/State.lean, `draws`). -/
opaque Config.draw : Nat → Draw
/-- `now` at reset: "any value" (10_state.md R30, R49). -/
opaque Config.nowAtReset : Nat
/-- The Peer's drive at reset: "Peer state, any value" (R49). -/
opaque Config.peerAtReset : PeerLow
/-- What RES.ACK holds while unwritten (R48). -/
opaque Config.ackAtReset : Bool
/-- What RES.LVL holds while unwritten (R48). -/
opaque Config.lvlAtReset : Bool
/-- What RES.DATA holds while unwritten (R48). -/
opaque Config.dataAtReset : Byte
/-- What RES.ATTEMPTS holds while unwritten (R48). -/
opaque Config.attemptsAtReset : BitVec 2
/-- ACC at reset: unspecified, any value (R44, 93_implementation_defined.md I15). -/
opaque Config.accAtReset : Byte
/-- BITIDX at reset: unspecified, any value (R45, I15). -/
opaque Config.bitIdxAtReset : BitVec 4
/-- ATT at reset: unspecified, any value (R49, I15). -/
opaque Config.attAtReset : BitVec 2
/-- T0 at reset: unspecified, any value (R49, I15). -/
opaque Config.t0AtReset : Nat
/-- NPOLL at reset: unspecified, any value (R49, I15). -/
opaque Config.nPollAtReset : Nat

end Sys2Proof
end

