-- ==== Sys2Proof/HostSyntax.lean ====
section
/-!
DEFINITION. The notation of host programs (30_encoding.md R93), and the program of the run: a parameter of the model, like those
of Config.lean, and no part of the state (00_scope.md R4).
-/

namespace Sys2Proof.Machine

/-- A field of RES that a `HOST.IF` condition names (30_encoding.md R93): all those of 10_state.md R32. -/
inductive ResSel where
  | code
  | ack
  | lvl
  | busy
  | precise
  | irqoff
  | data
  | attempts
  deriving DecidableEq, Repr

/-- A `HOST.IF` condition over the fields of RES (R93): a field equals a value, and what such tests combine to. -/
inductive Cond where
  | is (field : ResSel) (value : Nat)
  | not (c : Cond)
  | and (c d : Cond)
  | or (c d : Cond)
  deriving DecidableEq, Repr

/-- What the Host can do to the block at one instant, between commands or during one. -/
inductive HostMove where
  /-- A write of `bytes` bytes at a host address (10_state.md R31, R32, 20_memory.md R64). -/
  | write (addr bytes : Nat) (value : Word)
  /-- A read of `bytes` bytes at a host address (R31, R32, R38, R64). -/
  | read (addr bytes : Nat)
  /-- A reset of the block (70_reset_and_hazards.md R280, R281). -/
  | reset
  /-- The host processor takes an interrupt (44_mode_entry.md R202, 70_reset_and_hazards.md R291). -/
  | interrupt
  /-- The host or the block loses power (60_exceptions.md R263). -/
  | powerLoss
  deriving DecidableEq, Repr

/-- One line of a host program (30_encoding.md R93). Lines are counted from 0 here: line n of a listing is index
n - 1. -/
inductive HostLine where
  /-- Write one command word to CMD and wait for it to complete. -/
  | cmd (w : Word)
  /-- Write one command word to CMD and make moves while it runs: each after a number of further Engine steps (or when the
  command has ended, if sooner). -/
  | during (w : Word) (moves : List (Nat × HostMove))
  /-- Make a move between commands. -/
  | move (m : HostMove)
  /-- `HOST.IF cond GOTO target` (R93). -/
  | ifGoto (cond : Cond) (target : Nat)
  /-- `HOST.POWER on` or `HOST.POWER off` (R93): only the Peer is affected. -/
  | power (on : Bool)
  /-- `HOST.END` (R93): the end of the run. -/
  | hostEnd
  deriving DecidableEq, Repr

end Sys2Proof.Machine

namespace Sys2Proof

/-- The program of the run: "a host command list is a parameter of the run" (00_scope.md R4). Nothing can be proved of it, so what
is proved of `step` holds for every program; `stepOf` takes one as an argument. -/
opaque Config.hostProgram : List Machine.HostLine

end Sys2Proof
end

