-- ==== Sys2Proof/Machine/State.lean ====
section
/-!
DEFINITION. The state of TKBT and its surroundings as plain data: everything 10_state.md R49 lists, CMD (R31), the
event history (00_scope.md R9), the Host's position (R21), the Peer's drive (R23), and the model's own supply of draws.
-/

namespace Sys2Proof.Machine

/-! ### Pins and events -/

/-- `DIR[L]` (10_state.md R22): `input` is released. -/
inductive Dir where
  | input
  | output
  deriving DecidableEq, Repr

/-- One line's direction and output latch (R22). The latch drives the line only while the direction is `output`. -/
structure Pin where
  dir : Dir
  latch : Bool
  deriving DecidableEq, Repr

/-- The second argument of a `Dir` event (00_scope.md R9): IN, OUT0 or OUT1. -/
inductive Drive where
  | released
  | out0
  | out1
  deriving DecidableEq, Repr

/-- The events the Engine records, each with its time (00_scope.md R9). -/
inductive Event where
  | dir (line : Line) (drive : Drive) (at_ : Nat)
  | latch (line : Line) (level : Bool) (at_ : Nat)
  | sample (line : Line) (level : Bool) (at_ : Nat)
  | irq (off : Bool) (at_ : Nat)
  | contend (line : Line) (at_ : Nat)
  deriving DecidableEq, Repr

/-! ### The result register -/

/-- The codes of 00_scope.md R8. -/
inductive Code where
  | ok
  | timeout
  | nak
  | illegal
  deriving DecidableEq, Repr

/-- A field of RES that is "unwritten" after reset (10_state.md R48): what it holds, and whether a command has
written it since reset. A read of an unwritten field is a draw (Machine/Flags.lean). -/
structure ResField (α : Type) where
  value : α
  written : Bool
  deriving DecidableEq, Repr

/-- The stored fields of RES (10_state.md R32). PRECISE and IRQOFF are live mirrors (R37) and the reserved bits read
0 (R41), so neither has storage here. -/
structure Res where
  code : Code
  busy : Bool
  ack : ResField Bool
  lvl : ResField Bool
  data : ResField Byte
  attempts : ResField (BitVec 2)
  deriving DecidableEq, Repr

/-! ### The Host -/

/-- The Host agent: its position in its program (10_state.md R21), and the last word it read from the window. The program itself
is a parameter of the run and not state (00_scope.md R4): `Config.hostProgram`, or an argument of `stepOf`. -/
structure HostState where
  pos : Nat
  lastRead : Option Word
  /-- The model's own: a command word handed to the Host from outside, written at its next step in place of the program's line
  (`State.withFetchWord`). -/
  given : Option Word
  deriving DecidableEq, Repr

/-! ### The whole state -/

/-- Everything the spec gives the machine, and the model's supply of draws. -/
@[ext]
structure State where
  /-- `DIR[SCL]`, `OUT_LVL[SCL]` (10_state.md R22). -/
  scl : Pin
  /-- `DIR[SDA]`, `OUT_LVL[SDA]` (R22). -/
  sda : Pin
  /-- `DIR[INT]`, `OUT_LVL[INT]` (R22). -/
  int : Pin
  /-- PRECISE (R28). -/
  precise : Bool
  /-- The IRQ_OFF output (R29). -/
  irqOff : Bool
  /-- Time in ns (R30). -/
  now : Nat
  /-- CMD: the last command word accepted (R31). -/
  cmd : Word
  /-- RES (R32). -/
  res : Res
  /-- ACC, the receive accumulator (R44). -/
  acc : Byte
  /-- BITIDX, the bit counter (R45). -/
  bitIdx : BitVec 4
  /-- ATT, the attempt counter (R46). -/
  att : BitVec 2
  /-- T0, when the current clock-high wait began (R47). -/
  t0 : Nat
  /-- NPOLL, the low samples of the current clock-high wait (R47). -/
  nPoll : Nat
  /-- FAULT_CONTEND, the sticky mark (R26). -/
  faultContend : Bool
  /-- PEER_LOW (R23). -/
  peer : PeerLow
  /-- The event history, newest first (00_scope.md R9). -/
  history : List Event
  /-- The Host agent (00_scope.md R4). -/
  host : HostState
  /-- The model's own: the environment's coming choices, taken one at each step. Any finite behaviour of the Peer and
  of time is some list here; past its end the choices are `Config.draw`. -/
  draws : List Draw
  /-- The model's own: how many choices have been taken. -/
  drawn : Nat
  deriving DecidableEq, Repr

/-- Why a step can stop with a fault. No command raises one. -/
inductive Fault where
  /-- Raised by a host access outside the block's window (20_memory.md R67). Safe: the model goes no further. -/
  | outsideWindow
  /-- Raised by a host move that loses power: "not in source" (60_exceptions.md R263; 93_implementation_defined.md
  I21). Safe. -/
  | powerLoss
  deriving DecidableEq, Repr

/-- Why a step can be refused. No command is refused. -/
inductive Refusal where
  /-- An instruction without a meaning: no arm of `exec` raises it. -/
  | notModelled (mnemonic : String)
  /-- Raised by a CMD write while BUSY = 1: "the host has no step that writes CMD" (10_state.md R36). Safe. -/
  | cmdWhileBusy
  /-- Raised by a host access that is narrower than 32 bits or misaligned: "a model refuses it" (20_memory.md R64).
  Safe. -/
  | windowAccess
  /-- Raised by a host decision on RES while BUSY = 1: a model must not let one happen (10_state.md R38). Safe. -/
  | decisionWhileBusy
  /-- Raised by a host interrupt while IRQ_OFF = 1: "the host must deliver no interrupt" (44_mode_entry.md R202).
  Safe. -/
  | interruptWhileOff
  deriving DecidableEq, Repr

/-- A released line with latch 0 (10_state.md R49). -/
def Pin.atReset : Pin := { dir := .input, latch := false }

/-- RES after reset (10_state.md R49): CODE = OK, BUSY = 0, the other stored fields unwritten. -/
def Res.atReset : Res :=
  { code := .ok
    busy := false
    ack := ⟨Config.ackAtReset, false⟩
    lvl := ⟨Config.lvlAtReset, false⟩
    data := ⟨Config.dataAtReset, false⟩
    attempts := ⟨Config.attemptsAtReset, false⟩ }

/-- The machine right after reset (10_state.md R49). DESIGN CHOICE: CMD 0 (log 9), FAULT_CONTEND clear (log 8), an
empty history (log 10), the Host at the first line of the run's program (log 11), no listed draws (log 3), and one free constant of Config for each value
that the spec calls "unwritten", "unspecified" or "any value" (logs 4 to 7; 93_implementation_defined.md I1, I15, I16). -/
def State.reset : State :=
  { scl := Pin.atReset
    sda := Pin.atReset
    int := Pin.atReset
    precise := false
    irqOff := false
    now := Config.nowAtReset
    cmd := 0
    res := Res.atReset
    acc := Config.accAtReset
    bitIdx := Config.bitIdxAtReset
    att := Config.attAtReset
    t0 := Config.t0AtReset
    nPoll := Config.nPollAtReset
    faultContend := false
    peer := Config.peerAtReset
    history := []
    host := { pos := 0, lastRead := none, given := none }
    draws := []
    drawn := 0 }

end Sys2Proof.Machine
end

