-- ==== Sys2Proof/Machine/Flags.lean ====
section
/-!
DEFINITION. The result register: the writes of its fields (10_state.md R33 to R42) and the word the host reads
(R32, R37, R38, R41, R48).
-/

namespace Sys2Proof.Machine

/-! ### Writes -/

/-- `RES.CODE <- c` (10_state.md R33). -/
def State.setCode (c : Code) (s : State) : State := { s with res := { s.res with code := c } }

/-- `RES.BUSY <- b` (R36). -/
def State.setBusy (b : Bool) (s : State) : State := { s with res := { s.res with busy := b } }

/-- `RES.ACK <- b` (R34). -/
def State.setAck (b : Bool) (s : State) : State := { s with res := { s.res with ack := ⟨b, true⟩ } }

/-- `RES.LVL <- b` (R35). -/
def State.setLvl (b : Bool) (s : State) : State := { s with res := { s.res with lvl := ⟨b, true⟩ } }

/-- `RES.DATA <- ACC` (R39, 43_transport.md R181, 45_register_access.md R230). -/
def State.dataFromAcc (s : State) : State := { s with res := { s.res with data := ⟨s.acc, true⟩ } }

/-- `RES.ATTEMPTS <- ATT` (R40, 45_register_access.md R220, R230). -/
def State.attemptsFromAtt (s : State) : State := { s with res := { s.res with attempts := ⟨s.att, true⟩ } }

/-! ### Reads -/

/-- The number of a code (00_scope.md R8). -/
def Code.bits : Code → BitVec 4
  | .ok => 0#4
  | .timeout => 1#4
  | .nak => 2#4
  | .illegal => 3#4

/-- CODE as read: the code, or the draw's bits while BUSY = 1 (10_state.md R38). -/
def codeAsRead (free : Word) (s : State) : BitVec 4 := if s.res.busy then free.extractLsb' 0 4 else s.res.code.bits

/-- ACK as read: a draw while BUSY = 1 (R38) or while unwritten (R48). -/
def ackAsRead (free : Word) (s : State) : Bool :=
  if s.res.busy || !s.res.ack.written then free.getLsbD 4 else s.res.ack.value

/-- LVL as read (R38, R48). -/
def lvlAsRead (free : Word) (s : State) : Bool :=
  if s.res.busy || !s.res.lvl.written then free.getLsbD 5 else s.res.lvl.value

/-- DATA as read (R38, R48). -/
def dataAsRead (free : Word) (s : State) : Byte :=
  if s.res.busy || !s.res.data.written then free.extractLsb' 16 8 else s.res.data.value

/-- ATTEMPTS as read (R38, R48). -/
def attemptsAsRead (free : Word) (s : State) : BitVec 2 :=
  if s.res.busy || !s.res.attempts.written then free.extractLsb' 24 2 else s.res.attempts.value

/-- The word a read of RES gives, laid out as R32 says: ATTEMPTS 25:24, DATA 23:16, IRQOFF 10, PRECISE 9, BUSY 8,
LVL 5, ACK 4, CODE 3:0, the rest 0 (R41). PRECISE and IRQOFF are live (R37). `free` is the draw. -/
def resWord (free : Word) (s : State) : Word :=
  0#6 ++ attemptsAsRead free s ++ dataAsRead free s ++ 0#5 ++ BitVec.ofBool s.irqOff ++ BitVec.ofBool s.precise
    ++ BitVec.ofBool s.res.busy ++ 0#2 ++ BitVec.ofBool (lvlAsRead free s) ++ BitVec.ofBool (ackAsRead free s) ++ codeAsRead free s

/-- A field of a word read from RES (R32). -/
def ResSel.of (w : Word) : ResSel → Nat
  | .code => (w.extractLsb' 0 4).toNat
  | .ack => (w.extractLsb' 4 1).toNat
  | .lvl => (w.extractLsb' 5 1).toNat
  | .busy => (w.extractLsb' 8 1).toNat
  | .precise => (w.extractLsb' 9 1).toNat
  | .irqoff => (w.extractLsb' 10 1).toNat
  | .data => (w.extractLsb' 16 8).toNat
  | .attempts => (w.extractLsb' 24 2).toNat

/-- Whether a `HOST.IF` condition holds of a word read from RES (30_encoding.md R93). -/
def Cond.holds (w : Word) : Cond → Bool
  | .is field value => field.of w == value
  | .not c => !c.holds w
  | .and c d => c.holds w && d.holds w
  | .or c d => c.holds w || d.holds w

end Sys2Proof.Machine
end

