-- ==== Sys2Proof/Machine/Operands.lean ====
section
/-!
DEFINITION. The values the spec fixes (00_scope.md R5, 44_mode_entry.md R200) and how operands are used
(30_encoding.md R84 to R86, 20_memory.md R62).
-/

namespace Sys2Proof.Machine

/-- `T_WAIT_NS`, the deadline of the clock-high wait: 1/20 second (41_bus_primitives.md R115). -/
def tWaitNs : Nat := 50000000

/-- `BUS_RETRIES`, extra attempts after the first (00_scope.md R5). -/
def busRetries : Nat := 2

/-- `MODE_PATTERN` = 0x2AF8, 15 bits (00_scope.md R5). -/
def modePattern : BitVec 15 := 0b010101011111000#15

/-- `MODE_BITS` (R5). -/
def modeBits : Nat := 15

/-- `T_MODE_CLK_NS` (R5). -/
def tModeClkNs : Nat := 3000

/-- `T_MODE_PULSE_NS` (R5). -/
def tModePulseNs : Nat := 10000

/-- `T_MODE_EXTRA_NS` (R5). -/
def tModeExtraNs : Nat := 30000

/-- `MODE_EXTRA_INDEX`, a bit position of the pattern (R5, 90_conflicts.md C5). -/
def modeExtraIndex : Nat := 5

/-- DELAY.US waits `IMM16 × 1000` ns, the count unsigned (30_encoding.md R86, 42_delay_unit.md R143). -/
def usToNs (imm : BitVec 16) : Nat := imm.toNat * 1000

/-- DELAY.MS waits `IMM16 × 1 000 000` ns (R86, R144). -/
def msToNs (imm : BitVec 16) : Nat := imm.toNat * 1000000

/-- `v[i]` of a byte (00_scope.md R6); bits go out from 7 to 0 (20_memory.md R62). -/
def byteBit (v : Byte) (i : Nat) : Bool := v.getLsbD i

/-- `MODE_PATTERN[i]` (44_mode_entry.md R200). -/
def modeBit (i : Nat) : Bool := modePattern.getLsbD i

/-- `ACC <- ((ACC << 1) | b) mod 2^8` (10_state.md R44). -/
def shiftIn (acc : Byte) (b : Bool) : Byte := acc <<< 1 ||| (BitVec.ofBool b).setWidth 8

/-- BITIDX holds a bit position, 4 bits (10_state.md R45). -/
def bitIndex (i : Nat) : BitVec 4 := BitVec.ofNat 4 i

/-- SETLINE and GETLINE act on SCL and SDA only; the word with LINE = INT is ILLEGAL (30_encoding.md R84, R89). -/
def lineAccepted (l : Line) : Bool := l.onBus

end Sys2Proof.Machine
end

