-- ==== Sys2Proof/Machine/Ops.lean ====
section
/-!
DEFINITION. The shared operations: taking a draw, pins and levels, the Engine's elementary steps (`MicroOp`),
programs of them (`Prog`) run to completion or part of the way, the end of a command, and reset. The Engine's step is
`MicroOp.run`; the Peer's and Time's own steps are `State.peerStep` and `State.timeStep` (00_scope.md R4).

A command of TKBT is a program of elementary steps, one for each line of the spec's pseudocode, because the Peer may
change its drive, and the Host may read RES or reset the block, between any two of them (10_state.md R23, R37,
70_reset_and_hazards.md R281). `exec` runs a command's program to its end.

TKBT takes no exception and returns from none (60_exceptions.md R254, R255): an error is a code in RES.CODE, written
by `finish`, the one operation that ends a command (R250).
-/

namespace Sys2Proof.Machine

/-! ### Draws, time and events -/

/-- The first listed draw, or a free one after the number of draws taken. -/
def drawFrom (draws : List Draw) (drawn : Nat) : Draw :=
  match draws with
  | d :: _ => d
  | [] => Config.draw drawn

/-- What the environment settles at the next step. -/
def State.nextDraw (s : State) : Draw := drawFrom s.draws s.drawn

/-- A step of the Peer (00_scope.md R4, 10_state.md R23): it takes a drive, and nothing else changes. -/
def State.peerStep (drive : PeerLow) (s : State) : State := { s with peer := drive }

/-- A step of Time (R4, R30): `now` advances, and nothing else changes. -/
def State.timeStep (ns : Nat) (s : State) : State := { s with now := s.now + ns }

/-- An own step of the Peer or of Time. -/
def State.ownStep (s : State) : OwnStep → State
  | .peer drive => s.peerStep drive
  | .time ns => s.timeStep ns

/-- The Peer and Time take their steps of the next draw, and a step of least duration `least` of another agent passes: it
lasts until at least that time has gone by. What Time got ahead beyond it is the overrun (42_delay_unit.md R140, R145). In
closed form; `State.pass_eq_ownSteps` in Laws/State.lean says it one own step at a time. -/
def State.pass (least : Nat) (s : State) : State :=
  { s with
    now := s.now + least + (elapsed s.nextDraw.own - least)
    peer := lastDrive s.peer s.nextDraw.own
    draws := s.draws.tail
    drawn := s.drawn + 1 }

/-- Adds an event to the history, newest first (00_scope.md R9). -/
def State.record (e : Event) (s : State) : State := { s with history := e :: s.history }

/-! ### Pins and levels -/

/-- The pin of a line (10_state.md R22). -/
def State.pin (s : State) : Line → Pin
  | .scl => s.scl
  | .sda => s.sda
  | .int => s.int

/-- Replaces the pin of a line. -/
def State.setPin (l : Line) (p : Pin) (s : State) : State :=
  match l with
  | .scl => { s with scl := p }
  | .sda => { s with sda := p }
  | .int => { s with int := p }

/-- PEER_LOW of a line; a Peer drive on INT is not modelled (R23). -/
def State.peerLow (s : State) : Line → Bool
  | .scl => s.peer.scl
  | .sda => s.peer.sda
  | .int => false

/-- The Engine drives the line high: `DIR[L] = OUT and OUT_LVL[L] = 1` (R25). -/
def Pin.drivesHigh (p : Pin) : Bool := p.dir == .output && p.latch

/-- The Engine drives the line low: `DIR[L] = OUT and OUT_LVL[L] = 0` (R25). -/
def Pin.drivesLow (p : Pin) : Bool := p.dir == .output && !p.latch

/-- The line is in contention: driven high by the Engine and pulled low by the Peer (R25). -/
def State.contends (s : State) (l : Line) : Bool := (s.pin l).drivesHigh && s.peerLow l

/-- `Level(L)`: R25 for SCL and SDA, R27 for INT; `free` is the draw of the cases left open. -/
def State.level (s : State) (free : Bool) : Line → Bool
  | .int => if s.int.dir = .output then s.int.latch else free
  | l => if s.contends l then free else !((s.pin l).drivesLow || s.peerLow l)

/-- The drive a direction gives a line whose latch is known, as a `Dir` event names it (00_scope.md R9). -/
def driveOf (d : Dir) (latch : Bool) : Drive :=
  match d with
  | .input => .released
  | .output => if latch then .out1 else .out0

/-- `DIR[L] <- d`, recording `Dir` (41_bus_primitives.md R110, R120). -/
def State.writeDir (l : Line) (d : Dir) (s : State) : State :=
  (s.setPin l { s.pin l with dir := d }).record (.dir l (driveOf d (s.pin l).latch) s.now)

/-- `OUT_LVL[L] <- v`, recording `Latch` whether or not it changed (R122). -/
def State.writeLatch (l : Line) (v : Bool) (s : State) : State :=
  (s.setPin l { s.pin l with latch := v }).record (.latch l v s.now)

/-- `OUT_LVL[L] <- 0`, recording `Latch` if it changed (R110). -/
def State.clearLatch (l : Line) (s : State) : State := if (s.pin l).latch then s.writeLatch l false else s

/-- What a sample of a line leaves: `Sample`, and in contention first `Contend` and the mark FAULT_CONTEND
(10_state.md R25, R26, 00_scope.md R7). -/
def State.sampled (l : Line) (free : Bool) (s : State) : State :=
  if s.contends l then
    ({ s with faultContend := true }.record (.contend l s.now)).record (.sample l (s.level free l) s.now)
  else s.record (.sample l (s.level free l) s.now)

/-! ### Internal registers -/

/-- `T0 <- now; NPOLL <- 0` (41_bus_primitives.md R113). -/
def State.startWait (s : State) : State := { s with t0 := s.now, nPoll := 0 }

/-- `NPOLL <- NPOLL + 1` (R113). -/
def State.countPoll (s : State) : State := { s with nPoll := s.nPoll + 1 }

/-- `PRECISE = 1 and NPOLL >= N_PRECISE`: the iteration ceiling (R116). -/
def State.ceilingReached (nPrecise : Nat) (s : State) : Bool := s.precise && decide (nPrecise ≤ s.nPoll)

/-- `now - T0 > T_WAIT_NS`: the wall-clock deadline, strict (R115). -/
def State.deadlinePassed (s : State) : Bool := decide (tWaitNs < s.now - s.t0)

/-- `BITIDX <- i` (10_state.md R45). -/
def State.setBitIdx (i : Nat) (s : State) : State := { s with bitIdx := bitIndex i }

/-- `ACC <- ((ACC << 1) | b) mod 2^8` (R44). -/
def State.pushAcc (b : Bool) (s : State) : State := { s with acc := shiftIn s.acc b }

/-- `PRECISE <- b` (44_mode_entry.md R200). -/
def State.setPrecise (b : Bool) (s : State) : State := { s with precise := b }

/-- `IRQ_OFF <- b`, recording `Irq` (R200). -/
def State.setIrqOff (b : Bool) (s : State) : State := { s with irqOff := b, history := .irq b s.now :: s.history }

/-- `ATT <- 0` (45_register_access.md R220). -/
def State.clearAtt (s : State) : State := { s with att := 0 }

/-- `ATT <- ATT + 1` (R220). -/
def State.incAtt (s : State) : State := { s with att := s.att + 1 }

/-! ### Elementary steps -/

/-- The Engine's elementary steps: one line of the spec's pseudocode each. -/
inductive MicroOp where
  /-- `OUT_LVL[L] <- 0`, recorded if it changed (41_bus_primitives.md R110). -/
  | lowLatch (l : Line)
  /-- `OUT_LVL[L] <- v` (R122). -/
  | latch (l : Line) (v : Bool)
  /-- `DIR[L] <- d` (R110, R120). -/
  | dir (l : Line) (d : Dir)
  /-- `Level(L)`; replies with the level (10_state.md R25, R27). -/
  | sample (l : Line)
  /-- `Delay(d)` (42_delay_unit.md R140). -/
  | delay (d : Nat)
  /-- `PollAdvance()`, by at least the given time (41_bus_primitives.md R114). -/
  | pollAdvance (least : Nat)
  /-- `T0 <- now; NPOLL <- 0` (R113). -/
  | startWait
  /-- `NPOLL <- NPOLL + 1` (R113). -/
  | countPoll
  /-- Replies whether `PRECISE = 1 and NPOLL >= N_PRECISE` (R113, R116). -/
  | ceilingReached (nPrecise : Nat)
  /-- Replies whether `now - T0 > T_WAIT_NS` (R113, R115). -/
  | deadlinePassed
  /-- `BITIDX <- i` (10_state.md R45). -/
  | bitIdx (i : Nat)
  /-- `ACC <- ((ACC << 1) | b) mod 2^8` (R44). -/
  | shiftAcc (b : Bool)
  /-- `PRECISE <- b` (44_mode_entry.md R200). -/
  | precise (b : Bool)
  /-- `IRQ_OFF <- b`, recorded (R200). -/
  | irqOff (b : Bool)
  /-- `ATT <- 0` (45_register_access.md R220). -/
  | clearAtt
  /-- `ATT <- ATT + 1` (R220). -/
  | incAtt
  /-- `RES.ACK <- b` (43_transport.md R171). -/
  | ack (b : Bool)
  /-- `RES.LVL <- b` (41_bus_primitives.md R112). -/
  | lvl (b : Bool)
  /-- `RES.DATA <- ACC` (43_transport.md R181, 45_register_access.md R230). -/
  | data
  /-- `RES.ATTEMPTS <- ATT` (45_register_access.md R220). -/
  | attempts
  /-- `RES.CODE <- c` (10_state.md R33). -/
  | code (c : Code)
  /-- `RES.BUSY <- 0` (R36). -/
  | idle
  deriving DecidableEq, Repr

/-- The least duration of an elementary step: a delay's or a poll's own, 0 for every other (42_delay_unit.md R140,
R145). -/
def MicroOp.least : MicroOp → Nat
  | .delay d => d
  | .pollAdvance d => d
  | _ => 0

/-- What an elementary step does once its time has passed; `free` is the level draw. -/
def MicroOp.effect (free : Bool) (s : State) : MicroOp → State
  | .lowLatch l => s.clearLatch l
  | .latch l v => s.writeLatch l v
  | .dir l d => s.writeDir l d
  | .sample l => s.sampled l free
  | .delay _ => s
  | .pollAdvance _ => s
  | .startWait => s.startWait
  | .countPoll => s.countPoll
  | .ceilingReached _ => s
  | .deadlinePassed => s
  | .bitIdx i => s.setBitIdx i
  | .shiftAcc b => s.pushAcc b
  | .precise b => s.setPrecise b
  | .irqOff b => s.setIrqOff b
  | .clearAtt => s.clearAtt
  | .incAtt => s.incAtt
  | .ack b => s.setAck b
  | .lvl b => s.setLvl b
  | .data => s.dataFromAcc
  | .attempts => s.attemptsFromAtt
  | .code c => s.setCode c
  | .idle => s.setBusy false

/-- What an elementary step tells the program: the level of a sample, or the answer of a test. -/
def MicroOp.reply (free : Bool) (s : State) : MicroOp → Bool
  | .sample l => s.level free l
  | .ceilingReached n => s.ceilingReached n
  | .deadlinePassed => s.deadlinePassed
  | _ => false

/-- One elementary step: a draw is taken, time passes, then the step has its effect. -/
def MicroOp.run (op : MicroOp) (s : State) : State × Bool :=
  (op.effect s.nextDraw.level (s.pass op.least), op.reply s.nextDraw.level (s.pass op.least))

/-! ### Programs -/

/-- A program of elementary steps with a result; what follows a step may depend on its reply. -/
inductive Prog (α : Type) where
  | done (result : α)
  | act (op : MicroOp) (next : Bool → Prog α)

/-- One elementary step as a program. -/
def perform (op : MicroOp) : Prog Bool := .act op .done

/-- `p`, then what `f` makes of its result. -/
def Prog.bind {α β : Type} (p : Prog α) (f : α → Prog β) : Prog β :=
  match p with
  | .done a => f a
  | .act op k => .act op fun b => (k b).bind f

/-- `p`, then `q`, whatever `p` gave. -/
def Prog.andThen {α β : Type} (p : Prog α) (q : Prog β) : Prog β := p.bind fun _ => q

/-- Runs a program to its end: the state it leaves and its result. -/
def Prog.run {α : Type} (p : Prog α) (s : State) : State × α :=
  match p with
  | .done a => (s, a)
  | .act op k => (k (op.run s).2).run (op.run s).1

/-- Runs at most `n` elementary steps of a program: the state reached and what is left to run. -/
def Prog.runFor {α : Type} (n : Nat) (p : Prog α) (s : State) : State × Prog α :=
  match n with
  | 0 => (s, p)
  | n + 1 =>
    match p with
    | .done a => (s, .done a)
    | .act op k => Prog.runFor n (k (op.run s).2) (op.run s).1

/-- An elementary step `x` ns of which are over: what is left of a delay or of a poll. -/
def MicroOp.after (x : Nat) : MicroOp → MicroOp
  | .delay d => .delay (d - x)
  | .pollAdvance d => .pollAdvance (d - x)
  | op => op

/-- A program `x` ns of whose next elementary step are over. -/
def Prog.after {α : Type} (x : Nat) : Prog α → Prog α
  | .done a => .done a
  | .act op k => .act (op.after x) k

/-! ### Line control and the clock-high wait -/

/-- The outcome of a clock-high wait (41_bus_primitives.md R113). -/
inductive Wait where
  | ok
  | timeout
  deriving DecidableEq, Repr

/-- The code of a wait's outcome (00_scope.md R8). -/
def Wait.code : Wait → Code
  | .ok => .ok
  | .timeout => .timeout

/-- `SetLine(L, asInput)` (41_bus_primitives.md R110): release, or write the latch and then the direction. -/
def setLine (l : Line) (asInput : Bool) : Prog Bool :=
  match asInput with
  | true => perform (.dir l .input)
  | false => (perform (.lowLatch l)).andThen (perform (.dir l .output))

/-- The loop of `WaitClockHigh()` (R113): sample; a high sample wins; count; the ceiling; the deadline; poll. The
deadline ends it within `tWaitNs + 2` samples, since each poll takes at least 1 ns (R114, R118), so the count only
serves Lean (log 19). -/
def waitLoop (p : Params) : Nat → Prog Wait
  | 0 => .done .timeout
  | n + 1 =>
    (perform (.sample .scl)).bind fun high =>
      match high with
      | true => (perform (.delay p.tBitNs)).andThen (.done .ok)
      | false =>
        (perform .countPoll).andThen <|
        (perform (.ceilingReached p.nPrecise)).bind fun ceiling =>
          match ceiling with
          | true => .done .timeout
          | false =>
            (perform .deadlinePassed).bind fun late =>
              match late with
              | true => .done .timeout
              | false => (perform (.pollAdvance p.tPollNs)).andThen (waitLoop p n)

/-- `WaitClockHigh()` (R113): release SCL, note the time, wait for SCL to read high. -/
def waitClockHigh (p : Params) : Prog Wait :=
  (setLine .scl true).andThen <| (perform .startWait).andThen (waitLoop p (tWaitNs + 2))

/-! ### Commands -/

/-- The end of every command: the code is written and BUSY goes back to 0 (10_state.md R33, R36, 60_exceptions.md
R250). It records no event. DESIGN CHOICE (log 33): 30_encoding.md R89 speaks of "no event other than the completion", but
00_scope.md R9, which lists the events, names none for a completion. -/
def finish (c : Code) : Prog Bool := (perform (.code c)).andThen (perform .idle)

/-- A command word that names no command (30_encoding.md R89): CODE = ILLEGAL and nothing else. -/
def illegalCommand : Prog Bool := finish .illegal

/-- Runs a whole command: BUSY is 1 from its acceptance to its end (10_state.md R36). -/
def runCommand (c : Prog Bool) (s : State) : State := (c.run (s.setBusy true)).1

/-! ### Reset -/

/-- The events a reset gives a line: its direction and latch, where they change (00_scope.md R9; log 10). -/
def resetEvents (s : State) (l : Line) : List Event :=
  (if (s.pin l).latch then [.latch l false s.now] else [])
    ++ (if (s.pin l).dir = .output then [.dir l .released s.now] else [])

/-- A reset of the block (70_reset_and_hazards.md R280, R281): every piece of TKBT state takes its reset value. The
Peer (R282), the Host, FAULT_CONTEND (10_state.md R26) and the history stay, and `now` goes on (R30; log 7). -/
def State.blockReset (s : State) : State :=
  let t := s.pass 0
  { State.reset with
    now := t.now
    faultContend := t.faultContend
    peer := t.peer
    history := (if t.irqOff then [.irq false t.now] else []) ++ resetEvents t .int ++ resetEvents t .sda
      ++ resetEvents t .scl ++ t.history
    host := t.host
    draws := t.draws
    drawn := t.drawn }

end Sys2Proof.Machine
end

