-- ==== Sys2Proof/Machine/BusPrimitives.lean ====
section
/-!
DEFINITION. SETLINE, GETLINE, WAITCLK, GDIR, GSET and GGET (41_bus_primitives.md). Each command is a program of
elementary steps; its meaning runs the program to its end.
-/

namespace Sys2Proof.Machine

/-- SETLINE (R111). LINE = INT gives ILLEGAL (R111, 30_encoding.md R89). -/
def setlineCommand (line : Line) (asInput : Bool) : Prog Bool :=
  if lineAccepted line then (setLine line asInput).andThen (finish .ok) else illegalCommand

/-- GETLINE (R112). LINE = INT gives ILLEGAL. -/
def getlineCommand (line : Line) : Prog Bool :=
  if lineAccepted line then
    (perform (.sample line)).bind fun v => (perform (.lvl v)).andThen (finish .ok)
  else illegalCommand

/-- WAITCLK (R117). -/
def waitclkCommand (p : Params) : Prog Bool := (waitClockHigh p).bind fun r => finish r.code

/-- GDIR (R120): the direction alone; the latch is not written. -/
def gdirCommand (line : Line) (asInput : Bool) : Prog Bool :=
  (perform (.dir line (if asInput then .input else .output))).andThen (finish .ok)

/-- GSET (R122): the latch alone. -/
def gsetCommand (line : Line) (level : Bool) : Prog Bool := (perform (.latch line level)).andThen (finish .ok)

/-- GGET (R124). -/
def ggetCommand (line : Line) : Prog Bool :=
  (perform (.sample line)).bind fun v => (perform (.lvl v)).andThen (finish .ok)

/-- SETLINE. -/
def execSetline (line : Line) (asInput : Bool) (s : State) : Host.Outcome State Fault Refusal :=
  .next (runCommand (setlineCommand line asInput) s)

/-- GETLINE. -/
def execGetline (line : Line) (s : State) : Host.Outcome State Fault Refusal :=
  .next (runCommand (getlineCommand line) s)

/-- WAITCLK. -/
def execWaitclk (s : State) : Host.Outcome State Fault Refusal := .next (runCommand (waitclkCommand Config.params) s)

/-- GDIR. -/
def execGdir (line : Line) (asInput : Bool) (s : State) : Host.Outcome State Fault Refusal :=
  .next (runCommand (gdirCommand line asInput) s)

/-- GSET. -/
def execGset (line : Line) (level : Bool) (s : State) : Host.Outcome State Fault Refusal :=
  .next (runCommand (gsetCommand line level) s)

/-- GGET. -/
def execGget (line : Line) (s : State) : Host.Outcome State Fault Refusal := .next (runCommand (ggetCommand line) s)

end Sys2Proof.Machine
end

