-- ==== Sys2Proof/Machine/DelayUnit.lean ====
section
/-!
DEFINITION. DELAY.BIT, DELAY.HALF, DELAY.US and DELAY.MS (42_delay_unit.md).
-/

namespace Sys2Proof.Machine

/-- `Delay(d)`, then the end of the command (R140). -/
def delayCommand (d : Nat) : Prog Bool := (perform (.delay d)).andThen (finish .ok)

/-- DELAY.BIT (R141). -/
def delayBitCommand (p : Params) : Prog Bool := delayCommand p.tBitNs

/-- DELAY.HALF (R142). -/
def delayHalfCommand (p : Params) : Prog Bool := delayCommand p.tHalfNs

/-- DELAY.US (R143). -/
def delayUsCommand (imm : BitVec 16) : Prog Bool := delayCommand (usToNs imm)

/-- DELAY.MS (R144). -/
def delayMsCommand (imm : BitVec 16) : Prog Bool := delayCommand (msToNs imm)

/-- DELAY.BIT. -/
def execDelayBit (s : State) : Host.Outcome State Fault Refusal := .next (runCommand (delayBitCommand Config.params) s)

/-- DELAY.HALF. -/
def execDelayHalf (s : State) : Host.Outcome State Fault Refusal := .next (runCommand (delayHalfCommand Config.params) s)

/-- DELAY.US. -/
def execDelayUs (imm : BitVec 16) (s : State) : Host.Outcome State Fault Refusal :=
  .next (runCommand (delayUsCommand imm) s)

/-- DELAY.MS. -/
def execDelayMs (imm : BitVec 16) (s : State) : Host.Outcome State Fault Refusal :=
  .next (runCommand (delayMsCommand imm) s)

end Sys2Proof.Machine
end

