-- ==== Sys2Proof/Machine/ModeEntry.lean ====
section
/-!
DEFINITION. MODEENTRY (44_mode_entry.md): the mode-entry pulse train.
-/

namespace Sys2Proof.Machine

/-- The hold after a pattern bit: 30 µs after the bit at position `MODE_EXTRA_INDEX`, nothing after the others
(R200). -/
def modeExtra (i : Nat) : Prog Bool := if i = modeExtraIndex then perform (.delay tModeExtraNs) else .done false

/-- The pattern bits of `ModeEntry()` (R200), from bit `n - 1` down to bit 0: clock to the bit's value, 3 µs, data low
10 µs, data released 10 µs. Nothing is sampled (R206). -/
def modeEntryBits : Nat → Prog Bool
  | 0 => .done false
  | i + 1 =>
    (perform (.bitIdx i)).andThen <|
    (setLine .scl (modeBit i)).andThen <|
    (perform (.delay tModeClkNs)).andThen <|
    (setLine .sda false).andThen <|
    (perform (.delay tModePulseNs)).andThen <|
    (setLine .sda true).andThen <|
    (perform (.delay tModePulseNs)).andThen <|
    (modeExtra i).andThen (modeEntryBits i)

/-- `ModeEntry()` (R200): the pattern, then one clock raise under the iteration-bounded policy (R201), with IRQ_OFF = 1
throughout (R202). -/
def modeEntry (p : Params) : Prog Wait :=
  (perform (.irqOff true)).andThen <|
  (modeEntryBits modeBits).andThen <|
  (perform (.precise true)).andThen <|
  (waitClockHigh p).bind fun r =>
    (perform (.precise false)).andThen <| (perform (.irqOff false)).andThen (.done r)

/-- MODEENTRY (R203). -/
def modeentryCommand (p : Params) : Prog Bool := (modeEntry p).bind fun r => finish r.code

/-- MODEENTRY. -/
def execModeentry (s : State) : Host.Outcome State Fault Refusal :=
  .next (runCommand (modeentryCommand Config.params) s)

end Sys2Proof.Machine
end

