-- ==== Sys2Proof/Machine/Transport.lean ====
section
/-!
DEFINITION. START, STOP, SEND and RECV (43_transport.md), and the internal primitives they share with the register
access commands.
-/

namespace Sys2Proof.Machine

/-- What `SendByte` returns (R170): the acknowledge it sampled, or a timeout. -/
inductive Sent where
  | acked (acknowledged : Bool)
  | timeout
  deriving DecidableEq, Repr

/-- `FrameStart()` (R160): data low, then clock low, no delay between. -/
def frameStart : Prog Bool := (setLine .sda false).andThen (setLine .scl false)

/-- `FrameStop()` (R162): data low, clock high, then release data; on a timeout data stays low. -/
def frameStop (p : Params) : Prog Wait :=
  (setLine .sda false).andThen <|
  (waitClockHigh p).bind fun r =>
    match r with
    | .timeout => .done .timeout
    | .ok => (setLine .sda true).andThen (.done .ok)

/-- The hold after a bit: a half period after the last bit, else a bit period (R170, R180). -/
def bitHold (p : Params) (i : Nat) : Nat := if i = 0 then p.tHalfNs else p.tBitNs

/-- The data bits of `SendByte(v)` (R170), from bit `n - 1` down to bit 0. -/
def sendBits (p : Params) (v : Byte) : Nat → Prog Wait
  | 0 => .done .ok
  | i + 1 =>
    (perform (.bitIdx i)).andThen <|
    (setLine .sda (byteBit v i)).andThen <|
    (waitClockHigh p).bind fun r =>
      match r with
      | .timeout => .done .timeout
      | .ok =>
        (setLine .scl false).andThen <|
        (perform (.delay (bitHold p i))).andThen (sendBits p v i)

/-- `SendByte(v)` (R170): eight bits, then the ninth clock and the acknowledge sample; low is acknowledged. -/
def sendByte (p : Params) (v : Byte) : Prog Sent :=
  (sendBits p v 8).bind fun r =>
    match r with
    | .timeout => .done .timeout
    | .ok =>
      (setLine .sda true).andThen <|
      (waitClockHigh p).bind fun r =>
        match r with
        | .timeout => .done .timeout
        | .ok => (perform (.sample .sda)).bind fun level => .done (.acked (!level))

/-- The bits of `RecvByte()` (R180), from bit `n - 1` down to bit 0; each is shifted into ACC. -/
def recvBits (p : Params) : Nat → Prog Wait
  | 0 => .done .ok
  | i + 1 =>
    (perform (.bitIdx i)).andThen <|
    (waitClockHigh p).bind fun r =>
      match r with
      | .timeout => .done .timeout
      | .ok =>
        (perform (.sample .sda)).bind fun level =>
          (perform (.shiftAcc level)).andThen <|
          (setLine .scl false).andThen <|
          (perform (.delay (bitHold p i))).andThen (recvBits p i)

/-- `RecvByte()` (R180): data is released once, then eight bits go into ACC, which holds the byte on `ok`. -/
def recvByte (p : Params) : Prog Wait := (setLine .sda true).andThen (recvBits p 8)

/-- START (R161). -/
def startCommand : Prog Bool := frameStart.andThen (finish .ok)

/-- STOP (R163). -/
def stopCommand (p : Params) : Prog Bool := (frameStop p).bind fun r => finish r.code

/-- SEND (R171): a refused acknowledge is ACK = 0 with CODE = OK. -/
def sendCommand (p : Params) (v : Byte) : Prog Bool :=
  (sendByte p v).bind fun r =>
    match r with
    | .timeout => finish .timeout
    | .acked a => (perform (.ack a)).andThen (finish .ok)

/-- RECV (R181): DATA is written only when the byte is complete. -/
def recvCommand (p : Params) : Prog Bool :=
  (recvByte p).bind fun r =>
    match r with
    | .timeout => finish .timeout
    | .ok => (perform .data).andThen (finish .ok)

/-- START. -/
def execStart (s : State) : Host.Outcome State Fault Refusal := .next (runCommand startCommand s)

/-- STOP. -/
def execStop (s : State) : Host.Outcome State Fault Refusal := .next (runCommand (stopCommand Config.params) s)

/-- SEND. -/
def execSend (value : Byte) (s : State) : Host.Outcome State Fault Refusal :=
  .next (runCommand (sendCommand Config.params value) s)

/-- RECV. -/
def execRecv (s : State) : Host.Outcome State Fault Refusal := .next (runCommand (recvCommand Config.params) s)

end Sys2Proof.Machine
end

