-- ==== Sys2Proof/Machine/RegisterAccess.lean ====
section
/-!
DEFINITION. MSEND and MRECV (45_register_access.md): register write and read with the retry budget of three attempts.
-/

namespace Sys2Proof.Machine

/-- The code of a failed last attempt: TIMEOUT if it timed out, else NAK (R220, R223). -/
def failCode : Sent → Code
  | .timeout => .timeout
  | .acked _ => .nak

/-- The end of the last attempt (R220, R230): ATTEMPTS is written, no stop is sent (R224). -/
def giveUp (r : Sent) : Prog Code := (perform .attempts).andThen (.done (failCode r))

/-- One attempt of `MasterSend(a, v)` (R220): frame start, address byte, value byte, stop. `onFail` is what follows a
refused or timed-out byte; a timed-out stop is not retried (R225). -/
def writeAttempt (p : Params) (a v : Byte) (onFail : Sent → Prog Code) : Prog Code :=
  (perform .incAtt).andThen <|
  frameStart.andThen <|
  (sendByte p a).bind fun r =>
    match r with
    | .acked true =>
      (sendByte p v).bind fun r =>
        match r with
        | .acked true => (frameStop p).bind fun st => (perform .attempts).andThen (.done st.code)
        | .acked false => onFail (.acked false)
        | .timeout => onFail .timeout
    | .acked false => onFail (.acked false)
    | .timeout => onFail .timeout

/-- The attempts of `MasterSend` (R220) with `retries` left after this one; no stop between them (R224). -/
def writeAttempts (p : Params) (a v : Byte) : Nat → Prog Code
  | 0 => writeAttempt p a v giveUp
  | retries + 1 => writeAttempt p a v fun _ => writeAttempts p a v retries

/-- `MasterSend(a, v)` (R220): at most `1 + BUS_RETRIES` attempts, one budget for both bytes (R222). -/
def masterSend (p : Params) (a v : Byte) : Prog Code := (perform .clearAtt).andThen (writeAttempts p a v busRetries)

/-- After an acknowledged address (R230): receive, write DATA, stop. A receive timeout ends it, no stop sent (R232); a
stop timeout leaves DATA written (R233). -/
def readBack (p : Params) : Prog Code :=
  (perform .attempts).andThen <|
  (recvByte p).bind fun d =>
    match d with
    | .timeout => .done .timeout
    | .ok => (perform .data).andThen <| (frameStop p).bind fun st => .done st.code

/-- One attempt of `MasterRecv(a)` (R230): frame start and address byte. -/
def readAttempt (p : Params) (a : Byte) (onFail : Sent → Prog Code) : Prog Code :=
  (perform .incAtt).andThen <|
  frameStart.andThen <|
  (sendByte p a).bind fun r =>
    match r with
    | .acked true => readBack p
    | .acked false => onFail (.acked false)
    | .timeout => onFail .timeout

/-- The attempts of `MasterRecv` (R230) with `retries` left after this one. -/
def readAttempts (p : Params) (a : Byte) : Nat → Prog Code
  | 0 => readAttempt p a giveUp
  | retries + 1 => readAttempt p a fun _ => readAttempts p a retries

/-- `MasterRecv(a)` (R230). No device address and no read/write bit is sent (R234). -/
def masterRecv (p : Params) (a : Byte) : Prog Code := (perform .clearAtt).andThen (readAttempts p a busRetries)

/-- MSEND (R221). -/
def msendCommand (p : Params) (a v : Byte) : Prog Bool := (masterSend p a v).bind finish

/-- MRECV (R231). -/
def mrecvCommand (p : Params) (a : Byte) : Prog Bool := (masterRecv p a).bind finish

/-- MSEND. -/
def execMsend (addr value : Byte) (s : State) : Host.Outcome State Fault Refusal :=
  .next (runCommand (msendCommand Config.params addr value) s)

/-- MRECV. -/
def execMrecv (addr : Byte) (s : State) : Host.Outcome State Fault Refusal :=
  .next (runCommand (mrecvCommand Config.params addr) s)

end Sys2Proof.Machine
end

