-- ==== Sys2Proof/Machine/Commands.lean ====
section
/-!
DEFINITION. The program of each command by name, for the host moves that come during a command: `exec i` runs
`command i` to its end.
-/

namespace Sys2Proof.Machine

/-- The program of a command at the block's own parameters. -/
def command : Instr → Prog Bool
  | .setline line asInput => setlineCommand line asInput
  | .getline line => getlineCommand line
  | .waitclk => waitclkCommand Config.params
  | .gdir line asInput => gdirCommand line asInput
  | .gset line level => gsetCommand line level
  | .gget line => ggetCommand line
  | .delayBit => delayBitCommand Config.params
  | .delayHalf => delayHalfCommand Config.params
  | .delayUs imm => delayUsCommand imm
  | .delayMs imm => delayMsCommand imm
  | .start => startCommand
  | .stop => stopCommand Config.params
  | .send value => sendCommand Config.params value
  | .recv => recvCommand Config.params
  | .modeentry => modeentryCommand Config.params
  | .msend addr value => msendCommand Config.params addr value
  | .mrecv addr => mrecvCommand Config.params addr

end Sys2Proof.Machine
end

