-- ==== Sys2Proof/Machine/Dispatch.lean ====
section
/-! DEFINITION. `exec`: one arm for each command, each a direct call of its meaning. -/

namespace Sys2Proof.Machine

def exec (i : Instr) (s : State) : Host.Outcome State Fault Refusal :=
  match i with
  | .setline line asInput => Sys2Proof.Machine.execSetline line asInput s
  | .getline line => Sys2Proof.Machine.execGetline line s
  | .waitclk => Sys2Proof.Machine.execWaitclk s
  | .gdir line asInput => Sys2Proof.Machine.execGdir line asInput s
  | .gset line level => Sys2Proof.Machine.execGset line level s
  | .gget line => Sys2Proof.Machine.execGget line s
  | .delayBit => Sys2Proof.Machine.execDelayBit s
  | .delayHalf => Sys2Proof.Machine.execDelayHalf s
  | .delayUs imm => Sys2Proof.Machine.execDelayUs imm s
  | .delayMs imm => Sys2Proof.Machine.execDelayMs imm s
  | .start => Sys2Proof.Machine.execStart s
  | .stop => Sys2Proof.Machine.execStop s
  | .send value => Sys2Proof.Machine.execSend value s
  | .recv => Sys2Proof.Machine.execRecv s
  | .modeentry => Sys2Proof.Machine.execModeentry s
  | .msend addr value => Sys2Proof.Machine.execMsend addr value s
  | .mrecv addr => Sys2Proof.Machine.execMrecv addr s

end Sys2Proof.Machine
end

