-- ==== Sys2Proof/Machine/HostPort.lean ====
section
/-!
DEFINITION. The Host's side: the register window (10_state.md R31, R32, 20_memory.md R64, R67), a command word written to
CMD, moves between and during commands, and the lines of a host program (30_encoding.md R93). Machine/Step.lean only
calls `hostStep`.
-/

namespace Sys2Proof.Machine

/-- An outcome followed by an update of its next state. -/
def thenUpdate (f : State → State) : Host.Outcome State Fault Refusal → Host.Outcome State Fault Refusal
  | .next s => .next (f s)
  | .fault r => .fault r
  | .refused r => .refused r

/-- An outcome followed by a further outcome from its next state. -/
def thenOutcome (f : State → Host.Outcome State Fault Refusal) :
    Host.Outcome State Fault Refusal → Host.Outcome State Fault Refusal
  | .next s => f s
  | .fault r => .fault r
  | .refused r => .refused r

/-- The host continues at a line (30_encoding.md R93); a word given from outside is used up (log 11). -/
def State.goto (n : Nat) (s : State) : State := { s with host := { s.host with pos := n, given := none } }

/-- The host's position advances by one when a command or a host step completes (10_state.md R21). -/
def State.advance (s : State) : State := s.goto (s.host.pos + 1)

/-- The word the host's last read gave. -/
def State.hostRead (w : Word) (s : State) : State := { s with host := { s.host with lastRead := some w } }

/-- The word written to CMD (10_state.md R31). -/
def State.setCmd (w : Word) (s : State) : State := { s with cmd := w }

/-- A completed command word: the command it encodes, or the ILLEGAL completion (30_encoding.md R88, R89). -/
def execWord (w : Word) (s : State) : Host.Outcome State Fault Refusal :=
  match decode w with
  | .ok i => exec i s
  | .error _ => .next (runCommand illegalCommand s)

/-- The program of a command word. -/
def commandOfWord (w : Word) : Prog Bool :=
  match decode w with
  | .ok i => command i
  | .error _ => illegalCommand

/-- A host write of one word to CMD: accepted only while BUSY = 0 (10_state.md R31, R36). -/
def writeCmd (w : Word) (s : State) : Host.Outcome State Fault Refusal :=
  if s.res.busy then .refused .cmdWhileBusy else execWord w (s.setCmd w)

/-- A host read of RES (R32, R37, R38): it takes a draw, and changes nothing in the block. -/
def readRes (s : State) : State := (s.pass 0).hostRead (resWord s.nextDraw.res (s.pass 0))

/-- A host read of CMD returns 0 (R31). -/
def readCmd (s : State) : State := (s.pass 0).hostRead 0

/-- The host address of CMD (R31, 20_memory.md R67). -/
def cmdAddr : Nat := Config.blockBase

/-- The host address of RES (10_state.md R32). -/
def resAddr : Nat := Config.blockBase + 4

/-- The only defined access is one whole, aligned 32-bit word (20_memory.md R64). -/
def wholeWord (addr bytes : Nat) : Bool := bytes == 4 && addr % 4 == 0

/-- One move of the Host, at any instant. -/
def hostMove (m : HostMove) (s : State) : Host.Outcome State Fault Refusal :=
  match m with
  | .write addr bytes value =>
    if !wholeWord addr bytes then .refused .windowAccess
    else if addr = cmdAddr then writeCmd value s
    else if addr = resAddr then .next (s.pass 0)
    else .fault .outsideWindow
  | .read addr bytes =>
    if !wholeWord addr bytes then .refused .windowAccess
    else if addr = cmdAddr then .next (readCmd s)
    else if addr = resAddr then .next (readRes s)
    else .fault .outsideWindow
  | .reset => .next s.blockReset
  | .interrupt => if s.irqOff then .refused .interruptWhileOff else .next (s.pass 0)
  | .powerLoss => .fault .powerLoss

/-- What is left of a command after a move during it that took `x` ns: nothing after a reset (70_reset_and_hazards.md
R281), the rest of its steps after any other move, the Engine having gone on with its step meanwhile. -/
def leftAfter (m : HostMove) (x : Nat) (rest : Prog Bool) : Prog Bool :=
  match m with
  | .reset => .done false
  | _ => rest.after x

/-- A command, or what is left of it, with host moves while it runs, each after a number of further Engine steps: the
Engine, the Host, the Peer and Time take their steps in any order (00_scope.md R4, 10_state.md R37, R38, R281). -/
def runWithMoves : List (Nat × HostMove) → Prog Bool → State → Host.Outcome State Fault Refusal
  | [], c, s => .next (c.run s).1
  | (k, m) :: moves, c, s =>
    thenOutcome (fun u => runWithMoves moves (leftAfter m (u.now - (c.runFor k s).1.now) (c.runFor k s).2) u)
      (hostMove m (c.runFor k s).1)

/-- The state in which a command word is accepted: CMD holds it and BUSY is 1 (10_state.md R31, R36). -/
def State.accept (w : Word) (s : State) : State := (s.setCmd w).setBusy true

/-- A command word written to CMD, with host moves while the command runs. -/
def duringCommand (w : Word) (moves : List (Nat × HostMove)) (s : State) : Host.Outcome State Fault Refusal :=
  if s.res.busy then .refused .cmdWhileBusy else runWithMoves moves (commandOfWord w) (s.accept w)

/-- `HOST.IF` (30_encoding.md R93): "the host reads RES after BUSY = 0". -/
def hostIf (c : Cond) (target : Nat) (s : State) : Host.Outcome State Fault Refusal :=
  if s.res.busy then .refused .decisionWhileBusy
  else if Cond.holds (resWord s.nextDraw.res (s.pass 0)) c then .next ((readRes s).goto target)
  else .next (readRes s).advance

/-- One step of the Host at a line of its program. With no line left, or at `HOST.END`, the run is over (00_scope.md R10)
and only time and the Peer go on. -/
def hostStep (line : Option HostLine) (s : State) : Host.Outcome State Fault Refusal :=
  match line with
  | none => .next (s.pass 0)
  | some .hostEnd => .next (s.pass 0)
  | some (.cmd w) => thenUpdate State.advance (writeCmd w s)
  | some (.during w moves) => thenUpdate State.advance (duringCommand w moves s)
  | some (.move m) => thenUpdate State.advance (hostMove m s)
  | some (.ifGoto c target) => hostIf c target s
  | some (.power _) => .next (s.pass 0).advance

/-- The line the host is at in a program (10_state.md R21), or the write of a word given from outside. -/
def State.lineOf (program : List HostLine) (s : State) : Option HostLine :=
  match s.host.given with
  | some w => some (.cmd w)
  | none => program[s.host.pos]?

/-- One step of the machine in a run of a host program: the Host takes the line it is at (R21), and a command it issues runs to its
end (R36). The program is the parameter of the run (00_scope.md R4). -/
def stepOf (program : List HostLine) (s : State) : Host.Outcome State Fault Refusal := hostStep (s.lineOf program) s

/-- A command word given to the Host from outside: it writes it at its next step, in place of the line it is at (log 11). -/
def State.give (w : Word) (s : State) : State := { s with host := { s.host with given := some w } }

end Sys2Proof.Machine
end

