-- ==== Sys2Proof/Machine/Step.lean ====
section
/-!
DEFINITION. One step of the machine: the Host takes the line it is at, and a command it issues runs to its end
(10_state.md R21, R36, 20_memory.md R68). TKBT fetches nothing (R71): the word comes from the Host.
-/

namespace Sys2Proof.Machine

/-- One step (three outcomes: next, fault, refusal), in the run of the program `Config.hostProgram` (00_scope.md R4). -/
def step (s : State) : Host.Outcome State Fault Refusal := stepOf Config.hostProgram s

/-- `s` with the word `w` (its low `nbits` bits) given to the Host as the next it writes to CMD, and the Engine idle so that the
write is accepted (10_state.md R36; log 11). -/
def State.withFetchWord (s : State) (nbits w : Nat) : State := (s.give (BitVec.ofNat 32 (w % 2 ^ nbits))).setBusy false

end Sys2Proof.Machine
end

