-- ==== Sys2Proof/Machine/Assembler.lean ====
section
/-!
DEFINITION. The assembler (30_encoding.md R91) and the pseudo-instructions with their exact expansions (R92), from
operands already read as names and numbers. An operand out of range is an assembly error (R91): `none`.
-/

namespace Sys2Proof.Machine

/-- The lines of the assembler: R91's syntax, then R92's pseudo-instructions. -/
inductive Asm where
  | setline (l : Line) (input : Bool)
  | getline (l : Line)
  | waitclk
  | gdir (l : Line) (input : Bool)
  | gset (l : Line) (v : Nat)
  | gget (l : Line)
  | delayBit
  | delayHalf
  | delayUs (n : Nat)
  | delayMs (n : Nat)
  | start
  | stop
  | send (b : Nat)
  | recv
  | modeentry
  | msend (a b : Nat)
  | mrecv (a : Nat)
  | release (l : Line)
  | low (l : Line)
  | idle
  | wreg1 (a b : Nat)
  | rreg1 (a : Nat)
  deriving DecidableEq, Repr

/-- A value, if the condition holds. -/
def whenOk {α : Type} (ok : Bool) (x : α) : Option α := if ok then some x else none

/-- A byte operand: 0 to 255 (R91). -/
def byteOperand (n : Nat) : Option Byte := whenOk (decide (n < 256)) (BitVec.ofNat 8 n)

/-- A count operand: 0 to 65535 (R91). -/
def countOperand (n : Nat) : Option (BitVec 16) := whenOk (decide (n < 65536)) (BitVec.ofNat 16 n)

/-- The commands a line stands for (R91, R92). -/
def assemble : Asm → Option (List Instr)
  | .setline l input => whenOk l.onBus [.setline l input]
  | .getline l => whenOk l.onBus [.getline l]
  | .waitclk => some [.waitclk]
  | .gdir l input => some [.gdir l input]
  | .gset l v => whenOk (decide (v < 2)) [.gset l (v == 1)]
  | .gget l => some [.gget l]
  | .delayBit => some [.delayBit]
  | .delayHalf => some [.delayHalf]
  | .delayUs n => (countOperand n).map fun c => [.delayUs c]
  | .delayMs n => (countOperand n).map fun c => [.delayMs c]
  | .start => some [.start]
  | .stop => some [.stop]
  | .send b => (byteOperand b).map fun b => [.send b]
  | .recv => some [.recv]
  | .modeentry => some [.modeentry]
  | .msend a b => (byteOperand a).bind fun a => (byteOperand b).map fun b => [.msend a b]
  | .mrecv a => (byteOperand a).map fun a => [.mrecv a]
  | .release l => whenOk l.onBus [.setline l true]
  | .low l => whenOk l.onBus [.setline l false]
  | .idle => some [.setline .sda true, .setline .scl true]
  | .wreg1 a b => (byteOperand a).bind fun a => (byteOperand b).map fun b => [.start, .send a, .send b, .stop]
  | .rreg1 a => (byteOperand a).map fun a => [.start, .send a, .recv, .stop]

/-- The words of a line. -/
def assembleWords (a : Asm) : Option (List Word) := (assemble a).map fun is => is.map encode

end Sys2Proof.Machine
end

