-- ==== Sys2Proof/Machine/HostPrograms.lean ====
section
/-!
DEFINITION. Host programs the spec gives: the device reset sequence (70_reset_and_hazards.md R286) and the Peer protocol
constants as commands (20_memory.md R66; 95_test_vectors.md L1.7). They are data of the Host, not of the Engine.
-/

namespace Sys2Proof.Machine

/-- A command as a line of a host program. -/
def commandLine (i : Instr) : HostLine := .cmd (encode i)

/-- DELAY.MS lines that wait at least `ns` nanoseconds, each count at most 65535 (42_delay_unit.md R144). -/
def delayLines (ns : Nat) : List HostLine :=
  List.replicate ((ns + 999999) / 1000000 / 65535) (commandLine (.delayMs 65535#16))
    ++ [commandLine (.delayMs (BitVec.ofNat 16 ((ns + 999999) / 1000000 % 65535)))]

/-- The device reset sequence, steps 1 to 9 of R286 in the source's order; `commonSet` is the caller's, since its registers
and values are not in source (93_implementation_defined.md I25). -/
def deviceReset (commonSet : List (Byte × Byte)) : List HostLine :=
  [.power false,
    commandLine (.setline .scl false), commandLine (.setline .sda false),
    commandLine (.gset .int false), commandLine (.gdir .int false)]
    ++ delayLines Config.tPwrOnNs
    ++ [commandLine (.setline .scl true), commandLine (.setline .sda true), commandLine (.gdir .int true), .power true]
    ++ delayLines Config.tSettleNs
    ++ [commandLine .modeentry]
    ++ commonSet.map fun rv => commandLine (.msend rv.1 rv.2)

/-- "register 0xc0 value 0x14" (R66): the erase trigger, and the generic trigger of program and verify (R293). -/
def trigger : Instr := .msend 0xC0#8 0x14#8

/-- "0xc0(0x80)" (R66): the end of an address selection. -/
def addressSelected : Instr := .msend 0xC0#8 0x80#8

/-- "0xc0(0x08) to advance address" (R66). -/
def advanceAddress : Instr := .msend 0xC0#8 0x08#8

/-- "reads register 0xc1" (R66): the status poll. -/
def statusPoll : Instr := .mrecv 0xC1#8

/-- "expecting terminal value 0x12" (R66). -/
def statusDone : Byte := 0x12#8

/-- Address selection for an erase: 0xc2, 0xc4, 0xc6, then 0xc0(0x80) (R66); the values are not in source
(91_not_in_source.md N13). -/
def eraseSelect (v2 v4 v6 : Byte) : List Instr :=
  [.msend 0xC2#8 v2, .msend 0xC4#8 v4, .msend 0xC6#8 v6, addressSelected]

/-- Program staging (R66): 0xc2, 0xc4, 0xc0(0x80), then 0xc0(0x14), 0xc0(0x08), in that order (R293). -/
def programStaging (v2 v4 : Byte) : List Instr :=
  [.msend 0xC2#8 v2, .msend 0xC4#8 v4, addressSelected, trigger, advanceAddress]

/-- Verify read (R66): 0xc0(0x14), 0xc0(0x08), then register 0xd9. -/
def verifyRead : List Instr := [trigger, advanceAddress, .mrecv 0xD9#8]

end Sys2Proof.Machine
end

