-- ==== Sys2Proof/Safety.lean ====
section
/-!
DEFINITION. The terms claims are stated in: what a safe state is, how a frame is written, and how the event history is
read as a waveform (00_scope.md R9).
-/

namespace Sys2Proof.Machine

/-! ### States -/

/-- Between commands (10_state.md R28, R29, R36): BUSY, PRECISE and IRQ_OFF are 0, and ATTEMPTS, once written, is 1 to 3
(R40). -/
structure State.Idle (s : State) : Prop where
  busy : s.res.busy = false
  precise : s.precise = false
  irqOff : s.irqOff = false
  attempts : s.res.attempts.written = true → s.res.attempts.value ≠ 0#2

/-- Neither bus latch holds 1, so no bus line can be driven high (41_bus_primitives.md R110, R121). -/
def State.OpenDrain (s : State) : Prop := s.scl.latch = false ∧ s.sda.latch = false

/-- Both bus lines are released (00_scope.md glossary). -/
def State.BusReleased (s : State) : Prop := s.scl.dir = .input ∧ s.sda.dir = .input

/-- A safe run, as a claim takes it for a premise: no contention so far (10_state.md R26). -/
def State.NoContention (s : State) : Prop := s.faultContend = false

/-! ### Frames -/

/-- `s` after time and the Peer went on as in `t`: the only changes of a step that does nothing itself. -/
def State.withEnv (s t : State) : State :=
  { s with now := t.now, peer := t.peer, draws := t.draws, drawn := t.drawn }

/-- `s` with CODE `c` and BUSY = 0: what the end of every command writes (10_state.md R33, R36). -/
def State.ended (s : State) (c : Code) : State := { s with res := { s.res with code := c, busy := false } }

/-! ### Events and waveforms -/

/-- The time of an event (00_scope.md R9). -/
def Event.time : Event → Nat
  | .dir _ _ t => t
  | .latch _ _ t => t
  | .sample _ _ t => t
  | .irq _ t => t
  | .contend _ t => t

/-- The history's times never decrease and none is later than now (20_memory.md R68). The history is newest first. -/
def State.HistoryOrdered (s : State) : Prop :=
  s.history.Pairwise (fun newer older => older.time ≤ newer.time) ∧ ∀ e ∈ s.history, e.time ≤ s.now

/-- The levels the events sampled on a line, in the order given. -/
def sampledLevels (l : Line) : List Event → List Bool
  | [] => []
  | .sample l' v _ :: es => if l' = l then v :: sampledLevels l es else sampledLevels l es
  | _ :: es => sampledLevels l es

/-- The Engine's drive of SDA at each high sample of SCL, in the order of the events; `d` is its drive before them. It is
what the Engine shows on the data line at each clock. -/
def driveAtClocks (d : Drive) : List Event → List Drive
  | [] => []
  | .dir .sda d' _ :: es => driveAtClocks d' es
  | .sample .scl true _ :: es => d :: driveAtClocks d es
  | _ :: es => driveAtClocks d es

/-- The direction changes among the events, without their times. -/
def dirChanges : List Event → List (Line × Drive)
  | [] => []
  | .dir l d _ :: es => (l, d) :: dirChanges es
  | _ :: es => dirChanges es

/-- The times of the direction changes, in the order given. -/
def dirTimes : List Event → List Nat
  | [] => []
  | .dir _ _ x :: es => x :: dirTimes es
  | _ :: es => dirTimes es

/-- The first time is at least the first gap after `start`, and each further one at least its gap after the one before it. There is a
gap for every time. -/
def Spaced (start : Nat) : List Nat → List Nat → Prop
  | _, [] => True
  | [], _ :: _ => False
  | gap :: gaps, x :: xs => start + gap ≤ x ∧ Spaced x gaps xs

/-- The times of the direction changes of SCL, in the order given. -/
def sclTimes : List Event → List Nat
  | [] => []
  | .dir .scl _ x :: es => x :: sclTimes es
  | _ :: es => sclTimes es

/-- A write to a line's direction or latch, as the events name it. -/
inductive LineWrite where
  | dir (line : Line) (drive : Drive)
  | latch (line : Line) (level : Bool)
  deriving DecidableEq, Repr

/-- The direction and latch writes among the events, without their times. -/
def lineWrites : List Event → List LineWrite
  | [] => []
  | .dir l d _ :: es => .dir l d :: lineWrites es
  | .latch l v _ :: es => .latch l v :: lineWrites es
  | _ :: es => lineWrites es

/-- The latch write that goes before a drive low: it is recorded when the latch was 1 (41_bus_primitives.md R110). -/
def latchLowered (l : Line) (latch : Bool) : List LineWrite := if latch then [.latch l false] else []

/-- Direction changes together with the latch writes that SetLine makes in them (R110), from the latches of SCL and SDA before. -/
def withLatches (scl sda : Bool) : List (Line × Drive) → List LineWrite
  | [] => []
  | (.scl, .out0) :: cs => latchLowered .scl scl ++ .dir .scl .out0 :: withLatches false sda cs
  | (.sda, .out0) :: cs => latchLowered .sda sda ++ .dir .sda .out0 :: withLatches scl false cs
  | (l, d) :: cs => .dir l d :: withLatches scl sda cs

/-- No change of IRQ_OFF stands among the events. -/
def NoIrq (evs : List Event) : Prop := ∀ e ∈ evs, ∀ (b : Bool) (at_ : Nat), e ≠ .irq b at_

/-- No contention stands among the events. -/
def NoContend (evs : List Event) : Prop := ∀ e ∈ evs, ∀ (l : Line) (at_ : Nat), e ≠ .contend l at_

/-- From `s` to `t` the events write the lines by SetLine alone (41_bus_primitives.md R110): a latch is written, and the write
recorded, exactly when the line is driven low while its latch is 1, right before the direction. No other event stands among them but
samples. -/
structure LinesWritten (s t : State) (evs : List Event) : Prop where
  writes : lineWrites evs = withLatches s.scl.latch s.sda.latch (dirChanges evs)
  scl : t.scl.latch = (s.scl.latch && decide ((Line.scl, Drive.out0) ∉ dirChanges evs))
  sda : t.sda.latch = (s.sda.latch && decide ((Line.sda, Drive.out0) ∉ dirChanges evs))
  quiet : NoIrq evs
  clear : NoContend evs

/-- The drive SetLine gives for a bit: 1 is a release, 0 a drive low (41_bus_primitives.md R110). -/
def bitDrive (b : Bool) : Drive := if b then .released else .out0

/-- The drives of a byte's bits, most significant first (20_memory.md R62). -/
def byteDrives (v : Byte) : List Drive := [7, 6, 5, 4, 3, 2, 1, 0].map fun i => bitDrive (byteBit v i)

/-- How many high samples of SCL the events hold: the clocks that were seen. -/
def clocksSeen (evs : List Event) : Nat := ((sampledLevels .scl evs).filter id).length

/-! ### The waveforms of the transport

The direction changes a whole primitive makes, and readings of a command's events as bytes and attempts. A byte `b` that
timed out at clock `k` made the changes up to the release of SCL for that clock: three for each clock before it, and two. -/

/-- `FrameStart()` (43_transport.md R160). -/
def startChanges : List (Line × Drive) := [(.sda, .out0), (.scl, .out0)]

/-- `SendByte(b)` (R170): for each bit SDA to its value, SCL released, SCL driven low; then SDA and SCL released. -/
def sendChanges (b : Byte) : List (Line × Drive) :=
  (byteDrives b).flatMap (fun d => [(.sda, d), (.scl, .released), (.scl, .out0)]) ++ [(.sda, .released), (.scl, .released)]

/-- `RecvByte()` (R180): SDA released once, then for each bit SCL released and driven low. -/
def recvChanges : List (Line × Drive) :=
  (.sda, .released) :: (List.replicate 8 [(Line.scl, Drive.released), (Line.scl, Drive.out0)]).flatten

/-- `FrameStop()` (R162). -/
def stopChanges : List (Line × Drive) := [(.sda, .out0), (.scl, .released), (.sda, .released)]

/-! The least times between those changes, the first from the start of the primitive: a wait that succeeds lasts a bit period after
its high sample (41_bus_primitives.md R113), and the holds stand in the pseudocode. -/

/-- `SendByte` (43_transport.md R170): each clock falls a bit period after its rise, the next bit's data comes a bit period after that,
and the release for the acknowledge half a bit period after the last. -/
def sendGaps (p : Params) : List Nat :=
  [0, 0, p.tBitNs] ++ (List.replicate 7 [p.tBitNs, 0, p.tBitNs]).flatten ++ [p.tHalfNs, 0]

/-- `RecvByte` (R180): each clock falls a bit period after its rise, and the next rises a bit period after that. -/
def recvGaps (p : Params) : List Nat := [0, 0, p.tBitNs] ++ (List.replicate 7 [p.tBitNs, p.tBitNs]).flatten

/-- `ModeEntry` (44_mode_entry.md R200, R204): in each bit 3 µs from SCL's change to SDA low, 10 µs low and 10 µs released before SCL's
next change, and 30 µs more after the bit at position 5, the tenth. -/
def modeGaps : List Nat :=
  [0, 3000, 10000] ++ (List.replicate 9 [10000, 3000, 10000]).flatten ++ [40000, 3000, 10000] ++
    (List.replicate 4 [10000, 3000, 10000]).flatten ++ [10000]

/-! Where the samples of SDA stand: each comes after the high sample of SCL of its clock, by a bit period at least. -/

/-- The events of a clock-high wait that saw no clock (41_bus_primitives.md R113): SCL is released and sampled low only. -/
def ClockMissed (evs : List Event) : Prop :=
  dirChanges evs = [(.scl, .released)] ∧ sampledLevels .sda evs = [] ∧ true ∉ sampledLevels .scl evs

/-- The events of a clock-high wait that saw the clock at time `high`: they end with that sample. -/
def ClockSeen (high : Nat) (evs : List Event) : Prop :=
  ∃ before, ClockMissed before ∧ evs = before ++ [.sample .scl true high]

/-- The events of a clock-high wait that timed out (41_bus_primitives.md R113, R115, R116): SCL was released before T0 and sampled low
only, once or more, all after T0; when the wait ends, before `ending`, the deadline is past, or PRECISE is 1 and `N_PRECISE` samples
were taken. -/
def WaitTimedOut (p : Params) (precise : Bool) (t0 ending : Nat) (evs : List Event) : Prop :=
  ClockMissed evs ∧ sampledLevels .scl evs ≠ [] ∧ (∀ x ∈ dirTimes evs, x ≤ t0) ∧
    (∀ l v x, Event.sample l v x ∈ evs → t0 ≤ x) ∧
    (t0 + tWaitNs < ending ∨ (precise = true ∧ p.nPrecise ≤ (sampledLevels .scl evs).length))

/-- The events of one bit received at a level (43_transport.md R180): the clock is seen, SDA is sampled at least a bit period later, and
then SCL is driven low. -/
def BitReceived (p : Params) (level : Bool) (evs : List Event) : Prop :=
  ∃ clock high x low, ClockSeen high clock ∧ high + p.tBitNs ≤ x ∧ evs = clock ++ .sample .sda level x :: low ∧
    dirChanges low = [(.scl, .out0)] ∧ ∀ l, sampledLevels l low = []

/-- The events of bits received, the first first: SDA is released, and then each bit follows the other. -/
def BitsReceived (p : Params) (bits : List Bool) (evs : List Event) : Prop :=
  ∃ first each, evs = first ++ List.flatten each ∧ dirChanges first = [(.sda, .released)] ∧ (∀ l, sampledLevels l first = []) ∧
    List.Forall₂ (BitReceived p) bits each

/-- The events of a receive that timed out after `bits`: the wait for the next clock timed out. -/
def ReceiveMissed (p : Params) (precise : Bool) (t0 ending : Nat) (bits : List Bool) (evs : List Event) : Prop :=
  ∃ got last, BitsReceived p bits got ∧ WaitTimedOut p precise t0 ending last ∧ evs = got ++ last

/-- The events end with the high sample of SCL and then, at least a bit period later, the sample of SDA that captures the acknowledge
(R172). -/
def AckCaptured (p : Params) (level : Bool) (evs : List Event) : Prop :=
  ∃ before high x, evs = before ++ [.sample .scl true high, .sample .sda level x] ∧ high + p.tBitNs ≤ x

/-- The events of a FrameStart: its changes and no sample of SDA. -/
def FrameStarted (evs : List Event) : Prop := dirChanges evs = startChanges ∧ sampledLevels .sda evs = []

/-- The events of a byte whose acknowledge was sampled at a level; low is acknowledged. -/
def ByteSent (p : Params) (b : Byte) (level : Bool) (evs : List Event) : Prop :=
  dirChanges evs = sendChanges b ∧ sampledLevels .sda evs = [level] ∧ clocksSeen evs = 9 ∧ AckCaptured p level evs

/-- The events of a byte whose wait for clock `k` timed out; that wait is the last of them. -/
def ByteTimedOut (p : Params) (precise : Bool) (t0 ending : Nat) (b : Byte) (k : Nat) (evs : List Event) : Prop :=
  1 ≤ k ∧ k ≤ 9 ∧ dirChanges evs = (sendChanges b).take (3 * k - 1) ∧ sampledLevels .sda evs = [] ∧ clocksSeen evs = k - 1 ∧
    ∃ before wait, evs = before ++ wait ∧ WaitTimedOut p precise t0 ending wait

/-- The SDA pin a byte that ended at clock `k` leaves (R175); a byte that reached its acknowledge ended at clock 9. -/
def SdaAfterByte (b : Byte) (k : Nat) (pin : Pin) : Prop :=
  if k = 9 ∨ byteBit b (8 - k) = true then pin.dir = .input else pin = { dir := .output, latch := false }

/-- An attempt of MSEND or MRECV that failed (45_register_access.md R220, R223): the byte that failed, its code NAK or TIMEOUT,
the clock it ended at, the time by which it had ended, and the attempt's events. -/
structure FailedTry where
  byte : Byte
  code : Code
  clock : Nat
  ended : Nat
  events : List Event
  deriving DecidableEq, Repr

/-- `evs` are the events of the byte that failed the attempt. -/
def FailedTry.FailedIn (p : Params) (precise : Bool) (f : FailedTry) (evs : List Event) : Prop :=
  (f.code = .nak ∧ f.clock = 9 ∧ ByteSent p f.byte true evs) ∨
    (f.code = .timeout ∧ ∃ t0, ByteTimedOut p precise t0 f.ended f.byte f.clock evs)

/-- A failed attempt of MSEND (R220, R222, R224): FrameStart, the address byte and, if that was acknowledged, the value byte; no
stop. -/
def WriteFailed (p : Params) (precise : Bool) (a v : Byte) (f : FailedTry) : Prop :=
  ∃ e0 e1, FrameStarted e0 ∧
    ((f.byte = a ∧ f.FailedIn p precise e1 ∧ f.events = e0 ++ e1) ∨
      ∃ e2, ByteSent p a false e1 ∧ f.byte = v ∧ f.FailedIn p precise e2 ∧ f.events = e0 ++ e1 ++ e2)

/-- A failed attempt of MRECV (R230): FrameStart and the address byte; no stop. -/
def ReadFailed (p : Params) (precise : Bool) (a : Byte) (f : FailedTry) : Prop :=
  ∃ e0 e1, FrameStarted e0 ∧ f.byte = a ∧ f.FailedIn p precise e1 ∧ f.events = e0 ++ e1

/-- Each failed attempt had ended before what follows it: the events of the later ones, those of the rest, and `now`. -/
def TriesInOrder (now : Nat) (rest : List Event) : List FailedTry → Prop
  | [] => True
  | f :: fs =>
    f.ended ≤ now ∧ (∀ e ∈ fs.flatMap FailedTry.events ++ rest, f.ended ≤ e.time) ∧ TriesInOrder now rest fs

/-- What the last of three failed attempts gives (R223, R224): its code and the lines as its byte left them. -/
def LastTry (fails : List FailedTry) (c : Code) (sda : Pin) : Prop :=
  ∃ f, fails.getLast? = some f ∧ c = f.code ∧ SdaAfterByte f.byte f.clock sda

/-- How a FrameStop ended (R162, R225, R233). SDA is driven low without a sample; then the clock is seen, and SDA is released at least a
bit period after its high sample, or the wait timed out, and SDA stays driven low. -/
def StopEnded (p : Params) (precise : Bool) (t0 ending : Nat) (c : Code) (sda : Pin) (evs : List Event) : Prop :=
  sampledLevels .sda evs = [] ∧ ∃ first wait, dirChanges first = [(.sda, .out0)] ∧ (∀ l, sampledLevels l first = []) ∧
    ((c = .ok ∧ dirChanges evs = stopChanges ∧ sda = { dir := .input, latch := false } ∧
        ∃ high x, ClockSeen high wait ∧ high + p.tBitNs ≤ x ∧ evs = first ++ wait ++ [.dir .sda .released x]) ∨
      (c = .timeout ∧ dirChanges evs = stopChanges.take 2 ∧ sda = { dir := .output, latch := false } ∧
        WaitTimedOut p precise t0 ending wait ∧ evs = first ++ wait))

/-! ### The wire -/

/-- The wire level of a line when nothing is in contention (10_state.md R24, R25). -/
def State.wire (s : State) (l : Line) : Bool := !((s.pin l).drivesLow || s.peerLow l)

/-- A start condition between two instants: SDA falls while SCL reads 1 (43_transport.md R190, from general knowledge). -/
def startCondition (s t : State) : Prop :=
  s.wire .scl = true ∧ t.wire .scl = true ∧ s.wire .sda = true ∧ t.wire .sda = false

/-- A stop condition between two instants: SDA rises while SCL reads 1 (R190, from general knowledge). -/
def stopCondition (s t : State) : Prop :=
  s.wire .scl = true ∧ t.wire .scl = true ∧ s.wire .sda = false ∧ t.wire .sda = true

/-! ### Inside a command -/

/-- The state reached, and what is left of a command, after host reads of RES during it: each after a number of further Engine steps,
the time it takes counting for the step in progress (log 12). -/
def afterReads : List Nat → Prog Bool → State → State × Prog Bool
  | [], c, s => (s, c)
  | k :: ks, c, s =>
    afterReads ks ((c.runFor k s).2.after ((readRes (c.runFor k s).1).now - (c.runFor k s).1.now)) (readRes (c.runFor k s).1)

/-- The state a command reaches after `k` of its elementary steps. -/
def State.within (s : State) (i : Instr) (k : Nat) : State := ((command i).runFor k (s.setBusy true)).1

end Sys2Proof.Machine
end

