-- ==== Sys2Proof/Certificates/Slice0/Obligations.lean ====
section
/-!
DEFINITION. The statements for the provers. Each is a rule of spec/ (or follows from several) about what a command or the
machine does. In a statement about a command, `evs` are the events it records, oldest first. A statement about a step holds in the
run of any host program, which is a parameter (00_scope.md R4): `step` is `stepOf Config.hostProgram`.
-/

open Sys2Proof Sys2Proof.Machine

/-! ### Encoding -/

/-- Every encodable command decodes from its own word (30_encoding.md R81 to R87). -/
def Obligations.EncodedCommandsDecode : Prop :=
  ∀ i : Instr, i.wellFormed = true → decode (encode i) = .ok i

/-- A decoded word is the encoding of the command it gives, so no two words name one command and no reserved bit is
ignored (R81 to R89). -/
def Obligations.DecodedWordsAreEncodings : Prop :=
  ∀ (w : Word) (i : Instr), decode w = .ok i → i.wellFormed = true ∧ encode i = w

/-- The decoder is R88's search of the opcode map: a word decodes to a command exactly when the command's row matches it,
a word that matches a row decodes, and no word matches two rows. -/
def Obligations.DecoderFollowsOpcodeMap : Prop :=
  (∀ (w : Word) (i : Instr), decode w = .ok i → ∃ r, opcodeRows[rowIndex i]? = some r ∧ r.hits w = true) ∧
  (∀ (w : Word) (k : Nat) (r : OpcodeRow), opcodeRows[k]? = some r → r.hits w = true →
    ∃ i, decode w = .ok i ∧ rowIndex i = k) ∧
  (∀ w : Word, (∀ r ∈ opcodeRows, r.hits w = false) ↔ ∃ why, decode w = .error why)

/-- A word is ILLEGAL exactly when R89's list says so, and an ILLEGAL word only writes CODE: BUSY ends at 0, time and the
Peer go on, and no other field, pin, latch, flag or event changes (R89). A step whose host line writes such a word to CMD does
that from the state with CMD written, and the host's position advances (10_state.md R21; that CMD holds the word is log 9). That the
completion records no event is the model's choice (log 33). -/
def Obligations.IllegalWordsOnlyWriteCode : Prop :=
  (∀ w : Word, (∃ why, decode w = .error why) ↔
    (opField w ∉ [0x01#8, 0x02#8, 0x03#8, 0x04#8, 0x05#8, 0x06#8, 0x10#8, 0x20#8, 0x21#8, 0x22#8, 0x23#8, 0x30#8, 0x40#8,
      0x41#8]) ∨
    (opField w ∈ [0x03#8, 0x20#8, 0x21#8, 0x23#8, 0x30#8] ∧ w.extractLsb' 0 24 ≠ 0#24) ∨
    (opField w ∈ [0x01#8, 0x02#8, 0x04#8, 0x05#8, 0x06#8] ∧ (w.extractLsb' 18 6 ≠ 0#6 ∨ w.extractLsb' 1 15 ≠ 0#15)) ∨
    (opField w ∈ [0x01#8, 0x02#8, 0x04#8, 0x05#8, 0x06#8] ∧ lineField w = 3#2) ∨
    (opField w ∈ [0x01#8, 0x02#8] ∧ lineField w = 2#2) ∨
    (opField w ∈ [0x02#8, 0x06#8] ∧ vField w = true) ∨
    (opField w = 0x10#8 ∧ (4#8 ≤ uField w ∨ (uField w < 2#8 ∧ immField w ≠ 0#16))) ∨
    (opField w = 0x22#8 ∧ (uField w ≠ 0#8 ∨ aField w ≠ 0#8)) ∨
    (opField w = 0x40#8 ∧ uField w ≠ 0#8) ∨
    (opField w = 0x41#8 ∧ (uField w ≠ 0#8 ∨ bField w ≠ 0#8))) ∧
  (∀ (w : Word) (why : Reject) (s : State), decode w = .error why →
    ∃ t, execWord w s = .next t ∧ t = (s.withEnv t).ended .illegal ∧ s.now ≤ t.now) ∧
  (∀ (program : List HostLine) (s : State) (w : Word) (why : Reject), s.lineOf program = some (.cmd w) → s.res.busy = false →
    decode w = .error why → ∃ t, stepOf program s = .next t.advance ∧ t = ((s.setCmd w).withEnv t).ended .illegal ∧ s.now ≤ t.now)

/-- A few words written out bit by bit decode to the commands R87 and R91 give them. -/
def Obligations.WrittenWordsDecode : Prop :=
  decode 0b00000001000000010000000000000001#32 = .ok (.setline .sda true) ∧
  decode 0b00000100000000100000000000000001#32 = .ok (.gdir .int true) ∧
  decode 0b00010000000000100000000001100100#32 = .ok (.delayUs 100#16) ∧
  decode 0b00100010000000000000000011000001#32 = .ok (.send 0xC1#8) ∧
  decode 0b00110000000000000000000000000000#32 = .ok .modeentry ∧
  decode 0b01000000000000001100001010000000#32 = .ok (.msend 0xC2#8 0x80#8) ∧
  decode 0b01000001000000001101100100000000#32 = .ok (.mrecv 0xD9#8) ∧
  decode 0b00100000000000000000000000000001#32 = .error .reservedBit

/-- The assembler (R91): the word of each syntax line, for every operand in range, and the exact words of each
pseudo-instruction (R92); an operand out of range, or INT where R91 and R92 admit only the bus lines, is an assembly error.
Every command a line stands for is encodable, so its word decodes to it. -/
def Obligations.AssembledCommandsDecode : Prop :=
  (∀ (a : Asm) (is : List Instr), assemble a = some is → ∀ i ∈ is, decode (encode i) = .ok i) ∧
  (∀ (l : Line) (n : Word), (l = .scl ∧ n = 0#32) ∨ (l = .sda ∧ n = 0x10000#32) ∨ (l = .int ∧ n = 0x20000#32) →
    assembleWords (.gdir l true) = some [0x04000001#32 + n] ∧ assembleWords (.gdir l false) = some [0x04000000#32 + n] ∧
    assembleWords (.gset l 1) = some [0x05000001#32 + n] ∧ assembleWords (.gset l 0) = some [0x05000000#32 + n] ∧
    assembleWords (.gget l) = some [0x06000000#32 + n] ∧
    (l ≠ .int → assembleWords (.setline l true) = some [0x01000001#32 + n] ∧
      assembleWords (.setline l false) = some [0x01000000#32 + n] ∧ assembleWords (.getline l) = some [0x02000000#32 + n] ∧
      assembleWords (.release l) = some [0x01000001#32 + n] ∧ assembleWords (.low l) = some [0x01000000#32 + n])) ∧
  assembleWords .waitclk = some [0x03000000#32] ∧ assembleWords .delayBit = some [0x10000000#32] ∧
  assembleWords .delayHalf = some [0x10010000#32] ∧ assembleWords .start = some [0x20000000#32] ∧
  assembleWords .stop = some [0x21000000#32] ∧ assembleWords .recv = some [0x23000000#32] ∧
  assembleWords .modeentry = some [0x30000000#32] ∧ assembleWords .idle = some [0x01010001#32, 0x01000001#32] ∧
  (∀ n < 65536, assembleWords (.delayUs n) = some [0x10020000#32 + BitVec.ofNat 32 n] ∧
    assembleWords (.delayMs n) = some [0x10030000#32 + BitVec.ofNat 32 n]) ∧
  (∀ a < 256, assembleWords (.send a) = some [0x22000000#32 + BitVec.ofNat 32 a] ∧
    assembleWords (.mrecv a) = some [0x41000000#32 + BitVec.ofNat 32 (a * 256)] ∧
    assembleWords (.rreg1 a) = some [0x20000000#32, 0x22000000#32 + BitVec.ofNat 32 a, 0x23000000#32, 0x21000000#32] ∧
    ∀ b < 256, assembleWords (.msend a b) = some [0x40000000#32 + BitVec.ofNat 32 (a * 256 + b)] ∧
      assembleWords (.wreg1 a b) =
        some [0x20000000#32, 0x22000000#32 + BitVec.ofNat 32 a, 0x22000000#32 + BitVec.ofNat 32 b, 0x21000000#32]) ∧
  (∀ b, assemble (.setline .int b) = none) ∧ assemble (.getline .int) = none ∧ assemble (.release .int) = none ∧
  assemble (.low .int) = none ∧ (∀ l n, 1 < n → assemble (.gset l n) = none) ∧
  (∀ n, 65535 < n → assemble (.delayUs n) = none ∧ assemble (.delayMs n) = none) ∧
  (∀ b, 255 < b → assemble (.send b) = none ∧ assemble (.mrecv b) = none ∧ assemble (.rreg1 b) = none ∧
    ∀ a, assemble (.msend a b) = none ∧ assemble (.msend b a) = none ∧ assemble (.wreg1 a b) = none ∧
      assemble (.wreg1 b a) = none)

/-! ### The step, reset and the Host's side -/

/-- When the host is at a line that writes a word to CMD, the Engine is idle and the word decodes, the step is `exec` of
the command at the state with CMD written, and then the host's position advances by one (10_state.md R21, R31, R36). The line is the
one the position indexes in the program, a parameter of the run (R21, 00_scope.md R4); that a word given from outside comes in its
place, and that `withFetchWord` gives one, are the model's choices (log 11). -/
def Obligations.StepRunsDecodedCommand : Prop :=
  (∀ (program : List HostLine) (s : State) (w : Word) (i : Instr), s.lineOf program = some (.cmd w) → s.res.busy = false →
    decode w = .ok i → stepOf program s = thenUpdate State.advance (exec i (s.setCmd w))) ∧
  (∀ s : State, step s = stepOf Config.hostProgram s) ∧
  (∀ (program : List HostLine) (s : State), (s.host.given = none → s.lineOf program = program[s.host.pos]?) ∧
    ∀ w, s.host.given = some w → s.lineOf program = some (.cmd w)) ∧
  (∀ (s : State) (w : Word) (i : Instr), decode w = .ok i →
    step (s.withFetchWord 32 w.toNat) = thenUpdate State.advance (exec i ((s.withFetchWord 32 w.toNat).setCmd w)))

/-- The state after reset (10_state.md R49, 70_reset_and_hazards.md R280): the values the spec gives. -/
def Obligations.ResetLeavesEngineIdle : Prop :=
  (∀ l : Line, State.reset.pin l = { dir := .input, latch := false }) ∧
  State.reset.precise = false ∧ State.reset.irqOff = false ∧
  State.reset.res.code = .ok ∧ State.reset.res.busy = false ∧
  State.reset.res.ack.written = false ∧ State.reset.res.lvl.written = false ∧
  State.reset.res.data.written = false ∧ State.reset.res.attempts.written = false

/-- A reset of the block, at any instant: the lines are released with latches 0, PRECISE and IRQ_OFF are 0, BUSY is 0,
CODE is OK and the other fields unwritten (10_state.md R49, 70_reset_and_hazards.md R281); the mark FAULT_CONTEND (R26)
stays. That the Host stays (log 26), that time does not go back, since R49 gives `now` any value (log 7), and that the
history stays (log 10) are the model's choices. -/
def Obligations.BlockResetReleasesLines : Prop :=
  ∀ s : State, ∃ t, hostMove .reset s = .next t ∧
    (∀ l : Line, t.pin l = { dir := .input, latch := false }) ∧
    t.precise = false ∧ t.irqOff = false ∧ t.res.busy = false ∧ t.res.code = .ok ∧
    t.res.ack.written = false ∧ t.res.lvl.written = false ∧ t.res.data.written = false ∧
    t.res.attempts.written = false ∧
    t.faultContend = s.faultContend ∧ t.host = s.host ∧ s.now ≤ t.now ∧ ∃ evs, t.history = evs ++ s.history

/-- A reset of the block during a command, after any host reads of RES before it, ends the command: what the step leaves is a
reset of the instant reached, with no later step of the command, and CODE is the reset value (70_reset_and_hazards.md R281).
That instant is the one after `k` Engine steps of what the reads left of the command, from the state they left (`afterReads`); with
no read before the reset, `k` steps into the command. That the Host's position then advances, as after every line, is the model's
choice (log 26). -/
def Obligations.ResetDuringCommandEndsIt : Prop :=
  ∀ (program : List HostLine) (s : State) (w : Word) (ks : List Nat) (k : Nat),
    s.lineOf program = some (.during w (ks.map (fun j => (j, .read resAddr 4)) ++ [(k, .reset)])) → s.res.busy = false →
    ∃ u t, u = ((afterReads ks (commandOfWord w) (s.accept w)).2.runFor k (afterReads ks (commandOfWord w) (s.accept w)).1).1 ∧
      stepOf program s = .next t.advance ∧ t = u.blockReset ∧ t.res.code = .ok ∧ t.res.busy = false ∧
      (∀ l : Line, t.pin l = { dir := .input, latch := false }) ∧
      (ks = [] → u = ((commandOfWord w).runFor k (s.accept w)).1)

/-- Host reads of RES during a command do not stop it (10_state.md R37, R38). After a read that comes `k` Engine steps into the
command, the later moves meet the rest of its steps, from a state that differs from the one reached in the host's last read,
in time and in the Peer alone; the time the read took counts for the Engine's step in progress (log 12). With no moves but
reads, the command runs to its end from the state they left (`afterReads`), and BUSY is 0. -/
def Obligations.ReadDuringCommandLetsItGoOn : Prop :=
  ∀ (program : List HostLine) (s : State) (w : Word) (k : Nat) (moves : List (Nat × HostMove)),
    s.lineOf program = some (.during w ((k, .read resAddr 4) :: moves)) → s.res.busy = false →
    ∃ u rest, (commandOfWord w).runFor k (s.accept w) = (u, rest) ∧
      stepOf program s = thenUpdate State.advance (runWithMoves moves (rest.after ((readRes u).now - u.now)) (readRes u)) ∧
      readRes u = { u.withEnv (readRes u) with host := { u.host with lastRead := (readRes u).host.lastRead } } ∧
      ∀ ks : List Nat, moves = ks.map (fun j => (j, .read resAddr 4)) → ∃ t, stepOf program s = .next t.advance ∧
        t = ((afterReads (k :: ks) (commandOfWord w) (s.accept w)).2.run
          (afterReads (k :: ks) (commandOfWord w) (s.accept w)).1).1 ∧ t.res.busy = false

/-- What a host read of RES gives, at any instant, and that it changes nothing but the host's last read, time and the Peer: BUSY, the live mirrors of PRECISE and IRQ_OFF and 0 in the reserved bits
(R32, R37, R41); CODE, ACK, LVL, DATA and ATTEMPTS as written, while BUSY = 0 and they have been written; the draw's bits
while BUSY = 1 (R38), and for an unwritten field (R48). CODE reads 0 for OK, 1 for TIMEOUT, 2 for NAK and 3 for ILLEGAL (00_scope.md
R8, R33). -/
def Obligations.ReadOfResLayout : Prop :=
  ∀ s : State, ∃ t w, hostMove (.read resAddr 4) s = .next t ∧ t.host.lastRead = some w ∧
    t = { s.withEnv t with host := { s.host with lastRead := some w } } ∧ s.now ≤ t.now ∧
    w.getLsbD 8 = s.res.busy ∧ w.getLsbD 9 = s.precise ∧ w.getLsbD 10 = s.irqOff ∧
    w.extractLsb' 6 2 = 0#2 ∧ w.extractLsb' 11 5 = 0#5 ∧ w.extractLsb' 26 6 = 0#6 ∧
    w.extractLsb' 0 4 = (if s.res.busy then s.nextDraw.res.extractLsb' 0 4 else s.res.code.bits) ∧
    (∀ code n, (code, n) ∈ [(Code.ok, 0#4), (.timeout, 1#4), (.nak, 2#4), (.illegal, 3#4)] → s.res.busy = false →
      s.res.code = code → w.extractLsb' 0 4 = n) ∧
    w.getLsbD 4 = (if s.res.busy || !s.res.ack.written then s.nextDraw.res.getLsbD 4 else s.res.ack.value) ∧
    w.getLsbD 5 = (if s.res.busy || !s.res.lvl.written then s.nextDraw.res.getLsbD 5 else s.res.lvl.value) ∧
    w.extractLsb' 16 8 =
      (if s.res.busy || !s.res.data.written then s.nextDraw.res.extractLsb' 16 8 else s.res.data.value) ∧
    w.extractLsb' 24 2 =
      (if s.res.busy || !s.res.attempts.written then s.nextDraw.res.extractLsb' 24 2 else s.res.attempts.value)

/-- The mirrors and the reserved bits alone, in every read of RES at any instant, BUSY or not (R37, R41). -/
def Obligations.MirrorsLiveReservedZero : Prop :=
  ∀ s : State, ∃ t w, hostMove (.read resAddr 4) s = .next t ∧ t.host.lastRead = some w ∧
    w.getLsbD 9 = s.precise ∧ w.getLsbD 10 = s.irqOff ∧
    ∀ b : Nat, (b = 6 ∨ b = 7 ∨ (11 ≤ b ∧ b ≤ 15) ∨ (26 ≤ b ∧ b ≤ 31)) → w.getLsbD b = false

/-- The window (10_state.md R31, R32, R36, 20_memory.md R64): a narrower or misaligned access is refused. A write of a word to CMD
while BUSY = 0 starts the command the word encodes, from the state with CMD written, be it a move of the Host or the line a step
takes; a word that encodes none completes as `execWord` has it (30_encoding.md R89); while BUSY = 1 it has no step. A read of CMD gives 0 and changes nothing but the host's last read, time and the Peer, a write to RES changes nothing but time and the Peer. That an access is refused
so at every address, in the window or not, and that an aligned word access to another address is a fault, are the model's choices
(log 15), and so are the refusal of a `HOST.IF` while BUSY = 1 (R38; log 16) and the fault of a power loss (log 17). A host interrupt is refused while IRQ_OFF = 1
(44_mode_entry.md R202, 70_reset_and_hazards.md R291; log 18) and else changes nothing but time and the Peer. -/
def Obligations.WindowAccesses : Prop :=
  (∀ (s : State) (addr bytes : Nat) (v : Word), bytes ≠ 4 ∨ addr % 4 ≠ 0 →
    hostMove (.write addr bytes v) s = .refused .windowAccess ∧ hostMove (.read addr bytes) s = .refused .windowAccess) ∧
  (∀ (s : State) (addr : Nat) (v : Word), addr % 4 = 0 → addr ≠ cmdAddr → addr ≠ resAddr →
    hostMove (.write addr 4 v) s = .fault .outsideWindow ∧ hostMove (.read addr 4) s = .fault .outsideWindow) ∧
  (∀ (s : State) (w : Word), s.res.busy = false → hostMove (.write cmdAddr 4 w) s = execWord w (s.setCmd w) ∧
    ∀ i, decode w = .ok i → hostMove (.write cmdAddr 4 w) s = exec i (s.setCmd w)) ∧
  (∀ (program : List HostLine) (s : State) (m : HostMove), s.lineOf program = some (.move m) →
    stepOf program s = thenUpdate State.advance (hostMove m s)) ∧
  (∀ (s : State) (w : Word), s.res.busy = true → hostMove (.write cmdAddr 4 w) s = .refused .cmdWhileBusy) ∧
  (∀ (program : List HostLine) (s : State) (w : Word) (moves : List (Nat × HostMove)), s.res.busy = true →
    (s.lineOf program = some (.cmd w) ∨ s.lineOf program = some (.during w moves)) →
    stepOf program s = .refused .cmdWhileBusy) ∧
  (∀ (program : List HostLine) (s : State) (c : Cond) (n : Nat), s.res.busy = true → s.lineOf program = some (.ifGoto c n) →
    stepOf program s = .refused .decisionWhileBusy) ∧
  (∀ s : State, hostMove .powerLoss s = .fault .powerLoss) ∧
  (∀ s : State, ∃ t, hostMove (.read cmdAddr 4) s = .next t ∧ t.host.lastRead = some 0#32 ∧
    t = { s.withEnv t with host := { s.host with lastRead := some 0#32 } } ∧ s.now ≤ t.now) ∧
  (∀ (s : State) (v : Word), ∃ t, hostMove (.write resAddr 4 v) s = .next t ∧ t = s.withEnv t ∧ s.now ≤ t.now) ∧
  (∀ s : State, (s.irqOff = true → hostMove .interrupt s = .refused .interruptWhileOff) ∧
    (s.irqOff = false → ∃ t, hostMove .interrupt s = .next t ∧ t = s.withEnv t ∧ s.now ≤ t.now))

/-- `HOST.IF` with BUSY = 0 continues at its line when the condition holds of the word read from RES, and at the next line when
it does not (30_encoding.md R93). Besides its position and its last read only time and the Peer go on. In that word CODE, BUSY, PRECISE and IRQOFF are the block's (10_state.md R33, R36, R37), and
so is a field that has been written, whose read is no draw (R38, R48); CODE is 0 for OK, 1 for TIMEOUT, 2 for NAK and 3 for ILLEGAL
(00_scope.md R8); conditions combine by not, and, or (log 22). -/
def Obligations.HostIfBranches : Prop :=
  ∀ (program : List HostLine) (s : State) (c : Cond) (n : Nat), s.lineOf program = some (.ifGoto c n) → s.res.busy = false →
    ∃ t w, stepOf program s = .next t ∧ t = { s.withEnv t with host := t.host } ∧ s.now ≤ t.now ∧
      t.host.lastRead = some w ∧ (t.host.pos = if c.holds w then n else s.host.pos + 1) ∧
      (∀ v, (Cond.is .code v).holds w = (s.res.code.bits.toNat == v)) ∧
      (∀ code m, (code, m) ∈ [(Code.ok, 0), (.timeout, 1), (.nak, 2), (.illegal, 3)] → s.res.code = code →
        ∀ v, (Cond.is .code v).holds w = (m == v)) ∧
      (∀ v, (Cond.is .busy v).holds w = (0 == v)) ∧
      (∀ v, (Cond.is .precise v).holds w = (s.precise.toNat == v)) ∧
      (∀ v, (Cond.is .irqoff v).holds w = (s.irqOff.toNat == v)) ∧
      (s.res.ack.written = true → ∀ v, (Cond.is .ack v).holds w = (s.res.ack.value.toNat == v)) ∧
      (s.res.lvl.written = true → ∀ v, (Cond.is .lvl v).holds w = (s.res.lvl.value.toNat == v)) ∧
      (s.res.data.written = true → ∀ v, (Cond.is .data v).holds w = (s.res.data.value.toNat == v)) ∧
      (s.res.attempts.written = true → ∀ v, (Cond.is .attempts v).holds w = (s.res.attempts.value.toNat == v)) ∧
      (∀ a b : Cond, a.not.holds w = !a.holds w ∧ (a.and b).holds w = (a.holds w && b.holds w) ∧
        (a.or b).holds w = (a.holds w || b.holds w))

/-- After the last command the run is over: a step is time and the Peer going on, and nothing else (00_scope.md R10). At
`HOST.POWER` it is the same, and the host's position advances: the block sees nothing of it (30_encoding.md R93). -/
def Obligations.RunEndsAfterLastLine : Prop :=
  (∀ (program : List HostLine) (s : State), s.lineOf program = none ∨ s.lineOf program = some .hostEnd →
    ∃ t, stepOf program s = .next t ∧ t = s.withEnv t ∧ s.now ≤ t.now) ∧
  (∀ (program : List HostLine) (s : State) (on : Bool), s.lineOf program = some (.power on) →
    ∃ t, stepOf program s = .next t.advance ∧ t = s.withEnv t ∧ s.now ≤ t.now)

/-! ### Invariants -/

/-- Between commands BUSY, PRECISE and IRQ_OFF are 0 and ATTEMPTS is never written as 0: every step keeps this
(10_state.md R28, R29, R36, R40). -/
def Obligations.StepKeepsIdle : Prop :=
  ∀ (program : List HostLine) (s t : State), s.Idle → (step s = .next t ∨ stepOf program s = .next t) → t.Idle

/-- The state after reset is such a state. -/
def Obligations.ResetIsIdle : Prop := State.reset.Idle

/-- The history stays in order of time, and no step takes an event back or lets time go back (20_memory.md R68,
10_state.md R30). A step may reset the block: that the history stays then (log 10) and that time does not go back then (log 7) are
the model's choices. So is that a step uses up a word given to the Host from outside (log 11). -/
def Obligations.StepKeepsHistoryOrdered : Prop :=
  ∀ (program : List HostLine) (s t : State), s.HistoryOrdered → (step s = .next t ∨ stepOf program s = .next t) →
    t.HistoryOrdered ∧ s.now ≤ t.now ∧ (∃ evs, t.history = evs ++ s.history) ∧ t.host.given = none

/-- The state after reset has an ordered history. -/
def Obligations.ResetHistoryOrdered : Prop := State.reset.HistoryOrdered

/-- FAULT_CONTEND is never cleared, not even by a reset (10_state.md R26). -/
def Obligations.ContentionMarkIsSticky : Prop :=
  ∀ (program : List HostLine) (s t : State), s.faultContend = true → (step s = .next t ∨ stepOf program s = .next t) →
    t.faultContend = true

/-- No command but a GSET of a bus line to 1 lets a bus latch hold 1, at any instant inside it; so no bus line is ever driven
high and the mark FAULT_CONTEND does not change (41_bus_primitives.md R110, R121, 70_reset_and_hazards.md R294). -/
def Obligations.OpenDrainAtEveryInstant : Prop :=
  ∀ (i : Instr) (s : State) (k : Nat), s.OpenDrain → i ≠ .gset .scl true → i ≠ .gset .sda true →
    (s.within i k).OpenDrain ∧ (s.within i k).scl.drivesHigh = false ∧ (s.within i k).sda.drivesHigh = false ∧
    (s.within i k).faultContend = s.faultContend

/-- While a command runs BUSY is 1 at every instant but the last, and no command but MODEENTRY touches PRECISE or IRQ_OFF
at any instant (10_state.md R28, R29, R36). -/
def Obligations.FlagsInsideCommands : Prop :=
  ∀ (i : Instr) (s : State) (k : Nat),
    ((s.within i k).res.busy = false → ∃ t, exec i s = .next t ∧ t = s.within i k) ∧
    (i ≠ .modeentry → (s.within i k).precise = s.precise ∧ (s.within i k).irqOff = s.irqOff)

/-- Every command completes, with BUSY = 0 and a code of the commands R251 gives it: ILLEGAL from no encodable command, NAK
from MSEND and MRECV only, TIMEOUT from WAITCLK, STOP, SEND, RECV, MODEENTRY, MSEND and MRECV only (R36, R251). -/
def Obligations.CommandsCompleteWithTheirCodes : Prop :=
  ∀ (i : Instr) (s : State), ∃ t, exec i s = .next t ∧ t.res.busy = false ∧
    (i.wellFormed = true → t.res.code ≠ .illegal) ∧
    (t.res.code = .nak → (∃ a v, i = .msend a v) ∨ ∃ a, i = .mrecv a) ∧
    (t.res.code = .timeout → i = .waitclk ∨ i = .stop ∨ (∃ v, i = .send v) ∨ i = .recv ∨ i = .modeentry ∨
      (∃ a v, i = .msend a v) ∨ ∃ a, i = .mrecv a)

/-- Which fields of RES each command writes (R42): ACK by SEND, when CODE = OK; LVL by GETLINE and GGET; DATA by RECV, when
CODE = OK, and by MRECV; ATTEMPTS by MSEND and MRECV (R34, R35, R39, R40). -/
def Obligations.ResFieldsWrittenByCommand : Prop :=
  ∀ (i : Instr) (s t : State), exec i s = .next t →
    (t.res.ack ≠ s.res.ack → ∃ v, i = .send v ∧ t.res.code = .ok) ∧
    (t.res.lvl ≠ s.res.lvl → ∃ l, i = .getline l ∨ i = .gget l) ∧
    (t.res.data ≠ s.res.data → (i = .recv ∧ t.res.code = .ok) ∨ ∃ a, i = .mrecv a) ∧
    (t.res.attempts ≠ s.res.attempts → (∃ a v, i = .msend a v) ∨ ∃ a, i = .mrecv a) ∧
    (∀ v, i = .send v → t.res.code = .ok → t.res.ack.written = true) ∧
    (i = .recv → t.res.code = .ok → t.res.data.written = true) ∧
    (∀ a, i = .mrecv a → t.res.code = .ok → t.res.data.written = true)

/-- No command touches the word held in CMD, which the host's write put there (10_state.md R31; that CMD is held at all is log 9),
nor the Host (R21; that the Host stands in State is log 11). The latch and direction of INT are touched by GDIR and GSET only, and
the raw GPIO commands leave PRECISE, IRQ_OFF, ACC and the counters alone (41_bus_primitives.md R125). -/
def Obligations.OnlyRawCommandsActOnInt : Prop :=
  ∀ (i : Instr) (s t : State), exec i s = .next t →
    t.cmd = s.cmd ∧ t.host = s.host ∧
    (t.int ≠ s.int → (∃ b, i = .gdir .int b) ∨ ∃ b, i = .gset .int b) ∧
    ((∃ l b, i = .gdir l b) ∨ (∃ l b, i = .gset l b) ∨ (∃ l, i = .gget l) →
      t.precise = s.precise ∧ t.irqOff = s.irqOff ∧ t.acc = s.acc ∧ t.att = s.att ∧ t.t0 = s.t0 ∧ t.nPoll = s.nPoll)

/-! ### Bus primitives -/

/-- The level of a line at a sample (10_state.md R24, R25, R27): for a bus line the wired AND of both sides, a draw in
contention; for INT its latch while driven, else a draw. -/
def Obligations.LevelIsWiredAnd : Prop :=
  ∀ (s : State) (free : Bool),
    (∀ l : Line, l.onBus = true →
      ((s.pin l).dir = .output → (s.pin l).latch = true → s.peerLow l = true → s.level free l = free) ∧
      ((s.pin l).dir = .output → (s.pin l).latch = true → s.peerLow l = false → s.level free l = true) ∧
      ((s.pin l).dir = .output → (s.pin l).latch = false → s.level free l = false) ∧
      ((s.pin l).dir = .input → s.level free l = !s.peerLow l)) ∧
    (s.int.dir = .output → s.level free .int = s.int.latch) ∧ (s.int.dir = .input → s.level free .int = free)

/-- SETLINE on a bus line (R110, R111): a release changes the direction alone; a drive low writes the latch first. CODE is OK,
and nothing else changes but time and the Peer. -/
def Obligations.SetlineDrivesOrReleases : Prop :=
  ∀ (l : Line) (s : State), l.onBus = true →
    (∃ t at_, exec (.setline l true) s = .next t ∧ s.now ≤ at_ ∧ at_ ≤ t.now ∧
      t = ((((s.setPin l { s.pin l with dir := .input }).record (.dir l .released at_)).withEnv t).ended .ok)) ∧
    (∃ t at0 at1, exec (.setline l false) s = .next t ∧ s.now ≤ at0 ∧ at0 ≤ at1 ∧ at1 ≤ t.now ∧
      t = ((({ (s.setPin l { dir := .output, latch := false }) with
        history := .dir l .out0 at1 :: ((if (s.pin l).latch then [.latch l false at0] else []) ++ s.history) }
          : State).withEnv t).ended .ok))

/-- SETLINE and GETLINE do not accept INT: they complete with CODE = ILLEGAL and change nothing else (R111, R112, R89). -/
def Obligations.IntIsNoBusLine : Prop :=
  ∀ (b : Bool) (s : State),
    (∃ t, exec (.setline .int b) s = .next t ∧ t = (s.withEnv t).ended .illegal ∧ s.now ≤ t.now) ∧
    (∃ t, exec (.getline .int) s = .next t ∧ t = (s.withEnv t).ended .illegal ∧ s.now ≤ t.now)

/-- GETLINE and GGET (R112, R124): LVL is the level of the line with the Peer's drive at that instant, the sample is recorded,
a contention sets the mark and is recorded (10_state.md R25, R26); CODE is OK and nothing else changes. The instant is
that of the command's first step: `s.pass 0`. -/
def Obligations.SamplesGiveTheLevel : Prop :=
  ∀ (i : Instr) (l : Line) (s : State), (i = .getline l ∧ l.onBus = true) ∨ i = .gget l →
    ∃ t u v, u = s.pass 0 ∧ v = u.level s.nextDraw.level l ∧ exec i s = .next t ∧ u.now ≤ t.now ∧
      t = ({ s.withEnv t with
        faultContend := s.faultContend || u.contends l
        history := .sample l v u.now :: ((if u.contends l then [.contend l u.now] else []) ++ s.history)
        res := { s.res with code := .ok, busy := false, lvl := ⟨v, true⟩ } } : State)

/-- GDIR (R120): the direction alone, the event naming what the latch drives; CODE is OK and nothing else changes. -/
def Obligations.GdirSetsDirection : Prop :=
  ∀ (l : Line) (b : Bool) (s : State), ∃ t at_, exec (.gdir l b) s = .next t ∧ s.now ≤ at_ ∧ at_ ≤ t.now ∧
    t = ((((s.setPin l { s.pin l with dir := if b then .input else .output }).record
      (.dir l (if b then .released else if (s.pin l).latch then .out1 else .out0) at_)).withEnv t).ended .ok)

/-- GSET (R122): the latch alone, recorded whether or not it changed; CODE is OK and nothing else changes. -/
def Obligations.GsetWritesLatch : Prop :=
  ∀ (l : Line) (v : Bool) (s : State), ∃ t at_, exec (.gset l v) s = .next t ∧ s.now ≤ at_ ∧ at_ ≤ t.now ∧
    t = ((((s.setPin l { s.pin l with latch := v }).record (.latch l v at_)).withEnv t).ended .ok)

/-- A latch write to an input line does not change the wire: whatever the Peer does, the levels are those of before
(R123). -/
def Obligations.LatchWriteOnInputKeepsWire : Prop :=
  ∀ (l : Line) (v : Bool) (s t : State), (s.pin l).dir = .input → exec (.gset l v) s = .next t →
    ∀ (free : Bool) (m : Line), t.level free m = (s.withEnv t).level free m

/-- WAITCLK (R113, R115, R117, R119): SCL is released; then low samples only, and at the end a high one and at least one bit
period, or a timeout for the deadline, or the ceiling while PRECISE = 1. Nothing else changes. -/
def Obligations.WaitclkWaitsForHigh : Prop :=
  ∀ s : State, ∃ (t : State) (rel : Nat) (lows : List Nat), exec .waitclk s = .next t ∧ s.now ≤ rel ∧ rel ≤ t.t0 ∧ (∀ x ∈ lows, t.t0 ≤ x) ∧
    t = { s.withEnv t with
      scl := { s.scl with dir := .input }, t0 := t.t0, nPoll := t.nPoll, history := t.history
      res := { s.res with code := t.res.code, busy := false } } ∧
    ((t.res.code = .ok ∧ ∃ high, t.t0 ≤ high ∧ (∀ x ∈ lows, x ≤ high) ∧ high + Config.params.tBitNs ≤ t.now ∧
        t.history = .sample .scl true high ::
          (lows.map (fun x => .sample .scl false x) ++ .dir .scl .released rel :: s.history)) ∨
      (t.res.code = .timeout ∧ lows ≠ [] ∧
        t.history = lows.map (fun x => .sample .scl false x) ++ .dir .scl .released rel :: s.history ∧
        (t.t0 + tWaitNs < t.now ∨ (s.precise = true ∧ Config.params.nPrecise ≤ lows.length))))

/-- The clock-high wait never hangs (R118): with any parameters R5 admits, from any state, at most
`floor(T_WAIT_NS / T_POLL_NS) + 2` samples of SCL, and with PRECISE = 1 at most `N_PRECISE`; a successful wait lasts at
least `T_BIT_NS`, a timed-out wait with PRECISE = 0 more than `T_WAIT_NS`, which is 50 000 000 ns (00_scope.md R5, R115). -/
def Obligations.WaitEndsWithinSampleBound : Prop :=
  tWaitNs = 50000000 ∧
  ∀ (p : Params) (s : State), p.wf → ∃ (t : State) (w : Wait) (evs : List Event), (waitClockHigh p).run s = (t, w) ∧ t.history = evs.reverse ++ s.history ∧
    (sampledLevels .scl evs).length ≤ tWaitNs / p.tPollNs + 2 ∧
    (s.precise = true → (sampledLevels .scl evs).length ≤ min p.nPrecise (tWaitNs / p.tPollNs + 2)) ∧
    (w = .ok → s.now + p.tBitNs ≤ t.now) ∧ (w = .timeout → s.precise = false → s.now + tWaitNs < t.now)

/-- After the wait SCL is released, SDA is as it was, and the wait never drove SCL low (R119). -/
def Obligations.WaitLeavesClockReleased : Prop :=
  ∀ (p : Params) (s : State), ∃ (t : State) (w : Wait) (evs : List Event), (waitClockHigh p).run s = (t, w) ∧ t.history = evs.reverse ++ s.history ∧
    t.scl.dir = .input ∧ t.sda = s.sda ∧ dirChanges evs = [(.scl, .released)]

/-! ### Delays -/

/-- The DELAY commands (42_delay_unit.md R140 to R144): time advances by at least the bit period, its half rounded down, the
count of microseconds, or the count of milliseconds; no event (a completion is none: log 33), CODE is OK, and nothing else
changes. -/
def Obligations.DelaysAdvanceTime : Prop :=
  ∀ (i : Instr) (d : Nat) (s : State),
    (i = .delayBit ∧ d = Config.params.tBitNs) ∨ (i = .delayHalf ∧ d = Config.params.tBitNs / 2) ∨
      (∃ n : BitVec 16, i = .delayUs n ∧ d = n.toNat * 1000) ∨ (∃ n : BitVec 16, i = .delayMs n ∧ d = n.toNat * 1000000) →
    ∃ t, exec i s = .next t ∧ s.now + d ≤ t.now ∧ t = (s.withEnv t).ended .ok

/-! ### Transport -/

/-- START (43_transport.md R160, R161, R164): data low, then clock low. Its events are those of the two drives and no others: before
each direction the latch write, when the latch was 1 (41_bus_primitives.md R110). Both lines end driven low with latches 0; nothing is
sampled; CODE is OK. -/
def Obligations.StartDrivesDataThenClockLow : Prop :=
  ∀ s : State, ∃ (t : State) (evs : List Event) (at0 at1 at2 at3 : Nat), exec .start s = .next t ∧
    t.history = evs.reverse ++ s.history ∧ s.now ≤ at0 ∧ at0 ≤ at1 ∧ at1 ≤ at2 ∧ at2 ≤ at3 ∧ at3 ≤ t.now ∧
    evs = (if s.sda.latch then [.latch .sda false at0] else []) ++ .dir .sda .out0 at1 ::
      ((if s.scl.latch then [.latch .scl false at2] else []) ++ [.dir .scl .out0 at3]) ∧
    dirChanges evs = [(.sda, .out0), (.scl, .out0)] ∧ sampledLevels .scl evs = [] ∧ sampledLevels .sda evs = [] ∧
    t = ({ s.withEnv t with
      scl := { dir := .output, latch := false }, sda := { dir := .output, latch := false }, history := t.history }
        : State).ended .ok

/-- START from an idle bus that the Peer leaves alone shows a start condition: there is an instant inside the command before
which SDA is high and after which it is low while SCL reads 1 (R161, R190). What a start condition is, is presumed from general
knowledge (log 32); that the Peer leaves the lines alone is said of the four draws the command takes (log 2). -/
def Obligations.StartFromIdleShowsStartCondition : Prop :=
  ∀ s : State, s.BusReleased → s.peer = { scl := false, sda := false } → 4 ≤ s.draws.length →
    (∀ d ∈ s.draws.take 4, ∀ q ∈ drives d.own, q = { scl := false, sda := false }) →
    ∃ k, startCondition (s.within .start k) (s.within .start (k + 1))

/-- STOP (R162, R163, R164): data low, then the clock wait; on OK low samples of SCL and one high one came between its release and that
of data, by a bit period at least before the latter, and data is released at the end; on TIMEOUT the samples were low only, for the
deadline or, with PRECISE = 1, the ceiling (`StopEnded`), and data stays driven low; SCL is released either way; nothing else
changes. The lines are written by SetLine alone: a latch write stands right before a drive low exactly when the latch was 1, and no
event of another kind stands among them (00_scope.md R9, 41_bus_primitives.md R110, `LinesWritten`). -/
def Obligations.StopReleasesDataLast : Prop :=
  ∀ s : State, ∃ (t : State) (evs : List Event), exec .stop s = .next t ∧ t.history = evs.reverse ++ s.history ∧
    t = { s.withEnv t with
      scl := { s.scl with dir := .input }, sda := { t.sda with latch := false }, t0 := t.t0, nPoll := t.nPoll
      history := t.history, res := { s.res with code := t.res.code, busy := false } } ∧
    LinesWritten s t evs ∧ sampledLevels .sda evs = [] ∧ StopEnded Config.params s.precise t.t0 t.now t.res.code t.sda evs ∧
    ((t.res.code = .ok ∧ t.sda.dir = .input ∧ dirChanges evs = [(.sda, .out0), (.scl, .released), (.sda, .released)] ∧
        s.now + Config.params.tBitNs ≤ t.now) ∨
      (t.res.code = .timeout ∧ t.sda.dir = .output ∧ dirChanges evs = [(.sda, .out0), (.scl, .released)] ∧
        (s.precise = false → s.now + tWaitNs < t.now)))

/-- SEND's result and frame (R170, R171, R172): on OK, nine clocks were seen, ACK is 1 exactly when the one sample of SDA was low,
and that sample is the last event, at least `T_BIT_NS` after the ninth high sample of SCL, the event before it; on TIMEOUT, SDA was
not sampled, the wait for some clock timed out, for the deadline or, with PRECISE = 1, the ceiling (`WaitTimedOut`), and ACK is
unchanged. Only the two bus lines, BITIDX, the wait's registers and the history change besides. -/
def Obligations.SendCapturesAcknowledge : Prop :=
  ∀ (v : Byte) (s : State), ∃ (t : State) (evs : List Event), exec (.send v) s = .next t ∧ t.history = evs.reverse ++ s.history ∧
    t = { s.withEnv t with
      scl := t.scl, sda := t.sda, bitIdx := t.bitIdx, t0 := t.t0, nPoll := t.nPoll, history := t.history, res := t.res } ∧
    ((∃ level, sampledLevels .sda evs = [level] ∧ clocksSeen evs = 9 ∧ AckCaptured Config.params level evs ∧
        t.res = { s.res with code := .ok, busy := false, ack := ⟨!level, true⟩ }) ∨
      (sampledLevels .sda evs = [] ∧ (∃ k, ByteTimedOut Config.params s.precise t.t0 t.now v k evs) ∧
        t.res = { s.res with code := .timeout, busy := false }))

/-- What SEND does to the lines (R62, R170): the direction changes are, for each bit from 7 to 0, SDA to its value (a 1 a release, a
0 a drive low), SCL released and SCL driven low, then SDA and SCL released for the acknowledge. At its nine high samples of SCL
SDA stands so. A timeout at clock k has made the changes up to the k-th release of SCL and shown the first k - 1 bits. Each change
comes at least the pseudocode's hold after the one before it (`sendGaps`). The latch writes among them are SetLine's, and there is no event of another kind (00_scope.md R9,
41_bus_primitives.md R110, `LinesWritten`). Whatever the Peer does to SDA (R173). -/
def Obligations.SendShowsBitsMsbFirst : Prop :=
  ∀ (v : Byte) (d : Drive) (s : State), ∃ (t : State) (evs : List Event), exec (.send v) s = .next t ∧ t.history = evs.reverse ++ s.history ∧
    Spaced s.now (sendGaps Config.params) (dirTimes evs) ∧ LinesWritten s t evs ∧
    (t.res.code = .ok → driveAtClocks d evs = byteDrives v ++ [.released] ∧
      dirChanges evs = (byteDrives v).flatMap (fun b => [(.sda, b), (.scl, .released), (.scl, .out0)]) ++
        [(.sda, .released), (.scl, .released)]) ∧
    (t.res.code = .timeout → ∃ k, 1 ≤ k ∧ k ≤ 9 ∧ driveAtClocks d evs = (byteDrives v ++ [Drive.released]).take (k - 1) ∧
      dirChanges evs = (sendChanges v).take (3 * k - 1))

/-- The line state after SEND (R175): SCL is released; SDA is released on OK and at a timeout of the ninth clock, and at a
timeout of clock k ≤ 8 it is driven low exactly when bit 8 - k is 0. The clock is told by the high samples of SCL. -/
def Obligations.SendLineState : Prop :=
  ∀ (v : Byte) (s : State), ∃ (t : State) (evs : List Event), exec (.send v) s = .next t ∧ t.history = evs.reverse ++ s.history ∧
    t.scl.dir = .input ∧
    (t.res.code = .ok → t.sda.dir = .input) ∧
    (t.res.code = .timeout → ∃ k, 1 ≤ k ∧ k ≤ 9 ∧ ((sampledLevels .scl evs).filter id).length = k - 1 ∧
      (k = 9 → t.sda.dir = .input) ∧
      (k ≤ 8 → (byteBit v (8 - k) = true → t.sda.dir = .input) ∧
        (byteBit v (8 - k) = false → t.sda = { dir := .output, latch := false })))

/-- How long SEND lasts (R174): ending OK, at least nine waits, seven full holds and one half hold; timing out at its k-th
clock wait, more than the deadline and the k - 1 bits before it. -/
def Obligations.SendDuration : Prop :=
  ∀ (v : Byte) (s : State), s.precise = false → ∃ (t : State) (evs : List Event), exec (.send v) s = .next t ∧
    t.history = evs.reverse ++ s.history ∧
    (t.res.code = .ok → s.now + (16 * Config.params.tBitNs + Config.params.tHalfNs) ≤ t.now) ∧
    (t.res.code = .timeout → ∃ k, 1 ≤ k ∧ k ≤ 9 ∧ ((sampledLevels .scl evs).filter id).length = k - 1 ∧
      (k ≤ 8 → s.now + ((k - 1) * 2 * Config.params.tBitNs + tWaitNs) < t.now) ∧
      (k = 9 → s.now + (7 * 2 * Config.params.tBitNs + Config.params.tBitNs + Config.params.tHalfNs + tWaitNs) < t.now))

/-- RECV's byte and frame (R39, R180, R181, R182): on OK, exactly eight samples of SDA were taken and DATA holds them, the
first in bit 7; on TIMEOUT, fewer, and DATA is unchanged. SDA is released once and never driven; SCL is released and driven low
for each bit, and nothing follows the eighth; a timeout at clock k stops at the k-th release. Each sample of SDA comes after the
high sample of SCL of its clock, by a bit period at least, and before SCL is driven low (`BitReceived`); each change comes at least
the pseudocode's hold after the one before it (`recvGaps`), and the end half a bit period after the last. On TIMEOUT the missed clock
had low samples only, and more than T_WAIT_NS passed since T0, or, with PRECISE = 1, the ceiling was reached (41_bus_primitives.md
R115, R116, `WaitTimedOut`). The latch writes are SetLine's, and there is no event of another kind (00_scope.md R9, R110,
`LinesWritten`). -/
def Obligations.RecvAssemblesSamples : Prop :=
  ∀ s : State, ∃ (t : State) (evs : List Event), exec .recv s = .next t ∧ t.history = evs.reverse ++ s.history ∧
    t = { s.withEnv t with
      scl := t.scl, sda := { s.sda with dir := .input }, acc := t.acc, bitIdx := t.bitIdx, t0 := t.t0, nPoll := t.nPoll
      history := t.history, res := t.res } ∧
    (∀ c ∈ dirChanges evs, c.1 = .sda → c.2 = .released) ∧ LinesWritten s t evs ∧ Spaced s.now (recvGaps Config.params) (dirTimes evs) ∧
    ((∃ d : Byte, sampledLevels .sda evs = [7, 6, 5, 4, 3, 2, 1, 0].map (byteBit d) ∧
        BitsReceived Config.params ([7, 6, 5, 4, 3, 2, 1, 0].map (byteBit d)) evs ∧
        Spaced s.now (recvGaps Config.params ++ [Config.params.tHalfNs]) (dirTimes evs ++ [t.now]) ∧
        dirChanges evs = (.sda, .released) :: (List.replicate 8 [(Line.scl, Drive.released), (Line.scl, Drive.out0)]).flatten ∧
        t.res = { s.res with code := .ok, busy := false, data := ⟨d, true⟩ }) ∨
      (∃ k, 1 ≤ k ∧ k ≤ 8 ∧ (sampledLevels .sda evs).length = k - 1 ∧ dirChanges evs = recvChanges.take (2 * k) ∧
        ReceiveMissed Config.params s.precise t.t0 t.now (sampledLevels .sda evs) evs ∧
        t.res = { s.res with code := .timeout, busy := false }))

/-- The line state after RECV (R184): SDA is released; SCL is driven low on OK and released on TIMEOUT. -/
def Obligations.RecvLineState : Prop :=
  ∀ s : State, ∃ t, exec .recv s = .next t ∧ t.sda.dir = .input ∧
    ((t.res.code = .ok ∧ t.scl.dir = .output ∧ t.scl.latch = false) ∨ (t.res.code = .timeout ∧ t.scl.dir = .input))

/-- How long RECV lasts ending OK (R183): eight waits, seven full holds and one half hold. -/
def Obligations.RecvDuration : Prop :=
  ∀ s : State, ∃ t, exec .recv s = .next t ∧
    (t.res.code = .ok → s.now + (15 * Config.params.tBitNs + Config.params.tHalfNs) ≤ t.now)

/-- The accumulator (10_state.md R44): eight bits shifted in leave them in order, the first in bit 7, whatever ACC held. -/
def Obligations.EightShiftsFillAcc : Prop :=
  ∀ (acc : Byte) (bits : List Bool), bits.length = 8 →
    [7, 6, 5, 4, 3, 2, 1, 0].map (byteBit (bits.foldl shiftIn acc)) = bits

/-! ### Mode entry -/

/-- MODEENTRY's result and frame (44_mode_entry.md R200, R201, R202, R203, R207, 10_state.md R42): OK or TIMEOUT; SCL and SDA end
released, PRECISE = 0 and IRQ_OFF = 0; IRQ_OFF rises before the first line change and falls after everything else. After the pattern,
in which nothing is sampled, the final wait decides the code (41_bus_primitives.md R113, R115, R116): OK, its samples of SCL ended
with a high one and a bit period at least passed before IRQ_OFF fell; TIMEOUT, they were low only, and N_PRECISE of them were taken or
more than T_WAIT_NS passed since T0. There are never more than N_PRECISE. Between the two
changes of IRQ_OFF the latch writes are SetLine's, and there is no event of another kind (00_scope.md R9, R110, `LinesWritten`). -/
def Obligations.ModeentryResult : Prop :=
  ∀ s : State, ∃ (t : State) (evs : List Event) (up down : Nat) (mid : List Event), exec .modeentry s = .next t ∧ t.history = evs.reverse ++ s.history ∧
    t = { s.withEnv t with
      scl := { dir := .input, latch := false }, sda := { dir := .input, latch := false }, precise := false, irqOff := false
      bitIdx := t.bitIdx, t0 := t.t0, nPoll := t.nPoll, history := t.history
      res := { s.res with code := t.res.code, busy := false } } ∧
    (t.res.code = .ok ∨ t.res.code = .timeout) ∧
    evs = .irq true up :: (mid ++ [.irq false down]) ∧ (∀ e ∈ mid, ∀ (b : Bool) (at_ : Nat), e ≠ .irq b at_) ∧ LinesWritten s t mid ∧ down ≤ t.now ∧
    ∃ pattern wait, mid = pattern ++ wait ∧ (∀ l, sampledLevels l pattern = []) ∧
      (sampledLevels .scl wait).length ≤ Config.params.nPrecise ∧
      ((t.res.code = .ok ∧ ∃ high, ClockSeen high wait ∧ high + Config.params.tBitNs ≤ down) ∨
        (t.res.code = .timeout ∧ WaitTimedOut Config.params true t.t0 down wait))

/-- The pattern (R200, R204, R206): SCL takes the fifteen values of 0x2AF8, most significant first, then is released for the final
wait; SDA is driven low and released once in each bit; the Engine samples SDA never. A latch write stands before a drive low
exactly when the latch was 1 (41_bus_primitives.md R110), and no line is in contention at a sample. -/
def Obligations.ModeentryEmitsPattern : Prop :=
  ∀ s : State, ∃ (t : State) (evs : List Event), exec .modeentry s = .next t ∧ t.history = evs.reverse ++ s.history ∧
    dirChanges evs =
      ([.out0, .released, .out0, .released, .out0, .released, .out0, .released, .released, .released, .released, .released,
        .out0, .out0, .out0].flatMap fun d => [(.scl, d), (.sda, .out0), (.sda, .released)]) ++ [(.scl, .released)] ∧
    lineWrites evs = withLatches s.scl.latch s.sda.latch (dirChanges evs) ∧ NoContend evs ∧ sampledLevels .sda evs = []

/-- The least times of the pattern (R200, R204, R205): in each of the fifteen bits SDA goes low at least 3 µs after SCL's change, is
released at least 10 µs later, and SCL changes next at least 10 µs after that, 40 µs after the bit at position 5 (`modeGaps`, for the
changes that ModeentryEmitsPattern lists); after the first change of SCL, the k-th comes no sooner than the table's t_min; the
command ends no sooner than 375 µs after its start, and a bit period later when it ends OK. -/
def Obligations.ModeentryPatternTimes : Prop :=
  ∀ s : State, ∃ (t : State) (evs : List Event), exec .modeentry s = .next t ∧ t.history = evs.reverse ++ s.history ∧
    (sclTimes evs).length = 16 ∧ (dirTimes evs).length = 46 ∧ Spaced s.now modeGaps (dirTimes evs) ∧
    (∀ k, k < 16 → ∀ t0 tk, (sclTimes evs)[0]? = some t0 → (sclTimes evs)[k]? = some tk →
      t0 + [0, 23000, 46000, 69000, 92000, 115000, 138000, 161000, 184000, 207000, 260000, 283000, 306000, 329000, 352000,
        375000].getD k 0 ≤ tk) ∧
    s.now + 375000 ≤ t.now ∧ (t.res.code = .ok → s.now + (375000 + Config.params.tBitNs) ≤ t.now)

/-- The two flags at every instant of MODEENTRY (10_state.md R29, 44_mode_entry.md R201, R202); `evs` are the events up to it, `new`
those of the next elementary step. Where PRECISE is 1, IRQ_OFF is 1 too and all forty-five changes of the pattern are past, and at least
375 µs since the first of SCL, so the last bit's holds too (R205). It is 1 from before the last release of SCL, which starts the final
wait, and at every sample, so the ceiling always applies. It falls no sooner than the wait's end: where it is 0 after that release, the
bit period after a high sample is over and the next event is the fall of IRQ_OFF, if it has not fallen. IRQ_OFF is 1 exactly between
its two events: as before the command until the first, 1 from there to the second, 0 after it. -/
def Obligations.PreciseOnlyInFinalWait : Prop :=
  ∀ (s : State) (k : Nat), s.precise = false → ∃ evs new, (s.within .modeentry k).history = evs.reverse ++ s.history ∧
    (s.within .modeentry (k + 1)).history = (evs ++ new).reverse ++ s.history ∧
    ((s.within .modeentry k).precise = true →
      (s.within .modeentry k).irqOff = true ∧ 45 ≤ (dirChanges evs).length ∧
      ∃ first, (sclTimes evs).head? = some first ∧ first + 375000 ≤ (s.within .modeentry k).now) ∧
    (∀ l v x, .sample l v x ∈ new → (s.within .modeentry k).precise = true) ∧
    ((dirChanges evs).length = 45 → ∀ x, .dir .scl .released x ∈ new → (s.within .modeentry k).precise = true) ∧
    (46 ≤ (dirChanges evs).length → (s.within .modeentry k).precise = false →
      (∀ high, .sample .scl true high ∈ evs → high + Config.params.tBitNs ≤ (s.within .modeentry k).now) ∧
      ∃ x, .irq false x ∈ evs ++ new) ∧
    (NoIrq evs → (s.within .modeentry k).irqOff = s.irqOff) ∧
    (∀ x, .irq true x ∈ evs → (∀ y, .irq false y ∉ evs) → (s.within .modeentry k).irqOff = true) ∧
    (∀ x, .irq false x ∈ evs → (s.within .modeentry k).irqOff = false)

/-! ### Register access -/

/-- MSEND's result and frame (45_register_access.md R220 to R225, R227): ATTEMPTS is 1 to 3; ACK and DATA are not written. Either
three attempts failed, each with FrameStart, the address byte and, if that was acknowledged, the value byte, refused or timed
out, and no stop after any of them; then the code and SDA are those the last one left. Or at most two failed so, and the next
had both bytes acknowledged and went to its stop, which completed (OK, SDA released) or timed out (TIMEOUT, SDA driven low) and was
not retried. A byte or a stop that timed out saw low samples only at its last clock, for the deadline or, with PRECISE = 1, the ceiling
(41_bus_primitives.md R115, R116, `WaitTimedOut`), and nothing follows before that time (`TriesInOrder`). Each acknowledge is sampled a bit period at least after the ninth high sample of SCL (43_transport.md R172). The latch writes are SetLine's, and there is no event of another
kind (00_scope.md R9, R110, `LinesWritten`). SCL is
released. Besides, only the bus lines, BITIDX, ATT, the wait's registers and the history change. -/
def Obligations.MsendResult : Prop :=
  ∀ (a v : Byte) (s : State), ∃ (t : State) (evs : List Event) (n : BitVec 2), exec (.msend a v) s = .next t ∧
    t.history = evs.reverse ++ s.history ∧
    t = { s.withEnv t with
      scl := t.scl, sda := t.sda, bitIdx := t.bitIdx, att := n, t0 := t.t0, nPoll := t.nPoll, history := t.history
      res := { s.res with code := t.res.code, busy := false, attempts := ⟨n, true⟩ } } ∧
    t.scl.dir = .input ∧ LinesWritten s t evs ∧
    ∃ fails : List FailedTry, (∀ f ∈ fails, WriteFailed Config.params s.precise a v f) ∧
      ((fails.length = 3 ∧ n = 3#2 ∧ evs = fails.flatMap FailedTry.events ∧ TriesInOrder t.now [] fails ∧
          LastTry fails t.res.code t.sda) ∨
        (fails.length ≤ 2 ∧ n.toNat = fails.length + 1 ∧ ∃ e0 e1 e2 e3,
          evs = fails.flatMap FailedTry.events ++ (e0 ++ e1 ++ e2 ++ e3) ∧
          TriesInOrder t.now (e0 ++ e1 ++ e2 ++ e3) fails ∧ FrameStarted e0 ∧ ByteSent Config.params a false e1 ∧
          ByteSent Config.params v false e2 ∧ StopEnded Config.params s.precise t.t0 t.now t.res.code t.sda e3))

/-- What a successful MSEND shows on SDA at the clocks of its last attempt (20_memory.md R62, R63, R220, R222, R234): the address
byte, a release for its acknowledge, the value byte, a release for its acknowledge, and the low of the stop; nothing else, no
device address and no read/write bit. Its direction changes end with a FrameStart, the two bytes and one FrameStop. -/
def Obligations.MsendShowsAddressThenValue : Prop :=
  ∀ (a v : Byte) (d : Drive) (s : State), ∃ (t : State) (evs : List Event), exec (.msend a v) s = .next t ∧
    t.history = evs.reverse ++ s.history ∧
    (t.res.code = .ok → ∃ (pre : List Drive) (before : List (Line × Drive)),
      driveAtClocks d evs = pre ++ (byteDrives a ++ [.released] ++ (byteDrives v ++ [.released]) ++ [.out0]) ∧
      dirChanges evs = before ++ (startChanges ++ sendChanges a ++ sendChanges v ++ stopChanges) ∧
      (t.res.attempts.value = 1#2 → pre = [] ∧ before = []))

/-- How long a successful MSEND lasts (R226), on its attempt k. -/
def Obligations.MsendDuration : Prop :=
  ∀ (a v : Byte) (s : State), s.precise = false → ∃ t, exec (.msend a v) s = .next t ∧
    (t.res.code = .ok → s.now +
      ((t.res.attempts.value.toNat - 1) * min (16 * Config.params.tBitNs + Config.params.tHalfNs) tWaitNs +
        2 * (16 * Config.params.tBitNs + Config.params.tHalfNs) + Config.params.tBitNs) ≤ t.now)

/-- MRECV's result and frame (R230 to R233, R235): ATTEMPTS is 1 to 3; ACK is not written. Either three attempts failed, each with
FrameStart and the address byte, refused or timed out, and no stop; then the code and SDA are those the last one left, and DATA is
unchanged. Or at most two failed so, and the next had its address acknowledged. Then either the receive timed out at clock k:
TIMEOUT, no stop, SDA released, DATA unchanged; or it gave the eight bits of DATA and the stop followed, complete (OK, SDA
released) or timed out (TIMEOUT, SDA driven low), with DATA written both ways. A byte, a receive or a stop that timed out saw low samples only at its last clock, for the deadline or,
with PRECISE = 1, the ceiling (41_bus_primitives.md R115, R116, `WaitTimedOut`), and nothing follows before that time
(`TriesInOrder`). Each acknowledge and each bit is sampled a bit period
at least after the high sample of SCL of its clock (43_transport.md R172, R180). The latch writes are SetLine's, and there is no event of another
kind (00_scope.md R9, R110, `LinesWritten`). SCL is released. -/
def Obligations.MrecvResult : Prop :=
  ∀ (a : Byte) (s : State), ∃ (t : State) (evs : List Event) (n : BitVec 2), exec (.mrecv a) s = .next t ∧
    t.history = evs.reverse ++ s.history ∧
    t = { s.withEnv t with
      scl := { t.scl with dir := .input }, sda := t.sda, acc := t.acc, bitIdx := t.bitIdx, att := n, t0 := t.t0
      nPoll := t.nPoll, history := t.history
      res := { s.res with code := t.res.code, busy := false, data := t.res.data, attempts := ⟨n, true⟩ } } ∧
    LinesWritten s t evs ∧ ∃ fails : List FailedTry, (∀ f ∈ fails, ReadFailed Config.params s.precise a f) ∧
      ((fails.length = 3 ∧ n = 3#2 ∧ evs = fails.flatMap FailedTry.events ∧ TriesInOrder t.now [] fails ∧
          LastTry fails t.res.code t.sda ∧ t.res.data = s.res.data) ∨
        (fails.length ≤ 2 ∧ n.toNat = fails.length + 1 ∧ ∃ e0 e1 e2, FrameStarted e0 ∧ ByteSent Config.params a false e1 ∧
          ((t.res.code = .timeout ∧ t.sda.dir = .input ∧ t.res.data = s.res.data ∧
              evs = fails.flatMap FailedTry.events ++ (e0 ++ e1 ++ e2) ∧ TriesInOrder t.now (e0 ++ e1 ++ e2) fails ∧
              ReceiveMissed Config.params s.precise t.t0 t.now (sampledLevels .sda e2) e2 ∧
              ∃ k, 1 ≤ k ∧ k ≤ 8 ∧ (sampledLevels .sda e2).length = k - 1 ∧ dirChanges e2 = recvChanges.take (2 * k)) ∨
            (∃ (d : Byte) (e3 : List Event), t.res.data = ⟨d, true⟩ ∧
              evs = fails.flatMap FailedTry.events ++ (e0 ++ e1 ++ e2 ++ e3) ∧
              TriesInOrder t.now (e0 ++ e1 ++ e2 ++ e3) fails ∧ dirChanges e2 = recvChanges ∧
              sampledLevels .sda e2 = [7, 6, 5, 4, 3, 2, 1, 0].map (byteBit d) ∧
              BitsReceived Config.params ([7, 6, 5, 4, 3, 2, 1, 0].map (byteBit d)) e2 ∧
              StopEnded Config.params s.precise t.t0 t.now t.res.code t.sda e3))))

/-- What a successful MRECV shows on SDA at the clocks of its last attempt (R230, R234): the address byte, then releases for the
acknowledge and the eight bits received, then the low of the stop. Its direction changes end with a FrameStart, the byte sent, the
byte received and one FrameStop. -/
def Obligations.MrecvShowsAddressThenReleases : Prop :=
  ∀ (a : Byte) (d : Drive) (s : State), ∃ (t : State) (evs : List Event), exec (.mrecv a) s = .next t ∧ t.history = evs.reverse ++ s.history ∧
    (t.res.code = .ok → ∃ (pre : List Drive) (before : List (Line × Drive)),
      driveAtClocks d evs = pre ++ (byteDrives a ++ List.replicate 9 .released ++ [.out0]) ∧
      dirChanges evs = before ++ (startChanges ++ sendChanges a ++ recvChanges ++ stopChanges) ∧
      (t.res.attempts.value = 1#2 → pre = [] ∧ before = []))

/-- How long a successful MRECV lasts (R235), on its attempt k. -/
def Obligations.MrecvDuration : Prop :=
  ∀ (a : Byte) (s : State), s.precise = false → ∃ t, exec (.mrecv a) s = .next t ∧
    (t.res.code = .ok → s.now +
      ((t.res.attempts.value.toNat - 1) * min (16 * Config.params.tBitNs + Config.params.tHalfNs) tWaitNs +
        (16 * Config.params.tBitNs + Config.params.tHalfNs) + (15 * Config.params.tBitNs + Config.params.tHalfNs) +
        Config.params.tBitNs) ≤ t.now)

/-! ### Commands under a Peer that does not stretch -/

/-- When the Peer never pulls SCL low while the command runs, in none of its own steps of the listed draws (log 2; no command takes
1000 steps then), no command times out: each encodable command but MSEND and MRECV ends with CODE = OK, and those two end with OK
or NAK (R113, R251). -/
def Obligations.UnstretchedCommandsEndOk : Prop :=
  ∀ (i : Instr) (s : State), i.wellFormed = true → 1000 ≤ s.draws.length → s.peer.scl = false →
    (∀ d ∈ s.draws, ∀ q ∈ drives d.own, q.scl = false) →
    ∃ t, exec i s = .next t ∧
      (t.res.code = .ok ∨ (t.res.code = .nak ∧ ((∃ a v, i = .msend a v) ∨ ∃ a, i = .mrecv a)))

/-- What the commands that sample SDA give when the Peer never pulls SCL low and holds SDA at one level, low or not (R171,
R181, R220, R230). SDA held low: SEND reports the acknowledge, RECV and MRECV give 0x00, MSEND and MRECV end OK at the
first attempt with both lines released. SDA never pulled: SEND reports the refusal, RECV gives 0xFF, MSEND and MRECV end
with NAK after three attempts, and MRECV leaves DATA as it was. -/
def Obligations.ConstantPeerResults : Prop :=
  ∀ (low : Bool) (s : State), 1000 ≤ s.draws.length → s.peer = { scl := false, sda := low } →
    (∀ d ∈ s.draws, ∀ q ∈ drives d.own, q = { scl := false, sda := low }) →
    (∀ v, ∃ t, exec (.send v) s = .next t ∧ t.res = { s.res with code := .ok, busy := false, ack := ⟨low, true⟩ }) ∧
    (∃ t, exec .recv s = .next t ∧
      t.res = { s.res with code := .ok, busy := false, data := ⟨if low then 0x00#8 else 0xFF#8, true⟩ }) ∧
    (∀ a v, ∃ t, exec (.msend a v) s = .next t ∧ t.BusReleased ∧
      t.res = { s.res with code := if low then .ok else .nak, busy := false
                           attempts := ⟨if low then 1#2 else 3#2, true⟩ }) ∧
    (∀ a, ∃ t, exec (.mrecv a) s = .next t ∧ t.BusReleased ∧
      t.res = { s.res with code := if low then .ok else .nak, busy := false
                           data := if low then ⟨0x00#8, true⟩ else s.res.data
                           attempts := ⟨if low then 1#2 else 3#2, true⟩ })
end

