-- ==== Sys2Proof/Laws/State.lean ====
section
/-!
SUPPORT. What each state update leaves in each field: one lemma per field per update, so that no proof unfolds a
record update. After them, the same for the pins.
-/

namespace Sys2Proof.Machine

theorem pin_latch_false (p : Pin) (h : ¬p.latch = true) : p = { p with latch := false } := by
  cases p; simpa using h

/-! ### pass -/

@[simp] theorem State.pass_scl (d : Nat) (s : State) : (s.pass d).scl = s.scl := rfl
@[simp] theorem State.pass_sda (d : Nat) (s : State) : (s.pass d).sda = s.sda := rfl
@[simp] theorem State.pass_int (d : Nat) (s : State) : (s.pass d).int = s.int := rfl
@[simp] theorem State.pass_precise (d : Nat) (s : State) : (s.pass d).precise = s.precise := rfl
@[simp] theorem State.pass_irqOff (d : Nat) (s : State) : (s.pass d).irqOff = s.irqOff := rfl
@[simp] theorem State.pass_now (d : Nat) (s : State) : (s.pass d).now = s.now + d + (elapsed s.nextDraw.own - d) := rfl
@[simp] theorem State.pass_cmd (d : Nat) (s : State) : (s.pass d).cmd = s.cmd := rfl
@[simp] theorem State.pass_res (d : Nat) (s : State) : (s.pass d).res = s.res := rfl
@[simp] theorem State.pass_acc (d : Nat) (s : State) : (s.pass d).acc = s.acc := rfl
@[simp] theorem State.pass_bitIdx (d : Nat) (s : State) : (s.pass d).bitIdx = s.bitIdx := rfl
@[simp] theorem State.pass_att (d : Nat) (s : State) : (s.pass d).att = s.att := rfl
@[simp] theorem State.pass_t0 (d : Nat) (s : State) : (s.pass d).t0 = s.t0 := rfl
@[simp] theorem State.pass_nPoll (d : Nat) (s : State) : (s.pass d).nPoll = s.nPoll := rfl
@[simp] theorem State.pass_faultContend (d : Nat) (s : State) : (s.pass d).faultContend = s.faultContend := rfl
@[simp] theorem State.pass_peer (d : Nat) (s : State) : (s.pass d).peer = lastDrive s.peer s.nextDraw.own := rfl
@[simp] theorem State.pass_history (d : Nat) (s : State) : (s.pass d).history = s.history := rfl
@[simp] theorem State.pass_host (d : Nat) (s : State) : (s.pass d).host = s.host := rfl
@[simp] theorem State.pass_draws (d : Nat) (s : State) : (s.pass d).draws = s.draws.tail := rfl
@[simp] theorem State.pass_drawn (d : Nat) (s : State) : (s.pass d).drawn = s.drawn + 1 := rfl

/-! ### peerStep -/

@[simp] theorem State.peerStep_scl (p : PeerLow) (s : State) : (s.peerStep p).scl = s.scl := rfl
@[simp] theorem State.peerStep_sda (p : PeerLow) (s : State) : (s.peerStep p).sda = s.sda := rfl
@[simp] theorem State.peerStep_int (p : PeerLow) (s : State) : (s.peerStep p).int = s.int := rfl
@[simp] theorem State.peerStep_precise (p : PeerLow) (s : State) : (s.peerStep p).precise = s.precise := rfl
@[simp] theorem State.peerStep_irqOff (p : PeerLow) (s : State) : (s.peerStep p).irqOff = s.irqOff := rfl
@[simp] theorem State.peerStep_now (p : PeerLow) (s : State) : (s.peerStep p).now = s.now := rfl
@[simp] theorem State.peerStep_cmd (p : PeerLow) (s : State) : (s.peerStep p).cmd = s.cmd := rfl
@[simp] theorem State.peerStep_res (p : PeerLow) (s : State) : (s.peerStep p).res = s.res := rfl
@[simp] theorem State.peerStep_acc (p : PeerLow) (s : State) : (s.peerStep p).acc = s.acc := rfl
@[simp] theorem State.peerStep_bitIdx (p : PeerLow) (s : State) : (s.peerStep p).bitIdx = s.bitIdx := rfl
@[simp] theorem State.peerStep_att (p : PeerLow) (s : State) : (s.peerStep p).att = s.att := rfl
@[simp] theorem State.peerStep_t0 (p : PeerLow) (s : State) : (s.peerStep p).t0 = s.t0 := rfl
@[simp] theorem State.peerStep_nPoll (p : PeerLow) (s : State) : (s.peerStep p).nPoll = s.nPoll := rfl
@[simp] theorem State.peerStep_faultContend (p : PeerLow) (s : State) : (s.peerStep p).faultContend = s.faultContend := rfl
@[simp] theorem State.peerStep_peer (p : PeerLow) (s : State) : (s.peerStep p).peer = p := rfl
@[simp] theorem State.peerStep_history (p : PeerLow) (s : State) : (s.peerStep p).history = s.history := rfl
@[simp] theorem State.peerStep_host (p : PeerLow) (s : State) : (s.peerStep p).host = s.host := rfl
@[simp] theorem State.peerStep_draws (p : PeerLow) (s : State) : (s.peerStep p).draws = s.draws := rfl
@[simp] theorem State.peerStep_drawn (p : PeerLow) (s : State) : (s.peerStep p).drawn = s.drawn := rfl
@[simp] theorem State.peerStep_nextDraw (p : PeerLow) (s : State) : (s.peerStep p).nextDraw = s.nextDraw := rfl

/-! ### timeStep -/

@[simp] theorem State.timeStep_scl (n : Nat) (s : State) : (s.timeStep n).scl = s.scl := rfl
@[simp] theorem State.timeStep_sda (n : Nat) (s : State) : (s.timeStep n).sda = s.sda := rfl
@[simp] theorem State.timeStep_int (n : Nat) (s : State) : (s.timeStep n).int = s.int := rfl
@[simp] theorem State.timeStep_precise (n : Nat) (s : State) : (s.timeStep n).precise = s.precise := rfl
@[simp] theorem State.timeStep_irqOff (n : Nat) (s : State) : (s.timeStep n).irqOff = s.irqOff := rfl
@[simp] theorem State.timeStep_now (n : Nat) (s : State) : (s.timeStep n).now = s.now + n := rfl
@[simp] theorem State.timeStep_cmd (n : Nat) (s : State) : (s.timeStep n).cmd = s.cmd := rfl
@[simp] theorem State.timeStep_res (n : Nat) (s : State) : (s.timeStep n).res = s.res := rfl
@[simp] theorem State.timeStep_acc (n : Nat) (s : State) : (s.timeStep n).acc = s.acc := rfl
@[simp] theorem State.timeStep_bitIdx (n : Nat) (s : State) : (s.timeStep n).bitIdx = s.bitIdx := rfl
@[simp] theorem State.timeStep_att (n : Nat) (s : State) : (s.timeStep n).att = s.att := rfl
@[simp] theorem State.timeStep_t0 (n : Nat) (s : State) : (s.timeStep n).t0 = s.t0 := rfl
@[simp] theorem State.timeStep_nPoll (n : Nat) (s : State) : (s.timeStep n).nPoll = s.nPoll := rfl
@[simp] theorem State.timeStep_faultContend (n : Nat) (s : State) : (s.timeStep n).faultContend = s.faultContend := rfl
@[simp] theorem State.timeStep_peer (n : Nat) (s : State) : (s.timeStep n).peer = s.peer := rfl
@[simp] theorem State.timeStep_history (n : Nat) (s : State) : (s.timeStep n).history = s.history := rfl
@[simp] theorem State.timeStep_host (n : Nat) (s : State) : (s.timeStep n).host = s.host := rfl
@[simp] theorem State.timeStep_draws (n : Nat) (s : State) : (s.timeStep n).draws = s.draws := rfl
@[simp] theorem State.timeStep_drawn (n : Nat) (s : State) : (s.timeStep n).drawn = s.drawn := rfl
@[simp] theorem State.timeStep_nextDraw (n : Nat) (s : State) : (s.timeStep n).nextDraw = s.nextDraw := rfl

/-! ### accept -/

@[simp] theorem State.accept_scl (w : Word) (s : State) : (s.accept w).scl = s.scl := rfl
@[simp] theorem State.accept_sda (w : Word) (s : State) : (s.accept w).sda = s.sda := rfl
@[simp] theorem State.accept_int (w : Word) (s : State) : (s.accept w).int = s.int := rfl
@[simp] theorem State.accept_precise (w : Word) (s : State) : (s.accept w).precise = s.precise := rfl
@[simp] theorem State.accept_irqOff (w : Word) (s : State) : (s.accept w).irqOff = s.irqOff := rfl
@[simp] theorem State.accept_now (w : Word) (s : State) : (s.accept w).now = s.now := rfl
@[simp] theorem State.accept_cmd (w : Word) (s : State) : (s.accept w).cmd = w := rfl
@[simp] theorem State.accept_res (w : Word) (s : State) : (s.accept w).res = { s.res with busy := true } := rfl
@[simp] theorem State.accept_acc (w : Word) (s : State) : (s.accept w).acc = s.acc := rfl
@[simp] theorem State.accept_bitIdx (w : Word) (s : State) : (s.accept w).bitIdx = s.bitIdx := rfl
@[simp] theorem State.accept_att (w : Word) (s : State) : (s.accept w).att = s.att := rfl
@[simp] theorem State.accept_t0 (w : Word) (s : State) : (s.accept w).t0 = s.t0 := rfl
@[simp] theorem State.accept_nPoll (w : Word) (s : State) : (s.accept w).nPoll = s.nPoll := rfl
@[simp] theorem State.accept_faultContend (w : Word) (s : State) : (s.accept w).faultContend = s.faultContend := rfl
@[simp] theorem State.accept_peer (w : Word) (s : State) : (s.accept w).peer = s.peer := rfl
@[simp] theorem State.accept_history (w : Word) (s : State) : (s.accept w).history = s.history := rfl
@[simp] theorem State.accept_host (w : Word) (s : State) : (s.accept w).host = s.host := rfl
@[simp] theorem State.accept_draws (w : Word) (s : State) : (s.accept w).draws = s.draws := rfl
@[simp] theorem State.accept_drawn (w : Word) (s : State) : (s.accept w).drawn = s.drawn := rfl
@[simp] theorem State.accept_nextDraw (w : Word) (s : State) : (s.accept w).nextDraw = s.nextDraw := rfl

/-! ### record -/

@[simp] theorem State.record_scl (e : Event) (s : State) : (s.record e).scl = s.scl := rfl
@[simp] theorem State.record_sda (e : Event) (s : State) : (s.record e).sda = s.sda := rfl
@[simp] theorem State.record_int (e : Event) (s : State) : (s.record e).int = s.int := rfl
@[simp] theorem State.record_precise (e : Event) (s : State) : (s.record e).precise = s.precise := rfl
@[simp] theorem State.record_irqOff (e : Event) (s : State) : (s.record e).irqOff = s.irqOff := rfl
@[simp] theorem State.record_now (e : Event) (s : State) : (s.record e).now = s.now := rfl
@[simp] theorem State.record_cmd (e : Event) (s : State) : (s.record e).cmd = s.cmd := rfl
@[simp] theorem State.record_res (e : Event) (s : State) : (s.record e).res = s.res := rfl
@[simp] theorem State.record_acc (e : Event) (s : State) : (s.record e).acc = s.acc := rfl
@[simp] theorem State.record_bitIdx (e : Event) (s : State) : (s.record e).bitIdx = s.bitIdx := rfl
@[simp] theorem State.record_att (e : Event) (s : State) : (s.record e).att = s.att := rfl
@[simp] theorem State.record_t0 (e : Event) (s : State) : (s.record e).t0 = s.t0 := rfl
@[simp] theorem State.record_nPoll (e : Event) (s : State) : (s.record e).nPoll = s.nPoll := rfl
@[simp] theorem State.record_faultContend (e : Event) (s : State) : (s.record e).faultContend = s.faultContend := rfl
@[simp] theorem State.record_peer (e : Event) (s : State) : (s.record e).peer = s.peer := rfl
@[simp] theorem State.record_history (e : Event) (s : State) : (s.record e).history = e :: s.history := rfl
@[simp] theorem State.record_host (e : Event) (s : State) : (s.record e).host = s.host := rfl
@[simp] theorem State.record_draws (e : Event) (s : State) : (s.record e).draws = s.draws := rfl
@[simp] theorem State.record_drawn (e : Event) (s : State) : (s.record e).drawn = s.drawn := rfl
@[simp] theorem State.record_nextDraw (e : Event) (s : State) : (s.record e).nextDraw = s.nextDraw := rfl

/-! ### setCode -/

@[simp] theorem State.setCode_scl (c : Code) (s : State) : (s.setCode c).scl = s.scl := rfl
@[simp] theorem State.setCode_sda (c : Code) (s : State) : (s.setCode c).sda = s.sda := rfl
@[simp] theorem State.setCode_int (c : Code) (s : State) : (s.setCode c).int = s.int := rfl
@[simp] theorem State.setCode_precise (c : Code) (s : State) : (s.setCode c).precise = s.precise := rfl
@[simp] theorem State.setCode_irqOff (c : Code) (s : State) : (s.setCode c).irqOff = s.irqOff := rfl
@[simp] theorem State.setCode_now (c : Code) (s : State) : (s.setCode c).now = s.now := rfl
@[simp] theorem State.setCode_cmd (c : Code) (s : State) : (s.setCode c).cmd = s.cmd := rfl
@[simp] theorem State.setCode_res (c : Code) (s : State) : (s.setCode c).res = { s.res with code := c } := rfl
@[simp] theorem State.setCode_acc (c : Code) (s : State) : (s.setCode c).acc = s.acc := rfl
@[simp] theorem State.setCode_bitIdx (c : Code) (s : State) : (s.setCode c).bitIdx = s.bitIdx := rfl
@[simp] theorem State.setCode_att (c : Code) (s : State) : (s.setCode c).att = s.att := rfl
@[simp] theorem State.setCode_t0 (c : Code) (s : State) : (s.setCode c).t0 = s.t0 := rfl
@[simp] theorem State.setCode_nPoll (c : Code) (s : State) : (s.setCode c).nPoll = s.nPoll := rfl
@[simp] theorem State.setCode_faultContend (c : Code) (s : State) : (s.setCode c).faultContend = s.faultContend := rfl
@[simp] theorem State.setCode_peer (c : Code) (s : State) : (s.setCode c).peer = s.peer := rfl
@[simp] theorem State.setCode_history (c : Code) (s : State) : (s.setCode c).history = s.history := rfl
@[simp] theorem State.setCode_host (c : Code) (s : State) : (s.setCode c).host = s.host := rfl
@[simp] theorem State.setCode_draws (c : Code) (s : State) : (s.setCode c).draws = s.draws := rfl
@[simp] theorem State.setCode_drawn (c : Code) (s : State) : (s.setCode c).drawn = s.drawn := rfl
@[simp] theorem State.setCode_nextDraw (c : Code) (s : State) : (s.setCode c).nextDraw = s.nextDraw := rfl

/-! ### setBusy -/

@[simp] theorem State.setBusy_scl (b : Bool) (s : State) : (s.setBusy b).scl = s.scl := rfl
@[simp] theorem State.setBusy_sda (b : Bool) (s : State) : (s.setBusy b).sda = s.sda := rfl
@[simp] theorem State.setBusy_int (b : Bool) (s : State) : (s.setBusy b).int = s.int := rfl
@[simp] theorem State.setBusy_precise (b : Bool) (s : State) : (s.setBusy b).precise = s.precise := rfl
@[simp] theorem State.setBusy_irqOff (b : Bool) (s : State) : (s.setBusy b).irqOff = s.irqOff := rfl
@[simp] theorem State.setBusy_now (b : Bool) (s : State) : (s.setBusy b).now = s.now := rfl
@[simp] theorem State.setBusy_cmd (b : Bool) (s : State) : (s.setBusy b).cmd = s.cmd := rfl
@[simp] theorem State.setBusy_res (b : Bool) (s : State) : (s.setBusy b).res = { s.res with busy := b } := rfl
@[simp] theorem State.setBusy_acc (b : Bool) (s : State) : (s.setBusy b).acc = s.acc := rfl
@[simp] theorem State.setBusy_bitIdx (b : Bool) (s : State) : (s.setBusy b).bitIdx = s.bitIdx := rfl
@[simp] theorem State.setBusy_att (b : Bool) (s : State) : (s.setBusy b).att = s.att := rfl
@[simp] theorem State.setBusy_t0 (b : Bool) (s : State) : (s.setBusy b).t0 = s.t0 := rfl
@[simp] theorem State.setBusy_nPoll (b : Bool) (s : State) : (s.setBusy b).nPoll = s.nPoll := rfl
@[simp] theorem State.setBusy_faultContend (b : Bool) (s : State) : (s.setBusy b).faultContend = s.faultContend := rfl
@[simp] theorem State.setBusy_peer (b : Bool) (s : State) : (s.setBusy b).peer = s.peer := rfl
@[simp] theorem State.setBusy_history (b : Bool) (s : State) : (s.setBusy b).history = s.history := rfl
@[simp] theorem State.setBusy_host (b : Bool) (s : State) : (s.setBusy b).host = s.host := rfl
@[simp] theorem State.setBusy_draws (b : Bool) (s : State) : (s.setBusy b).draws = s.draws := rfl
@[simp] theorem State.setBusy_drawn (b : Bool) (s : State) : (s.setBusy b).drawn = s.drawn := rfl
@[simp] theorem State.setBusy_nextDraw (b : Bool) (s : State) : (s.setBusy b).nextDraw = s.nextDraw := rfl

/-! ### setAck -/

@[simp] theorem State.setAck_scl (b : Bool) (s : State) : (s.setAck b).scl = s.scl := rfl
@[simp] theorem State.setAck_sda (b : Bool) (s : State) : (s.setAck b).sda = s.sda := rfl
@[simp] theorem State.setAck_int (b : Bool) (s : State) : (s.setAck b).int = s.int := rfl
@[simp] theorem State.setAck_precise (b : Bool) (s : State) : (s.setAck b).precise = s.precise := rfl
@[simp] theorem State.setAck_irqOff (b : Bool) (s : State) : (s.setAck b).irqOff = s.irqOff := rfl
@[simp] theorem State.setAck_now (b : Bool) (s : State) : (s.setAck b).now = s.now := rfl
@[simp] theorem State.setAck_cmd (b : Bool) (s : State) : (s.setAck b).cmd = s.cmd := rfl
@[simp] theorem State.setAck_res (b : Bool) (s : State) : (s.setAck b).res = { s.res with ack := ⟨b, true⟩ } := rfl
@[simp] theorem State.setAck_acc (b : Bool) (s : State) : (s.setAck b).acc = s.acc := rfl
@[simp] theorem State.setAck_bitIdx (b : Bool) (s : State) : (s.setAck b).bitIdx = s.bitIdx := rfl
@[simp] theorem State.setAck_att (b : Bool) (s : State) : (s.setAck b).att = s.att := rfl
@[simp] theorem State.setAck_t0 (b : Bool) (s : State) : (s.setAck b).t0 = s.t0 := rfl
@[simp] theorem State.setAck_nPoll (b : Bool) (s : State) : (s.setAck b).nPoll = s.nPoll := rfl
@[simp] theorem State.setAck_faultContend (b : Bool) (s : State) : (s.setAck b).faultContend = s.faultContend := rfl
@[simp] theorem State.setAck_peer (b : Bool) (s : State) : (s.setAck b).peer = s.peer := rfl
@[simp] theorem State.setAck_history (b : Bool) (s : State) : (s.setAck b).history = s.history := rfl
@[simp] theorem State.setAck_host (b : Bool) (s : State) : (s.setAck b).host = s.host := rfl
@[simp] theorem State.setAck_draws (b : Bool) (s : State) : (s.setAck b).draws = s.draws := rfl
@[simp] theorem State.setAck_drawn (b : Bool) (s : State) : (s.setAck b).drawn = s.drawn := rfl
@[simp] theorem State.setAck_nextDraw (b : Bool) (s : State) : (s.setAck b).nextDraw = s.nextDraw := rfl

/-! ### setLvl -/

@[simp] theorem State.setLvl_scl (b : Bool) (s : State) : (s.setLvl b).scl = s.scl := rfl
@[simp] theorem State.setLvl_sda (b : Bool) (s : State) : (s.setLvl b).sda = s.sda := rfl
@[simp] theorem State.setLvl_int (b : Bool) (s : State) : (s.setLvl b).int = s.int := rfl
@[simp] theorem State.setLvl_precise (b : Bool) (s : State) : (s.setLvl b).precise = s.precise := rfl
@[simp] theorem State.setLvl_irqOff (b : Bool) (s : State) : (s.setLvl b).irqOff = s.irqOff := rfl
@[simp] theorem State.setLvl_now (b : Bool) (s : State) : (s.setLvl b).now = s.now := rfl
@[simp] theorem State.setLvl_cmd (b : Bool) (s : State) : (s.setLvl b).cmd = s.cmd := rfl
@[simp] theorem State.setLvl_res (b : Bool) (s : State) : (s.setLvl b).res = { s.res with lvl := ⟨b, true⟩ } := rfl
@[simp] theorem State.setLvl_acc (b : Bool) (s : State) : (s.setLvl b).acc = s.acc := rfl
@[simp] theorem State.setLvl_bitIdx (b : Bool) (s : State) : (s.setLvl b).bitIdx = s.bitIdx := rfl
@[simp] theorem State.setLvl_att (b : Bool) (s : State) : (s.setLvl b).att = s.att := rfl
@[simp] theorem State.setLvl_t0 (b : Bool) (s : State) : (s.setLvl b).t0 = s.t0 := rfl
@[simp] theorem State.setLvl_nPoll (b : Bool) (s : State) : (s.setLvl b).nPoll = s.nPoll := rfl
@[simp] theorem State.setLvl_faultContend (b : Bool) (s : State) : (s.setLvl b).faultContend = s.faultContend := rfl
@[simp] theorem State.setLvl_peer (b : Bool) (s : State) : (s.setLvl b).peer = s.peer := rfl
@[simp] theorem State.setLvl_history (b : Bool) (s : State) : (s.setLvl b).history = s.history := rfl
@[simp] theorem State.setLvl_host (b : Bool) (s : State) : (s.setLvl b).host = s.host := rfl
@[simp] theorem State.setLvl_draws (b : Bool) (s : State) : (s.setLvl b).draws = s.draws := rfl
@[simp] theorem State.setLvl_drawn (b : Bool) (s : State) : (s.setLvl b).drawn = s.drawn := rfl
@[simp] theorem State.setLvl_nextDraw (b : Bool) (s : State) : (s.setLvl b).nextDraw = s.nextDraw := rfl

/-! ### dataFromAcc -/

@[simp] theorem State.dataFromAcc_scl (s : State) : (s.dataFromAcc).scl = s.scl := rfl
@[simp] theorem State.dataFromAcc_sda (s : State) : (s.dataFromAcc).sda = s.sda := rfl
@[simp] theorem State.dataFromAcc_int (s : State) : (s.dataFromAcc).int = s.int := rfl
@[simp] theorem State.dataFromAcc_precise (s : State) : (s.dataFromAcc).precise = s.precise := rfl
@[simp] theorem State.dataFromAcc_irqOff (s : State) : (s.dataFromAcc).irqOff = s.irqOff := rfl
@[simp] theorem State.dataFromAcc_now (s : State) : (s.dataFromAcc).now = s.now := rfl
@[simp] theorem State.dataFromAcc_cmd (s : State) : (s.dataFromAcc).cmd = s.cmd := rfl
@[simp] theorem State.dataFromAcc_res (s : State) : (s.dataFromAcc).res = { s.res with data := ⟨s.acc, true⟩ } := rfl
@[simp] theorem State.dataFromAcc_acc (s : State) : (s.dataFromAcc).acc = s.acc := rfl
@[simp] theorem State.dataFromAcc_bitIdx (s : State) : (s.dataFromAcc).bitIdx = s.bitIdx := rfl
@[simp] theorem State.dataFromAcc_att (s : State) : (s.dataFromAcc).att = s.att := rfl
@[simp] theorem State.dataFromAcc_t0 (s : State) : (s.dataFromAcc).t0 = s.t0 := rfl
@[simp] theorem State.dataFromAcc_nPoll (s : State) : (s.dataFromAcc).nPoll = s.nPoll := rfl
@[simp] theorem State.dataFromAcc_faultContend (s : State) : (s.dataFromAcc).faultContend = s.faultContend := rfl
@[simp] theorem State.dataFromAcc_peer (s : State) : (s.dataFromAcc).peer = s.peer := rfl
@[simp] theorem State.dataFromAcc_history (s : State) : (s.dataFromAcc).history = s.history := rfl
@[simp] theorem State.dataFromAcc_host (s : State) : (s.dataFromAcc).host = s.host := rfl
@[simp] theorem State.dataFromAcc_draws (s : State) : (s.dataFromAcc).draws = s.draws := rfl
@[simp] theorem State.dataFromAcc_drawn (s : State) : (s.dataFromAcc).drawn = s.drawn := rfl
@[simp] theorem State.dataFromAcc_nextDraw (s : State) : (s.dataFromAcc).nextDraw = s.nextDraw := rfl

/-! ### attemptsFromAtt -/

@[simp] theorem State.attemptsFromAtt_scl (s : State) : (s.attemptsFromAtt).scl = s.scl := rfl
@[simp] theorem State.attemptsFromAtt_sda (s : State) : (s.attemptsFromAtt).sda = s.sda := rfl
@[simp] theorem State.attemptsFromAtt_int (s : State) : (s.attemptsFromAtt).int = s.int := rfl
@[simp] theorem State.attemptsFromAtt_precise (s : State) : (s.attemptsFromAtt).precise = s.precise := rfl
@[simp] theorem State.attemptsFromAtt_irqOff (s : State) : (s.attemptsFromAtt).irqOff = s.irqOff := rfl
@[simp] theorem State.attemptsFromAtt_now (s : State) : (s.attemptsFromAtt).now = s.now := rfl
@[simp] theorem State.attemptsFromAtt_cmd (s : State) : (s.attemptsFromAtt).cmd = s.cmd := rfl
@[simp] theorem State.attemptsFromAtt_res (s : State) : (s.attemptsFromAtt).res = { s.res with attempts := ⟨s.att, true⟩ } := rfl
@[simp] theorem State.attemptsFromAtt_acc (s : State) : (s.attemptsFromAtt).acc = s.acc := rfl
@[simp] theorem State.attemptsFromAtt_bitIdx (s : State) : (s.attemptsFromAtt).bitIdx = s.bitIdx := rfl
@[simp] theorem State.attemptsFromAtt_att (s : State) : (s.attemptsFromAtt).att = s.att := rfl
@[simp] theorem State.attemptsFromAtt_t0 (s : State) : (s.attemptsFromAtt).t0 = s.t0 := rfl
@[simp] theorem State.attemptsFromAtt_nPoll (s : State) : (s.attemptsFromAtt).nPoll = s.nPoll := rfl
@[simp] theorem State.attemptsFromAtt_faultContend (s : State) : (s.attemptsFromAtt).faultContend = s.faultContend := rfl
@[simp] theorem State.attemptsFromAtt_peer (s : State) : (s.attemptsFromAtt).peer = s.peer := rfl
@[simp] theorem State.attemptsFromAtt_history (s : State) : (s.attemptsFromAtt).history = s.history := rfl
@[simp] theorem State.attemptsFromAtt_host (s : State) : (s.attemptsFromAtt).host = s.host := rfl
@[simp] theorem State.attemptsFromAtt_draws (s : State) : (s.attemptsFromAtt).draws = s.draws := rfl
@[simp] theorem State.attemptsFromAtt_drawn (s : State) : (s.attemptsFromAtt).drawn = s.drawn := rfl
@[simp] theorem State.attemptsFromAtt_nextDraw (s : State) : (s.attemptsFromAtt).nextDraw = s.nextDraw := rfl

/-! ### setPin -/

@[simp] theorem State.setPin_scl (l : Line) (p : Pin) (s : State) : (s.setPin l p).scl = if l = .scl then p else s.scl := by cases l <;> rfl
@[simp] theorem State.setPin_sda (l : Line) (p : Pin) (s : State) : (s.setPin l p).sda = if l = .sda then p else s.sda := by cases l <;> rfl
@[simp] theorem State.setPin_int (l : Line) (p : Pin) (s : State) : (s.setPin l p).int = if l = .int then p else s.int := by cases l <;> rfl
@[simp] theorem State.setPin_precise (l : Line) (p : Pin) (s : State) : (s.setPin l p).precise = s.precise := by cases l <;> rfl
@[simp] theorem State.setPin_irqOff (l : Line) (p : Pin) (s : State) : (s.setPin l p).irqOff = s.irqOff := by cases l <;> rfl
@[simp] theorem State.setPin_now (l : Line) (p : Pin) (s : State) : (s.setPin l p).now = s.now := by cases l <;> rfl
@[simp] theorem State.setPin_cmd (l : Line) (p : Pin) (s : State) : (s.setPin l p).cmd = s.cmd := by cases l <;> rfl
@[simp] theorem State.setPin_res (l : Line) (p : Pin) (s : State) : (s.setPin l p).res = s.res := by cases l <;> rfl
@[simp] theorem State.setPin_acc (l : Line) (p : Pin) (s : State) : (s.setPin l p).acc = s.acc := by cases l <;> rfl
@[simp] theorem State.setPin_bitIdx (l : Line) (p : Pin) (s : State) : (s.setPin l p).bitIdx = s.bitIdx := by cases l <;> rfl
@[simp] theorem State.setPin_att (l : Line) (p : Pin) (s : State) : (s.setPin l p).att = s.att := by cases l <;> rfl
@[simp] theorem State.setPin_t0 (l : Line) (p : Pin) (s : State) : (s.setPin l p).t0 = s.t0 := by cases l <;> rfl
@[simp] theorem State.setPin_nPoll (l : Line) (p : Pin) (s : State) : (s.setPin l p).nPoll = s.nPoll := by cases l <;> rfl
@[simp] theorem State.setPin_faultContend (l : Line) (p : Pin) (s : State) : (s.setPin l p).faultContend = s.faultContend := by cases l <;> rfl
@[simp] theorem State.setPin_peer (l : Line) (p : Pin) (s : State) : (s.setPin l p).peer = s.peer := by cases l <;> rfl
@[simp] theorem State.setPin_history (l : Line) (p : Pin) (s : State) : (s.setPin l p).history = s.history := by cases l <;> rfl
@[simp] theorem State.setPin_host (l : Line) (p : Pin) (s : State) : (s.setPin l p).host = s.host := by cases l <;> rfl
@[simp] theorem State.setPin_draws (l : Line) (p : Pin) (s : State) : (s.setPin l p).draws = s.draws := by cases l <;> rfl
@[simp] theorem State.setPin_drawn (l : Line) (p : Pin) (s : State) : (s.setPin l p).drawn = s.drawn := by cases l <;> rfl
@[simp] theorem State.setPin_nextDraw (l : Line) (p : Pin) (s : State) : (s.setPin l p).nextDraw = s.nextDraw := by cases l <;> rfl

/-! ### writeDir -/

@[simp] theorem State.writeDir_scl (l : Line) (d : Dir) (s : State) : (s.writeDir l d).scl = if l = .scl then { s.scl with dir := d } else s.scl := by cases l <;> rfl
@[simp] theorem State.writeDir_sda (l : Line) (d : Dir) (s : State) : (s.writeDir l d).sda = if l = .sda then { s.sda with dir := d } else s.sda := by cases l <;> rfl
@[simp] theorem State.writeDir_int (l : Line) (d : Dir) (s : State) : (s.writeDir l d).int = if l = .int then { s.int with dir := d } else s.int := by cases l <;> rfl
@[simp] theorem State.writeDir_precise (l : Line) (d : Dir) (s : State) : (s.writeDir l d).precise = s.precise := by cases l <;> rfl
@[simp] theorem State.writeDir_irqOff (l : Line) (d : Dir) (s : State) : (s.writeDir l d).irqOff = s.irqOff := by cases l <;> rfl
@[simp] theorem State.writeDir_now (l : Line) (d : Dir) (s : State) : (s.writeDir l d).now = s.now := by cases l <;> rfl
@[simp] theorem State.writeDir_cmd (l : Line) (d : Dir) (s : State) : (s.writeDir l d).cmd = s.cmd := by cases l <;> rfl
@[simp] theorem State.writeDir_res (l : Line) (d : Dir) (s : State) : (s.writeDir l d).res = s.res := by cases l <;> rfl
@[simp] theorem State.writeDir_acc (l : Line) (d : Dir) (s : State) : (s.writeDir l d).acc = s.acc := by cases l <;> rfl
@[simp] theorem State.writeDir_bitIdx (l : Line) (d : Dir) (s : State) : (s.writeDir l d).bitIdx = s.bitIdx := by cases l <;> rfl
@[simp] theorem State.writeDir_att (l : Line) (d : Dir) (s : State) : (s.writeDir l d).att = s.att := by cases l <;> rfl
@[simp] theorem State.writeDir_t0 (l : Line) (d : Dir) (s : State) : (s.writeDir l d).t0 = s.t0 := by cases l <;> rfl
@[simp] theorem State.writeDir_nPoll (l : Line) (d : Dir) (s : State) : (s.writeDir l d).nPoll = s.nPoll := by cases l <;> rfl
@[simp] theorem State.writeDir_faultContend (l : Line) (d : Dir) (s : State) : (s.writeDir l d).faultContend = s.faultContend := by cases l <;> rfl
@[simp] theorem State.writeDir_peer (l : Line) (d : Dir) (s : State) : (s.writeDir l d).peer = s.peer := by cases l <;> rfl
@[simp] theorem State.writeDir_history (l : Line) (d : Dir) (s : State) : (s.writeDir l d).history = .dir l (driveOf d (s.pin l).latch) s.now :: s.history := by cases l <;> rfl
@[simp] theorem State.writeDir_host (l : Line) (d : Dir) (s : State) : (s.writeDir l d).host = s.host := by cases l <;> rfl
@[simp] theorem State.writeDir_draws (l : Line) (d : Dir) (s : State) : (s.writeDir l d).draws = s.draws := by cases l <;> rfl
@[simp] theorem State.writeDir_drawn (l : Line) (d : Dir) (s : State) : (s.writeDir l d).drawn = s.drawn := by cases l <;> rfl
@[simp] theorem State.writeDir_nextDraw (l : Line) (d : Dir) (s : State) : (s.writeDir l d).nextDraw = s.nextDraw := by cases l <;> rfl

/-! ### writeLatch -/

@[simp] theorem State.writeLatch_scl (l : Line) (v : Bool) (s : State) : (s.writeLatch l v).scl = if l = .scl then { s.scl with latch := v } else s.scl := by cases l <;> rfl
@[simp] theorem State.writeLatch_sda (l : Line) (v : Bool) (s : State) : (s.writeLatch l v).sda = if l = .sda then { s.sda with latch := v } else s.sda := by cases l <;> rfl
@[simp] theorem State.writeLatch_int (l : Line) (v : Bool) (s : State) : (s.writeLatch l v).int = if l = .int then { s.int with latch := v } else s.int := by cases l <;> rfl
@[simp] theorem State.writeLatch_precise (l : Line) (v : Bool) (s : State) : (s.writeLatch l v).precise = s.precise := by cases l <;> rfl
@[simp] theorem State.writeLatch_irqOff (l : Line) (v : Bool) (s : State) : (s.writeLatch l v).irqOff = s.irqOff := by cases l <;> rfl
@[simp] theorem State.writeLatch_now (l : Line) (v : Bool) (s : State) : (s.writeLatch l v).now = s.now := by cases l <;> rfl
@[simp] theorem State.writeLatch_cmd (l : Line) (v : Bool) (s : State) : (s.writeLatch l v).cmd = s.cmd := by cases l <;> rfl
@[simp] theorem State.writeLatch_res (l : Line) (v : Bool) (s : State) : (s.writeLatch l v).res = s.res := by cases l <;> rfl
@[simp] theorem State.writeLatch_acc (l : Line) (v : Bool) (s : State) : (s.writeLatch l v).acc = s.acc := by cases l <;> rfl
@[simp] theorem State.writeLatch_bitIdx (l : Line) (v : Bool) (s : State) : (s.writeLatch l v).bitIdx = s.bitIdx := by cases l <;> rfl
@[simp] theorem State.writeLatch_att (l : Line) (v : Bool) (s : State) : (s.writeLatch l v).att = s.att := by cases l <;> rfl
@[simp] theorem State.writeLatch_t0 (l : Line) (v : Bool) (s : State) : (s.writeLatch l v).t0 = s.t0 := by cases l <;> rfl
@[simp] theorem State.writeLatch_nPoll (l : Line) (v : Bool) (s : State) : (s.writeLatch l v).nPoll = s.nPoll := by cases l <;> rfl
@[simp] theorem State.writeLatch_faultContend (l : Line) (v : Bool) (s : State) : (s.writeLatch l v).faultContend = s.faultContend := by cases l <;> rfl
@[simp] theorem State.writeLatch_peer (l : Line) (v : Bool) (s : State) : (s.writeLatch l v).peer = s.peer := by cases l <;> rfl
@[simp] theorem State.writeLatch_history (l : Line) (v : Bool) (s : State) : (s.writeLatch l v).history = .latch l v s.now :: s.history := by cases l <;> rfl
@[simp] theorem State.writeLatch_host (l : Line) (v : Bool) (s : State) : (s.writeLatch l v).host = s.host := by cases l <;> rfl
@[simp] theorem State.writeLatch_draws (l : Line) (v : Bool) (s : State) : (s.writeLatch l v).draws = s.draws := by cases l <;> rfl
@[simp] theorem State.writeLatch_drawn (l : Line) (v : Bool) (s : State) : (s.writeLatch l v).drawn = s.drawn := by cases l <;> rfl
@[simp] theorem State.writeLatch_nextDraw (l : Line) (v : Bool) (s : State) : (s.writeLatch l v).nextDraw = s.nextDraw := by cases l <;> rfl

/-! ### clearLatch -/

@[simp] theorem State.clearLatch_scl (l : Line) (s : State) : (s.clearLatch l).scl = if l = .scl then { s.scl with latch := false } else s.scl := by
  unfold State.clearLatch
  split
  · cases l <;> rfl
  · cases l <;> first | rfl | (rw [if_pos rfl]; exact pin_latch_false _ ‹_›)
@[simp] theorem State.clearLatch_sda (l : Line) (s : State) : (s.clearLatch l).sda = if l = .sda then { s.sda with latch := false } else s.sda := by
  unfold State.clearLatch
  split
  · cases l <;> rfl
  · cases l <;> first | rfl | (rw [if_pos rfl]; exact pin_latch_false _ ‹_›)
@[simp] theorem State.clearLatch_int (l : Line) (s : State) : (s.clearLatch l).int = if l = .int then { s.int with latch := false } else s.int := by
  unfold State.clearLatch
  split
  · cases l <;> rfl
  · cases l <;> first | rfl | (rw [if_pos rfl]; exact pin_latch_false _ ‹_›)
@[simp] theorem State.clearLatch_precise (l : Line) (s : State) : (s.clearLatch l).precise = s.precise := by unfold State.clearLatch; split <;> cases l <;> rfl
@[simp] theorem State.clearLatch_irqOff (l : Line) (s : State) : (s.clearLatch l).irqOff = s.irqOff := by unfold State.clearLatch; split <;> cases l <;> rfl
@[simp] theorem State.clearLatch_now (l : Line) (s : State) : (s.clearLatch l).now = s.now := by unfold State.clearLatch; split <;> cases l <;> rfl
@[simp] theorem State.clearLatch_cmd (l : Line) (s : State) : (s.clearLatch l).cmd = s.cmd := by unfold State.clearLatch; split <;> cases l <;> rfl
@[simp] theorem State.clearLatch_res (l : Line) (s : State) : (s.clearLatch l).res = s.res := by unfold State.clearLatch; split <;> cases l <;> rfl
@[simp] theorem State.clearLatch_acc (l : Line) (s : State) : (s.clearLatch l).acc = s.acc := by unfold State.clearLatch; split <;> cases l <;> rfl
@[simp] theorem State.clearLatch_bitIdx (l : Line) (s : State) : (s.clearLatch l).bitIdx = s.bitIdx := by unfold State.clearLatch; split <;> cases l <;> rfl
@[simp] theorem State.clearLatch_att (l : Line) (s : State) : (s.clearLatch l).att = s.att := by unfold State.clearLatch; split <;> cases l <;> rfl
@[simp] theorem State.clearLatch_t0 (l : Line) (s : State) : (s.clearLatch l).t0 = s.t0 := by unfold State.clearLatch; split <;> cases l <;> rfl
@[simp] theorem State.clearLatch_nPoll (l : Line) (s : State) : (s.clearLatch l).nPoll = s.nPoll := by unfold State.clearLatch; split <;> cases l <;> rfl
@[simp] theorem State.clearLatch_faultContend (l : Line) (s : State) : (s.clearLatch l).faultContend = s.faultContend := by unfold State.clearLatch; split <;> cases l <;> rfl
@[simp] theorem State.clearLatch_peer (l : Line) (s : State) : (s.clearLatch l).peer = s.peer := by unfold State.clearLatch; split <;> cases l <;> rfl
@[simp] theorem State.clearLatch_history (l : Line) (s : State) : (s.clearLatch l).history = (if (s.pin l).latch then [.latch l false s.now] else []) ++ s.history := by unfold State.clearLatch State.writeLatch State.record; split <;> simp_all
@[simp] theorem State.clearLatch_host (l : Line) (s : State) : (s.clearLatch l).host = s.host := by unfold State.clearLatch; split <;> cases l <;> rfl
@[simp] theorem State.clearLatch_draws (l : Line) (s : State) : (s.clearLatch l).draws = s.draws := by unfold State.clearLatch; split <;> cases l <;> rfl
@[simp] theorem State.clearLatch_drawn (l : Line) (s : State) : (s.clearLatch l).drawn = s.drawn := by unfold State.clearLatch; split <;> cases l <;> rfl
@[simp] theorem State.clearLatch_nextDraw (l : Line) (s : State) : (s.clearLatch l).nextDraw = s.nextDraw := by unfold State.clearLatch; split <;> cases l <;> rfl

/-! ### sampled -/

@[simp] theorem State.sampled_scl (l : Line) (free : Bool) (s : State) : (s.sampled l free).scl = s.scl := by unfold State.sampled; split <;> rfl
@[simp] theorem State.sampled_sda (l : Line) (free : Bool) (s : State) : (s.sampled l free).sda = s.sda := by unfold State.sampled; split <;> rfl
@[simp] theorem State.sampled_int (l : Line) (free : Bool) (s : State) : (s.sampled l free).int = s.int := by unfold State.sampled; split <;> rfl
@[simp] theorem State.sampled_precise (l : Line) (free : Bool) (s : State) : (s.sampled l free).precise = s.precise := by unfold State.sampled; split <;> rfl
@[simp] theorem State.sampled_irqOff (l : Line) (free : Bool) (s : State) : (s.sampled l free).irqOff = s.irqOff := by unfold State.sampled; split <;> rfl
@[simp] theorem State.sampled_now (l : Line) (free : Bool) (s : State) : (s.sampled l free).now = s.now := by unfold State.sampled; split <;> rfl
@[simp] theorem State.sampled_cmd (l : Line) (free : Bool) (s : State) : (s.sampled l free).cmd = s.cmd := by unfold State.sampled; split <;> rfl
@[simp] theorem State.sampled_res (l : Line) (free : Bool) (s : State) : (s.sampled l free).res = s.res := by unfold State.sampled; split <;> rfl
@[simp] theorem State.sampled_acc (l : Line) (free : Bool) (s : State) : (s.sampled l free).acc = s.acc := by unfold State.sampled; split <;> rfl
@[simp] theorem State.sampled_bitIdx (l : Line) (free : Bool) (s : State) : (s.sampled l free).bitIdx = s.bitIdx := by unfold State.sampled; split <;> rfl
@[simp] theorem State.sampled_att (l : Line) (free : Bool) (s : State) : (s.sampled l free).att = s.att := by unfold State.sampled; split <;> rfl
@[simp] theorem State.sampled_t0 (l : Line) (free : Bool) (s : State) : (s.sampled l free).t0 = s.t0 := by unfold State.sampled; split <;> rfl
@[simp] theorem State.sampled_nPoll (l : Line) (free : Bool) (s : State) : (s.sampled l free).nPoll = s.nPoll := by unfold State.sampled; split <;> rfl
@[simp] theorem State.sampled_faultContend (l : Line) (free : Bool) (s : State) : (s.sampled l free).faultContend = (s.faultContend || s.contends l) := by unfold State.sampled; split <;> simp_all [State.record]
@[simp] theorem State.sampled_peer (l : Line) (free : Bool) (s : State) : (s.sampled l free).peer = s.peer := by unfold State.sampled; split <;> rfl
@[simp] theorem State.sampled_history (l : Line) (free : Bool) (s : State) : (s.sampled l free).history = .sample l (s.level free l) s.now :: ((if s.contends l then [.contend l s.now] else []) ++ s.history) := by unfold State.sampled; split <;> simp_all [State.record]
@[simp] theorem State.sampled_host (l : Line) (free : Bool) (s : State) : (s.sampled l free).host = s.host := by unfold State.sampled; split <;> rfl
@[simp] theorem State.sampled_draws (l : Line) (free : Bool) (s : State) : (s.sampled l free).draws = s.draws := by unfold State.sampled; split <;> rfl
@[simp] theorem State.sampled_drawn (l : Line) (free : Bool) (s : State) : (s.sampled l free).drawn = s.drawn := by unfold State.sampled; split <;> rfl
@[simp] theorem State.sampled_nextDraw (l : Line) (free : Bool) (s : State) : (s.sampled l free).nextDraw = s.nextDraw := by unfold State.sampled; split <;> rfl

/-! ### startWait -/

@[simp] theorem State.startWait_scl (s : State) : (s.startWait).scl = s.scl := rfl
@[simp] theorem State.startWait_sda (s : State) : (s.startWait).sda = s.sda := rfl
@[simp] theorem State.startWait_int (s : State) : (s.startWait).int = s.int := rfl
@[simp] theorem State.startWait_precise (s : State) : (s.startWait).precise = s.precise := rfl
@[simp] theorem State.startWait_irqOff (s : State) : (s.startWait).irqOff = s.irqOff := rfl
@[simp] theorem State.startWait_now (s : State) : (s.startWait).now = s.now := rfl
@[simp] theorem State.startWait_cmd (s : State) : (s.startWait).cmd = s.cmd := rfl
@[simp] theorem State.startWait_res (s : State) : (s.startWait).res = s.res := rfl
@[simp] theorem State.startWait_acc (s : State) : (s.startWait).acc = s.acc := rfl
@[simp] theorem State.startWait_bitIdx (s : State) : (s.startWait).bitIdx = s.bitIdx := rfl
@[simp] theorem State.startWait_att (s : State) : (s.startWait).att = s.att := rfl
@[simp] theorem State.startWait_t0 (s : State) : (s.startWait).t0 = s.now := rfl
@[simp] theorem State.startWait_nPoll (s : State) : (s.startWait).nPoll = 0 := rfl
@[simp] theorem State.startWait_faultContend (s : State) : (s.startWait).faultContend = s.faultContend := rfl
@[simp] theorem State.startWait_peer (s : State) : (s.startWait).peer = s.peer := rfl
@[simp] theorem State.startWait_history (s : State) : (s.startWait).history = s.history := rfl
@[simp] theorem State.startWait_host (s : State) : (s.startWait).host = s.host := rfl
@[simp] theorem State.startWait_draws (s : State) : (s.startWait).draws = s.draws := rfl
@[simp] theorem State.startWait_drawn (s : State) : (s.startWait).drawn = s.drawn := rfl
@[simp] theorem State.startWait_nextDraw (s : State) : (s.startWait).nextDraw = s.nextDraw := rfl

/-! ### countPoll -/

@[simp] theorem State.countPoll_scl (s : State) : (s.countPoll).scl = s.scl := rfl
@[simp] theorem State.countPoll_sda (s : State) : (s.countPoll).sda = s.sda := rfl
@[simp] theorem State.countPoll_int (s : State) : (s.countPoll).int = s.int := rfl
@[simp] theorem State.countPoll_precise (s : State) : (s.countPoll).precise = s.precise := rfl
@[simp] theorem State.countPoll_irqOff (s : State) : (s.countPoll).irqOff = s.irqOff := rfl
@[simp] theorem State.countPoll_now (s : State) : (s.countPoll).now = s.now := rfl
@[simp] theorem State.countPoll_cmd (s : State) : (s.countPoll).cmd = s.cmd := rfl
@[simp] theorem State.countPoll_res (s : State) : (s.countPoll).res = s.res := rfl
@[simp] theorem State.countPoll_acc (s : State) : (s.countPoll).acc = s.acc := rfl
@[simp] theorem State.countPoll_bitIdx (s : State) : (s.countPoll).bitIdx = s.bitIdx := rfl
@[simp] theorem State.countPoll_att (s : State) : (s.countPoll).att = s.att := rfl
@[simp] theorem State.countPoll_t0 (s : State) : (s.countPoll).t0 = s.t0 := rfl
@[simp] theorem State.countPoll_nPoll (s : State) : (s.countPoll).nPoll = s.nPoll + 1 := rfl
@[simp] theorem State.countPoll_faultContend (s : State) : (s.countPoll).faultContend = s.faultContend := rfl
@[simp] theorem State.countPoll_peer (s : State) : (s.countPoll).peer = s.peer := rfl
@[simp] theorem State.countPoll_history (s : State) : (s.countPoll).history = s.history := rfl
@[simp] theorem State.countPoll_host (s : State) : (s.countPoll).host = s.host := rfl
@[simp] theorem State.countPoll_draws (s : State) : (s.countPoll).draws = s.draws := rfl
@[simp] theorem State.countPoll_drawn (s : State) : (s.countPoll).drawn = s.drawn := rfl
@[simp] theorem State.countPoll_nextDraw (s : State) : (s.countPoll).nextDraw = s.nextDraw := rfl

/-! ### setBitIdx -/

@[simp] theorem State.setBitIdx_scl (i : Nat) (s : State) : (s.setBitIdx i).scl = s.scl := rfl
@[simp] theorem State.setBitIdx_sda (i : Nat) (s : State) : (s.setBitIdx i).sda = s.sda := rfl
@[simp] theorem State.setBitIdx_int (i : Nat) (s : State) : (s.setBitIdx i).int = s.int := rfl
@[simp] theorem State.setBitIdx_precise (i : Nat) (s : State) : (s.setBitIdx i).precise = s.precise := rfl
@[simp] theorem State.setBitIdx_irqOff (i : Nat) (s : State) : (s.setBitIdx i).irqOff = s.irqOff := rfl
@[simp] theorem State.setBitIdx_now (i : Nat) (s : State) : (s.setBitIdx i).now = s.now := rfl
@[simp] theorem State.setBitIdx_cmd (i : Nat) (s : State) : (s.setBitIdx i).cmd = s.cmd := rfl
@[simp] theorem State.setBitIdx_res (i : Nat) (s : State) : (s.setBitIdx i).res = s.res := rfl
@[simp] theorem State.setBitIdx_acc (i : Nat) (s : State) : (s.setBitIdx i).acc = s.acc := rfl
@[simp] theorem State.setBitIdx_bitIdx (i : Nat) (s : State) : (s.setBitIdx i).bitIdx = bitIndex i := rfl
@[simp] theorem State.setBitIdx_att (i : Nat) (s : State) : (s.setBitIdx i).att = s.att := rfl
@[simp] theorem State.setBitIdx_t0 (i : Nat) (s : State) : (s.setBitIdx i).t0 = s.t0 := rfl
@[simp] theorem State.setBitIdx_nPoll (i : Nat) (s : State) : (s.setBitIdx i).nPoll = s.nPoll := rfl
@[simp] theorem State.setBitIdx_faultContend (i : Nat) (s : State) : (s.setBitIdx i).faultContend = s.faultContend := rfl
@[simp] theorem State.setBitIdx_peer (i : Nat) (s : State) : (s.setBitIdx i).peer = s.peer := rfl
@[simp] theorem State.setBitIdx_history (i : Nat) (s : State) : (s.setBitIdx i).history = s.history := rfl
@[simp] theorem State.setBitIdx_host (i : Nat) (s : State) : (s.setBitIdx i).host = s.host := rfl
@[simp] theorem State.setBitIdx_draws (i : Nat) (s : State) : (s.setBitIdx i).draws = s.draws := rfl
@[simp] theorem State.setBitIdx_drawn (i : Nat) (s : State) : (s.setBitIdx i).drawn = s.drawn := rfl
@[simp] theorem State.setBitIdx_nextDraw (i : Nat) (s : State) : (s.setBitIdx i).nextDraw = s.nextDraw := rfl

/-! ### pushAcc -/

@[simp] theorem State.pushAcc_scl (b : Bool) (s : State) : (s.pushAcc b).scl = s.scl := rfl
@[simp] theorem State.pushAcc_sda (b : Bool) (s : State) : (s.pushAcc b).sda = s.sda := rfl
@[simp] theorem State.pushAcc_int (b : Bool) (s : State) : (s.pushAcc b).int = s.int := rfl
@[simp] theorem State.pushAcc_precise (b : Bool) (s : State) : (s.pushAcc b).precise = s.precise := rfl
@[simp] theorem State.pushAcc_irqOff (b : Bool) (s : State) : (s.pushAcc b).irqOff = s.irqOff := rfl
@[simp] theorem State.pushAcc_now (b : Bool) (s : State) : (s.pushAcc b).now = s.now := rfl
@[simp] theorem State.pushAcc_cmd (b : Bool) (s : State) : (s.pushAcc b).cmd = s.cmd := rfl
@[simp] theorem State.pushAcc_res (b : Bool) (s : State) : (s.pushAcc b).res = s.res := rfl
@[simp] theorem State.pushAcc_acc (b : Bool) (s : State) : (s.pushAcc b).acc = shiftIn s.acc b := rfl
@[simp] theorem State.pushAcc_bitIdx (b : Bool) (s : State) : (s.pushAcc b).bitIdx = s.bitIdx := rfl
@[simp] theorem State.pushAcc_att (b : Bool) (s : State) : (s.pushAcc b).att = s.att := rfl
@[simp] theorem State.pushAcc_t0 (b : Bool) (s : State) : (s.pushAcc b).t0 = s.t0 := rfl
@[simp] theorem State.pushAcc_nPoll (b : Bool) (s : State) : (s.pushAcc b).nPoll = s.nPoll := rfl
@[simp] theorem State.pushAcc_faultContend (b : Bool) (s : State) : (s.pushAcc b).faultContend = s.faultContend := rfl
@[simp] theorem State.pushAcc_peer (b : Bool) (s : State) : (s.pushAcc b).peer = s.peer := rfl
@[simp] theorem State.pushAcc_history (b : Bool) (s : State) : (s.pushAcc b).history = s.history := rfl
@[simp] theorem State.pushAcc_host (b : Bool) (s : State) : (s.pushAcc b).host = s.host := rfl
@[simp] theorem State.pushAcc_draws (b : Bool) (s : State) : (s.pushAcc b).draws = s.draws := rfl
@[simp] theorem State.pushAcc_drawn (b : Bool) (s : State) : (s.pushAcc b).drawn = s.drawn := rfl
@[simp] theorem State.pushAcc_nextDraw (b : Bool) (s : State) : (s.pushAcc b).nextDraw = s.nextDraw := rfl

/-! ### setPrecise -/

@[simp] theorem State.setPrecise_scl (b : Bool) (s : State) : (s.setPrecise b).scl = s.scl := rfl
@[simp] theorem State.setPrecise_sda (b : Bool) (s : State) : (s.setPrecise b).sda = s.sda := rfl
@[simp] theorem State.setPrecise_int (b : Bool) (s : State) : (s.setPrecise b).int = s.int := rfl
@[simp] theorem State.setPrecise_precise (b : Bool) (s : State) : (s.setPrecise b).precise = b := rfl
@[simp] theorem State.setPrecise_irqOff (b : Bool) (s : State) : (s.setPrecise b).irqOff = s.irqOff := rfl
@[simp] theorem State.setPrecise_now (b : Bool) (s : State) : (s.setPrecise b).now = s.now := rfl
@[simp] theorem State.setPrecise_cmd (b : Bool) (s : State) : (s.setPrecise b).cmd = s.cmd := rfl
@[simp] theorem State.setPrecise_res (b : Bool) (s : State) : (s.setPrecise b).res = s.res := rfl
@[simp] theorem State.setPrecise_acc (b : Bool) (s : State) : (s.setPrecise b).acc = s.acc := rfl
@[simp] theorem State.setPrecise_bitIdx (b : Bool) (s : State) : (s.setPrecise b).bitIdx = s.bitIdx := rfl
@[simp] theorem State.setPrecise_att (b : Bool) (s : State) : (s.setPrecise b).att = s.att := rfl
@[simp] theorem State.setPrecise_t0 (b : Bool) (s : State) : (s.setPrecise b).t0 = s.t0 := rfl
@[simp] theorem State.setPrecise_nPoll (b : Bool) (s : State) : (s.setPrecise b).nPoll = s.nPoll := rfl
@[simp] theorem State.setPrecise_faultContend (b : Bool) (s : State) : (s.setPrecise b).faultContend = s.faultContend := rfl
@[simp] theorem State.setPrecise_peer (b : Bool) (s : State) : (s.setPrecise b).peer = s.peer := rfl
@[simp] theorem State.setPrecise_history (b : Bool) (s : State) : (s.setPrecise b).history = s.history := rfl
@[simp] theorem State.setPrecise_host (b : Bool) (s : State) : (s.setPrecise b).host = s.host := rfl
@[simp] theorem State.setPrecise_draws (b : Bool) (s : State) : (s.setPrecise b).draws = s.draws := rfl
@[simp] theorem State.setPrecise_drawn (b : Bool) (s : State) : (s.setPrecise b).drawn = s.drawn := rfl
@[simp] theorem State.setPrecise_nextDraw (b : Bool) (s : State) : (s.setPrecise b).nextDraw = s.nextDraw := rfl

/-! ### setIrqOff -/

@[simp] theorem State.setIrqOff_scl (b : Bool) (s : State) : (s.setIrqOff b).scl = s.scl := rfl
@[simp] theorem State.setIrqOff_sda (b : Bool) (s : State) : (s.setIrqOff b).sda = s.sda := rfl
@[simp] theorem State.setIrqOff_int (b : Bool) (s : State) : (s.setIrqOff b).int = s.int := rfl
@[simp] theorem State.setIrqOff_precise (b : Bool) (s : State) : (s.setIrqOff b).precise = s.precise := rfl
@[simp] theorem State.setIrqOff_irqOff (b : Bool) (s : State) : (s.setIrqOff b).irqOff = b := rfl
@[simp] theorem State.setIrqOff_now (b : Bool) (s : State) : (s.setIrqOff b).now = s.now := rfl
@[simp] theorem State.setIrqOff_cmd (b : Bool) (s : State) : (s.setIrqOff b).cmd = s.cmd := rfl
@[simp] theorem State.setIrqOff_res (b : Bool) (s : State) : (s.setIrqOff b).res = s.res := rfl
@[simp] theorem State.setIrqOff_acc (b : Bool) (s : State) : (s.setIrqOff b).acc = s.acc := rfl
@[simp] theorem State.setIrqOff_bitIdx (b : Bool) (s : State) : (s.setIrqOff b).bitIdx = s.bitIdx := rfl
@[simp] theorem State.setIrqOff_att (b : Bool) (s : State) : (s.setIrqOff b).att = s.att := rfl
@[simp] theorem State.setIrqOff_t0 (b : Bool) (s : State) : (s.setIrqOff b).t0 = s.t0 := rfl
@[simp] theorem State.setIrqOff_nPoll (b : Bool) (s : State) : (s.setIrqOff b).nPoll = s.nPoll := rfl
@[simp] theorem State.setIrqOff_faultContend (b : Bool) (s : State) : (s.setIrqOff b).faultContend = s.faultContend := rfl
@[simp] theorem State.setIrqOff_peer (b : Bool) (s : State) : (s.setIrqOff b).peer = s.peer := rfl
@[simp] theorem State.setIrqOff_history (b : Bool) (s : State) : (s.setIrqOff b).history = .irq b s.now :: s.history := rfl
@[simp] theorem State.setIrqOff_host (b : Bool) (s : State) : (s.setIrqOff b).host = s.host := rfl
@[simp] theorem State.setIrqOff_draws (b : Bool) (s : State) : (s.setIrqOff b).draws = s.draws := rfl
@[simp] theorem State.setIrqOff_drawn (b : Bool) (s : State) : (s.setIrqOff b).drawn = s.drawn := rfl
@[simp] theorem State.setIrqOff_nextDraw (b : Bool) (s : State) : (s.setIrqOff b).nextDraw = s.nextDraw := rfl

/-! ### clearAtt -/

@[simp] theorem State.clearAtt_scl (s : State) : (s.clearAtt).scl = s.scl := rfl
@[simp] theorem State.clearAtt_sda (s : State) : (s.clearAtt).sda = s.sda := rfl
@[simp] theorem State.clearAtt_int (s : State) : (s.clearAtt).int = s.int := rfl
@[simp] theorem State.clearAtt_precise (s : State) : (s.clearAtt).precise = s.precise := rfl
@[simp] theorem State.clearAtt_irqOff (s : State) : (s.clearAtt).irqOff = s.irqOff := rfl
@[simp] theorem State.clearAtt_now (s : State) : (s.clearAtt).now = s.now := rfl
@[simp] theorem State.clearAtt_cmd (s : State) : (s.clearAtt).cmd = s.cmd := rfl
@[simp] theorem State.clearAtt_res (s : State) : (s.clearAtt).res = s.res := rfl
@[simp] theorem State.clearAtt_acc (s : State) : (s.clearAtt).acc = s.acc := rfl
@[simp] theorem State.clearAtt_bitIdx (s : State) : (s.clearAtt).bitIdx = s.bitIdx := rfl
@[simp] theorem State.clearAtt_att (s : State) : (s.clearAtt).att = 0 := rfl
@[simp] theorem State.clearAtt_t0 (s : State) : (s.clearAtt).t0 = s.t0 := rfl
@[simp] theorem State.clearAtt_nPoll (s : State) : (s.clearAtt).nPoll = s.nPoll := rfl
@[simp] theorem State.clearAtt_faultContend (s : State) : (s.clearAtt).faultContend = s.faultContend := rfl
@[simp] theorem State.clearAtt_peer (s : State) : (s.clearAtt).peer = s.peer := rfl
@[simp] theorem State.clearAtt_history (s : State) : (s.clearAtt).history = s.history := rfl
@[simp] theorem State.clearAtt_host (s : State) : (s.clearAtt).host = s.host := rfl
@[simp] theorem State.clearAtt_draws (s : State) : (s.clearAtt).draws = s.draws := rfl
@[simp] theorem State.clearAtt_drawn (s : State) : (s.clearAtt).drawn = s.drawn := rfl
@[simp] theorem State.clearAtt_nextDraw (s : State) : (s.clearAtt).nextDraw = s.nextDraw := rfl

/-! ### incAtt -/

@[simp] theorem State.incAtt_scl (s : State) : (s.incAtt).scl = s.scl := rfl
@[simp] theorem State.incAtt_sda (s : State) : (s.incAtt).sda = s.sda := rfl
@[simp] theorem State.incAtt_int (s : State) : (s.incAtt).int = s.int := rfl
@[simp] theorem State.incAtt_precise (s : State) : (s.incAtt).precise = s.precise := rfl
@[simp] theorem State.incAtt_irqOff (s : State) : (s.incAtt).irqOff = s.irqOff := rfl
@[simp] theorem State.incAtt_now (s : State) : (s.incAtt).now = s.now := rfl
@[simp] theorem State.incAtt_cmd (s : State) : (s.incAtt).cmd = s.cmd := rfl
@[simp] theorem State.incAtt_res (s : State) : (s.incAtt).res = s.res := rfl
@[simp] theorem State.incAtt_acc (s : State) : (s.incAtt).acc = s.acc := rfl
@[simp] theorem State.incAtt_bitIdx (s : State) : (s.incAtt).bitIdx = s.bitIdx := rfl
@[simp] theorem State.incAtt_att (s : State) : (s.incAtt).att = s.att + 1 := rfl
@[simp] theorem State.incAtt_t0 (s : State) : (s.incAtt).t0 = s.t0 := rfl
@[simp] theorem State.incAtt_nPoll (s : State) : (s.incAtt).nPoll = s.nPoll := rfl
@[simp] theorem State.incAtt_faultContend (s : State) : (s.incAtt).faultContend = s.faultContend := rfl
@[simp] theorem State.incAtt_peer (s : State) : (s.incAtt).peer = s.peer := rfl
@[simp] theorem State.incAtt_history (s : State) : (s.incAtt).history = s.history := rfl
@[simp] theorem State.incAtt_host (s : State) : (s.incAtt).host = s.host := rfl
@[simp] theorem State.incAtt_draws (s : State) : (s.incAtt).draws = s.draws := rfl
@[simp] theorem State.incAtt_drawn (s : State) : (s.incAtt).drawn = s.drawn := rfl
@[simp] theorem State.incAtt_nextDraw (s : State) : (s.incAtt).nextDraw = s.nextDraw := rfl

/-! ### advance -/

@[simp] theorem State.advance_scl (s : State) : (s.advance).scl = s.scl := rfl
@[simp] theorem State.advance_sda (s : State) : (s.advance).sda = s.sda := rfl
@[simp] theorem State.advance_int (s : State) : (s.advance).int = s.int := rfl
@[simp] theorem State.advance_precise (s : State) : (s.advance).precise = s.precise := rfl
@[simp] theorem State.advance_irqOff (s : State) : (s.advance).irqOff = s.irqOff := rfl
@[simp] theorem State.advance_now (s : State) : (s.advance).now = s.now := rfl
@[simp] theorem State.advance_cmd (s : State) : (s.advance).cmd = s.cmd := rfl
@[simp] theorem State.advance_res (s : State) : (s.advance).res = s.res := rfl
@[simp] theorem State.advance_acc (s : State) : (s.advance).acc = s.acc := rfl
@[simp] theorem State.advance_bitIdx (s : State) : (s.advance).bitIdx = s.bitIdx := rfl
@[simp] theorem State.advance_att (s : State) : (s.advance).att = s.att := rfl
@[simp] theorem State.advance_t0 (s : State) : (s.advance).t0 = s.t0 := rfl
@[simp] theorem State.advance_nPoll (s : State) : (s.advance).nPoll = s.nPoll := rfl
@[simp] theorem State.advance_faultContend (s : State) : (s.advance).faultContend = s.faultContend := rfl
@[simp] theorem State.advance_peer (s : State) : (s.advance).peer = s.peer := rfl
@[simp] theorem State.advance_history (s : State) : (s.advance).history = s.history := rfl
@[simp] theorem State.advance_host (s : State) : (s.advance).host = { s.host with pos := s.host.pos + 1, given := none } := rfl
@[simp] theorem State.advance_draws (s : State) : (s.advance).draws = s.draws := rfl
@[simp] theorem State.advance_drawn (s : State) : (s.advance).drawn = s.drawn := rfl
@[simp] theorem State.advance_nextDraw (s : State) : (s.advance).nextDraw = s.nextDraw := rfl

/-! ### goto -/

@[simp] theorem State.goto_scl (n : Nat) (s : State) : (s.goto n).scl = s.scl := rfl
@[simp] theorem State.goto_sda (n : Nat) (s : State) : (s.goto n).sda = s.sda := rfl
@[simp] theorem State.goto_int (n : Nat) (s : State) : (s.goto n).int = s.int := rfl
@[simp] theorem State.goto_precise (n : Nat) (s : State) : (s.goto n).precise = s.precise := rfl
@[simp] theorem State.goto_irqOff (n : Nat) (s : State) : (s.goto n).irqOff = s.irqOff := rfl
@[simp] theorem State.goto_now (n : Nat) (s : State) : (s.goto n).now = s.now := rfl
@[simp] theorem State.goto_cmd (n : Nat) (s : State) : (s.goto n).cmd = s.cmd := rfl
@[simp] theorem State.goto_res (n : Nat) (s : State) : (s.goto n).res = s.res := rfl
@[simp] theorem State.goto_acc (n : Nat) (s : State) : (s.goto n).acc = s.acc := rfl
@[simp] theorem State.goto_bitIdx (n : Nat) (s : State) : (s.goto n).bitIdx = s.bitIdx := rfl
@[simp] theorem State.goto_att (n : Nat) (s : State) : (s.goto n).att = s.att := rfl
@[simp] theorem State.goto_t0 (n : Nat) (s : State) : (s.goto n).t0 = s.t0 := rfl
@[simp] theorem State.goto_nPoll (n : Nat) (s : State) : (s.goto n).nPoll = s.nPoll := rfl
@[simp] theorem State.goto_faultContend (n : Nat) (s : State) : (s.goto n).faultContend = s.faultContend := rfl
@[simp] theorem State.goto_peer (n : Nat) (s : State) : (s.goto n).peer = s.peer := rfl
@[simp] theorem State.goto_history (n : Nat) (s : State) : (s.goto n).history = s.history := rfl
@[simp] theorem State.goto_host (n : Nat) (s : State) : (s.goto n).host = { s.host with pos := n, given := none } := rfl
@[simp] theorem State.goto_draws (n : Nat) (s : State) : (s.goto n).draws = s.draws := rfl
@[simp] theorem State.goto_drawn (n : Nat) (s : State) : (s.goto n).drawn = s.drawn := rfl
@[simp] theorem State.goto_nextDraw (n : Nat) (s : State) : (s.goto n).nextDraw = s.nextDraw := rfl

/-! ### give -/

@[simp] theorem State.give_scl (w : Word) (s : State) : (s.give w).scl = s.scl := rfl
@[simp] theorem State.give_sda (w : Word) (s : State) : (s.give w).sda = s.sda := rfl
@[simp] theorem State.give_int (w : Word) (s : State) : (s.give w).int = s.int := rfl
@[simp] theorem State.give_precise (w : Word) (s : State) : (s.give w).precise = s.precise := rfl
@[simp] theorem State.give_irqOff (w : Word) (s : State) : (s.give w).irqOff = s.irqOff := rfl
@[simp] theorem State.give_now (w : Word) (s : State) : (s.give w).now = s.now := rfl
@[simp] theorem State.give_cmd (w : Word) (s : State) : (s.give w).cmd = s.cmd := rfl
@[simp] theorem State.give_res (w : Word) (s : State) : (s.give w).res = s.res := rfl
@[simp] theorem State.give_acc (w : Word) (s : State) : (s.give w).acc = s.acc := rfl
@[simp] theorem State.give_bitIdx (w : Word) (s : State) : (s.give w).bitIdx = s.bitIdx := rfl
@[simp] theorem State.give_att (w : Word) (s : State) : (s.give w).att = s.att := rfl
@[simp] theorem State.give_t0 (w : Word) (s : State) : (s.give w).t0 = s.t0 := rfl
@[simp] theorem State.give_nPoll (w : Word) (s : State) : (s.give w).nPoll = s.nPoll := rfl
@[simp] theorem State.give_faultContend (w : Word) (s : State) : (s.give w).faultContend = s.faultContend := rfl
@[simp] theorem State.give_peer (w : Word) (s : State) : (s.give w).peer = s.peer := rfl
@[simp] theorem State.give_history (w : Word) (s : State) : (s.give w).history = s.history := rfl
@[simp] theorem State.give_host (w : Word) (s : State) : (s.give w).host = { s.host with given := some w } := rfl
@[simp] theorem State.give_draws (w : Word) (s : State) : (s.give w).draws = s.draws := rfl
@[simp] theorem State.give_drawn (w : Word) (s : State) : (s.give w).drawn = s.drawn := rfl
@[simp] theorem State.give_nextDraw (w : Word) (s : State) : (s.give w).nextDraw = s.nextDraw := rfl

/-! ### hostRead -/

@[simp] theorem State.hostRead_scl (w : Word) (s : State) : (s.hostRead w).scl = s.scl := rfl
@[simp] theorem State.hostRead_sda (w : Word) (s : State) : (s.hostRead w).sda = s.sda := rfl
@[simp] theorem State.hostRead_int (w : Word) (s : State) : (s.hostRead w).int = s.int := rfl
@[simp] theorem State.hostRead_precise (w : Word) (s : State) : (s.hostRead w).precise = s.precise := rfl
@[simp] theorem State.hostRead_irqOff (w : Word) (s : State) : (s.hostRead w).irqOff = s.irqOff := rfl
@[simp] theorem State.hostRead_now (w : Word) (s : State) : (s.hostRead w).now = s.now := rfl
@[simp] theorem State.hostRead_cmd (w : Word) (s : State) : (s.hostRead w).cmd = s.cmd := rfl
@[simp] theorem State.hostRead_res (w : Word) (s : State) : (s.hostRead w).res = s.res := rfl
@[simp] theorem State.hostRead_acc (w : Word) (s : State) : (s.hostRead w).acc = s.acc := rfl
@[simp] theorem State.hostRead_bitIdx (w : Word) (s : State) : (s.hostRead w).bitIdx = s.bitIdx := rfl
@[simp] theorem State.hostRead_att (w : Word) (s : State) : (s.hostRead w).att = s.att := rfl
@[simp] theorem State.hostRead_t0 (w : Word) (s : State) : (s.hostRead w).t0 = s.t0 := rfl
@[simp] theorem State.hostRead_nPoll (w : Word) (s : State) : (s.hostRead w).nPoll = s.nPoll := rfl
@[simp] theorem State.hostRead_faultContend (w : Word) (s : State) : (s.hostRead w).faultContend = s.faultContend := rfl
@[simp] theorem State.hostRead_peer (w : Word) (s : State) : (s.hostRead w).peer = s.peer := rfl
@[simp] theorem State.hostRead_history (w : Word) (s : State) : (s.hostRead w).history = s.history := rfl
@[simp] theorem State.hostRead_host (w : Word) (s : State) : (s.hostRead w).host = { s.host with lastRead := some w } := rfl
@[simp] theorem State.hostRead_draws (w : Word) (s : State) : (s.hostRead w).draws = s.draws := rfl
@[simp] theorem State.hostRead_drawn (w : Word) (s : State) : (s.hostRead w).drawn = s.drawn := rfl
@[simp] theorem State.hostRead_nextDraw (w : Word) (s : State) : (s.hostRead w).nextDraw = s.nextDraw := rfl

/-! ### setCmd -/

@[simp] theorem State.setCmd_scl (w : Word) (s : State) : (s.setCmd w).scl = s.scl := rfl
@[simp] theorem State.setCmd_sda (w : Word) (s : State) : (s.setCmd w).sda = s.sda := rfl
@[simp] theorem State.setCmd_int (w : Word) (s : State) : (s.setCmd w).int = s.int := rfl
@[simp] theorem State.setCmd_precise (w : Word) (s : State) : (s.setCmd w).precise = s.precise := rfl
@[simp] theorem State.setCmd_irqOff (w : Word) (s : State) : (s.setCmd w).irqOff = s.irqOff := rfl
@[simp] theorem State.setCmd_now (w : Word) (s : State) : (s.setCmd w).now = s.now := rfl
@[simp] theorem State.setCmd_cmd (w : Word) (s : State) : (s.setCmd w).cmd = w := rfl
@[simp] theorem State.setCmd_res (w : Word) (s : State) : (s.setCmd w).res = s.res := rfl
@[simp] theorem State.setCmd_acc (w : Word) (s : State) : (s.setCmd w).acc = s.acc := rfl
@[simp] theorem State.setCmd_bitIdx (w : Word) (s : State) : (s.setCmd w).bitIdx = s.bitIdx := rfl
@[simp] theorem State.setCmd_att (w : Word) (s : State) : (s.setCmd w).att = s.att := rfl
@[simp] theorem State.setCmd_t0 (w : Word) (s : State) : (s.setCmd w).t0 = s.t0 := rfl
@[simp] theorem State.setCmd_nPoll (w : Word) (s : State) : (s.setCmd w).nPoll = s.nPoll := rfl
@[simp] theorem State.setCmd_faultContend (w : Word) (s : State) : (s.setCmd w).faultContend = s.faultContend := rfl
@[simp] theorem State.setCmd_peer (w : Word) (s : State) : (s.setCmd w).peer = s.peer := rfl
@[simp] theorem State.setCmd_history (w : Word) (s : State) : (s.setCmd w).history = s.history := rfl
@[simp] theorem State.setCmd_host (w : Word) (s : State) : (s.setCmd w).host = s.host := rfl
@[simp] theorem State.setCmd_draws (w : Word) (s : State) : (s.setCmd w).draws = s.draws := rfl
@[simp] theorem State.setCmd_drawn (w : Word) (s : State) : (s.setCmd w).drawn = s.drawn := rfl
@[simp] theorem State.setCmd_nextDraw (w : Word) (s : State) : (s.setCmd w).nextDraw = s.nextDraw := rfl

/-! ### withEnv -/

@[simp] theorem State.withEnv_scl (t : State) (s : State) : (s.withEnv t).scl = s.scl := rfl
@[simp] theorem State.withEnv_sda (t : State) (s : State) : (s.withEnv t).sda = s.sda := rfl
@[simp] theorem State.withEnv_int (t : State) (s : State) : (s.withEnv t).int = s.int := rfl
@[simp] theorem State.withEnv_precise (t : State) (s : State) : (s.withEnv t).precise = s.precise := rfl
@[simp] theorem State.withEnv_irqOff (t : State) (s : State) : (s.withEnv t).irqOff = s.irqOff := rfl
@[simp] theorem State.withEnv_now (t : State) (s : State) : (s.withEnv t).now = t.now := rfl
@[simp] theorem State.withEnv_cmd (t : State) (s : State) : (s.withEnv t).cmd = s.cmd := rfl
@[simp] theorem State.withEnv_res (t : State) (s : State) : (s.withEnv t).res = s.res := rfl
@[simp] theorem State.withEnv_acc (t : State) (s : State) : (s.withEnv t).acc = s.acc := rfl
@[simp] theorem State.withEnv_bitIdx (t : State) (s : State) : (s.withEnv t).bitIdx = s.bitIdx := rfl
@[simp] theorem State.withEnv_att (t : State) (s : State) : (s.withEnv t).att = s.att := rfl
@[simp] theorem State.withEnv_t0 (t : State) (s : State) : (s.withEnv t).t0 = s.t0 := rfl
@[simp] theorem State.withEnv_nPoll (t : State) (s : State) : (s.withEnv t).nPoll = s.nPoll := rfl
@[simp] theorem State.withEnv_faultContend (t : State) (s : State) : (s.withEnv t).faultContend = s.faultContend := rfl
@[simp] theorem State.withEnv_peer (t : State) (s : State) : (s.withEnv t).peer = t.peer := rfl
@[simp] theorem State.withEnv_history (t : State) (s : State) : (s.withEnv t).history = s.history := rfl
@[simp] theorem State.withEnv_host (t : State) (s : State) : (s.withEnv t).host = s.host := rfl
@[simp] theorem State.withEnv_draws (t : State) (s : State) : (s.withEnv t).draws = t.draws := rfl
@[simp] theorem State.withEnv_drawn (t : State) (s : State) : (s.withEnv t).drawn = t.drawn := rfl

/-! ### ended -/

@[simp] theorem State.ended_scl (c : Code) (s : State) : (s.ended c).scl = s.scl := rfl
@[simp] theorem State.ended_sda (c : Code) (s : State) : (s.ended c).sda = s.sda := rfl
@[simp] theorem State.ended_int (c : Code) (s : State) : (s.ended c).int = s.int := rfl
@[simp] theorem State.ended_precise (c : Code) (s : State) : (s.ended c).precise = s.precise := rfl
@[simp] theorem State.ended_irqOff (c : Code) (s : State) : (s.ended c).irqOff = s.irqOff := rfl
@[simp] theorem State.ended_now (c : Code) (s : State) : (s.ended c).now = s.now := rfl
@[simp] theorem State.ended_cmd (c : Code) (s : State) : (s.ended c).cmd = s.cmd := rfl
@[simp] theorem State.ended_res (c : Code) (s : State) : (s.ended c).res = { s.res with code := c, busy := false } := rfl
@[simp] theorem State.ended_acc (c : Code) (s : State) : (s.ended c).acc = s.acc := rfl
@[simp] theorem State.ended_bitIdx (c : Code) (s : State) : (s.ended c).bitIdx = s.bitIdx := rfl
@[simp] theorem State.ended_att (c : Code) (s : State) : (s.ended c).att = s.att := rfl
@[simp] theorem State.ended_t0 (c : Code) (s : State) : (s.ended c).t0 = s.t0 := rfl
@[simp] theorem State.ended_nPoll (c : Code) (s : State) : (s.ended c).nPoll = s.nPoll := rfl
@[simp] theorem State.ended_faultContend (c : Code) (s : State) : (s.ended c).faultContend = s.faultContend := rfl
@[simp] theorem State.ended_peer (c : Code) (s : State) : (s.ended c).peer = s.peer := rfl
@[simp] theorem State.ended_history (c : Code) (s : State) : (s.ended c).history = s.history := rfl
@[simp] theorem State.ended_host (c : Code) (s : State) : (s.ended c).host = s.host := rfl
@[simp] theorem State.ended_draws (c : Code) (s : State) : (s.ended c).draws = s.draws := rfl
@[simp] theorem State.ended_drawn (c : Code) (s : State) : (s.ended c).drawn = s.drawn := rfl
@[simp] theorem State.ended_nextDraw (c : Code) (s : State) : (s.ended c).nextDraw = s.nextDraw := rfl

/-- The draw after the next. -/
@[simp] theorem State.pass_nextDraw (d : Nat) (s : State) : (s.pass d).nextDraw = drawFrom s.draws.tail (s.drawn + 1) := rfl

/-- The next draw depends on the supply alone. -/
theorem State.nextDraw_congr {s t : State} (h : s.draws = t.draws) (k : s.drawn = t.drawn) : s.nextDraw = t.nextDraw := by
  simp only [State.nextDraw, h, k]

/-! ### Own steps of the Peer and of Time -/

/-- Own steps change time and the Peer's drive and nothing else. -/
theorem State.ownSteps_eq (es : List OwnStep) (s : State) :
    es.foldl State.ownStep s = { s with now := s.now + elapsed es, peer := lastDrive s.peer es } := by
  induction es generalizing s with
  | nil => rfl
  | cons e es ih =>
    rw [List.foldl_cons, ih]
    cases e with
    | peer q => rfl
    | time n => simp only [State.ownStep, State.timeStep, elapsed, lastDrive, Nat.add_assoc]

/-- A step that passes is the own steps of its draw, one at a time, and then Time going on to the step's least end. -/
theorem State.pass_eq_ownSteps (d : Nat) (s : State) :
    s.pass d = { s.nextDraw.own.foldl State.ownStep s with
      now := max (s.nextDraw.own.foldl State.ownStep s).now (s.now + d), draws := s.draws.tail, drawn := s.drawn + 1 } := by
  rw [State.ownSteps_eq]
  ext1 <;> simp
  omega

/-- The Peer's drive after own steps is the one before them or one of those it took. -/
theorem lastDrive_of {Q : PeerLow → Prop} {es : List OwnStep} {p : PeerLow} (hp : Q p) (h : ∀ q ∈ drives es, Q q) :
    Q (lastDrive p es) := by
  induction es generalizing p with
  | nil => exact hp
  | cons e es ih =>
    cases e with
    | peer q => exact ih (h q (by simp [drives])) fun q' hq => h q' (by simp [drives, hq])
    | time n => exact ih hp h

/-! ### Pins -/

@[simp] theorem State.pin_scl (s : State) : s.pin .scl = s.scl := rfl
@[simp] theorem State.pin_sda (s : State) : s.pin .sda = s.sda := rfl
@[simp] theorem State.pin_int (s : State) : s.pin .int = s.int := rfl

/-- Two pins of a state are equal to another's when all three lines are. -/
theorem State.pin_pass (d : Nat) (l : Line) (s : State) : (s.pass d).pin l = s.pin l := by cases l <;> rfl

theorem State.pin_setPin (l m : Line) (p : Pin) (s : State) :
    (s.setPin l p).pin m = if m = l then p else s.pin m := by cases l <;> cases m <;> rfl

theorem State.pin_writeDir (l m : Line) (d : Dir) (s : State) :
    (s.writeDir l d).pin m = if m = l then { s.pin l with dir := d } else s.pin m := by cases l <;> cases m <;> rfl

theorem State.pin_writeLatch (l m : Line) (v : Bool) (s : State) :
    (s.writeLatch l v).pin m = if m = l then { s.pin l with latch := v } else s.pin m := by
  cases l <;> cases m <;> rfl

theorem State.pin_clearLatch (l m : Line) (s : State) :
    (s.clearLatch l).pin m = if m = l then { s.pin l with latch := false } else s.pin m := by
  unfold State.clearLatch
  split
  · exact State.pin_writeLatch l m false s
  · rename_i h
    split
    · subst m; simp at h; simp [← h]
    · rfl

theorem State.pin_sampled (l m : Line) (free : Bool) (s : State) : (s.sampled l free).pin m = s.pin m := by
  unfold State.sampled; split <;> cases m <;> rfl

end Sys2Proof.Machine
end

