-- ==== Sys2Proof/Laws/Prog.lean ====
section
/-!
SUPPORT. How programs of elementary steps run: one lemma per way of building a program, one per elementary step, and the
two inductions every invariant uses (`Prog.run_keeps`, `Prog.runFor_keeps`).
-/

namespace Sys2Proof.Machine

variable {α β : Type}

/-! ### Running -/

@[simp] theorem Prog.run_done (a : α) (s : State) : (Prog.done a).run s = (s, a) := rfl

@[simp] theorem Prog.run_act (op : MicroOp) (k : Bool → Prog α) (s : State) :
    (Prog.act op k).run s = (k (op.run s).2).run (op.run s).1 := rfl

@[simp] theorem run_perform (op : MicroOp) (s : State) : (perform op).run s = op.run s := rfl

@[simp] theorem Prog.run_bind (p : Prog α) (f : α → Prog β) (s : State) :
    (p.bind f).run s = (f (p.run s).2).run (p.run s).1 := by
  induction p generalizing s with
  | done a => rfl
  | act op k ih => exact ih _ _

@[simp] theorem Prog.run_andThen (p : Prog α) (q : Prog β) (s : State) : (p.andThen q).run s = q.run (p.run s).1 :=
  Prog.run_bind p _ s

/-- Running part of a program and then the rest is running the whole of it. -/
theorem Prog.runFor_then_run (n : Nat) (p : Prog α) (s : State) : (p.runFor n s).2.run (p.runFor n s).1 = p.run s := by
  induction n generalizing p s with
  | zero => rfl
  | succ n ih =>
    cases p with
    | done a => rfl
    | act op k => exact ih _ _

@[simp] theorem Prog.runFor_zero (p : Prog α) (s : State) : p.runFor 0 s = (s, p) := by cases p <;> rfl

@[simp] theorem Prog.runFor_done (n : Nat) (a : α) (s : State) : (Prog.done a).runFor n s = (s, .done a) := by
  cases n <;> rfl

@[simp] theorem Prog.runFor_act (n : Nat) (op : MicroOp) (k : Bool → Prog α) (s : State) :
    (Prog.act op k).runFor (n + 1) s = (k (op.run s).2).runFor n (op.run s).1 := rfl

/-! ### The steps a program may take -/

/-- Every elementary step a program can take, whatever the replies, satisfies `Q`. -/
def Prog.Uses (Q : MicroOp → Prop) : Prog α → Prop
  | .done _ => True
  | .act op k => Q op ∧ ∀ b, (k b).Uses Q

@[simp] theorem Prog.uses_done (Q : MicroOp → Prop) (a : α) : (Prog.done a).Uses Q := trivial

@[simp] theorem uses_perform (Q : MicroOp → Prop) (op : MicroOp) : (perform op).Uses Q ↔ Q op :=
  ⟨fun h => h.1, fun h => ⟨h, fun _ => trivial⟩⟩

theorem Prog.uses_bind {Q : MicroOp → Prop} {p : Prog α} {f : α → Prog β} (hp : p.Uses Q) (hf : ∀ a, (f a).Uses Q) :
    (p.bind f).Uses Q := by
  induction p with
  | done a => exact hf a
  | act op k ih => exact ⟨hp.1, fun b => ih b (hp.2 b)⟩

theorem Prog.uses_andThen {Q : MicroOp → Prop} {p : Prog α} {q : Prog β} (hp : p.Uses Q) (hq : q.Uses Q) :
    (p.andThen q).Uses Q := Prog.uses_bind hp fun _ => hq

theorem Prog.uses_mono {Q R : MicroOp → Prop} (h : ∀ op, Q op → R op) {p : Prog α} (hp : p.Uses Q) : p.Uses R := by
  induction p with
  | done a => trivial
  | act op k ih => exact ⟨h _ hp.1, fun b => ih b (hp.2 b)⟩

/-- Every result a program can end with, whatever the replies, satisfies `R`. -/
def Prog.Returns (R : α → Prop) : Prog α → Prop
  | .done a => R a
  | .act _ k => ∀ b, (k b).Returns R

theorem Prog.returns_bind {R : β → Prop} {S : α → Prop} {p : Prog α} {f : α → Prog β} (hp : p.Returns S)
    (hf : ∀ a, S a → (f a).Returns R) : (p.bind f).Returns R := by
  induction p with
  | done a => exact hf a hp
  | act op k ih => exact fun b => ih b (hp b)

theorem Prog.returns_any (p : Prog α) : p.Returns fun _ => True := by
  induction p with
  | done a => trivial
  | act op k ih => exact ih

theorem Prog.returns_andThen {R : β → Prop} (p : Prog α) {q : Prog β} (hq : q.Returns R) : (p.andThen q).Returns R :=
  Prog.returns_bind p.returns_any fun _ _ => hq

/-- As `uses_bind`, where the first part can only end with some results. -/
theorem Prog.uses_bind_of_returns {Q : MicroOp → Prop} {S : α → Prop} {p : Prog α} {f : α → Prog β} (hp : p.Uses Q)
    (hr : p.Returns S) (hf : ∀ a, S a → (f a).Uses Q) : (p.bind f).Uses Q := by
  induction p with
  | done a => exact hf a hr
  | act op k ih => exact ⟨hp.1, fun b => ih b (hp.2 b) (hr b)⟩

theorem Prog.run_returns {R : α → Prop} {p : Prog α} (h : p.Returns R) (s : State) : R (p.run s).2 := by
  induction p generalizing s with
  | done a => exact h
  | act op k ih => exact ih _ (h _) _

/-- What every allowed step keeps, a whole run keeps. -/
theorem Prog.run_keeps {Q : MicroOp → Prop} {P : State → Prop} (hop : ∀ op s, Q op → P s → P (op.run s).1)
    {p : Prog α} (hp : p.Uses Q) {s : State} (hs : P s) : P (p.run s).1 := by
  induction p generalizing s with
  | done a => exact hs
  | act op k ih => exact ih _ (hp.2 _) (hop op s hp.1 hs)

/-- What every allowed step keeps holds at every instant inside a run, and what is left may take only allowed steps. -/
theorem Prog.runFor_keeps {Q : MicroOp → Prop} {P : State → Prop} (hop : ∀ op s, Q op → P s → P (op.run s).1)
    (n : Nat) {p : Prog α} (hp : p.Uses Q) {s : State} (hs : P s) :
    P (p.runFor n s).1 ∧ (p.runFor n s).2.Uses Q := by
  induction n generalizing p s with
  | zero => cases p <;> exact ⟨hs, hp⟩
  | succ n ih =>
    cases p with
    | done a => exact ⟨hs, hp⟩
    | act op k => exact ih (hp.2 _) (hop op s hp.1 hs)

/-! ### Every instant of a run -/

/-- `P` holds at every instant of a run: before its first step, between any two, and after its last. -/
def Prog.Always (P : State → Prop) (p : Prog α) (s : State) : Prop :=
  match p with
  | .done _ => P s
  | .act op k => P s ∧ (k (op.run s).2).Always P (op.run s).1

theorem Prog.always_start {P : State → Prop} {p : Prog α} {s : State} (h : p.Always P s) : P s := by
  cases p with
  | done a => exact h
  | act op k => exact h.1

theorem Prog.always_end {P : State → Prop} {p : Prog α} {s : State} (h : p.Always P s) : P (p.run s).1 := by
  induction p generalizing s with
  | done a => exact h
  | act op k ih => exact ih _ h.2

theorem Prog.always_bind {P : State → Prop} (p : Prog α) (f : α → Prog β) (s : State) :
    (p.bind f).Always P s ↔ p.Always P s ∧ (f (p.run s).2).Always P (p.run s).1 := by
  induction p generalizing s with
  | done a => exact ⟨fun h => ⟨Prog.always_start h, h⟩, fun h => h.2⟩
  | act op k ih =>
    exact ⟨fun h => ⟨⟨h.1, ((ih _ _).1 h.2).1⟩, ((ih _ _).1 h.2).2⟩, fun h => ⟨h.1.1, (ih _ _).2 ⟨h.1.2, h.2⟩⟩⟩

theorem Prog.always_andThen {P : State → Prop} (p : Prog α) (q : Prog β) (s : State) :
    (p.andThen q).Always P s ↔ p.Always P s ∧ q.Always P (p.run s).1 := Prog.always_bind p _ s

theorem Prog.always_mono {P R : State → Prop} (h : ∀ s, P s → R s) {p : Prog α} {s : State} (hp : p.Always P s) :
    p.Always R s := by
  induction p generalizing s with
  | done a => exact h _ hp
  | act op k ih => exact ⟨h _ hp.1, ih _ hp.2⟩

/-- What holds at every instant holds after any number of steps. -/
theorem Prog.always_runFor {P : State → Prop} (n : Nat) {p : Prog α} {s : State} (h : p.Always P s) :
    P (p.runFor n s).1 := by
  induction n generalizing p s with
  | zero => cases p <;> exact Prog.always_start h
  | succ n ih =>
    cases p with
    | done a => exact h
    | act op k => exact ih h.2

/-- What every allowed step keeps holds at every instant. -/
theorem Prog.always_of_uses {Q : MicroOp → Prop} {P : State → Prop} (hop : ∀ op s, Q op → P s → P (op.run s).1)
    {p : Prog α} (hp : p.Uses Q) {s : State} (hs : P s) : p.Always P s := by
  induction p generalizing s with
  | done a => exact hs
  | act op k ih => exact ⟨hs, ih _ (hp.2 _) (hop op s hp.1 hs)⟩

/-! ### Elementary steps -/

@[simp] theorem run_lowLatch (l : Line) (s : State) : (MicroOp.lowLatch l).run s = ((s.pass 0).clearLatch l, false) := rfl
@[simp] theorem run_latch (l : Line) (v : Bool) (s : State) :
    (MicroOp.latch l v).run s = ((s.pass 0).writeLatch l v, false) := rfl
@[simp] theorem run_dir (l : Line) (d : Dir) (s : State) : (MicroOp.dir l d).run s = ((s.pass 0).writeDir l d, false) := rfl
@[simp] theorem run_sample (l : Line) (s : State) :
    (MicroOp.sample l).run s =
      ((s.pass 0).sampled l s.nextDraw.level, (s.pass 0).level s.nextDraw.level l) := rfl
@[simp] theorem run_delay (d : Nat) (s : State) : (MicroOp.delay d).run s = (s.pass d, false) := rfl
@[simp] theorem run_pollAdvance (d : Nat) (s : State) : (MicroOp.pollAdvance d).run s = (s.pass d, false) := rfl
@[simp] theorem run_startWait (s : State) :
    MicroOp.startWait.run s = ((s.pass 0).startWait, false) := rfl
@[simp] theorem run_countPoll (s : State) :
    MicroOp.countPoll.run s = ((s.pass 0).countPoll, false) := rfl
@[simp] theorem run_ceilingReached (n : Nat) (s : State) :
    (MicroOp.ceilingReached n).run s = (s.pass 0, (s.pass 0).ceilingReached n) := rfl
@[simp] theorem run_deadlinePassed (s : State) :
    MicroOp.deadlinePassed.run s = (s.pass 0, (s.pass 0).deadlinePassed) := rfl
@[simp] theorem run_bitIdx (i : Nat) (s : State) :
    (MicroOp.bitIdx i).run s = ((s.pass 0).setBitIdx i, false) := rfl
@[simp] theorem run_shiftAcc (b : Bool) (s : State) :
    (MicroOp.shiftAcc b).run s = ((s.pass 0).pushAcc b, false) := rfl
@[simp] theorem run_precise (b : Bool) (s : State) : (MicroOp.precise b).run s = ((s.pass 0).setPrecise b, false) := rfl
@[simp] theorem run_irqOff (b : Bool) (s : State) :
    (MicroOp.irqOff b).run s = ((s.pass 0).setIrqOff b, false) := rfl
@[simp] theorem run_clearAtt (s : State) : MicroOp.clearAtt.run s = ((s.pass 0).clearAtt, false) := rfl
@[simp] theorem run_incAtt (s : State) : MicroOp.incAtt.run s = ((s.pass 0).incAtt, false) := rfl
@[simp] theorem run_ack (b : Bool) (s : State) : (MicroOp.ack b).run s = ((s.pass 0).setAck b, false) := rfl
@[simp] theorem run_lvl (b : Bool) (s : State) : (MicroOp.lvl b).run s = ((s.pass 0).setLvl b, false) := rfl
@[simp] theorem run_data (s : State) : MicroOp.data.run s = ((s.pass 0).dataFromAcc, false) := rfl
@[simp] theorem run_attempts (s : State) : MicroOp.attempts.run s = ((s.pass 0).attemptsFromAtt, false) := rfl
@[simp] theorem run_code (c : Code) (s : State) : (MicroOp.code c).run s = ((s.pass 0).setCode c, false) := rfl
@[simp] theorem run_idle (s : State) : MicroOp.idle.run s = ((s.pass 0).setBusy false, false) := rfl

theorem State.ceilingReached_iff (n : Nat) (s : State) :
    s.ceilingReached n = true ↔ s.precise = true ∧ n ≤ s.nPoll := by simp [State.ceilingReached]

theorem State.deadlinePassed_iff (s : State) : s.deadlinePassed = true ↔ tWaitNs < s.now - s.t0 := by
  simp [State.deadlinePassed]

/-! ### Commands -/

@[simp] theorem run_finish (c : Code) (s : State) :
    (finish c).run s = ((((s.pass 0).setCode c).pass 0).setBusy false, false) := rfl

/-- The end of a command changes CODE and BUSY, and time and the Peer go on. -/
theorem finish_spec (c : Code) (s : State) :
    ((finish c).run s).1 = (s.withEnv ((finish c).run s).1).ended c ∧ s.now ≤ ((finish c).run s).1.now := by
  refine ⟨rfl, ?_⟩
  simp only [run_finish, State.setBusy_now, State.pass_now, State.setCode_now]
  omega

/-- `exec` runs the command's program to its end. -/
theorem exec_eq_command (i : Instr) (s : State) : exec i s = .next (runCommand (command i) s) := by cases i <;> rfl

end Sys2Proof.Machine
end

