-- ==== Sys2Proof/Laws/Commands.lean ====
section
/-!
SUPPORT. Which elementary steps each command can take, so that an invariant of commands is an invariant of steps
(`Prog.run_keeps`, `Prog.runFor_keeps`).
-/

namespace Sys2Proof.Machine

variable {α β : Type}

/-- The steps of the transport primitives: on the two bus lines only, no latch raised, no flag, no field of RES. -/
def transportOp : MicroOp → Bool
  | .lowLatch l => l.onBus
  | .dir l _ => l.onBus
  | .sample l => l.onBus
  | .delay _ => true
  | .pollAdvance _ => true
  | .startWait => true
  | .countPoll => true
  | .ceilingReached _ => true
  | .deadlinePassed => true
  | .bitIdx _ => true
  | .shiftAcc _ => true
  | _ => false

/-- MSEND and MRECV. -/
def isAccess : Instr → Bool
  | .msend _ _ => true
  | .mrecv _ => true
  | _ => false

/-- The commands with a clock-high wait: those that can time out (60_exceptions.md R251). -/
def canTimeOut : Instr → Bool
  | .waitclk => true
  | .stop => true
  | .send _ => true
  | .recv => true
  | .modeentry => true
  | i => isAccess i

/-- Whether the command can take the step. -/
def commandOp (i : Instr) : MicroOp → Bool
  | .lowLatch l => l.onBus
  | .latch l v => decide (i = .gset l v)
  | .dir l d => l.onBus || decide (i = .gdir l (decide (d = .input)))
  | .sample l => l.onBus || decide (i = .gget l)
  | .precise _ => decide (i = .modeentry)
  | .irqOff _ => decide (i = .modeentry)
  | .clearAtt => isAccess i
  | .incAtt => isAccess i
  | .attempts => isAccess i
  | .ack _ => match i with | .send _ => true | _ => false
  | .lvl _ => match i with | .getline _ => true | .gget _ => true | _ => false
  | .data => match i with | .recv => true | .mrecv _ => true | _ => false
  | .code .ok => i.wellFormed
  | .code .timeout => canTimeOut i
  | .code .nak => isAccess i
  | .code .illegal => !i.wellFormed
  | .idle => true
  | .delay _ => true
  | .shiftAcc _ => canTimeOut i
  | .startWait => canTimeOut i
  | .countPoll => canTimeOut i
  | .bitIdx _ => canTimeOut i
  | .pollAdvance _ => canTimeOut i
  | .ceilingReached _ => canTimeOut i
  | .deadlinePassed => canTimeOut i

/-! ### The primitives -/

section Primitives

variable {Q : MicroOp → Prop}

theorem setLine_uses (hQ : ∀ op, transportOp op = true → Q op) (l : Line) (hl : l.onBus = true) (b : Bool) :
    (setLine l b).Uses Q := by
  cases b with
  | true => exact (uses_perform Q _).2 (hQ _ hl)
  | false => exact Prog.uses_andThen ((uses_perform Q _).2 (hQ _ hl)) ((uses_perform Q _).2 (hQ _ hl))

theorem waitLoop_uses (hQ : ∀ op, transportOp op = true → Q op) (p : Params) (n : Nat) : (waitLoop p n).Uses Q := by
  induction n with
  | zero => trivial
  | succ n ih =>
    refine Prog.uses_bind ((uses_perform Q _).2 (hQ _ rfl)) fun high => ?_
    cases high with
    | true => exact Prog.uses_andThen ((uses_perform Q _).2 (hQ _ rfl)) trivial
    | false =>
      refine Prog.uses_andThen ((uses_perform Q _).2 (hQ _ rfl)) (Prog.uses_bind ((uses_perform Q _).2 (hQ _ rfl)) fun c => ?_)
      cases c with
      | true => trivial
      | false =>
        refine Prog.uses_bind ((uses_perform Q _).2 (hQ _ rfl)) fun late => ?_
        cases late with
        | true => trivial
        | false => exact Prog.uses_andThen ((uses_perform Q _).2 (hQ _ rfl)) ih

theorem waitClockHigh_uses (hQ : ∀ op, transportOp op = true → Q op) (p : Params) : (waitClockHigh p).Uses Q :=
  Prog.uses_andThen (setLine_uses hQ .scl rfl true)
    (Prog.uses_andThen ((uses_perform Q _).2 (hQ _ rfl)) (waitLoop_uses hQ p _))

theorem frameStart_uses (hQ : ∀ op, transportOp op = true → Q op) : frameStart.Uses Q :=
  Prog.uses_andThen (setLine_uses hQ .sda rfl false) (setLine_uses hQ .scl rfl false)

theorem frameStop_uses (hQ : ∀ op, transportOp op = true → Q op) (p : Params) : (frameStop p).Uses Q := by
  refine Prog.uses_andThen (setLine_uses hQ .sda rfl false) (Prog.uses_bind (waitClockHigh_uses hQ p) fun r => ?_)
  cases r with
  | ok => exact Prog.uses_andThen (setLine_uses hQ .sda rfl true) trivial
  | timeout => trivial

theorem sendBits_uses (hQ : ∀ op, transportOp op = true → Q op) (p : Params) (v : Byte) (n : Nat) : (sendBits p v n).Uses Q := by
  induction n with
  | zero => trivial
  | succ i ih =>
    refine Prog.uses_andThen ((uses_perform Q _).2 (hQ _ rfl)) (Prog.uses_andThen (setLine_uses hQ .sda rfl _)
      (Prog.uses_bind (waitClockHigh_uses hQ p) fun r => ?_))
    cases r with
    | timeout => trivial
    | ok => exact Prog.uses_andThen (setLine_uses hQ .scl rfl false) (Prog.uses_andThen ((uses_perform Q _).2 (hQ _ rfl)) ih)

theorem sendByte_uses (hQ : ∀ op, transportOp op = true → Q op) (p : Params) (v : Byte) : (sendByte p v).Uses Q := by
  refine Prog.uses_bind (sendBits_uses hQ p v 8) fun r => ?_
  cases r with
  | timeout => trivial
  | ok =>
    refine Prog.uses_andThen (setLine_uses hQ .sda rfl true) (Prog.uses_bind (waitClockHigh_uses hQ p) fun r => ?_)
    cases r with
    | timeout => trivial
    | ok => exact Prog.uses_bind ((uses_perform Q _).2 (hQ _ rfl)) fun _ => trivial

theorem recvBits_uses (hQ : ∀ op, transportOp op = true → Q op) (p : Params) (n : Nat) : (recvBits p n).Uses Q := by
  induction n with
  | zero => trivial
  | succ i ih =>
    refine Prog.uses_andThen ((uses_perform Q _).2 (hQ _ rfl)) (Prog.uses_bind (waitClockHigh_uses hQ p) fun r => ?_)
    cases r with
    | timeout => trivial
    | ok =>
      exact Prog.uses_bind ((uses_perform Q _).2 (hQ _ rfl)) fun _ => Prog.uses_andThen ((uses_perform Q _).2 (hQ _ rfl))
        (Prog.uses_andThen (setLine_uses hQ .scl rfl false) (Prog.uses_andThen ((uses_perform Q _).2 (hQ _ rfl)) ih))

theorem recvByte_uses (hQ : ∀ op, transportOp op = true → Q op) (p : Params) : (recvByte p).Uses Q :=
  Prog.uses_andThen (setLine_uses hQ .sda rfl true) (recvBits_uses hQ p 8)

theorem modeEntryBits_uses (hQ : ∀ op, transportOp op = true → Q op) (n : Nat) : (modeEntryBits n).Uses Q := by
  induction n with
  | zero => trivial
  | succ i ih =>
    have hd : ∀ d, (perform (.delay d)).Uses Q := fun d => (uses_perform Q _).2 (hQ _ rfl)
    refine Prog.uses_andThen ((uses_perform Q _).2 (hQ _ rfl)) (Prog.uses_andThen (setLine_uses hQ .scl rfl _)
      (Prog.uses_andThen (hd _) (Prog.uses_andThen (setLine_uses hQ .sda rfl _) (Prog.uses_andThen (hd _)
        (Prog.uses_andThen (setLine_uses hQ .sda rfl _) (Prog.uses_andThen (hd _) (Prog.uses_andThen ?_ ih)))))))
    unfold modeExtra
    split
    · exact hd _
    · trivial

theorem finish_uses {c : Code} (hc : Q (.code c)) (hi : Q .idle) : (finish c).Uses Q :=
  Prog.uses_andThen ((uses_perform Q _).2 hc) ((uses_perform Q _).2 hi)

end Primitives

/-! ### The commands -/

/-- A command that can time out can take every step of the transport. -/
theorem transportOp_commandOp {i : Instr} (h : canTimeOut i = true) (op : MicroOp) (ho : transportOp op = true) :
    commandOp i op = true := by
  cases op <;> first | exact h | rfl | cases ho | skip
  all_goals simp_all [transportOp, commandOp]

theorem giveUp_uses {Q : MicroOp → Prop} (h : Q .attempts) (r : Sent) : (giveUp r).Uses Q :=
  Prog.uses_andThen ((uses_perform Q _).2 h) trivial

theorem writeAttempt_uses {Q : MicroOp → Prop} (hQ : ∀ op, transportOp op = true → Q op) (hi : Q .incAtt) (ha : Q .attempts)
    (p : Params) (a v : Byte) (onFail : Sent → Prog Code) (hf : ∀ r, (onFail r).Uses Q) :
    (writeAttempt p a v onFail).Uses Q := by
  refine Prog.uses_andThen ((uses_perform Q _).2 hi) (Prog.uses_andThen (frameStart_uses hQ)
    (Prog.uses_bind (sendByte_uses hQ p a) fun r => ?_))
  match r with
  | .timeout => exact hf _
  | .acked false => exact hf _
  | .acked true =>
    refine Prog.uses_bind (sendByte_uses hQ p v) fun r => ?_
    match r with
    | .timeout => exact hf _
    | .acked false => exact hf _
    | .acked true =>
      exact Prog.uses_bind (frameStop_uses hQ p) fun _ => Prog.uses_andThen ((uses_perform Q _).2 ha) trivial

theorem writeAttempts_uses {Q : MicroOp → Prop} (hQ : ∀ op, transportOp op = true → Q op) (hi : Q .incAtt) (ha : Q .attempts)
    (p : Params) (a v : Byte) (n : Nat) : (writeAttempts p a v n).Uses Q := by
  induction n with
  | zero => exact writeAttempt_uses hQ hi ha p a v _ (giveUp_uses ha)
  | succ n ih => exact writeAttempt_uses hQ hi ha p a v _ fun _ => ih

theorem readBack_uses {Q : MicroOp → Prop} (hQ : ∀ op, transportOp op = true → Q op) (ha : Q .attempts) (hd : Q .data)
    (p : Params) : (readBack p).Uses Q := by
  refine Prog.uses_andThen ((uses_perform Q _).2 ha) (Prog.uses_bind (recvByte_uses hQ p) fun r => ?_)
  cases r with
  | timeout => trivial
  | ok => exact Prog.uses_andThen ((uses_perform Q _).2 hd) (Prog.uses_bind (frameStop_uses hQ p) fun _ => trivial)

theorem readAttempt_uses {Q : MicroOp → Prop} (hQ : ∀ op, transportOp op = true → Q op) (hi : Q .incAtt) (ha : Q .attempts)
    (hd : Q .data) (p : Params) (a : Byte) (onFail : Sent → Prog Code) (hf : ∀ r, (onFail r).Uses Q) :
    (readAttempt p a onFail).Uses Q := by
  refine Prog.uses_andThen ((uses_perform Q _).2 hi) (Prog.uses_andThen (frameStart_uses hQ)
    (Prog.uses_bind (sendByte_uses hQ p a) fun r => ?_))
  match r with
  | .timeout => exact hf _
  | .acked false => exact hf _
  | .acked true => exact readBack_uses hQ ha hd p

theorem readAttempts_uses {Q : MicroOp → Prop} (hQ : ∀ op, transportOp op = true → Q op) (hi : Q .incAtt) (ha : Q .attempts)
    (hd : Q .data) (p : Params) (a : Byte) (n : Nat) : (readAttempts p a n).Uses Q := by
  induction n with
  | zero => exact readAttempt_uses hQ hi ha hd p a _ (giveUp_uses ha)
  | succ n ih => exact readAttempt_uses hQ hi ha hd p a _ fun _ => ih

/-- The codes of MSEND and MRECV (60_exceptions.md R251). -/
def accessCode : Code → Bool
  | .illegal => false
  | _ => true

theorem giveUp_returns (r : Sent) : (giveUp r).Returns fun c => accessCode c = true := by
  cases r <;> exact fun _ => rfl

theorem writeAttempt_returns (p : Params) (a v : Byte) (onFail : Sent → Prog Code)
    (hf : ∀ r, (onFail r).Returns fun c => accessCode c = true) :
    (writeAttempt p a v onFail).Returns fun c => accessCode c = true := by
  refine Prog.returns_andThen _ (Prog.returns_andThen _ (Prog.returns_bind (Prog.returns_any _) fun r _ => ?_))
  match r with
  | .timeout => exact hf _
  | .acked false => exact hf _
  | .acked true =>
    refine Prog.returns_bind (Prog.returns_any _) fun r _ => ?_
    match r with
    | .timeout => exact hf _
    | .acked false => exact hf _
    | .acked true => exact Prog.returns_bind (Prog.returns_any _) fun w _ => by cases w <;> exact fun _ => rfl

theorem writeAttempts_returns (p : Params) (a v : Byte) (n : Nat) :
    (writeAttempts p a v n).Returns fun c => accessCode c = true := by
  induction n with
  | zero => exact writeAttempt_returns p a v _ giveUp_returns
  | succ n ih => exact writeAttempt_returns p a v _ fun _ => ih

theorem readBack_returns (p : Params) : (readBack p).Returns fun c => accessCode c = true := by
  refine Prog.returns_andThen _ (Prog.returns_bind (Prog.returns_any _) fun r _ => ?_)
  cases r with
  | timeout => rfl
  | ok => exact Prog.returns_andThen _ (Prog.returns_bind (Prog.returns_any _) fun w _ => by cases w <;> rfl)

theorem readAttempt_returns (p : Params) (a : Byte) (onFail : Sent → Prog Code)
    (hf : ∀ r, (onFail r).Returns fun c => accessCode c = true) :
    (readAttempt p a onFail).Returns fun c => accessCode c = true := by
  refine Prog.returns_andThen _ (Prog.returns_andThen _ (Prog.returns_bind (Prog.returns_any _) fun r _ => ?_))
  match r with
  | .timeout => exact hf _
  | .acked false => exact hf _
  | .acked true => exact readBack_returns p

theorem readAttempts_returns (p : Params) (a : Byte) (n : Nat) :
    (readAttempts p a n).Returns fun c => accessCode c = true := by
  induction n with
  | zero => exact readAttempt_returns p a _ giveUp_returns
  | succ n ih => exact readAttempt_returns p a _ fun _ => ih

theorem modeEntry_uses {Q : MicroOp → Prop} (hQ : ∀ op, transportOp op = true → Q op) (hp : ∀ b, Q (.precise b))
    (hi : ∀ b, Q (.irqOff b)) (p : Params) : (modeEntry p).Uses Q :=
  Prog.uses_andThen ((uses_perform Q _).2 (hi _)) (Prog.uses_andThen (modeEntryBits_uses hQ _)
    (Prog.uses_andThen ((uses_perform Q _).2 (hp _)) (Prog.uses_bind (waitClockHigh_uses hQ p) fun _ =>
      Prog.uses_andThen ((uses_perform Q _).2 (hp _)) (Prog.uses_andThen ((uses_perform Q _).2 (hi _)) trivial))))

/-- Each command takes only the steps `commandOp` gives it. -/
theorem command_uses (i : Instr) : (command i).Uses fun op => commandOp i op = true := by
  cases i with
  | setline l b =>
    show Prog.Uses _ (setlineCommand l b)
    unfold setlineCommand lineAccepted
    cases hl : l.onBus with
    | false => exact finish_uses (by simp [commandOp, Instr.wellFormed, hl]) rfl
    | true =>
      refine Prog.uses_andThen ?_ (finish_uses (by simp [commandOp, Instr.wellFormed, hl]) rfl)
      cases b with
      | true => exact (uses_perform _ _).2 (by simp [commandOp, hl])
      | false => exact Prog.uses_andThen ((uses_perform _ _).2 hl) ((uses_perform _ _).2 (by simp [commandOp, hl]))
  | getline l =>
    show Prog.Uses _ (getlineCommand l)
    unfold getlineCommand lineAccepted
    cases hl : l.onBus with
    | false => exact finish_uses (by simp [commandOp, Instr.wellFormed, hl]) rfl
    | true =>
      exact Prog.uses_bind ((uses_perform _ _).2 (by simp [commandOp, hl])) fun _ =>
        Prog.uses_andThen ((uses_perform _ _).2 rfl) (finish_uses (by simp [commandOp, Instr.wellFormed, hl]) rfl)
  | waitclk =>
    exact Prog.uses_bind (waitClockHigh_uses (transportOp_commandOp rfl) _) fun r => finish_uses (by cases r <;> rfl) rfl
  | gdir l b =>
    refine Prog.uses_andThen ((uses_perform _ _).2 ?_) (finish_uses rfl rfl)
    cases b <;> simp [commandOp]
  | gset l v => exact Prog.uses_andThen ((uses_perform _ _).2 (by simp [commandOp])) (finish_uses rfl rfl)
  | gget l =>
    exact Prog.uses_bind ((uses_perform _ _).2 (by simp [commandOp])) fun _ =>
      Prog.uses_andThen ((uses_perform _ _).2 rfl) (finish_uses rfl rfl)
  | delayBit => exact Prog.uses_andThen ((uses_perform _ _).2 rfl) (finish_uses rfl rfl)
  | delayHalf => exact Prog.uses_andThen ((uses_perform _ _).2 rfl) (finish_uses rfl rfl)
  | delayUs n => exact Prog.uses_andThen ((uses_perform _ _).2 rfl) (finish_uses rfl rfl)
  | delayMs n => exact Prog.uses_andThen ((uses_perform _ _).2 rfl) (finish_uses rfl rfl)
  | start =>
    exact Prog.uses_andThen (Prog.uses_andThen (Prog.uses_andThen ((uses_perform _ _).2 rfl) ((uses_perform _ _).2 rfl))
      (Prog.uses_andThen ((uses_perform _ _).2 rfl) ((uses_perform _ _).2 rfl))) (finish_uses rfl rfl)
  | stop =>
    exact Prog.uses_bind (frameStop_uses (transportOp_commandOp rfl) _) fun r => finish_uses (by cases r <;> rfl) rfl
  | send v =>
    refine Prog.uses_bind (sendByte_uses (transportOp_commandOp rfl) _ _) fun r => ?_
    cases r with
    | timeout => exact finish_uses rfl rfl
    | acked a => exact Prog.uses_andThen ((uses_perform _ _).2 rfl) (finish_uses rfl rfl)
  | recv =>
    refine Prog.uses_bind (recvByte_uses (transportOp_commandOp rfl) _) fun r => ?_
    cases r with
    | timeout => exact finish_uses rfl rfl
    | ok => exact Prog.uses_andThen ((uses_perform _ _).2 rfl) (finish_uses rfl rfl)
  | modeentry =>
    exact Prog.uses_bind (modeEntry_uses (transportOp_commandOp rfl) (fun _ => rfl) (fun _ => rfl) _) fun r =>
      finish_uses (by cases r <;> rfl) rfl
  | msend a v =>
    refine Prog.uses_bind_of_returns (Prog.uses_andThen ((uses_perform _ _).2 rfl)
      (writeAttempts_uses (transportOp_commandOp rfl) rfl rfl _ _ _ _)) (Prog.returns_andThen _ (writeAttempts_returns _ _ _ _)) fun c hc => ?_
    cases c <;> first | exact finish_uses rfl rfl | cases hc
  | mrecv a =>
    refine Prog.uses_bind_of_returns (Prog.uses_andThen ((uses_perform _ _).2 rfl)
      (readAttempts_uses (transportOp_commandOp rfl) rfl rfl rfl _ _ _)) (Prog.returns_andThen _ (readAttempts_returns _ _ _)) fun c hc => ?_
    cases c <;> first | exact finish_uses rfl rfl | cases hc

end Sys2Proof.Machine
end

