-- ==== Sys2Proof/Laws/Decode.lean ====
section
/-!
SUPPORT. Words and their fields as numbers (30_encoding.md R80 to R83): each field is a quotient and a remainder of the
word, each encoding a sum, so that linear arithmetic settles what a field of an encoding is.
-/

namespace Sys2Proof

theorem toNat_append_eq {m n : Nat} (x : BitVec m) (y : BitVec n) : (x ++ y).toNat = x.toNat * 2 ^ n + y.toNat := by
  rw [BitVec.toNat_append, Nat.shiftLeft_eq, Nat.mul_comm, Nat.two_pow_add_eq_or_of_lt y.isLt]

theorem toNat_extract_eq {m : Nat} (x : BitVec m) (k n : Nat) : (x.extractLsb' k n).toNat = x.toNat / 2 ^ k % 2 ^ n := by
  rw [BitVec.extractLsb'_toNat, Nat.shiftRight_eq_div_pow]

/-! ### Fields of a word -/

theorem toNat_opField (w : Word) : (opField w).toNat = w.toNat / 16777216 := by
  have h := w.isLt
  rw [opField, toNat_extract_eq]
  omega

theorem toNat_uField (w : Word) : (uField w).toNat = w.toNat / 65536 % 256 := toNat_extract_eq w 16 8
theorem toNat_aField (w : Word) : (aField w).toNat = w.toNat / 256 % 256 := toNat_extract_eq w 8 8
theorem toNat_bField (w : Word) : (bField w).toNat = w.toNat % 256 := by
  rw [bField, toNat_extract_eq]; simp
theorem toNat_immField (w : Word) : (immField w).toNat = w.toNat % 65536 := by
  rw [immField, toNat_extract_eq]; simp
theorem toNat_lineField (w : Word) : (lineField w).toNat = w.toNat / 65536 % 4 := toNat_extract_eq w 16 2

theorem vField_eq (w : Word) : vField w = decide (w.toNat % 2 = 1) := by
  simp [vField, BitVec.getLsbD, Nat.testBit_zero]

theorem reservedNClear_iff (w : Word) : reservedNClear w = true ↔ w.toNat % 16777216 = 0 := by
  rw [reservedNClear, beq_iff_eq, ← BitVec.toNat_inj, toNat_extract_eq, Nat.pow_zero, Nat.div_one]
  simp

theorem reservedRClear_iff (w : Word) :
    reservedRClear w = true ↔ w.toNat / 262144 % 64 = 0 ∧ w.toNat / 2 % 32768 = 0 := by
  rw [reservedRClear, Bool.and_eq_true, beq_iff_eq, beq_iff_eq, ← BitVec.toNat_inj, ← BitVec.toNat_inj,
    toNat_extract_eq, toNat_extract_eq]
  simp

/-! ### Encoded words -/

theorem toNat_encodeN (op : BitVec 8) : (encodeN op).toNat = op.toNat * 16777216 := by
  refine (toNat_append_eq op 0#24).trans ?_
  simp

theorem toNat_encodeI (op u : BitVec 8) (a b : Byte) :
    (encodeI op u a b).toNat = op.toNat * 16777216 + u.toNat * 65536 + a.toNat * 256 + b.toNat := by
  refine (toNat_append_eq (op ++ u ++ a) b).trans ?_
  rw [toNat_append_eq (op ++ u) a, toNat_append_eq op u]
  omega

theorem toNat_encodeImm (op u : BitVec 8) (imm : BitVec 16) :
    (encodeImm op u imm).toNat = op.toNat * 16777216 + u.toNat * 65536 + imm.toNat := by
  refine (toNat_append_eq (op ++ u) imm).trans ?_
  rw [toNat_append_eq op u]
  omega

theorem toNat_encodeR (op : BitVec 8) (l : Line) (v : Bool) :
    (encodeR op l v).toNat = op.toNat * 16777216 + (fieldOfLine l).toNat * 65536 + v.toNat := by
  refine (toNat_append_eq (op ++ 0#6 ++ fieldOfLine l ++ 0#15) (fieldOfFlag v)).trans ?_
  rw [toNat_append_eq (op ++ 0#6 ++ fieldOfLine l) 0#15, toNat_append_eq (op ++ 0#6) (fieldOfLine l),
    toNat_append_eq op 0#6]
  cases v <;> simp [fieldOfFlag] <;> omega

/-! ### Fields of encoded words -/

@[simp] theorem opField_encodeN (op : BitVec 8) : opField (encodeN op) = op := by
  rw [← BitVec.toNat_inj, toNat_opField, toNat_encodeN]; omega

@[simp] theorem opField_encodeR (op : BitVec 8) (l : Line) (v : Bool) : opField (encodeR op l v) = op := by
  have := (fieldOfLine l).isLt
  rw [← BitVec.toNat_inj, toNat_opField, toNat_encodeR]; cases v <;> simp <;> omega

@[simp] theorem opField_encodeI (op u : BitVec 8) (a b : Byte) : opField (encodeI op u a b) = op := by
  rw [← BitVec.toNat_inj, toNat_opField, toNat_encodeI]; omega

@[simp] theorem opField_encodeImm (op u : BitVec 8) (imm : BitVec 16) : opField (encodeImm op u imm) = op := by
  rw [← BitVec.toNat_inj, toNat_opField, toNat_encodeImm]; omega

@[simp] theorem reservedNClear_encodeN (op : BitVec 8) : reservedNClear (encodeN op) = true := by
  rw [reservedNClear_iff, toNat_encodeN]; omega

@[simp] theorem reservedRClear_encodeR (op : BitVec 8) (l : Line) (v : Bool) : reservedRClear (encodeR op l v) = true := by
  have := (fieldOfLine l).isLt
  rw [reservedRClear_iff, toNat_encodeR]; cases v <;> simp <;> omega

@[simp] theorem lineField_encodeR (op : BitVec 8) (l : Line) (v : Bool) : lineField (encodeR op l v) = fieldOfLine l := by
  rw [← BitVec.toNat_inj, toNat_lineField, toNat_encodeR]; cases v <;> simp <;> omega

@[simp] theorem vField_encodeR (op : BitVec 8) (l : Line) (v : Bool) : vField (encodeR op l v) = v := by
  rw [vField_eq, toNat_encodeR]; cases v <;> simp <;> omega

@[simp] theorem uField_encodeI (op u : BitVec 8) (a b : Byte) : uField (encodeI op u a b) = u := by
  rw [← BitVec.toNat_inj, toNat_uField, toNat_encodeI]; omega

@[simp] theorem aField_encodeI (op u : BitVec 8) (a b : Byte) : aField (encodeI op u a b) = a := by
  rw [← BitVec.toNat_inj, toNat_aField, toNat_encodeI]; omega

@[simp] theorem bField_encodeI (op u : BitVec 8) (a b : Byte) : bField (encodeI op u a b) = b := by
  rw [← BitVec.toNat_inj, toNat_bField, toNat_encodeI]; omega

@[simp] theorem uField_encodeImm (op u : BitVec 8) (imm : BitVec 16) : uField (encodeImm op u imm) = u := by
  rw [← BitVec.toNat_inj, toNat_uField, toNat_encodeImm]; omega

@[simp] theorem immField_encodeImm (op u : BitVec 8) (imm : BitVec 16) : immField (encodeImm op u imm) = imm := by
  rw [← BitVec.toNat_inj, toNat_immField, toNat_encodeImm]; omega

@[simp] theorem lineOfField_fieldOfLine (l : Line) : lineOfField (fieldOfLine l) = some l := by cases l <;> rfl

end Sys2Proof
end

