-- ==== Sys2Proof/Laws/Wait.lean ====
section
/-!
SUPPORT. What SetLine, the end of a command and the clock-high wait can do, said once each (41_bus_primitives.md R110,
R113 to R119).
-/

namespace Sys2Proof.Machine

/-- The parameters of the machine are among those 00_scope.md R5 admits. -/
theorem Config.params_wf : Config.params.wf := ⟨Nat.le_add_left 1 _, Nat.le_add_left 1 _⟩

/-! ### SetLine -/

/-- Releasing a line is one step: the direction alone (R110). -/
@[simp] theorem run_setLine_release (l : Line) (s : State) :
    (setLine l true).run s = ((s.pass 0).writeDir l .input, false) := rfl

/-- Driving a line low is two steps: the latch, then the direction (R110). -/
@[simp] theorem run_setLine_low (l : Line) (s : State) :
    (setLine l false).run s = ((((s.pass 0).clearLatch l).pass 0).writeDir l .output, false) := rfl

/-! ### The clock-high wait -/

/-- Low samples of SCL, one at each of the given times, newest first. -/
def lowSamples (ts : List Nat) : List Event := ts.map fun t => .sample .scl false t

/-- What the loop of the clock-high wait can do, from a state with SCL released: `lows` are the times of its low samples,
newest first; `t` and `w` are the state and outcome it ends with, within `n` rounds. -/
structure WaitLoopSpec (p : Params) (n : Nat) (s : State) (lows : List Nat) (t : State) (w : Wait) : Prop where
  /-- Only time, the Peer, NPOLL and the history change. -/
  frame : t = { s.withEnv t with nPoll := t.nPoll, history := t.history }
  /-- NPOLL counts the low samples (R113). -/
  counted : t.nPoll = s.nPoll + lows.length
  /-- Time does not go back. -/
  time : s.now ≤ t.now
  /-- The samples stand in order between the start and the end. -/
  ordered : lows.Pairwise (fun newer older => older ≤ newer) ∧ ∀ x ∈ lows, s.now ≤ x ∧ x ≤ t.now
  /-- Success: the last sample is high, and at least one bit period passes after it (R113). -/
  success : w = .ok → ∃ high, t.history = .sample .scl true high :: (lowSamples lows ++ s.history) ∧
    (∀ x ∈ lows, x ≤ high) ∧ s.now ≤ high ∧ high + p.tBitNs ≤ t.now
  /-- Timeout: every sample was low, and no other event happened. -/
  failure : w = .timeout → t.history = lowSamples lows ++ s.history
  /-- Each low sample but the last was followed by a poll of at least `T_POLL_NS` that began before the deadline. -/
  polls : ∀ k, lows.length = k + 2 → (s.now - s.t0) + k * p.tPollNs ≤ tWaitNs
  /-- On success, so was the last. -/
  lastPoll : w = .ok → ∀ k, lows.length = k + 1 → (s.now - s.t0) + k * p.tPollNs ≤ tWaitNs
  /-- While PRECISE = 1, each low sample but the last left the count under the ceiling (R116). -/
  ceiling : s.precise = true → ∀ k, lows.length = k + 2 → s.nPoll + k + 1 < p.nPrecise
  /-- On success, so did the last. -/
  ceilingOk : s.precise = true → w = .ok → ∀ k, lows.length = k + 1 → s.nPoll + k + 1 < p.nPrecise
  /-- A round takes a sample. -/
  sampled : w = .timeout → n ≠ 0 → lows ≠ []
  /-- A timeout has its cause: the ceiling or the deadline (R115, R116), if `n` rounds were enough to reach it. -/
  cause : w = .timeout → 1 ≤ p.tPollNs → tWaitNs < (s.now - s.t0) + n →
    (s.precise = true ∧ p.nPrecise ≤ t.nPoll) ∨ tWaitNs < t.now - s.t0

theorem sampled_scl_released (free : Bool) (s : State) (h : s.scl.dir = .input) :
    s.contends .scl = false ∧ s.level free .scl = !s.peer.scl := by
  simp [State.contends, State.level, Pin.drivesHigh, Pin.drivesLow, State.peerLow, h]

theorem sampled_of_not_contends (l : Line) (free : Bool) (s : State) (h : s.contends l = false) :
    s.sampled l free = s.record (.sample l (s.level free l) s.now) := by
  simp [State.sampled, h]

/-- The state after a low sample was taken and counted, and the ceiling tested. -/
def lowRound (s : State) : State := (((s.pass 0).record (.sample .scl false (s.pass 0).now)).pass 0).countPoll.pass 0

theorem run_sample_scl (s : State) (hd : s.scl.dir = .input) : (MicroOp.sample .scl).run s =
    ((s.pass 0).record (.sample .scl (!(s.pass 0).peer.scl) (s.pass 0).now), !(s.pass 0).peer.scl) := by
  have hr := sampled_scl_released s.nextDraw.level (s.pass 0) hd
  rw [run_sample, sampled_of_not_contends _ _ _ hr.1, hr.2]

/-- A round whose sample is high. -/
theorem waitLoop_high (p : Params) (n : Nat) (s : State) (hd : s.scl.dir = .input) (hp : (s.pass 0).peer.scl = false) :
    (waitLoop p (n + 1)).run s =
      (((s.pass 0).record (.sample .scl true (s.pass 0).now)).pass p.tBitNs, .ok) := by
  simp only [waitLoop, Prog.run_bind, run_perform, run_sample_scl s hd, hp, Bool.not_false, Prog.run_andThen, run_delay,
    Prog.run_done]

/-- A round whose sample is low. -/
theorem waitLoop_low (p : Params) (n : Nat) (s : State) (hd : s.scl.dir = .input) (hp : (s.pass 0).peer.scl = true) :
    (waitLoop p (n + 1)).run s =
      match (lowRound s).ceilingReached p.nPrecise with
      | true => (lowRound s, .timeout)
      | false =>
        match ((lowRound s).pass 0).deadlinePassed with
        | true => ((lowRound s).pass 0, .timeout)
        | false => (waitLoop p n).run (((lowRound s).pass 0).pass p.tPollNs) := by
  simp only [waitLoop, Prog.run_bind, run_perform, run_sample_scl s hd, hp, Bool.not_true, Prog.run_andThen,
    run_countPoll, run_ceilingReached, lowRound]
  generalize ((((s.pass 0).record (.sample .scl false (s.pass 0).now)).pass 0).countPoll.pass 0) = s1
  cases s1.ceilingReached p.nPrecise with
  | true => rfl
  | false =>
    simp only [Prog.run_bind, run_perform, run_deadlinePassed]
    cases (s1.pass 0).deadlinePassed <;> rfl

theorem lowRound_now (s : State) : s.now ≤ (s.pass 0).now ∧ (s.pass 0).now ≤ (lowRound s).now := by
  simp [lowRound]; omega

/-- A low round changes NPOLL and the history, and time and the Peer go on; so it stays while time goes on. -/
theorem lowRound_frame (s : State) : lowRound s = { s.withEnv (lowRound s) with
    nPoll := s.nPoll + 1, history := .sample .scl false (s.pass 0).now :: s.history } := by
  ext1 <;> simp [lowRound]

theorem lowRound_pass_frame (d : Nat) (s : State) : (lowRound s).pass d = { s.withEnv ((lowRound s).pass d) with
    nPoll := s.nPoll + 1, history := .sample .scl false (s.pass 0).now :: s.history } := by
  ext1 <;> simp [lowRound]

theorem lowRound_pass_pass_frame (d e : Nat) (s : State) : ((lowRound s).pass d).pass e =
    { s.withEnv (((lowRound s).pass d).pass e) with
      nPoll := s.nPoll + 1, history := .sample .scl false (s.pass 0).now :: s.history } := by
  ext1 <;> simp [lowRound]

/-- A low sample that ends the wait. -/
theorem WaitLoopSpec.last (p : Params) (n : Nat) (s t : State)
    (hf : t = { s.withEnv t with nPoll := s.nPoll + 1, history := .sample .scl false (s.pass 0).now :: s.history })
    (ht : (s.pass 0).now ≤ t.now)
    (hc : (s.precise = true ∧ p.nPrecise ≤ s.nPoll + 1) ∨ tWaitNs < t.now - s.t0) :
    WaitLoopSpec p n s [(s.pass 0).now] t .timeout := by
  have hn : t.nPoll = s.nPoll + 1 := by rw [hf]
  have hh : t.history = .sample .scl false (s.pass 0).now :: s.history := by rw [hf]
  have h0 : s.now ≤ (s.pass 0).now := by simp
  exact
    { frame := by rw [hn, hh]; exact hf
      counted := hn
      time := by omega
      ordered := ⟨by simp, fun x hx => by simp only [List.mem_singleton] at hx; omega⟩
      success := by simp
      failure := fun _ => hh
      polls := by simp
      lastPoll := by simp
      ceiling := by simp
      ceilingOk := by simp
      sampled := by simp
      cause := fun _ _ _ => by rw [hn]; exact hc }

/-- A low sample after which the loop goes on. -/
theorem WaitLoopSpec.more {p : Params} {n : Nat} {s s2 t : State} {lows : List Nat} {w : Wait}
    (h : WaitLoopSpec p n s2 lows t w)
    (hf : s2 = { s.withEnv s2 with nPoll := s.nPoll + 1, history := .sample .scl false (s.pass 0).now :: s.history })
    (hn : (s.pass 0).now + p.tPollNs ≤ s2.now) (ht : s.t0 ≤ s.now)
    (hc : s.precise = true → s.nPoll + 1 < p.nPrecise) (hl : (s.pass 0).now - s.t0 ≤ tWaitNs) :
    WaitLoopSpec p (n + 1) s (lows ++ [(s.pass 0).now]) t w := by
  have ht0 : s2.t0 = s.t0 := by rw [hf]; rfl
  have hnp : s2.nPoll = s.nPoll + 1 := by rw [hf]
  have hhist : s2.history = .sample .scl false (s.pass 0).now :: s.history := by rw [hf]
  have hprec : s2.precise = s.precise := by rw [hf]; rfl
  have hfr : ({ s2.withEnv t with nPoll := t.nPoll, history := t.history } : State)
      = { s.withEnv t with nPoll := t.nPoll, history := t.history } := by rw [hf]; rfl
  have h0 : s.now ≤ (s.pass 0).now := by simp
  clear hf
  have htime := h.time
  refine
    { frame := h.frame.trans hfr, counted := ?_, time := by omega, ordered := ?_, success := ?_, failure := ?_,
      polls := ?_, lastPoll := ?_, ceiling := ?_, ceilingOk := ?_, sampled := by simp, cause := ?_ }
  · rw [h.counted, hnp, List.length_append]; simp; omega
  · refine ⟨List.pairwise_append.2 ⟨h.ordered.1, by simp, fun x hx y hy => ?_⟩, fun x hx => ?_⟩
    · have := (h.ordered.2 x hx).1
      simp only [List.mem_singleton] at hy
      omega
    · rcases List.mem_append.1 hx with hx | hx
      · have := h.ordered.2 x hx
        omega
      · simp only [List.mem_singleton] at hx
        omega
  · intro hw
    obtain ⟨high, e1, e2, e3, e4⟩ := h.success hw
    refine ⟨high, by simp [e1, hhist, lowSamples], fun x hx => ?_, by omega, e4⟩
    rcases List.mem_append.1 hx with hx | hx
    · exact e2 x hx
    · simp only [List.mem_singleton] at hx
      omega
  · intro hw
    simp [h.failure hw, hhist, lowSamples]
  · intro k hk
    simp only [List.length_append, List.length_singleton] at hk
    cases k with
    | zero => omega
    | succ k =>
      have := h.polls k (by omega)
      have e : (k + 1) * p.tPollNs = k * p.tPollNs + p.tPollNs := by ring
      omega
  · intro hw k hk
    simp only [List.length_append, List.length_singleton] at hk
    cases k with
    | zero => omega
    | succ k =>
      have := h.lastPoll hw k (by omega)
      have e : (k + 1) * p.tPollNs = k * p.tPollNs + p.tPollNs := by ring
      omega
  · intro hpr k hk
    simp only [List.length_append, List.length_singleton] at hk
    cases k with
    | zero => have := hc hpr; omega
    | succ k => have := h.ceiling (by rw [hprec]; exact hpr) k (by omega); omega
  · intro hpr hw k hk
    simp only [List.length_append, List.length_singleton] at hk
    cases k with
    | zero => have := hc hpr; omega
    | succ k => have := h.ceilingOk (by rw [hprec]; exact hpr) hw k (by omega); omega
  · intro hw hpoll hfuel
    rcases h.cause hw hpoll (by omega) with ⟨h1, h2⟩ | h1
    · exact Or.inl ⟨by rw [← hprec]; exact h1, h2⟩
    · exact Or.inr (by omega)

/-- The loop, whatever the draws: there are low samples for which `WaitLoopSpec` holds. -/
theorem waitLoop_spec (p : Params) (n : Nat) (s : State) (hd : s.scl.dir = .input) (ht : s.t0 ≤ s.now) :
    ∃ lows, WaitLoopSpec p n s lows ((waitLoop p n).run s).1 ((waitLoop p n).run s).2 := by
  induction n generalizing s with
  | zero =>
    exact ⟨[], { frame := rfl, counted := rfl, time := Nat.le_refl _, ordered := by simp, success := by simp [waitLoop],
                 failure := fun _ => rfl, polls := by simp, lastPoll := by simp, ceiling := by simp,
                 ceilingOk := by simp, sampled := by simp, cause := fun _ _ h => Or.inr (by simpa [waitLoop] using h) }⟩
  | succ n ih =>
    have hnow := lowRound_now s
    cases hp : (s.pass 0).peer.scl with
    | false =>
      rw [waitLoop_high p n s hd hp]
      exact ⟨[],
        { frame := rfl, counted := rfl, time := by simp; omega, ordered := by simp,
          success := fun _ => ⟨(s.pass 0).now, by simp [lowSamples], by simp, by simp, by simp⟩,
          failure := by simp, polls := by simp, lastPoll := by simp, ceiling := by simp, ceilingOk := by simp,
          sampled := by simp, cause := by simp }⟩
    | true =>
      rw [waitLoop_low p n s hd hp]
      cases hc : (lowRound s).ceilingReached p.nPrecise with
      | true =>
        exact ⟨_, .last p _ s (lowRound s) (lowRound_frame s) hnow.2 (Or.inl (by simpa [lowRound] using (State.ceilingReached_iff _ _).1 hc))⟩
      | false =>
        cases hl : ((lowRound s).pass 0).deadlinePassed with
        | true =>
          exact ⟨_, .last p _ s ((lowRound s).pass 0) (lowRound_pass_frame 0 s) (by have := State.pass_now 0 (lowRound s); omega)
            (Or.inr (by simpa [lowRound] using (State.deadlinePassed_iff _).1 hl))⟩
        | false =>
          have hl' := mt (State.deadlinePassed_iff _).2 (by simp [hl] : ¬ ((lowRound s).pass 0).deadlinePassed = true)
          have hc' := mt (State.ceilingReached_iff p.nPrecise (lowRound s)).2 (by simp [hc])
          have h0 : ((lowRound s).pass 0).t0 = s.t0 := by simp [lowRound]
          have hlate : (lowRound s).now ≤ ((lowRound s).pass 0).now := by simp
          have hround : ((lowRound s).pass 0).now + p.tPollNs ≤ (((lowRound s).pass 0).pass p.tPollNs).now := by simp
          have h1 : (((lowRound s).pass 0).pass p.tPollNs).t0 = s.t0 := by simp [lowRound]
          obtain ⟨lows, h⟩ := ih (((lowRound s).pass 0).pass p.tPollNs) (by simpa [lowRound] using hd) (by rw [h1]; omega)
          exact ⟨_, h.more (lowRound_pass_pass_frame 0 p.tPollNs s) (by omega) ht (fun hpr => not_le.1 fun hle => hc' (by simpa [lowRound] using ⟨hpr, hle⟩)) (by omega)⟩

/-- What `WaitClockHigh()` can do (R113 to R119): `lows` are the times of its low samples, newest first, `rel` the time SCL
was released; `t` and `w` are the state and outcome it ends with. -/
structure WaitSpec (p : Params) (s : State) (rel : Nat) (lows : List Nat) (t : State) (w : Wait) : Prop where
  /-- SCL is released (R119), T0 and NPOLL are the wait's own, time, the Peer and the history go on; nothing else changes. -/
  frame : t = { s.withEnv t with
    scl := { s.scl with dir := .input }, t0 := t.t0, nPoll := t.nPoll, history := t.history }
  /-- NPOLL counts the low samples. -/
  counted : t.nPoll = lows.length
  /-- The release, the start of the wait and its end stand in order. -/
  time : s.now ≤ rel ∧ rel ≤ t.t0 ∧ t.t0 ≤ t.now
  /-- So do the samples. -/
  ordered : lows.Pairwise (fun newer older => older ≤ newer) ∧ ∀ x ∈ lows, t.t0 ≤ x ∧ x ≤ t.now
  /-- Success: a high sample, then at least one bit period (R113). -/
  success : w = .ok → ∃ high, t.history =
      .sample .scl true high :: (lowSamples lows ++ .dir .scl .released rel :: s.history) ∧
    (∀ x ∈ lows, x ≤ high) ∧ t.t0 ≤ high ∧ high + p.tBitNs ≤ t.now
  /-- Timeout: only low samples. -/
  failure : w = .timeout → t.history = lowSamples lows ++ .dir .scl .released rel :: s.history
  /-- At most `T_WAIT_NS / T_POLL_NS + 2` samples, counting the high one (R118). -/
  samples : 1 ≤ p.tPollNs → lows.length + (if w = .ok then 1 else 0) ≤ tWaitNs / p.tPollNs + 2
  /-- While PRECISE = 1, at most `N_PRECISE` samples (R116, R118). -/
  ceiling : s.precise = true → 1 ≤ p.nPrecise → lows.length + (if w = .ok then 1 else 0) ≤ p.nPrecise
  /-- A timeout took a sample. -/
  sampled : w = .timeout → lows ≠ []
  /-- A timeout has its cause: the ceiling or the deadline (R115, R116). -/
  cause : w = .timeout → 1 ≤ p.tPollNs →
    (s.precise = true ∧ p.nPrecise ≤ lows.length) ∨ t.t0 + tWaitNs < t.now

/-- `WaitClockHigh()` from any state. -/
theorem waitClockHigh_spec (p : Params) (s : State) :
    ∃ rel lows, WaitSpec p s rel lows ((waitClockHigh p).run s).1 ((waitClockHigh p).run s).2 := by
  have hrun : (waitClockHigh p).run s =
      (waitLoop p (tWaitNs + 2)).run ((((s.pass 0).writeDir .scl .input).pass 0).startWait) := rfl
  rw [hrun]
  generalize hs1 : (((s.pass 0).writeDir .scl .input).pass 0).startWait = s1
  have hhist : s1.history = .dir .scl .released (s.pass 0).now :: s.history := by rw [← hs1]; rfl
  have hprec : s1.precise = s.precise := by rw [← hs1]; rfl
  have ht0 : s1.t0 = s1.now := by rw [← hs1]; rfl
  have hnp : s1.nPoll = 0 := by rw [← hs1]; rfl
  have hnow : (s.pass 0).now ≤ s1.now := by rw [← hs1]; simp
  have hnow0 : s.now ≤ (s.pass 0).now := by simp
  obtain ⟨lows, h⟩ := waitLoop_spec p (tWaitNs + 2) s1 (by rw [← hs1]; rfl) (by omega)
  generalize (waitLoop p (tWaitNs + 2)).run s1 = r at h
  have hfr : ({ s1.withEnv r.1 with nPoll := r.1.nPoll, history := r.1.history } : State)
      = { s.withEnv r.1 with scl := { s.scl with dir := .input }, t0 := s1.t0, nPoll := r.1.nPoll,
                             history := r.1.history } := by
    rw [← hs1]; rfl
  have hf := h.frame.trans hfr
  have hrt0 : r.1.t0 = s1.t0 := by rw [hf]
  have htime := h.time
  refine ⟨(s.pass 0).now, lows,
    { frame := by rw [hrt0]; exact hf, counted := by rw [h.counted, hnp]; omega, time := by omega, ordered := ?_,
      success := ?_, failure := ?_, samples := ?_, ceiling := ?_, sampled := fun hw => h.sampled hw (by omega), cause := ?_ }⟩
  · exact ⟨h.ordered.1, fun x hx => by have := h.ordered.2 x hx; omega⟩
  · intro hw
    obtain ⟨high, e1, e2, e3, e4⟩ := h.success hw
    exact ⟨high, by rw [e1, hhist], e2, by omega, e4⟩
  · intro hw
    rw [h.failure hw, hhist]
  · intro hp
    have key : ∀ k, k * p.tPollNs ≤ tWaitNs → k ≤ tWaitNs / p.tPollNs := fun k hk =>
      (Nat.le_div_iff_mul_le hp).2 hk
    generalize tWaitNs / p.tPollNs = q at key ⊢
    split
    · rename_i hw
      rcases hl : lows.length with _ | k
      · omega
      · have := key k (by have := h.lastPoll hw k hl; omega)
        omega
    · rcases hl : lows.length with _ | _ | k
      · omega
      · omega
      · have := key k (by have := h.polls k hl; omega)
        omega
  · intro hpr hn
    rw [← hprec] at hpr
    split
    · rename_i hw
      rcases hl : lows.length with _ | k
      · omega
      · have := h.ceilingOk hpr hw k hl; omega
    · rcases hl : lows.length with _ | _ | k
      · omega
      · omega
      · have := h.ceiling hpr k hl; omega
  · intro hw hp
    rcases h.cause hw hp (by omega) with ⟨h1, h2⟩ | h1
    · exact Or.inl ⟨by rw [← hprec]; exact h1, by have := h.counted; omega⟩
    · exact Or.inr (by omega)

end Sys2Proof.Machine
end

