-- ==== Sys2Proof/Laws/Events.lean ====
section
/-!
SUPPORT. Reading a list of events, oldest first, as a waveform: what the readings of Safety.lean give on a concatenation
and on the events of a clock-high wait.
-/

namespace Sys2Proof.Machine

/-- The Engine's drive of SDA after the events; `d` is its drive before them. -/
def driveAfter (d : Drive) : List Event → Drive
  | [] => d
  | .dir .sda d' _ :: es => driveAfter d' es
  | _ :: es => driveAfter d es

/-! ### Concatenation -/

@[simp] theorem sclTimes_append (a b : List Event) : sclTimes (a ++ b) = sclTimes a ++ sclTimes b := by
  induction a with
  | nil => rfl
  | cons e a ih =>
    cases e with
    | dir l _ x => cases l <;> first | exact congrArg (x :: ·) ih | exact ih
    | _ => exact ih

@[simp] theorem lineWrites_append (a b : List Event) : lineWrites (a ++ b) = lineWrites a ++ lineWrites b := by
  induction a with
  | nil => rfl
  | cons e a ih => cases e <;> simp [lineWrites, ih]

/-- After changes that drive a line low its latch is 0. -/
theorem withLatches_append (scl sda : Bool) (a b : List (Line × Drive)) : withLatches scl sda (a ++ b) =
    withLatches scl sda a ++ withLatches (scl && decide ((Line.scl, Drive.out0) ∉ a))
      (sda && decide ((Line.sda, Drive.out0) ∉ a)) b := by
  induction a generalizing scl sda with
  | nil => simp [withLatches]
  | cons c a ih =>
    obtain ⟨l, d⟩ := c
    cases l <;> cases d <;> simp [withLatches, ih]

theorem noContend_append {a b : List Event} (ha : NoContend a) (hb : NoContend b) : NoContend (a ++ b) := fun e he =>
  (List.mem_append.1 he).elim (ha e) (hb e)

theorem noIrq_append {a b : List Event} (ha : NoIrq a) (hb : NoIrq b) : NoIrq (a ++ b) := fun e he =>
  (List.mem_append.1 he).elim (ha e) (hb e)

@[simp] theorem dirTimes_append (a b : List Event) : dirTimes (a ++ b) = dirTimes a ++ dirTimes b := by
  induction a with
  | nil => rfl
  | cons e a ih => cases e <;> simp [dirTimes, ih]

@[simp] theorem sampledLevels_append (l : Line) (a b : List Event) :
    sampledLevels l (a ++ b) = sampledLevels l a ++ sampledLevels l b := by
  induction a with
  | nil => rfl
  | cons e a ih => cases e <;> simp only [List.cons_append, sampledLevels, ih]; split <;> simp

@[simp] theorem dirChanges_append (a b : List Event) : dirChanges (a ++ b) = dirChanges a ++ dirChanges b := by
  induction a with
  | nil => rfl
  | cons e a ih => cases e <;> simp [dirChanges, ih]

@[simp] theorem driveAfter_append (d : Drive) (a b : List Event) :
    driveAfter d (a ++ b) = driveAfter (driveAfter d a) b := by
  induction a generalizing d with
  | nil => rfl
  | cons e a ih =>
    cases e with
    | dir l _ _ => cases l <;> exact ih _
    | _ => exact ih _

@[simp] theorem driveAtClocks_append (d : Drive) (a b : List Event) :
    driveAtClocks d (a ++ b) = driveAtClocks d a ++ driveAtClocks (driveAfter d a) b := by
  induction a generalizing d with
  | nil => rfl
  | cons e a ih =>
    cases e with
    | dir l _ _ => cases l <;> exact ih _
    | sample l v _ => cases l <;> cases v <;> first | exact congrArg (d :: ·) (ih _) | exact ih _
    | _ => exact ih _

/-! ### Low samples of SCL -/

theorem reverse_lowSamples (ts : List Nat) : (lowSamples ts).reverse = lowSamples ts.reverse := by
  simp [lowSamples]

@[simp] theorem sampledLevels_lowSamples_scl (ts : List Nat) :
    sampledLevels .scl (lowSamples ts) = List.replicate ts.length false := by
  induction ts with
  | nil => rfl
  | cons t ts ih => exact congrArg (false :: ·) ih

@[simp] theorem sampledLevels_lowSamples_sda (ts : List Nat) : sampledLevels .sda (lowSamples ts) = [] := by
  induction ts with
  | nil => rfl
  | cons t ts ih => exact ih

@[simp] theorem dirChanges_lowSamples (ts : List Nat) : dirChanges (lowSamples ts) = [] := by
  induction ts with
  | nil => rfl
  | cons t ts ih => exact ih

@[simp] theorem driveAfter_lowSamples (d : Drive) (ts : List Nat) : driveAfter d (lowSamples ts) = d := by
  induction ts with
  | nil => rfl
  | cons t ts ih => exact ih

@[simp] theorem driveAtClocks_lowSamples (d : Drive) (ts : List Nat) : driveAtClocks d (lowSamples ts) = [] := by
  induction ts with
  | nil => rfl
  | cons t ts ih => exact ih

/-! ### What is written to the lines -/

/-- Nothing recorded and no latch changed. -/
theorem LinesWritten.none {s t : State} (hc : t.scl.latch = s.scl.latch) (hd : t.sda.latch = s.sda.latch) :
    LinesWritten s t [] := ⟨rfl, by simp [hc, dirChanges], by simp [hd, dirChanges], by simp [NoIrq], by simp [NoContend]⟩

theorem LinesWritten.trans {s t u : State} {a b : List Event} (h : LinesWritten s t a) (k : LinesWritten t u b) :
    LinesWritten s u (a ++ b) := by
  refine ⟨?_, ?_, ?_, noIrq_append h.quiet k.quiet, noContend_append h.clear k.clear⟩
  · rw [lineWrites_append, dirChanges_append, withLatches_append, h.writes, k.writes, h.scl, h.sda]
  · rw [k.scl, h.scl]; simp [Bool.and_assoc]
  · rw [k.sda, h.sda]; simp [Bool.and_assoc]

/-- Steps after the events that touch no latch. -/
theorem LinesWritten.to {s t u : State} {a : List Event} (h : LinesWritten s t a) (hc : u.scl.latch = t.scl.latch)
    (hd : u.sda.latch = t.sda.latch) : LinesWritten s u a := ⟨h.writes, hc.trans h.scl, hd.trans h.sda, h.quiet, h.clear⟩

/-- A sample without contention. -/
theorem LinesWritten.sample {s t : State} {l : Line} {v : Bool} {x : Nat} (hc : t.scl.latch = s.scl.latch)
    (hd : t.sda.latch = s.sda.latch) : LinesWritten s t [.sample l v x] :=
  ⟨rfl, by simp [hc, dirChanges], by simp [hd, dirChanges], by simp [NoIrq], by simp [NoContend]⟩

/-! ### When events are recorded -/

/-- An elementary step records its events at the time it ends. -/
theorem MicroOp.run_events (op : MicroOp) (s : State) : ∃ evs, (op.run s).1.history = evs ++ s.history ∧
    s.now ≤ (op.run s).1.now ∧ ∀ e ∈ evs, e.time = (op.run s).1.now := by
  have h0 : ∀ d, s.now ≤ s.now + d + (elapsed s.nextDraw.own - d) := fun d => by omega
  cases op with
  | lowLatch l =>
    rw [run_lowLatch]
    unfold State.clearLatch
    cases ((s.pass 0).pin l).latch with
    | false => exact ⟨[], rfl, h0 0, by simp⟩
    | true => exact ⟨[.latch l false (s.pass 0).now], by cases l <;> rfl, by cases l <;> exact h0 0,
      by cases l <;> simp [Event.time, State.writeLatch, State.setPin]⟩
  | latch l v =>
    exact ⟨[.latch l v (s.pass 0).now], by cases l <;> rfl, by cases l <;> exact h0 0,
      by cases l <;> simp [Event.time, State.writeLatch, State.setPin]⟩
  | dir l d =>
    exact ⟨[.dir l (driveOf d (s.pin l).latch) (s.pass 0).now], by cases l <;> rfl, by cases l <;> exact h0 0,
      by cases l <;> simp [Event.time, State.writeDir, State.setPin]⟩
  | sample l =>
    rw [run_sample]
    unfold State.sampled
    split
    · exact ⟨[.sample l _ (s.pass 0).now, .contend l (s.pass 0).now], rfl, h0 0, by simp [Event.time]⟩
    · exact ⟨[.sample l _ (s.pass 0).now], rfl, h0 0, by simp [Event.time]⟩
  | irqOff b => exact ⟨[.irq b (s.pass 0).now], rfl, h0 0, by simp [Event.time]⟩
  | _ => exact ⟨[], rfl, h0 _, by simp⟩

/-- A program only adds events, none of them before its start, and time does not go back. -/
theorem Prog.run_events {α : Type} (q : Prog α) (s : State) : ∃ evs, (q.run s).1.history = evs ++ s.history ∧
    s.now ≤ (q.run s).1.now ∧ ∀ e ∈ evs, s.now ≤ e.time := by
  induction q generalizing s with
  | done a => exact ⟨[], rfl, Nat.le_refl _, by simp⟩
  | act op k ih =>
    obtain ⟨e1, h1, h2, h3⟩ := op.run_events s
    obtain ⟨e2, g1, g2, g3⟩ := ih (op.run s).2 (op.run s).1
    refine ⟨e2 ++ e1, by rw [Prog.run_act, g1, h1, List.append_assoc], h2.trans g2, fun e he => ?_⟩
    rcases List.mem_append.1 he with he | he
    · exact h2.trans (g3 e he)
    · rw [h3 e he]; exact h2

/-- The events a program added, in whatever way they are told. -/
theorem Prog.run_later {α : Type} {q : Prog α} {s t : State} {a : α} {evs : List Event} (hr : q.run s = (t, a))
    (h : t.history = evs.reverse ++ s.history) : ∀ e ∈ evs, s.now ≤ e.time := by
  obtain ⟨e1, h1, -, h3⟩ := q.run_events s
  rw [hr] at h1
  have := List.append_cancel_right (h1.symm.trans h)
  exact fun e he => h3 e (by rw [this]; simpa using he)

/-! ### The events of a wait -/

/-- The events of a clock-high wait, oldest first: `rel` the time of the release, `lows` of the low samples, newest first,
`high` of the high sample, if there is one. -/
def waitEvents (rel : Nat) (lows : List Nat) (high : Option Nat) : List Event :=
  .dir .scl .released rel :: (lowSamples lows.reverse ++ (high.map fun x => Event.sample .scl true x).toList)

@[simp] theorem sampledLevels_waitEvents_sda (rel : Nat) (lows : List Nat) (high : Option Nat) :
    sampledLevels .sda (waitEvents rel lows high) = [] := by
  cases high <;> simp [waitEvents, sampledLevels]

@[simp] theorem sampledLevels_waitEvents_scl (rel : Nat) (lows : List Nat) (high : Option Nat) :
    sampledLevels .scl (waitEvents rel lows high) =
      List.replicate lows.length false ++ (high.map fun _ => true).toList := by
  cases high <;> simp [waitEvents, sampledLevels]

@[simp] theorem dirChanges_waitEvents (rel : Nat) (lows : List Nat) (high : Option Nat) :
    dirChanges (waitEvents rel lows high) = [(.scl, .released)] := by
  cases high <;> simp [waitEvents, dirChanges]

@[simp] theorem driveAfter_waitEvents (d : Drive) (rel : Nat) (lows : List Nat) (high : Option Nat) :
    driveAfter d (waitEvents rel lows high) = d := by
  cases high <;> simp [waitEvents, driveAfter]

@[simp] theorem driveAtClocks_waitEvents (d : Drive) (rel : Nat) (lows : List Nat) (high : Option Nat) :
    driveAtClocks d (waitEvents rel lows high) = (high.map fun _ => d).toList := by
  cases high <;> simp [waitEvents, driveAtClocks]

theorem noIrq_waitEvents (rel : Nat) (lows : List Nat) (high : Option Nat) : NoIrq (waitEvents rel lows high) := by
  intro e he b x h
  subst h
  cases high <;> simp [waitEvents, lowSamples] at he

@[simp] theorem sclTimes_lowSamples (ts : List Nat) : sclTimes (lowSamples ts) = [] := by
  induction ts with
  | nil => rfl
  | cons t ts ih => exact ih

@[simp] theorem dirTimes_lowSamples (ts : List Nat) : dirTimes (lowSamples ts) = [] := by
  induction ts with
  | nil => rfl
  | cons t ts ih => exact ih

@[simp] theorem dirTimes_waitEvents (rel : Nat) (lows : List Nat) (high : Option Nat) :
    dirTimes (waitEvents rel lows high) = [rel] := by
  cases high <;> simp [waitEvents, dirTimes]

theorem waitEvents_missed (rel : Nat) (lows : List Nat) : ClockMissed (waitEvents rel lows none) :=
  ⟨dirChanges_waitEvents _ _ _, sampledLevels_waitEvents_sda _ _ _, by simp⟩

theorem waitEvents_seen (rel : Nat) (lows : List Nat) (high : Nat) : ClockSeen high (waitEvents rel lows (some high)) :=
  ⟨waitEvents rel lows none, waitEvents_missed rel lows, by simp [waitEvents]⟩

@[simp] theorem sclTimes_waitEvents (rel : Nat) (lows : List Nat) (high : Option Nat) :
    sclTimes (waitEvents rel lows high) = [rel] := by
  have h : waitEvents rel lows high =
      [.dir .scl .released rel] ++ (lowSamples lows.reverse ++ (high.map fun x => Event.sample .scl true x).toList) := rfl
  rw [h, sclTimes_append, sclTimes_append, sclTimes_lowSamples]
  cases high <;> rfl

/-- A wait that has timed out by some time has by every later one. -/
theorem WaitTimedOut.mono {p : Params} {precise : Bool} {t0 x y : Nat} {evs : List Event} (h : WaitTimedOut p precise t0 x evs)
    (hxy : x ≤ y) : WaitTimedOut p precise t0 y evs :=
  ⟨h.1, h.2.1, h.2.2.1, h.2.2.2.1, h.2.2.2.2.imp (fun h => by omega) id⟩

@[simp] theorem lineWrites_lowSamples (ts : List Nat) : lineWrites (lowSamples ts) = [] := by
  induction ts with
  | nil => rfl
  | cons t ts ih => exact ih

@[simp] theorem lineWrites_waitEvents (rel : Nat) (lows : List Nat) (high : Option Nat) :
    lineWrites (waitEvents rel lows high) = [.dir .scl .released] := by
  cases high <;> simp [waitEvents, lineWrites]

theorem noContend_waitEvents (rel : Nat) (lows : List Nat) (high : Option Nat) : NoContend (waitEvents rel lows high) := by
  intro e he l x h
  subst h
  cases high <;> simp [waitEvents, lowSamples] at he

/-- What `WaitClockHigh()` leaves, in the terms the transport is read in (41_bus_primitives.md R113 to R119): it says once
what `WaitSpec` says by outcome. -/
structure WaitFacts (p : Params) (s : State) (evs : List Event) (t : State) (w : Wait) : Prop where
  /-- SCL is released, the wait's registers are its own; nothing else changes. -/
  frame : t = { s.withEnv t with
    scl := { s.scl with dir := .input }, t0 := t.t0, nPoll := t.nPoll, history := t.history }
  /-- The events are added to the history. -/
  history : t.history = evs.reverse ++ s.history
  /-- They are those of a wait, with a high sample exactly on success. -/
  events : ∃ (rel : Nat) (lows : List Nat) (high : Option Nat),
    evs = waitEvents rel lows high ∧ (high.isSome = true ↔ w = .ok) ∧
    (1 ≤ p.tPollNs → (sampledLevels .scl evs).length ≤ tWaitNs / p.tPollNs + 2) ∧
    (s.precise = true → 1 ≤ p.nPrecise → (sampledLevels .scl evs).length ≤ p.nPrecise)
  /-- SCL is released once, after the start; IRQ_OFF does not change. -/
  release : ∃ rel, s.now ≤ rel ∧ rel ≤ t.now ∧ sclTimes evs = [rel] ∧ dirTimes evs = [rel] ∧
    (w = .ok → rel + p.tBitNs ≤ t.now)
  quiet : NoIrq evs
  /-- Time does not go back, a success lasts at least a bit period (R118). -/
  time : s.now ≤ t.now
  success : w = .ok → s.now + p.tBitNs ≤ t.now
  /-- A success ends a bit period after its high sample, which is the last event; a timeout saw low samples only and has its cause
  (R113, R115, R116). -/
  seen : w = .ok → ∃ high, ClockSeen high evs ∧ high + p.tBitNs ≤ t.now
  missed : w = .timeout → p.wf → WaitTimedOut p s.precise t.t0 t.now evs
  /-- A timeout with PRECISE = 0 lasts more than the deadline (R118). -/
  failure : w = .timeout → 1 ≤ p.tPollNs → s.precise = false → s.now + tWaitNs < t.now

theorem waitClockHigh_facts (p : Params) (s : State) :
    ∃ t w evs, (waitClockHigh p).run s = (t, w) ∧ WaitFacts p s evs t w := by
  obtain ⟨rel, lows, h⟩ := waitClockHigh_spec p s
  generalize (waitClockHigh p).run s = r at h ⊢
  obtain ⟨t, w⟩ := r
  dsimp only at h
  have ht := h.time
  cases w with
  | ok =>
    obtain ⟨high, e1, e2, e3, e4⟩ := h.success rfl
    refine ⟨t, .ok, waitEvents rel lows (some high), rfl, h.frame, ?_, ⟨rel, lows, some high, rfl, by simp, ?_, ?_⟩,
      ⟨rel, by omega, by omega, by simp, by simp, fun _ => by omega⟩, noIrq_waitEvents _ _ _, by omega, fun _ => by omega,
      fun _ => ⟨high, waitEvents_seen _ _ _, e4⟩, (fun hw => by cases hw), fun hw => by cases hw⟩
    · simp [e1, waitEvents, reverse_lowSamples]
    · intro hp; simpa using h.samples hp
    · intro h1 h2; simpa using h.ceiling h1 h2
  | timeout =>
    refine ⟨t, .timeout, waitEvents rel lows none, rfl, h.frame, ?_, ⟨rel, lows, none, rfl, by simp, ?_, ?_⟩,
      ⟨rel, by omega, by omega, by simp, by simp, fun hw => by cases hw⟩, noIrq_waitEvents _ _ _, by omega,
      (fun hw => by cases hw), (fun hw => by cases hw),
      fun _ hp => ⟨waitEvents_missed _ _, by simpa using h.sampled rfl, by simpa using ht.2.1, fun l v x hx => ?_,
        (h.cause rfl hp.2).symm.imp id (by simpa using ·)⟩, fun _ hp hq => ?_⟩
    · simp [h.failure rfl, waitEvents, reverse_lowSamples]
    · intro hp; simpa using h.samples hp
    · intro h1 h2; simpa using h.ceiling h1 h2
    · simp only [waitEvents, lowSamples, Option.map_none, Option.toList_none, List.append_nil, List.mem_cons, reduceCtorEq, false_or,
        List.mem_map, List.mem_reverse, Event.sample.injEq] at hx
      obtain ⟨x, hx, -, -, rfl⟩ := hx
      exact (h.ordered.2 x hx).1
    · rcases h.cause rfl hp with ⟨hc, -⟩ | hc
      · rw [hq] at hc; cases hc
      · omega

end Sys2Proof.Machine
end

