-- ==== Sys2Proof/Laws/HostPort.lean ====
section
/-!
SUPPORT. What the Host's side can do, said once: a move, the moves during a command, and a step. What every elementary step and
every move keeps, a step keeps (`stepOf_keeps`).
-/

namespace Sys2Proof.Machine

/-! ### Outcomes -/

theorem thenUpdate_next {f : State → State} {x : Host.Outcome State Fault Refusal} {t : State} (h : thenUpdate f x = .next t) :
    ∃ u, x = .next u ∧ t = f u := by
  cases x with
  | next u => exact ⟨u, rfl, (Host.Outcome.next.inj h).symm⟩
  | fault r => cases h
  | refused r => cases h

theorem thenOutcome_next {f : State → Host.Outcome State Fault Refusal} {x : Host.Outcome State Fault Refusal} {t : State}
    (h : thenOutcome f x = .next t) : ∃ u, x = .next u ∧ f u = .next t := by
  cases x with
  | next u => exact ⟨u, rfl, h⟩
  | fault r => cases h
  | refused r => cases h

/-! ### Moves -/

/-- The host addresses of the two registers are whole words (20_memory.md R67) and differ. -/
theorem wholeWord_resAddr : wholeWord resAddr 4 = true := by simp [wholeWord, resAddr, Config.blockBase]
theorem wholeWord_cmdAddr : wholeWord cmdAddr 4 = true := by simp [wholeWord, cmdAddr, Config.blockBase]
theorem resAddr_ne_cmdAddr : resAddr ≠ cmdAddr := by simp [resAddr, cmdAddr]

@[simp] theorem hostMove_readRes (s : State) : hostMove (.read resAddr 4) s = .next (readRes s) := by
  simp [hostMove, wholeWord_resAddr, resAddr_ne_cmdAddr]
@[simp] theorem hostMove_readCmd (s : State) : hostMove (.read cmdAddr 4) s = .next (readCmd s) := by
  simp [hostMove, wholeWord_cmdAddr]
@[simp] theorem hostMove_writeCmd (w : Word) (s : State) : hostMove (.write cmdAddr 4 w) s = writeCmd w s := by
  simp [hostMove, wholeWord_cmdAddr]
@[simp] theorem hostMove_writeRes (w : Word) (s : State) : hostMove (.write resAddr 4 w) s = .next (s.pass 0) := by
  simp [hostMove, wholeWord_resAddr, resAddr_ne_cmdAddr]
@[simp] theorem hostMove_reset (s : State) : hostMove .reset s = .next s.blockReset := rfl

/-- A command word, accepted or not, is a run of its program from the state that accepted it. -/
theorem execWord_eq (w : Word) (s : State) : execWord w s = .next ((commandOfWord w).run (s.setBusy true)).1 := by
  unfold execWord commandOfWord
  cases decode w with
  | ok i => exact exec_eq_command i s
  | error r => rfl

/-- Every move the Host can complete: a reset, or a command word, a read, or nothing but time and the Peer going on. -/
theorem hostMove_next {m : HostMove} {s t : State} (h : hostMove m s = .next t) :
    (m = .reset ∧ t = s.blockReset) ∨ (m ≠ .reset ∧
      ((∃ w, s.res.busy = false ∧ t = ((commandOfWord w).run (s.accept w)).1) ∨ (∃ w, t = (s.pass 0).hostRead w) ∨
        t = s.pass 0)) := by
  cases m with
  | reset => exact .inl ⟨rfl, (Host.Outcome.next.inj h).symm⟩
  | write a b v =>
    refine .inr ⟨by simp, ?_⟩
    simp only [hostMove] at h
    split at h
    · cases h
    split at h
    · unfold writeCmd at h
      cases hb : s.res.busy with
      | true => simp [hb] at h
      | false =>
        simp only [hb, Bool.false_eq_true, if_false, execWord_eq] at h
        exact .inl ⟨v, rfl, (Host.Outcome.next.inj h).symm⟩
    split at h
    · exact .inr (.inr (Host.Outcome.next.inj h).symm)
    · cases h
  | read a b =>
    refine .inr ⟨by simp, ?_⟩
    simp only [hostMove] at h
    split at h
    · cases h
    split at h
    · exact .inr (.inl ⟨_, (Host.Outcome.next.inj h).symm⟩)
    split at h
    · exact .inr (.inl ⟨_, (Host.Outcome.next.inj h).symm⟩)
    · cases h
  | interrupt =>
    refine .inr ⟨by simp, ?_⟩
    simp only [hostMove] at h
    split at h
    · cases h
    · exact .inr (.inr (Host.Outcome.next.inj h).symm)
  | powerLoss => cases h

/-! ### Moves during a command -/

@[simp] theorem runWithMoves_nil (c : Prog Bool) (s : State) : runWithMoves [] c s = .next (c.run s).1 := rfl

theorem runWithMoves_cons (k : Nat) (m : HostMove) (moves : List (Nat × HostMove)) (c : Prog Bool) (s : State) :
    runWithMoves ((k, m) :: moves) c s =
      thenOutcome (fun u => runWithMoves moves (leftAfter m (u.now - (c.runFor k s).1.now) (c.runFor k s).2) u)
        (hostMove m (c.runFor k s).1) := rfl

/-- Any move but a reset leaves the rest of the command. -/
theorem leftAfter_rest {m : HostMove} (h : m ≠ .reset) (x : Nat) (rest : Prog Bool) : leftAfter m x rest = rest.after x := by
  cases m <;> first | rfl | exact absurd rfl h

/-- A read of RES during a command, and the rest of it. -/
theorem runWithMoves_read (k : Nat) (moves : List (Nat × HostMove)) (c : Prog Bool) (s : State) :
    runWithMoves ((k, .read resAddr 4) :: moves) c s =
      runWithMoves moves ((c.runFor k s).2.after ((readRes (c.runFor k s).1).now - (c.runFor k s).1.now))
        (readRes (c.runFor k s).1) := by
  rw [runWithMoves_cons, hostMove_readRes]; rfl

/-- A reset during a command, and nothing of it after. -/
theorem runWithMoves_reset (k : Nat) (c : Prog Bool) (s : State) :
    runWithMoves [(k, .reset)] c s = .next (c.runFor k s).1.blockReset := rfl

/-- A command some of whose next step is over takes the steps it took, but for less of that delay. -/
theorem Prog.uses_after {α : Type} {Q : MicroOp → Prop} (hQ : ∀ op x, Q op → Q (op.after x)) (x : Nat) {p : Prog α}
    (h : p.Uses Q) : (p.after x).Uses Q := by
  cases p with
  | done a => trivial
  | act op k => exact ⟨hQ op x h.1, h.2⟩

/-- What every allowed elementary step and every move keeps, a command with moves during it keeps. -/
theorem runWithMoves_keeps {Q : MicroOp → Prop} {P : State → Prop} (hQ : ∀ op x, Q op → Q (op.after x))
    (hop : ∀ op s, Q op → P s → P (op.run s).1) (hm : ∀ m s t, P s → hostMove m s = .next t → P t)
    {moves : List (Nat × HostMove)} {c : Prog Bool} {s t : State} (hc : c.Uses Q) (hs : P s)
    (h : runWithMoves moves c s = .next t) : P t := by
  induction moves generalizing c s with
  | nil => exact Host.Outcome.next.inj h ▸ Prog.run_keeps hop hc hs
  | cons km moves ih =>
    obtain ⟨k, m⟩ := km
    obtain ⟨u, hu, hr⟩ := thenOutcome_next h
    obtain ⟨h1, h2⟩ := Prog.runFor_keeps hop k hc hs
    refine ih ?_ (hm m _ u h1 hu) hr
    cases m with
    | reset => trivial
    | _ => exact Prog.uses_after hQ _ h2

/-- Reads of RES and then further moves, from the state the reads lead to (`afterReads`). -/
theorem runWithMoves_reads (ks : List Nat) (moves : List (Nat × HostMove)) (c : Prog Bool) (s : State) :
    runWithMoves (ks.map (fun k => (k, .read resAddr 4)) ++ moves) c s =
      runWithMoves moves (afterReads ks c s).2 (afterReads ks c s).1 := by
  induction ks generalizing c s with
  | nil => rfl
  | cons k ks ih => rw [List.map_cons, List.cons_append, runWithMoves_read, ih]; rfl

/-! ### A step -/

/-- The step of the machine is that of the program of the run (00_scope.md R4). -/
theorem step_eq_stepOf (s : State) : step s = stepOf Config.hostProgram s := rfl

/-- A step at anything but a write of a command word had no word given. -/
theorem given_none {program : List HostLine} {s : State} {x : Option HostLine} (h : s.lineOf program = x)
    (hx : ∀ w, x ≠ some (.cmd w)) : s.host.given = none := by
  cases hg : s.host.given with
  | none => rfl
  | some w => exact absurd (by rw [← h, State.lineOf, hg]) (hx w)

/-- Every next state of a step: a line that wrote a command word, with moves or without, a move, a branch on a word read from RES,
or nothing but time and the Peer going on. -/
theorem stepOf_next {program : List HostLine} {s t : State} (h : stepOf program s = .next t) :
    (∃ w u, s.res.busy = false ∧ t = State.advance u ∧ u = ((commandOfWord w).run (s.accept w)).1) ∨
      (∃ w moves u, s.res.busy = false ∧ t = State.advance u ∧ runWithMoves moves (commandOfWord w) (s.accept w) = .next u) ∨
      (∃ m u, t = State.advance u ∧ hostMove m s = .next u) ∨
      (∃ n, s.res.busy = false ∧ t = (readRes s).goto n) ∨ (s.host.given = none ∧ t = s.pass 0) ∨ t = (s.pass 0).advance := by
  unfold stepOf at h
  cases hl : s.lineOf program with
  | none =>
    rw [hl] at h
    exact .inr (.inr (.inr (.inr (.inl ⟨given_none hl (by simp), (Host.Outcome.next.inj h).symm⟩))))
  | some x =>
    rw [hl] at h
    cases x with
    | cmd w =>
      obtain ⟨u, hu, rfl⟩ := thenUpdate_next h
      unfold writeCmd at hu
      cases hb : s.res.busy with
      | true => simp [hb] at hu
      | false =>
        simp only [hb, Bool.false_eq_true, if_false, execWord_eq] at hu
        exact .inl ⟨w, u, rfl, rfl, (Host.Outcome.next.inj hu).symm⟩
    | during w moves =>
      obtain ⟨u, hu, rfl⟩ := thenUpdate_next h
      unfold duringCommand at hu
      cases hb : s.res.busy with
      | true => simp [hb] at hu
      | false =>
        simp only [hb, Bool.false_eq_true, if_false] at hu
        exact .inr (.inl ⟨w, moves, u, rfl, rfl, hu⟩)
    | move m =>
      obtain ⟨u, hu, rfl⟩ := thenUpdate_next h
      exact .inr (.inr (.inl ⟨m, u, rfl, hu⟩))
    | ifGoto c n =>
      have h : hostIf c n s = .next t := h
      unfold hostIf at h
      cases hb : s.res.busy with
      | true => simp [hb] at h
      | false =>
        simp only [hb, Bool.false_eq_true, if_false] at h
        split at h
        · exact .inr (.inr (.inr (.inl ⟨n, rfl, (Host.Outcome.next.inj h).symm⟩)))
        · exact .inr (.inr (.inr (.inl ⟨_, rfl, (Host.Outcome.next.inj h).symm⟩)))
    | power on => exact .inr (.inr (.inr (.inr (.inr (Host.Outcome.next.inj h).symm))))
    | hostEnd => exact .inr (.inr (.inr (.inr (.inl ⟨given_none hl (by simp), (Host.Outcome.next.inj h).symm⟩))))

/-- A property of the block and its surroundings that every elementary step of any command keeps, and every act of the Host. -/
structure Kept (P : State → Prop) : Prop where
  op : ∀ op s, P s → P (MicroOp.run op s).1
  pass : ∀ s, P s → P (s.pass 0)
  accept : ∀ w s, P s → P (s.accept w)
  hostRead : ∀ w s, P s → P (s.hostRead w)
  goto : ∀ n s, P s → P (s.goto n)
  blockReset : ∀ s, P s → P s.blockReset

theorem Prog.uses_any {α : Type} (p : Prog α) : p.Uses fun _ => True := by
  induction p with
  | done a => trivial
  | act op k ih => exact ⟨trivial, ih⟩

theorem hostMove_keeps {P : State → Prop} (hP : Kept P) {m : HostMove} {s t : State} (hs : P s) (h : hostMove m s = .next t) :
    P t := by
  rcases hostMove_next h with ⟨-, rfl⟩ | ⟨-, ⟨w, -, rfl⟩ | ⟨w, rfl⟩ | rfl⟩
  · exact hP.blockReset s hs
  · exact Prog.run_keeps (fun op s _ => hP.op op s) (Prog.uses_any _) (hP.accept w s hs)
  · exact hP.hostRead w _ (hP.pass s hs)
  · exact hP.pass s hs

/-- What every elementary step and every act of the Host keeps, a step keeps. -/
theorem stepOf_keeps {P : State → Prop} (hP : Kept P) {program : List HostLine} {s t : State} (hs : P s)
    (h : stepOf program s = .next t) : P t := by
  rcases stepOf_next h with ⟨w, u, -, rfl, rfl⟩ | ⟨w, moves, u, -, rfl, hu⟩ | ⟨m, u, rfl, hu⟩ | ⟨n, -, rfl⟩ | ⟨-, rfl⟩ | rfl
  · exact hP.goto _ _ (Prog.run_keeps (fun op s _ => hP.op op s) (Prog.uses_any _) (hP.accept w s hs))
  · exact hP.goto _ _ (runWithMoves_keeps (fun _ _ h => h) (fun op s _ => hP.op op s) (fun m s t => hostMove_keeps hP)
      (Prog.uses_any _) (hP.accept w s hs) hu)
  · exact hP.goto _ _ (hostMove_keeps hP hs hu)
  · exact hP.goto n _ (hP.hostRead _ _ (hP.pass s hs))
  · exact hP.pass s hs
  · exact hP.goto _ _ (hP.pass s hs)

end Sys2Proof.Machine
end

