-- ==== Sys2Proof/Laws/Flags.lean ====
section
/-!
SUPPORT. The flags BUSY, PRECISE, IRQ_OFF and the attempt counts do not depend on what the environment does: each elementary step
changes them in one way. So what a command leaves in them can be told from its program alone (`Prog.Leaves`).
-/

namespace Sys2Proof.Machine

/-- The part of the state that no draw reaches. -/
structure Flags where
  busy : Bool
  precise : Bool
  irqOff : Bool
  att : BitVec 2
  attempts : ResField (BitVec 2)

/-- The flags of a state. -/
def State.flags (s : State) : Flags := ⟨s.res.busy, s.precise, s.irqOff, s.att, s.res.attempts⟩

/-- What an elementary step does to the flags. -/
def MicroOp.onFlags (f : Flags) : MicroOp → Flags
  | .precise b => { f with precise := b }
  | .irqOff b => { f with irqOff := b }
  | .clearAtt => { f with att := 0 }
  | .incAtt => { f with att := f.att + 1 }
  | .attempts => { f with attempts := ⟨f.att, true⟩ }
  | .idle => { f with busy := false }
  | _ => f

theorem MicroOp.run_flags (op : MicroOp) (s : State) : (op.run s).1.flags = op.onFlags s.flags := by
  cases op <;> simp [MicroOp.run, MicroOp.effect, MicroOp.onFlags, State.flags]

theorem MicroOp.after_onFlags (x : Nat) (op : MicroOp) (f : Flags) : (op.after x).onFlags f = op.onFlags f := by
  cases op <;> rfl

/-- A step of the transport touches no flag. -/
theorem transportOp_onFlags {op : MicroOp} (h : transportOp op = true) (f : Flags) : op.onFlags f = f := by
  cases op <;> first | rfl | cases h

variable {α β : Type}

/-- Started with flags `f`, the program keeps BUSY at 1 before each of its steps and ends with a result and flags that satisfy
`R`, whatever the replies. -/
def Prog.Leaves (R : α → Flags → Prop) : Prog α → Flags → Prop
  | .done a, f => R a f
  | .act op k, f => f.busy = true ∧ ∀ b, (k b).Leaves R (op.onFlags f)

theorem Prog.leaves_bind {S : α → Flags → Prop} {R : β → Flags → Prop} {p : Prog α} {q : α → Prog β} {f : Flags}
    (hp : p.Leaves S f) (hq : ∀ a g, S a g → (q a).Leaves R g) : (p.bind q).Leaves R f := by
  induction p generalizing f with
  | done a => exact hq a f hp
  | act op k ih => exact ⟨hp.1, fun b => ih b (hp.2 b)⟩

theorem Prog.leaves_andThen {S : α → Flags → Prop} {R : β → Flags → Prop} {p : Prog α} {q : Prog β} {f : Flags}
    (hp : p.Leaves S f) (hq : ∀ a g, S a g → q.Leaves R g) : (p.andThen q).Leaves R f := Prog.leaves_bind hp hq

/-- One elementary step and then a program. -/
theorem Prog.leaves_perform {R : β → Flags → Prop} {op : MicroOp} {q : Prog β} {f : Flags} (hb : f.busy = true)
    (h : q.Leaves R (op.onFlags f)) : ((perform op).andThen q).Leaves R f := ⟨hb, fun _ => h⟩

/-- A program of transport steps leaves the flags as they were. -/
theorem Prog.leaves_of_transport {p : Prog α} (h : p.Uses fun op => transportOp op = true) {f : Flags} (hb : f.busy = true) :
    p.Leaves (fun _ g => g = f) f := by
  induction p with
  | done a => rfl
  | act op k ih => exact ⟨hb, fun b => by rw [transportOp_onFlags h.1]; exact ih b (h.2 b)⟩

theorem Prog.run_leaves {R : α → Flags → Prop} {p : Prog α} {s : State} (h : p.Leaves R s.flags) :
    R (p.run s).2 (p.run s).1.flags := by
  induction p generalizing s with
  | done a => exact h
  | act op k ih => exact ih _ (by rw [op.run_flags]; exact h.2 _)

/-- What is left of a program after some of its steps, or after part of a step, ends as the whole does. -/
theorem Prog.runFor_leaves {R : α → Flags → Prop} {p : Prog α} {s : State} (n : Nat) (h : p.Leaves R s.flags) :
    (p.runFor n s).2.Leaves R (p.runFor n s).1.flags := by
  induction n generalizing p s with
  | zero => rw [Prog.runFor_zero]; exact h
  | succ n ih =>
    cases p with
    | done a => rw [Prog.runFor_done]; exact h
    | act op k => exact ih (by rw [op.run_flags]; exact h.2 _)

theorem Prog.after_leaves {R : α → Flags → Prop} {p : Prog α} {f : Flags} (x : Nat) (h : p.Leaves R f) :
    (p.after x).Leaves R f := by
  cases p with
  | done a => exact h
  | act op k => exact ⟨h.1, fun b => by rw [op.after_onFlags]; exact h.2 b⟩

/-! ### The commands -/

/-- PRECISE and IRQ_OFF are 0, and ATTEMPTS, once written, is not 0. -/
def Flags.Resting (f : Flags) : Prop :=
  f.precise = false ∧ f.irqOff = false ∧ (f.attempts.written = true → f.attempts.value ≠ 0#2)

theorem finish_leaves (c : Code) {f : Flags} (hb : f.busy = true) (h : f.Resting) :
    (finish c).Leaves (fun _ g => g.busy = false ∧ g.Resting) f := ⟨hb, fun _ => ⟨hb, fun _ => ⟨rfl, h⟩⟩⟩

/-- Inside MSEND and MRECV, before an attempt with `n` retries left after it: the count cannot pass 3. -/
def Flags.Attempting (n : Nat) (f : Flags) : Prop := f.busy = true ∧ f.Resting ∧ f.att.toNat + n ≤ 2

theorem Flags.Attempting.inc {n : Nat} {f : Flags} (h : f.Attempting n) : (f.att + 1#2).toNat = f.att.toNat + 1 := by
  have := h.2.2; rw [BitVec.toNat_add]; simp; omega

theorem Flags.written {n : Nat} {f : Flags} (h : f.Attempting n) :
    ({ f with att := f.att + 1#2, attempts := ⟨f.att + 1#2, true⟩ } : Flags).Resting := by
  refine ⟨h.2.1.1, h.2.1.2.1, fun _ h0 => ?_⟩
  have := h.inc
  simp only at h0
  rw [h0] at this; simp at this

theorem writeAttempt_leaves {R : Code → Flags → Prop} (p : Params) (a v : Byte) (onFail : Sent → Prog Code) {f : Flags} (hb : f.busy = true)
    (hf : ∀ r, (onFail r).Leaves R { f with att := f.att + 1 })
    (hw : ∀ c, R c { f with att := f.att + 1, attempts := ⟨f.att + 1, true⟩ }) : (writeAttempt p a v onFail).Leaves R f := by
  have tr : ∀ op, transportOp op = true → transportOp op = true := fun _ h => h
  refine Prog.leaves_perform hb (Prog.leaves_andThen (Prog.leaves_of_transport (frameStart_uses tr) hb) ?_)
  rintro _ _ rfl
  refine Prog.leaves_bind (Prog.leaves_of_transport (sendByte_uses tr p a) hb) ?_
  rintro r _ rfl
  match r with
  | .timeout => exact hf _
  | .acked false => exact hf _
  | .acked true =>
    refine Prog.leaves_bind (Prog.leaves_of_transport (sendByte_uses tr p v) hb) ?_
    rintro r _ rfl
    match r with
    | .timeout => exact hf _
    | .acked false => exact hf _
    | .acked true =>
      refine Prog.leaves_bind (Prog.leaves_of_transport (frameStop_uses tr p) hb) ?_
      rintro w _ rfl
      exact ⟨hb, fun _ => hw _⟩

theorem readAttempt_leaves {R : Code → Flags → Prop} (p : Params) (a : Byte) (onFail : Sent → Prog Code) {f : Flags} (hb : f.busy = true)
    (hf : ∀ r, (onFail r).Leaves R { f with att := f.att + 1 })
    (hw : ∀ c, R c { f with att := f.att + 1, attempts := ⟨f.att + 1, true⟩ }) : (readAttempt p a onFail).Leaves R f := by
  have tr : ∀ op, transportOp op = true → transportOp op = true := fun _ h => h
  refine Prog.leaves_perform hb (Prog.leaves_andThen (Prog.leaves_of_transport (frameStart_uses tr) hb) ?_)
  rintro _ _ rfl
  refine Prog.leaves_bind (Prog.leaves_of_transport (sendByte_uses tr p a) hb) ?_
  rintro r _ rfl
  match r with
  | .timeout => exact hf _
  | .acked false => exact hf _
  | .acked true =>
    refine Prog.leaves_perform hb (Prog.leaves_bind (Prog.leaves_of_transport (recvByte_uses tr p) hb) ?_)
    rintro w _ rfl
    cases w with
    | timeout => exact hw _
    | ok =>
      refine Prog.leaves_perform hb (Prog.leaves_bind (Prog.leaves_of_transport (frameStop_uses tr p) hb) ?_)
      rintro w _ rfl
      exact hw _

theorem writeAttempts_leaves (p : Params) (a v : Byte) (n : Nat) {f : Flags} (h : f.Attempting n) :
    (writeAttempts p a v n).Leaves (fun _ g => g.busy = true ∧ g.Resting) f := by
  induction n generalizing f with
  | zero => exact writeAttempt_leaves p a v _ h.1 (fun _ => ⟨h.1, fun _ => ⟨h.1, Flags.written h⟩⟩) fun _ => ⟨h.1, Flags.written h⟩
  | succ n ih =>
    exact writeAttempt_leaves p a v _ h.1 (fun _ => ih ⟨h.1, h.2.1, by have := h.2.2; have := h.inc; simp only [BitVec.ofNat_eq_ofNat]; omega⟩)
      fun _ => ⟨h.1, Flags.written h⟩

theorem readAttempts_leaves (p : Params) (a : Byte) (n : Nat) {f : Flags} (h : f.Attempting n) :
    (readAttempts p a n).Leaves (fun _ g => g.busy = true ∧ g.Resting) f := by
  induction n generalizing f with
  | zero => exact readAttempt_leaves p a _ h.1 (fun _ => ⟨h.1, fun _ => ⟨h.1, Flags.written h⟩⟩) fun _ => ⟨h.1, Flags.written h⟩
  | succ n ih =>
    exact readAttempt_leaves p a _ h.1 (fun _ => ih ⟨h.1, h.2.1, by have := h.2.2; have := h.inc; simp only [BitVec.ofNat_eq_ofNat]; omega⟩)
      fun _ => ⟨h.1, Flags.written h⟩

/-- A command begun between commands ends with the flags at rest, whatever the environment does. -/
theorem command_leaves (i : Instr) {f : Flags} (hb : f.busy = true) (h : f.Resting) :
    (command i).Leaves (fun _ g => g.busy = false ∧ g.Resting) f := by
  have tr : ∀ op, transportOp op = true → transportOp op = true := fun _ h => h
  have fin : ∀ c, (finish c).Leaves (fun _ g => g.busy = false ∧ g.Resting) f := fun c => finish_leaves c hb h
  have one : ∀ {op : MicroOp} {q : Prog Bool}, op.onFlags f = f → q.Leaves (fun _ g => g.busy = false ∧ g.Resting) f →
      ((perform op).andThen q).Leaves (fun _ g => g.busy = false ∧ g.Resting) f :=
    fun ho hq => Prog.leaves_perform hb (ho.symm ▸ hq)
  have after : ∀ {γ : Type} {p : Prog γ} {q : γ → Prog Bool}, p.Uses (fun op => transportOp op = true) →
      (∀ a, (q a).Leaves (fun _ g => g.busy = false ∧ g.Resting) f) → (p.bind q).Leaves (fun _ g => g.busy = false ∧ g.Resting) f :=
    fun hp hq => Prog.leaves_bind (Prog.leaves_of_transport hp hb) fun a g hg => hg ▸ hq a
  cases i with
  | setline l b =>
    show Prog.Leaves _ (setlineCommand l b) f
    unfold setlineCommand lineAccepted
    cases hl : l.onBus with
    | false => exact fin _
    | true => exact after (setLine_uses tr l hl b) fun _ => fin _
  | getline l =>
    show Prog.Leaves _ (getlineCommand l) f
    unfold getlineCommand lineAccepted
    cases hl : l.onBus with
    | false => exact fin _
    | true => exact ⟨hb, fun _ => one rfl (fin _)⟩
  | waitclk => exact after (waitClockHigh_uses tr _) fun _ => fin _
  | gdir l b => exact one rfl (fin _)
  | gset l v => exact one rfl (fin _)
  | gget l => exact ⟨hb, fun _ => one rfl (fin _)⟩
  | delayBit => exact one rfl (fin _)
  | delayHalf => exact one rfl (fin _)
  | delayUs n => exact one rfl (fin _)
  | delayMs n => exact one rfl (fin _)
  | start => exact after (frameStart_uses tr) fun _ => fin _
  | stop => exact after (frameStop_uses tr _) fun _ => fin _
  | send v =>
    refine after (sendByte_uses tr _ v) fun r => ?_
    cases r with
    | timeout => exact fin _
    | acked a => exact one rfl (fin _)
  | recv =>
    refine after (recvByte_uses tr _) fun r => ?_
    cases r with
    | timeout => exact fin _
    | ok => exact one rfl (fin _)
  | modeentry =>
    refine Prog.leaves_bind (S := fun _ g => g.busy = true ∧ g.Resting) ?_ fun w g hg => finish_leaves _ hg.1 hg.2
    refine Prog.leaves_perform hb (Prog.leaves_andThen (Prog.leaves_of_transport (modeEntryBits_uses tr _) hb) ?_)
    rintro _ _ rfl
    refine Prog.leaves_perform hb (Prog.leaves_bind (Prog.leaves_of_transport (waitClockHigh_uses tr _) hb) ?_)
    rintro w _ rfl
    exact ⟨hb, fun _ => ⟨hb, fun _ => ⟨hb, rfl, rfl, h.2.2⟩⟩⟩
  | msend a v =>
    refine Prog.leaves_bind (S := fun _ g => g.busy = true ∧ g.Resting) ?_ fun c g hg => finish_leaves _ hg.1 hg.2
    exact Prog.leaves_perform hb (writeAttempts_leaves _ a v _ ⟨hb, h, Nat.le_refl 2⟩)
  | mrecv a =>
    refine Prog.leaves_bind (S := fun _ g => g.busy = true ∧ g.Resting) ?_ fun c g hg => finish_leaves _ hg.1 hg.2
    exact Prog.leaves_perform hb (readAttempts_leaves _ a _ ⟨hb, h, Nat.le_refl 2⟩)

/-- The same of a command word, which may name no command. -/
theorem commandOfWord_leaves (w : Word) {f : Flags} (hb : f.busy = true) (h : f.Resting) :
    (commandOfWord w).Leaves (fun _ g => g.busy = false ∧ g.Resting) f := by
  unfold commandOfWord
  cases decode w with
  | ok i => exact command_leaves i hb h
  | error r => exact finish_leaves _ hb h

end Sys2Proof.Machine
end

