-- ==== Sys2Proof/Laws/Transport.lean ====
section
/-!
SUPPORT. What the shared primitives of the transport can do, said once each (43_transport.md R160 to R184): the events they
record as a waveform, the lines they leave, how long they last, and what they do not change.
-/

namespace Sys2Proof.Machine

/-! ### What no bus primitive changes -/

/-- `t` differs from `s` at most in the two bus lines, ACC, BITIDX, the wait's registers, the history, time and the Peer. -/
structure BusFrame (s t : State) : Prop where
  int : t.int = s.int
  precise : t.precise = s.precise
  irqOff : t.irqOff = s.irqOff
  cmd : t.cmd = s.cmd
  res : t.res = s.res
  att : t.att = s.att
  faultContend : t.faultContend = s.faultContend
  host : t.host = s.host

theorem BusFrame.refl (s : State) : BusFrame s s := ⟨rfl, rfl, rfl, rfl, rfl, rfl, rfl, rfl⟩

theorem BusFrame.trans {s t u : State} (h : BusFrame s t) (k : BusFrame t u) : BusFrame s u :=
  ⟨k.int.trans h.int, k.precise.trans h.precise, k.irqOff.trans h.irqOff, k.cmd.trans h.cmd, k.res.trans h.res,
    k.att.trans h.att, k.faultContend.trans h.faultContend, k.host.trans h.host⟩

theorem BusFrame.eq {s t : State} (h : BusFrame s t) : t = { s.withEnv t with
    scl := t.scl, sda := t.sda, acc := t.acc, bitIdx := t.bitIdx, t0 := t.t0, nPoll := t.nPoll
    history := t.history } :=
  State.ext rfl rfl h.int h.precise h.irqOff rfl h.cmd h.res rfl rfl h.att rfl rfl h.faultContend rfl rfl h.host rfl rfl

/-! ### SetLine and the wait -/

/-- A drive of a bus line by SetLine, as a pin (41_bus_primitives.md R110). -/
def linePin (asInput : Bool) (p : Pin) : Pin := if asInput then { p with dir := .input } else { dir := .output, latch := false }

@[simp] theorem linePin_true (p : Pin) : linePin true p = { p with dir := .input } := rfl
@[simp] theorem linePin_false (p : Pin) : linePin false p = { dir := .output, latch := false } := rfl

/-- What SetLine on a bus line does (R110). -/
structure SetLineFacts (l : Line) (b : Bool) (s : State) (evs : List Event) (t : State) : Prop where
  frame : BusFrame s t
  acc : t.acc = s.acc
  bitIdx : t.bitIdx = s.bitIdx
  wait : t.t0 = s.t0 ∧ t.nPoll = s.nPoll
  scl : t.scl = if l = .scl then linePin b s.scl else s.scl
  sda : t.sda = if l = .sda then linePin b s.sda else s.sda
  history : t.history = evs.reverse ++ s.history
  dirs : dirChanges evs = [(l, bitDrive b)]
  samples : ∀ m, sampledLevels m evs = []
  clocks : ∀ d, driveAtClocks d evs = []
  after : ∀ d, driveAfter d evs = if l = .sda then bitDrive b else d
  quiet : NoIrq evs
  times : ∃ x, s.now ≤ x ∧ x ≤ t.now ∧ (sclTimes evs = if l = .scl then [x] else []) ∧ dirTimes evs = [x]
  time : s.now ≤ t.now
  wrote : LinesWritten s t evs
  events : ∃ x y, s.now ≤ x ∧ x ≤ y ∧ y ≤ t.now ∧
    evs = if b then [.dir l .released y] else (if (s.pin l).latch then [.latch l false x] else []) ++ [.dir l .out0 y]

theorem setLine_facts (l : Line) (b : Bool) (s : State) (hl : l.onBus = true) :
    ∃ evs, SetLineFacts l b s evs ((setLine l b).run s).1 := by
  cases b with
  | true =>
    refine ⟨[.dir l .released (s.pass 0).now], ?_⟩
    have ht : s.now ≤ (s.pass 0).now := by simp
    cases l with
    | int => cases hl
    | _ =>
      exact ⟨⟨rfl, rfl, rfl, rfl, rfl, rfl, rfl, rfl⟩, rfl, rfl, ⟨rfl, rfl⟩, rfl, rfl, rfl, rfl, fun _ => rfl, fun _ => rfl,
        fun _ => rfl, by simp [NoIrq], ⟨_, ht, Nat.le_refl _, rfl, rfl⟩, ht,
        ⟨rfl, by simp [dirChanges, State.writeDir, State.setPin, State.record],
          by simp [dirChanges, State.writeDir, State.setPin, State.record], by simp [NoIrq], by simp [NoContend]⟩,
        _, _, ht, Nat.le_refl _, Nat.le_refl _, rfl⟩
  | false =>
    rw [run_setLine_low]
    cases h : (s.pin l).latch with
    | true =>
      have e : (s.pass 0).clearLatch l = (s.pass 0).writeLatch l false := by
        simp [State.clearLatch, State.pin_pass, h]
      rw [e]
      refine ⟨[.latch l false (s.pass 0).now, .dir l .out0 (((s.pass 0).writeLatch l false).pass 0).now], ?_⟩
      have ht : s.now ≤ (((s.pass 0).writeLatch l false).pass 0).now := by simp; omega
      cases l with
      | int => cases hl
      | _ =>
        exact ⟨⟨rfl, rfl, rfl, rfl, rfl, rfl, rfl, rfl⟩, rfl, rfl, ⟨rfl, rfl⟩, rfl, rfl, rfl, rfl, fun _ => rfl, fun _ => rfl,
          fun _ => rfl, by simp [NoIrq], ⟨_, ht, Nat.le_refl _, rfl, rfl⟩, ht,
          ⟨by simp_all [lineWrites, withLatches, dirChanges, latchLowered],
            by simp [dirChanges, State.writeLatch, State.writeDir, State.setPin, State.record],
            by simp [dirChanges, State.writeLatch, State.writeDir, State.setPin, State.record], by simp [NoIrq], by simp [NoContend]⟩,
          (s.pass 0).now, _, by simp, by simp, Nat.le_refl _, by rw [h]; rfl⟩
    | false =>
      have e : (s.pass 0).clearLatch l = s.pass 0 := by simp [State.clearLatch, State.pin_pass, h]
      rw [e]
      refine ⟨[.dir l .out0 ((s.pass 0).pass 0).now], ?_⟩
      have ht : s.now ≤ ((s.pass 0).pass 0).now := by simp; omega
      cases l with
      | int => cases hl
      | _ =>
        simp only [State.pin_scl, State.pin_sda] at h
        exact ⟨⟨rfl, rfl, rfl, rfl, rfl, rfl, rfl, rfl⟩, rfl, rfl, ⟨rfl, rfl⟩, by simp [State.writeDir, State.setPin, h],
          by simp [State.writeDir, State.setPin, h], by simp [State.writeDir, driveOf, h, State.record], rfl, fun _ => rfl,
          fun _ => rfl, fun _ => rfl, by simp [NoIrq], ⟨_, ht, Nat.le_refl _, rfl, rfl⟩, ht,
          ⟨by simp [lineWrites, withLatches, dirChanges, latchLowered, h],
            by simp [dirChanges, State.writeDir, State.setPin, State.record, h],
            by simp [dirChanges, State.writeDir, State.setPin, State.record, h], by simp [NoIrq], by simp [NoContend]⟩,
          s.now, _, Nat.le_refl _, ht, Nat.le_refl _, by simp [h]⟩

theorem WaitFacts.bus {p : Params} {s t : State} {evs : List Event} {w : Wait} (h : WaitFacts p s evs t w) :
    BusFrame s t ∧ t.acc = s.acc ∧ t.bitIdx = s.bitIdx ∧ t.sda = s.sda ∧ t.scl = { s.scl with dir := .input } := by
  rw [h.frame]
  exact ⟨⟨rfl, rfl, rfl, rfl, rfl, rfl, rfl, rfl⟩, rfl, rfl, rfl, rfl⟩

theorem WaitFacts.wrote {p : Params} {s t : State} {evs : List Event} {w : Wait} (h : WaitFacts p s evs t w) :
    LinesWritten s t evs := by
  obtain ⟨-, -, -, b4, b5⟩ := h.bus
  obtain ⟨rel, lows, high, rfl, -, -, -⟩ := h.events
  exact ⟨by simp [withLatches], by simp [b5], by simp [b4], noIrq_waitEvents _ _ _, noContend_waitEvents _ _ _⟩

/-- The events of a wait as a waveform: SCL is released, SDA is neither sampled nor driven, and on success there is one
clock. -/
theorem WaitFacts.wave {p : Params} {s t : State} {evs : List Event} {w : Wait} (h : WaitFacts p s evs t w) :
    dirChanges evs = [(.scl, .released)] ∧ sampledLevels .sda evs = [] ∧ (∀ d, driveAfter d evs = d) ∧
    (∀ d, driveAtClocks d evs = if w = .ok then [d] else []) ∧
    ((sampledLevels .scl evs).filter id).length = if w = .ok then 1 else 0 := by
  obtain ⟨rel, lows, high, rfl, hw, -, -⟩ := h.events
  refine ⟨by simp, by simp, by simp, ?_, ?_⟩
  · intro d
    cases high with
    | none => rw [if_neg (by simpa using hw)]; simp
    | some x => rw [if_pos (by simpa using hw)]; simp
  · cases high with
    | none => rw [if_neg (by simpa using hw)]; simp
    | some x => rw [if_pos (by simpa using hw)]; simp

/-! ### Bytes out -/

/-- The drives of the low `n` bits of a byte, the highest first. -/
def bitDrives (v : Byte) : Nat → List Drive
  | 0 => []
  | n + 1 => bitDrive (byteBit v n) :: bitDrives v n

theorem bitDrives_eight (v : Byte) : bitDrives v 8 = byteDrives v := rfl

@[simp] theorem length_bitDrives (v : Byte) (n : Nat) : (bitDrives v n).length = n := by
  induction n with
  | zero => rfl
  | succ n ih => simp [bitDrives, ih]

/-- The direction changes of the low `n` bits of a byte, the highest first (43_transport.md R170). -/
def bitChanges (v : Byte) : Nat → List (Line × Drive)
  | 0 => []
  | n + 1 => (.sda, bitDrive (byteBit v n)) :: (.scl, .released) :: (.scl, .out0) :: bitChanges v n

theorem bitChanges_eight (v : Byte) : bitChanges v 8 ++ [(.sda, .released), (.scl, .released)] = sendChanges v := rfl

@[simp] theorem length_bitChanges (v : Byte) (n : Nat) : (bitChanges v n).length = 3 * n := by
  induction n with
  | zero => rfl
  | succ n ih => simp [bitChanges, ih]; omega

/-- The gaps before the direction changes of the low `n` bits of a byte sent, `lead` the first (R170). -/
def bitGaps (p : Params) : Nat → Nat → List Nat
  | _, 0 => []
  | lead, i + 1 => lead :: 0 :: p.tBitNs :: bitGaps p (bitHold p i) i

theorem bitGaps_eight (p : Params) : bitGaps p 0 8 ++ [p.tHalfNs, 0] = sendGaps p := rfl

/-- What the data bits of a byte do, from bit `n - 1` down (43_transport.md R170): `m` clocks were seen. -/
structure SendBitsFacts (p : Params) (v : Byte) (n : Nat) (s : State) (m : Nat) (evs : List Event) (t : State) (w : Wait) :
    Prop where
  frame : BusFrame s t
  acc : t.acc = s.acc
  history : t.history = evs.reverse ++ s.history
  samples : sampledLevels .sda evs = []
  clocks : ((sampledLevels .scl evs).filter id).length = m
  shown : ∀ d, driveAtClocks d evs = (bitDrives v n).take m
  dirs : dirChanges evs = if w = .ok then bitChanges v n else (bitChanges v n).take (3 * m + 2)
  time : s.now ≤ t.now
  success : w = .ok → m = n ∧ s.now + (2 * n * p.tBitNs + p.tHalfNs) ≤ t.now + (if n = 0 then p.tHalfNs else p.tBitNs)
  failure : w = .timeout → m < n ∧ t.scl.dir = .input ∧
    t.sda.dir = (if byteBit v (n - 1 - m) then .input else .output) ∧
    (1 ≤ p.tPollNs → s.precise = false → s.now + (m * 2 * p.tBitNs + tWaitNs) < t.now) ∧
    (byteBit v (n - 1 - m) = false → t.sda.latch = false)
  missed : w = .timeout → p.wf → ∃ before wait, evs = before ++ wait ∧ WaitTimedOut p s.precise t.t0 t.now wait
  spaced : ∀ a lead gs xs, a + lead ≤ s.now → (w = .timeout → xs = []) →
    (w = .ok → ∀ b, b + (if n = 0 then lead else p.tHalfNs) ≤ t.now → Spaced b gs xs) →
    Spaced a (bitGaps p lead n ++ gs) (dirTimes evs ++ xs)

theorem bitHold_le (p : Params) (i : Nat) : p.tHalfNs ≤ bitHold p i ∧ (i ≠ 0 → bitHold p i = p.tBitNs) := by
  unfold bitHold Params.tHalfNs
  split
  · exact ⟨Nat.le_refl _, fun h => absurd ‹_› h⟩
  · exact ⟨Nat.div_le_self _ _, fun _ => rfl⟩

theorem sendBits_facts (p : Params) (v : Byte) (n : Nat) (s : State) :
    ∃ t w m evs, (sendBits p v n).run s = (t, w) ∧ SendBitsFacts p v n s m evs t w := by
  induction n generalizing s with
  | zero =>
    exact ⟨s, .ok, 0, [], rfl, .refl s, rfl, rfl, rfl, rfl, fun _ => rfl, rfl, Nat.le_refl _, fun _ => ⟨rfl, by simp⟩,
      (fun h => by cases h), (fun h => by cases h), fun a _ _ _ ha _ h => h rfl a ha⟩
  | succ i ih =>
    simp only [sendBits, Prog.run_andThen, Prog.run_bind, run_perform, run_bitIdx]
    generalize hs0 : (s.pass 0).setBitIdx i = s0
    have f0 : BusFrame s s0 ∧ s0.acc = s.acc ∧ s0.history = s.history ∧ s.now ≤ s0.now := by
      rw [← hs0]; exact ⟨⟨rfl, rfl, rfl, rfl, rfl, rfl, rfl, rfl⟩, rfl, rfl, by simp⟩
    obtain ⟨e1, h1⟩ := setLine_facts .sda (byteBit v i) s0 rfl
    generalize ((setLine .sda (byteBit v i)).run s0).1 = s1 at h1 ⊢
    obtain ⟨s2, w, e2, hr, h2⟩ := waitClockHigh_facts p s1
    rw [hr]
    obtain ⟨b1, b2, b3, b4, b5⟩ := h2.bus
    obtain ⟨w1, w2, w3, w4, w5⟩ := h2.wave
    have d1 := h1.after
    simp only [reduceIte] at d1
    have hh1 := h1.history
    have hh2 := h2.history
    have t1 := h1.time
    have t2 := h2.time
    obtain ⟨x, x1, x2, -, x3⟩ := h1.times
    obtain ⟨rel, r1, r2, -, r3, r4⟩ := h2.release
    cases w with
    | timeout =>
      refine ⟨s2, .timeout, 0, e1 ++ e2, rfl, (f0.1.trans h1.frame).trans b1, ?_, ?_, ?_, ?_, ?_, ?_, ?_,
        (fun h => by cases h), fun _ => ⟨by omega, ?_, ?_, ?_, ?_⟩,
        fun _ hp => ⟨e1, e2, rfl, by rw [← f0.1.precise, ← h1.frame.precise]; exact h2.missed rfl hp⟩, fun a lead gs xs ha hx _ => ?_⟩
      · rw [b2, h1.acc, f0.2.1]
      · rw [hh2, hh1, f0.2.2.1]; simp
      · simp [h1.samples, w2]
      · simp [h1.samples, w5]
      · simp [h1.clocks, d1, w4]
      · simp [h1.dirs, w1, bitChanges]
      · omega
      · rw [b5]
      · rw [b4, h1.sda]; simp; cases byteBit v i <;> rfl
      · intro hp hq
        have := h2.failure rfl hp (by rw [h1.frame.precise, f0.1.precise, hq])
        omega
      · intro hb
        simp only [Nat.add_sub_cancel, Nat.sub_zero] at hb
        rw [b4, h1.sda, hb]; rfl
      · rw [hx rfl]; simp [x3, r3, bitGaps, Spaced]; omega
    | ok =>
      simp only [Prog.run_andThen, run_perform, run_delay]
      obtain ⟨e3, h3⟩ := setLine_facts .scl false s2 rfl
      generalize ((setLine .scl false).run s2).1 = s3 at h3 ⊢
      have f4 : BusFrame s3 (s3.pass (bitHold p i)) ∧ (s3.pass (bitHold p i)).acc = s3.acc ∧
          (s3.pass (bitHold p i)).history = s3.history ∧ s3.now + bitHold p i ≤ (s3.pass (bitHold p i)).now :=
        ⟨⟨rfl, rfl, rfl, rfl, rfl, rfl, rfl, rfl⟩, rfl, rfl, by simp⟩
      generalize s3.pass (bitHold p i) = s4 at f4 ⊢
      obtain ⟨t, w, m, e5, hr, h5⟩ := ih s4
      rw [hr]
      have t3 := h3.time
      have t5 := h5.time
      have ok2 := h2.success rfl
      have hold := bitHold_le p i
      have hh3 := h3.history
      have pre : BusFrame s s4 := (((f0.1.trans h1.frame).trans b1).trans h3.frame).trans f4.1
      obtain ⟨y, y1, y2, -, y3⟩ := h3.times
      have r4 := r4 rfl
      refine ⟨t, w, m + 1, e1 ++ e2 ++ e3 ++ e5, rfl, pre.trans h5.frame, ?_, ?_, ?_, ?_, ?_, ?_, ?_, fun h => ?_, fun h => ?_,
        fun h hp => ?_, fun a lead gs xs ha hx hk => ?_⟩
      · rw [h5.acc, f4.2.1, h3.acc, b2, h1.acc, f0.2.1]
      · rw [h5.history, f4.2.2.1, hh3, hh2, hh1, f0.2.2.1]; simp
      · simp [h1.samples, w2, h3.samples, h5.samples]
      · simp [h1.samples, w5, h3.samples, h5.clocks]; omega
      · intro d
        simp [h1.clocks, d1, w4, w3, h3.clocks, h5.shown, bitDrives]
      · simp only [dirChanges_append, h1.dirs, w1, h3.dirs, h5.dirs, bitChanges, show 3 * (m + 1) + 2 = 3 * m + 2 + 3 by omega,
          List.take_succ_cons]
        split <;> rfl
      · omega
      · obtain ⟨hm, ht⟩ := h5.success h
        refine ⟨by omega, ?_⟩
        simp only [show i + 1 ≠ 0 by omega, if_false]
        have e : 2 * (i + 1) * p.tBitNs = 2 * i * p.tBitNs + 2 * p.tBitNs := by ring
        by_cases hi : i = 0
        · subst hi; simp only [if_true] at ht; omega
        · have := hold.2 hi; simp only [hi, if_false] at ht; omega
      · obtain ⟨k1, k2, k3, k4, k5⟩ := h5.failure h
        refine ⟨by omega, k2, ?_, fun hp hq => ?_, fun hb => k5 (by rw [← hb]; congr 1; omega)⟩
        · rw [k3]; congr 3; omega
        · have := k4 hp (by rw [pre.precise, hq])
          have hi := hold.2 (by omega)
          have e : (m + 1) * 2 * p.tBitNs = m * 2 * p.tBitNs + 2 * p.tBitNs := by ring
          omega
      · obtain ⟨before, wait, k1, k2⟩ := h5.missed h hp
        exact ⟨e1 ++ e2 ++ e3 ++ before, wait, by rw [k1]; simp, by rw [← pre.precise]; exact k2⟩
      · have := h5.spaced y (bitHold p i) gs xs (by omega) hx fun hw b hb => hk hw b (by
          simp only [show i + 1 ≠ 0 by omega, if_false]
          by_cases hi : i = 0
          · simpa [hi, bitHold] using hb
          · simpa [hi] using hb)
        simp only [dirTimes_append, x3, r3, y3, bitGaps, List.cons_append, List.nil_append, Spaced]
        exact ⟨by omega, by omega, by omega, this⟩

/-- A step that only assigns BITIDX. -/
theorem setBitIdx_facts (i : Nat) (s : State) : BusFrame s ((s.pass 0).setBitIdx i) ∧
    ((s.pass 0).setBitIdx i).acc = s.acc ∧ ((s.pass 0).setBitIdx i).history = s.history ∧
    ((s.pass 0).setBitIdx i).sda = s.sda ∧ s.now ≤ ((s.pass 0).setBitIdx i).now :=
  ⟨⟨rfl, rfl, rfl, rfl, rfl, rfl, rfl, rfl⟩, rfl, rfl, rfl, by simp⟩

/-- A delay (42_delay_unit.md R140). -/
theorem pass_facts (d : Nat) (s : State) : BusFrame s (s.pass d) ∧ (s.pass d).acc = s.acc ∧
    (s.pass d).history = s.history ∧ (s.pass d).scl = s.scl ∧ (s.pass d).sda = s.sda ∧ s.now + d ≤ (s.pass d).now :=
  ⟨⟨rfl, rfl, rfl, rfl, rfl, rfl, rfl, rfl⟩, rfl, rfl, rfl, rfl, by simp⟩

/-- A sample of SDA while the Engine releases it: no contention, one event, the Peer's level (10_state.md R25). -/
structure SampleSdaFacts (s : State) (level : Bool) (x : Nat) (t : State) : Prop where
  frame : BusFrame s t
  acc : t.acc = s.acc
  scl : t.scl = s.scl
  sda : t.sda = s.sda
  history : t.history = .sample .sda level x :: s.history
  time : s.now ≤ t.now
  at_ : s.now ≤ x

theorem sampleSda_facts (s : State) (h : s.sda.dir = .input) :
    ∃ t level x, (MicroOp.sample .sda).run s = (t, level) ∧ SampleSdaFacts s level x t := by
  have e : (s.pass 0).sampled .sda s.nextDraw.level =
      (s.pass 0).record (.sample .sda ((s.pass 0).level s.nextDraw.level .sda) (s.pass 0).now) :=
    sampled_of_not_contends _ _ _ (by simp [State.contends, Pin.drivesHigh, h])
  refine ⟨_, _, (s.pass 0).now, run_sample .sda s, ?_⟩
  rw [e]
  exact ⟨⟨rfl, rfl, rfl, rfl, rfl, rfl, rfl, rfl⟩, rfl, rfl, rfl, rfl, by simp, by simp⟩

/-- What `SendByte` does (R170 to R175): an acknowledge sampled after nine clocks, or a timeout after `m`. -/
structure SendByteFacts (p : Params) (v : Byte) (s : State) (evs : List Event) (t : State) (r : Sent) : Prop where
  frame : BusFrame s t
  acc : t.acc = s.acc
  history : t.history = evs.reverse ++ s.history
  scl : t.scl.dir = .input
  time : s.now ≤ t.now
  result :
    (∃ level, r = .acked (!level) ∧ sampledLevels .sda evs = [level] ∧ t.sda.dir = .input ∧
      ((sampledLevels .scl evs).filter id).length = 9 ∧ (∀ d, driveAtClocks d evs = byteDrives v ++ [.released]) ∧
      dirChanges evs = sendChanges v ∧ s.now + (16 * p.tBitNs + p.tHalfNs) ≤ t.now) ∨
    (∃ m, r = .timeout ∧ m ≤ 8 ∧ sampledLevels .sda evs = [] ∧ dirChanges evs = (sendChanges v).take (3 * m + 2) ∧
      ((sampledLevels .scl evs).filter id).length = m ∧ (∀ d, driveAtClocks d evs = (byteDrives v ++ [Drive.released]).take m) ∧
      (m = 8 → t.sda.dir = .input) ∧ (m < 8 → t.sda.dir = (if byteBit v (7 - m) then .input else .output) ∧
        (byteBit v (7 - m) = false → t.sda.latch = false)) ∧
      (1 ≤ p.tPollNs → s.precise = false → (m < 8 → s.now + (m * 2 * p.tBitNs + tWaitNs) < t.now) ∧
        (m = 8 → s.now + (15 * p.tBitNs + p.tHalfNs + tWaitNs) < t.now)))
  spaced : Spaced s.now (sendGaps p) (dirTimes evs)
  captured : ∀ level, r = .acked (!level) → AckCaptured p level evs
  missed : r = .timeout → p.wf → ∃ before wait, evs = before ++ wait ∧ WaitTimedOut p s.precise t.t0 t.now wait

theorem sendByte_facts (p : Params) (v : Byte) (s : State) :
    ∃ t r evs, (sendByte p v).run s = (t, r) ∧ SendByteFacts p v s evs t r := by
  simp only [sendByte, Prog.run_bind]
  obtain ⟨s1, w, m, e1, hr, h1⟩ := sendBits_facts p v 8 s
  rw [hr]
  cases w with
  | timeout =>
    obtain ⟨k1, k2, k3, k4, k5⟩ := h1.failure rfl
    refine ⟨s1, .timeout, e1, rfl, h1.frame, h1.acc, h1.history, k2, h1.time,
      Or.inr ⟨m, rfl, by omega, h1.samples, ?_, h1.clocks, fun d => ?_, fun h => by omega, fun _ => ⟨by rw [k3], k5⟩,
        fun hp hq => ⟨fun _ => k4 hp hq, fun h => by omega⟩⟩, ?_, (fun _ h => by cases h), fun _ hp => h1.missed rfl hp⟩
    rotate_left 2
    · simpa [bitGaps_eight] using h1.spaced s.now 0 [p.tHalfNs, 0] [] (Nat.le_refl _) (fun _ => rfl) fun h => by cases h
    · rw [h1.dirs, if_neg (by simp), ← bitChanges_eight, List.take_append_of_le_length]
      simp; omega
    rw [h1.shown, bitDrives_eight, List.take_append_of_le_length]
    have : (byteDrives v).length = 8 := rfl
    omega
  | ok =>
    obtain ⟨hm, ht1⟩ := h1.success rfl
    subst hm
    simp only [Prog.run_andThen, Prog.run_bind]
    obtain ⟨e2, h2⟩ := setLine_facts .sda true s1 rfl
    generalize ((setLine .sda true).run s1).1 = s2 at h2 ⊢
    obtain ⟨s3, w, e3, hr, h3⟩ := waitClockHigh_facts p s2
    rw [hr]
    obtain ⟨b1, b2, b3, b4, b5⟩ := h3.bus
    obtain ⟨w1, w2, w3, w4, w5⟩ := h3.wave
    have t2 := h2.time
    have t3 := h3.time
    have a2 := h2.after
    simp only [reduceIte] at a2
    have hsda : s3.sda.dir = .input := by rw [b4, h2.sda]; rfl
    have hshown := h1.shown
    rw [bitDrives_eight, List.take_of_length_le (show (byteDrives v).length ≤ 8 from Nat.le_refl 8)] at hshown
    simp only [show (8 : Nat) ≠ 0 by omega, if_false] at ht1
    obtain ⟨x, x1, x2, -, x3⟩ := h2.times
    obtain ⟨rel, r1, r2, -, r3, -⟩ := h3.release
    have hsp : Spaced s.now (sendGaps p) (dirTimes (e1 ++ e2 ++ e3)) := by
      have := h1.spaced s.now 0 [p.tHalfNs, 0] [x, rel] (Nat.le_refl _) (fun h => by cases h) fun _ b hb => by
        simp [Spaced] at hb ⊢; omega
      simpa [bitGaps_eight, x3, r3] using this
    have pre := (h1.frame.trans h2.frame).trans b1
    have hist : s3.history = (e1 ++ e2 ++ e3).reverse ++ s.history := by
      rw [h3.history, h2.history, h1.history]; simp
    cases w with
    | timeout =>
      refine ⟨s3, .timeout, e1 ++ e2 ++ e3, rfl, pre, by rw [b2, h2.acc, h1.acc], hist, by rw [b5], by omega,
        Or.inr ⟨8, rfl, Nat.le_refl 8, ?_, ?_, ?_, fun d => ?_, fun _ => hsda, fun h => by omega,
          fun hp hq => ⟨fun h => by omega, fun _ => ?_⟩⟩, hsp, (fun _ h => by cases h),
        fun _ hp => ⟨e1 ++ e2, e3, rfl, by rw [← h1.frame.precise, ← h2.frame.precise]; exact h3.missed rfl hp⟩⟩
      · simp [h1.samples, h2.samples, w2]
      · rw [List.take_of_length_le (by simp [sendChanges, byteDrives])]
        simp [h1.dirs, h2.dirs, w1, ← bitChanges_eight, bitDrive]
      · simp [h1.clocks, h2.samples, w5]
      · simp [hshown, h2.clocks, w4]; rfl
      · have := h3.failure rfl hp (by rw [h2.frame.precise, h1.frame.precise, hq])
        omega
    | ok =>
      simp only [Prog.run_bind, run_perform, Prog.run_done]
      obtain ⟨t, level, x, hr, h4⟩ := sampleSda_facts s3 hsda
      rw [hr]
      have t4 := h4.time
      have ok3 := h3.success rfl
      refine ⟨t, .acked (!level), e1 ++ e2 ++ e3 ++ [.sample .sda level x], rfl, pre.trans h4.frame,
        by rw [h4.acc, b2, h2.acc, h1.acc], by rw [h4.history, hist]; simp, by rw [h4.scl, b5], by omega,
        Or.inl ⟨level, rfl, ?_, by rw [h4.sda, hsda], ?_, fun d => ?_, ?_, by omega⟩, by simpa [dirTimes] using hsp, fun l hl => ?_,
        fun h => by cases h⟩
      · simp [h1.samples, h2.samples, w2, sampledLevels]
      · simp [h1.clocks, h2.samples, w5, sampledLevels]
      · simp [hshown, h2.clocks, a2, w4, driveAtClocks, bitDrive]
      · simp [h1.dirs, h2.dirs, w1, ← bitChanges_eight, bitDrive, dirChanges]
      · obtain ⟨high, ⟨before, -, he⟩, hh⟩ := h3.seen rfl
        have : level = l := by simpa using hl
        have := h4.at_
        exact ⟨e1 ++ e2 ++ before, high, x, by simp [*], by omega⟩

/-! ### Bytes in -/

/-- The direction changes of `n` bits received (R180). -/
def clockChanges : Nat → List (Line × Drive)
  | 0 => []
  | n + 1 => (.scl, .released) :: (.scl, .out0) :: clockChanges n

theorem clockChanges_eight : (.sda, .released) :: clockChanges 8 = recvChanges := rfl

/-- The gaps before the direction changes of `n` bits received, `lead` the first (R180). -/
def clockGaps (p : Params) : Nat → Nat → List Nat
  | _, 0 => []
  | lead, i + 1 => lead :: p.tBitNs :: clockGaps p (bitHold p i) i

theorem clockGaps_eight (p : Params) : 0 :: clockGaps p 0 8 = recvGaps p := rfl

/-- What the bits of `RecvByte` do, from bit `n - 1` down (R180): `bits` are the samples of SDA, the first first. -/
structure RecvBitsFacts (p : Params) (n : Nat) (s : State) (bits : List Bool) (evs : List Event) (t : State) (w : Wait) :
    Prop where
  frame : BusFrame s t
  acc : t.acc = bits.foldl shiftIn s.acc
  sda : t.sda = s.sda
  history : t.history = evs.reverse ++ s.history
  samples : sampledLevels .sda evs = bits
  dirs : dirChanges evs = if w = .ok then clockChanges n else (clockChanges n).take (2 * bits.length + 1)
  shown : ∀ d, driveAtClocks d evs = List.replicate bits.length d
  after : ∀ d, driveAfter d evs = d
  clocks : ((sampledLevels .scl evs).filter id).length = bits.length
  time : s.now ≤ t.now
  success : w = .ok → bits.length = n ∧ (n ≠ 0 → t.scl = { dir := .output, latch := false }) ∧
    s.now + (2 * n * p.tBitNs + p.tHalfNs) ≤ t.now + (if n = 0 then p.tHalfNs else p.tBitNs)
  failure : w = .timeout → bits.length < n ∧ t.scl.dir = .input
  spaced : ∀ a lead gs xs, a + lead ≤ s.now → (w = .timeout → xs = []) →
    (w = .ok → ∀ b, b + (if n = 0 then lead else p.tHalfNs) ≤ t.now → Spaced b gs xs) →
    Spaced a (clockGaps p lead n ++ gs) (dirTimes evs ++ xs)
  received : ∃ each last, evs = List.flatten each ++ last ∧ List.Forall₂ (BitReceived p) bits each ∧ (w = .ok → last = []) ∧
    (w = .timeout → p.wf → WaitTimedOut p s.precise t.t0 t.now last)

theorem recvBits_facts (p : Params) (n : Nat) (s : State) (hs : s.sda.dir = .input) :
    ∃ t w bits evs, (recvBits p n).run s = (t, w) ∧ RecvBitsFacts p n s bits evs t w := by
  induction n generalizing s with
  | zero =>
    exact ⟨s, .ok, [], [], rfl, .refl s, rfl, rfl, rfl, rfl, rfl, fun _ => rfl, fun _ => rfl, rfl,
      Nat.le_refl _, fun _ => ⟨rfl, by simp, by simp⟩, (fun h => by cases h), fun a _ _ _ ha _ h => h rfl a ha,
      [], [], rfl, .nil, fun _ => rfl, fun h => by cases h⟩
  | succ i ih =>
    simp only [recvBits, Prog.run_andThen, Prog.run_bind, run_perform, run_bitIdx]
    have f0 := setBitIdx_facts i s
    generalize (s.pass 0).setBitIdx i = s0 at f0 ⊢
    obtain ⟨s1, w, e1, hr, h1⟩ := waitClockHigh_facts p s0
    rw [hr]
    obtain ⟨b1, b2, b3, b4, b5⟩ := h1.bus
    obtain ⟨w1, w2, w3, w4, w5⟩ := h1.wave
    have t1 := h1.time
    have hh1 := h1.history
    obtain ⟨rel, r1, r2, -, r3, r4⟩ := h1.release
    cases w with
    | timeout =>
      refine ⟨s1, .timeout, [], e1, rfl, f0.1.trans b1, ?_, by rw [b4, f0.2.2.2.1], by rw [hh1, f0.2.2.1], w2, ?_, fun d => ?_,
        w3, by simp [w5], by omega, (fun h => by cases h), fun _ => ⟨by simp, by rw [b5]⟩, fun a lead gs xs ha hx _ => ?_,
        [], e1, rfl, .nil, (fun h => by cases h),
        fun _ hp => by rw [← f0.1.precise]; exact h1.missed rfl hp⟩
      · rw [b2, f0.2.1]; rfl
      · simp [w1, clockChanges]
      · simp [w4]
      · rw [hx rfl]; simp [r3, clockGaps, Spaced]; omega
    | ok =>
      simp only [Prog.run_andThen, Prog.run_bind, run_perform, run_delay, run_shiftAcc]
      obtain ⟨s2, level, x, hr, h2⟩ := sampleSda_facts s1 (by rw [b4, f0.2.2.2.1, hs])
      rw [hr]
      have f3 : BusFrame s2 ((s2.pass 0).pushAcc level) ∧ ((s2.pass 0).pushAcc level).acc = shiftIn s2.acc level ∧
          ((s2.pass 0).pushAcc level).history = s2.history ∧ ((s2.pass 0).pushAcc level).sda = s2.sda ∧
          s2.now ≤ ((s2.pass 0).pushAcc level).now :=
        ⟨⟨rfl, rfl, rfl, rfl, rfl, rfl, rfl, rfl⟩, rfl, rfl, rfl, by simp⟩
      dsimp only
      generalize (s2.pass 0).pushAcc level = s3 at f3 ⊢
      obtain ⟨e4, h4⟩ := setLine_facts .scl false s3 rfl
      generalize ((setLine .scl false).run s3).1 = s4 at h4 ⊢
      have f5 := pass_facts (bitHold p i) s4
      generalize s4.pass (bitHold p i) = s5 at f5 ⊢
      have hsda4 : s5.sda = s.sda := by rw [f5.2.2.2.2.1, h4.sda]; simp [f3.2.2.2.1, h2.sda, b4, f0.2.2.2.1]
      obtain ⟨t, w, bits, e6, hr, h6⟩ := ih s5 (by rw [hsda4, hs])
      rw [hr]
      have t2 := h2.time
      have t4 := h4.time
      have t6 := h6.time
      have ok1 := h1.success rfl
      have hold := bitHold_le p i
      have pre := ((((f0.1.trans b1).trans h2.frame).trans f3.1).trans h4.frame).trans f5.1
      have a4 := h4.after
      simp only [reduceCtorEq, if_false] at a4
      refine ⟨t, w, level :: bits, e1 ++ [.sample .sda level x] ++ e4 ++ e6, rfl, pre.trans h6.frame, ?_, by rw [h6.sda, hsda4],
        ?_, ?_, ?_, fun d => ?_, fun d => ?_, ?_, by omega, fun h => ?_, fun h => ?_, fun a lead gs xs ha hx hk => ?_, ?_⟩
      · rw [h6.acc, f5.2.1, h4.acc, f3.2.1, h2.acc, b2, f0.2.1]; rfl
      · rw [h6.history, f5.2.2.1, h4.history, f3.2.2.1, h2.history, hh1, f0.2.2.1]; simp
      · simp [w2, h4.samples, h6.samples, sampledLevels]
      · simp only [dirChanges_append, w1, dirChanges, h4.dirs, h6.dirs, clockChanges, List.length_cons,
          show 2 * (bits.length + 1) + 1 = 2 * bits.length + 1 + 2 by omega, List.take_succ_cons]
        split <;> rfl
      · simp [w4, w3, h4.clocks, a4, h6.shown, driveAtClocks, List.replicate_succ]
      · simp [w3, a4, h6.after, driveAfter]
      · simp [w5, h4.samples, h6.clocks, sampledLevels, Nat.add_comm]
      · obtain ⟨k1, k2, k3⟩ := h6.success h
        refine ⟨by simp [k1], fun _ => ?_, ?_⟩
        · by_cases hi : i = 0
          · subst hi
            simp only [recvBits, Prog.run_done, Prod.mk.injEq] at hr
            rw [← hr.1, f5.2.2.2.1, h4.scl]; rfl
          · exact k2 hi
        · simp only [show i + 1 ≠ 0 by omega, if_false]
          have e : 2 * (i + 1) * p.tBitNs = 2 * i * p.tBitNs + 2 * p.tBitNs := by ring
          by_cases hi : i = 0
          · subst hi; simp only [if_true] at k3; omega
          · have := hold.2 hi; simp only [hi, if_false] at k3; omega
      · obtain ⟨k1, k2⟩ := h6.failure h
        exact ⟨by simp; omega, k2⟩
      · obtain ⟨y, y1, y2, -, y3⟩ := h4.times
        have r4 := r4 rfl
        have t3 := f3.2.2.2.2
        have := h6.spaced y (bitHold p i) gs xs (by have := f5.2.2.2.2.2; omega) hx fun hw b hb => hk hw b (by
          simp only [show i + 1 ≠ 0 by omega, if_false]
          by_cases hi : i = 0
          · simpa [hi, bitHold] using hb
          · simpa [hi] using hb)
        simp only [dirTimes_append, r3, y3, dirTimes, clockGaps, List.cons_append, List.nil_append, Spaced]
        exact ⟨by omega, by omega, this⟩
      · obtain ⟨high, hh, hn⟩ := h1.seen rfl
        obtain ⟨each, last, g1, g2, g3, g4⟩ := h6.received
        have := h2.at_
        exact ⟨(e1 ++ .sample .sda level x :: e4) :: each, last, by simp [g1],
          .cons ⟨e1, high, x, e4, hh, by omega, rfl, h4.dirs, h4.samples⟩ g2, g3, by rw [← pre.precise]; exact g4⟩

/-- What `RecvByte` does (R180 to R184): `bits` are the samples of SDA. -/
structure RecvByteFacts (p : Params) (s : State) (bits : List Bool) (evs : List Event) (t : State) (w : Wait) : Prop where
  frame : BusFrame s t
  acc : t.acc = bits.foldl shiftIn s.acc
  sda : t.sda = { s.sda with dir := .input }
  history : t.history = evs.reverse ++ s.history
  samples : sampledLevels .sda evs = bits
  dirs : dirChanges evs = if w = .ok then recvChanges else recvChanges.take (2 * bits.length + 2)
  shown : ∀ d, driveAtClocks d evs = List.replicate bits.length .released
  after : ∀ d, driveAfter d evs = .released
  time : s.now ≤ t.now
  success : w = .ok → bits.length = 8 ∧ t.scl = { dir := .output, latch := false } ∧
    s.now + (15 * p.tBitNs + p.tHalfNs) ≤ t.now
  failure : w = .timeout → bits.length < 8 ∧ t.scl.dir = .input
  spaced : Spaced s.now (recvGaps p) (dirTimes evs)
  toEnd : w = .ok → Spaced s.now (recvGaps p ++ [p.tHalfNs]) (dirTimes evs ++ [t.now])
  received : w = .ok → BitsReceived p bits evs
  missed : w = .timeout → p.wf → ReceiveMissed p s.precise t.t0 t.now bits evs

theorem recvByte_facts (p : Params) (s : State) :
    ∃ t w bits evs, (recvByte p).run s = (t, w) ∧ RecvByteFacts p s bits evs t w := by
  simp only [recvByte, Prog.run_andThen]
  obtain ⟨e1, h1⟩ := setLine_facts .sda true s rfl
  generalize ((setLine .sda true).run s).1 = s1 at h1 ⊢
  have hsda : s1.sda = { s.sda with dir := .input } := h1.sda
  obtain ⟨t, w, bits, e2, hr, h2⟩ := recvBits_facts p 8 s1 (by rw [hsda])
  rw [hr]
  have t1 := h1.time
  have t2 := h2.time
  have a1 := h1.after
  simp only [reduceIte] at a1
  obtain ⟨x, x1, x2, -, x3⟩ := h1.times
  obtain ⟨each, last, g1, g2, g3, g4⟩ := h2.received
  refine ⟨t, w, bits, e1 ++ e2, rfl, h1.frame.trans h2.frame, by rw [h2.acc, h1.acc], by rw [h2.sda, hsda], ?_, ?_, ?_,
    fun d => ?_, fun d => ?_, by omega, fun h => ?_, fun h => h2.failure h, ?_, fun h => ?_, fun h => ?_, fun h hp => ?_⟩
  · rw [h2.history, h1.history]; simp
  · simp [h1.samples, h2.samples]
  · simp only [dirChanges_append, h1.dirs, h2.dirs, ← clockChanges_eight, List.take_succ_cons]
    split <;> rfl
  · simp [h1.clocks, a1, h2.shown, bitDrive]
  · simp [a1, h2.after, bitDrive]
  · obtain ⟨k1, k2, k3⟩ := h2.success h
    simp only [show (8 : Nat) ≠ 0 by omega, if_false] at k3
    exact ⟨k1, k2 (by omega), by omega⟩
  · have := h2.spaced x 0 [] [] x2 (fun _ => rfl) fun _ _ _ => trivial
    simp only [List.append_nil] at this
    rw [dirTimes_append, x3, ← clockGaps_eight]
    exact ⟨x1, this⟩
  · have := h2.spaced x 0 [p.tHalfNs] [t.now] x2 (fun h' => by rw [h] at h'; cases h') fun _ b hb => ⟨hb, trivial⟩
    rw [dirTimes_append, x3, ← clockGaps_eight]
    exact ⟨x1, this⟩
  · rw [g3 h, List.append_nil] at g1
    exact ⟨e1, each, by rw [g1], h1.dirs, h1.samples, g2⟩
  · exact ⟨e1 ++ each.flatten, last, ⟨e1, each, rfl, h1.dirs, h1.samples, g2⟩, by rw [← h1.frame.precise]; exact g4 h hp,
      by rw [g1, List.append_assoc]⟩

/-! ### Framing -/

/-- What `FrameStart` does (R160, R164). -/
structure FrameStartFacts (s : State) (evs : List Event) (t : State) : Prop where
  frame : BusFrame s t
  acc : t.acc = s.acc
  bitIdx : t.bitIdx = s.bitIdx
  wait : t.t0 = s.t0 ∧ t.nPoll = s.nPoll
  scl : t.scl = { dir := .output, latch := false }
  sda : t.sda = { dir := .output, latch := false }
  history : t.history = evs.reverse ++ s.history
  dirs : dirChanges evs = [(.sda, .out0), (.scl, .out0)]
  samples : ∀ l, sampledLevels l evs = []
  clocks : ∀ d, driveAtClocks d evs = []
  time : s.now ≤ t.now
  events : ∃ x0 x1 x2 x3, s.now ≤ x0 ∧ x0 ≤ x1 ∧ x1 ≤ x2 ∧ x2 ≤ x3 ∧ x3 ≤ t.now ∧
    evs = (if s.sda.latch then [.latch .sda false x0] else []) ++ .dir .sda .out0 x1 ::
      ((if s.scl.latch then [.latch .scl false x2] else []) ++ [.dir .scl .out0 x3])

theorem frameStart_facts (s : State) : ∃ evs, FrameStartFacts s evs (frameStart.run s).1 := by
  simp only [frameStart, Prog.run_andThen]
  obtain ⟨e1, h1⟩ := setLine_facts .sda false s rfl
  generalize ((setLine .sda false).run s).1 = s1 at h1 ⊢
  obtain ⟨e2, h2⟩ := setLine_facts .scl false s1 rfl
  generalize ((setLine .scl false).run s1).1 = t at h2 ⊢
  have t1 := h1.time
  have t2 := h2.time
  refine ⟨e1 ++ e2, h1.frame.trans h2.frame, by rw [h2.acc, h1.acc], by rw [h2.bitIdx, h1.bitIdx],
    ⟨by rw [h2.wait.1, h1.wait.1], by rw [h2.wait.2, h1.wait.2]⟩, h2.scl, by rw [h2.sda]; exact h1.sda, ?_, ?_, fun l => ?_,
    fun d => ?_, by omega, ?_⟩
  · rw [h2.history, h1.history]; simp
  · simp [h1.dirs, h2.dirs, bitDrive]
  · simp [h1.samples, h2.samples]
  · simp [h1.clocks, h2.clocks]
  · obtain ⟨x0, x1, i1, i2, i3, i4⟩ := h1.events
    obtain ⟨x2, x3, j1, j2, j3, j4⟩ := h2.events
    have hscl : s1.scl = s.scl := h1.scl
    exact ⟨x0, x1, x2, x3, i1, i2, by omega, j2, j3, by rw [i4, j4, State.pin_scl, State.pin_sda, hscl]; simp⟩

theorem FrameStartFacts.started {s t : State} {evs : List Event} (h : FrameStartFacts s evs t) : FrameStarted evs :=
  ⟨h.dirs, h.samples .sda⟩

/-- What `FrameStop` does (R162, R164). -/
structure FrameStopFacts (p : Params) (s : State) (evs : List Event) (t : State) (w : Wait) : Prop where
  frame : BusFrame s t
  acc : t.acc = s.acc
  bitIdx : t.bitIdx = s.bitIdx
  scl : t.scl = { s.scl with dir := .input }
  sda : t.sda = { dir := if w = .ok then .input else .output, latch := false }
  history : t.history = evs.reverse ++ s.history
  dirs : dirChanges evs = [(.sda, .out0), (.scl, .released)] ++ (if w = .ok then [(.sda, .released)] else [])
  samples : sampledLevels .sda evs = []
  clocks : ∀ d, driveAtClocks d evs = if w = .ok then [.out0] else []
  time : s.now ≤ t.now
  success : w = .ok → s.now + p.tBitNs ≤ t.now
  failure : w = .timeout → 1 ≤ p.tPollNs → s.precise = false → s.now + tWaitNs < t.now
  ended : p.wf → StopEnded p s.precise t.t0 t.now w.code t.sda evs

/-- A stop that has ended by some time has by every later one. -/
theorem StopEnded.mono {p : Params} {precise : Bool} {t0 x y : Nat} {c : Code} {sda : Pin} {evs : List Event}
    (h : StopEnded p precise t0 x c sda evs) (hxy : x ≤ y) : StopEnded p precise t0 y c sda evs := by
  obtain ⟨h1, first, wait, h2, h3, h4 | ⟨h4, h5, h6, h7, h8⟩⟩ := h
  · exact ⟨h1, first, wait, h2, h3, .inl h4⟩
  · exact ⟨h1, first, wait, h2, h3, .inr ⟨h4, h5, h6, h7.mono hxy, h8⟩⟩

theorem frameStop_facts (p : Params) (s : State) :
    ∃ t w evs, (frameStop p).run s = (t, w) ∧ FrameStopFacts p s evs t w := by
  simp only [frameStop, Prog.run_andThen, Prog.run_bind]
  obtain ⟨e1, h1⟩ := setLine_facts .sda false s rfl
  generalize ((setLine .sda false).run s).1 = s1 at h1 ⊢
  obtain ⟨s2, w, e2, hr, h2⟩ := waitClockHigh_facts p s1
  rw [hr]
  obtain ⟨b1, b2, b3, b4, b5⟩ := h2.bus
  obtain ⟨w1, w2, w3, w4, w5⟩ := h2.wave
  have t1 := h1.time
  have t2 := h2.time
  have hscl : s1.scl = s.scl := h1.scl
  have hsda : s1.sda = { dir := .output, latch := false } := h1.sda
  have a1 := h1.after
  simp only [reduceIte] at a1
  cases w with
  | timeout =>
    refine ⟨s2, .timeout, e1 ++ e2, rfl, h1.frame.trans b1, by rw [b2, h1.acc], by rw [b3, h1.bitIdx], by rw [b5, hscl],
      by rw [b4, hsda]; rfl, ?_, ?_, ?_, fun d => ?_, by omega, (fun h => by cases h), fun _ hp hq => ?_,
      fun hp => ⟨by simp [h1.samples, w2], e1, e2, h1.dirs, h1.samples, .inr ⟨rfl, by simp [h1.dirs, w1, bitDrive, stopChanges],
        by rw [b4, hsda], by rw [← h1.frame.precise]; exact h2.missed rfl hp, rfl⟩⟩⟩
    · rw [h2.history, h1.history]; simp
    · simp [h1.dirs, w1, bitDrive]
    · simp [h1.samples, w2]
    · simp [h1.clocks, w4]
    · have := h2.failure rfl hp (by rw [h1.frame.precise, hq])
      omega
  | ok =>
    simp only [Prog.run_andThen, Prog.run_done]
    obtain ⟨e3, h3⟩ := setLine_facts .sda true s2 rfl
    have he3 : e3 = [.dir .sda .released (s2.pass 0).now] :=
      List.reverse_injective (List.append_cancel_right (h3.history.symm.trans (by rfl)))
    obtain ⟨high, k1, k2⟩ := h2.seen rfl
    have k3 : s2.now ≤ (s2.pass 0).now := by simp
    generalize (s2.pass 0).now = x at he3 k3
    generalize ((setLine .sda true).run s2).1 = t at h3 ⊢
    have t3 := h3.time
    have ok2 := h2.success rfl
    have hscl3 : t.scl = s2.scl := h3.scl
    refine ⟨t, .ok, e1 ++ e2 ++ e3, rfl, (h1.frame.trans b1).trans h3.frame, by rw [h3.acc, b2, h1.acc],
      by rw [h3.bitIdx, b3, h1.bitIdx], by rw [hscl3, b5, hscl], ?_, ?_, ?_, ?_, fun d => ?_, by omega, fun _ => by omega,
      (fun h => by cases h), fun _ => ⟨by simp [h1.samples, w2, h3.samples], e1, e2, h1.dirs, h1.samples,
        .inl ⟨rfl, by simp [h1.dirs, w1, h3.dirs, bitDrive, stopChanges], by rw [h3.sda, b4, hsda]; rfl, high, x, k1,
          k2.trans k3, by rw [he3]⟩⟩⟩
    · rw [h3.sda, b4, hsda]; rfl
    · rw [h3.history, h2.history, h1.history]; simp
    · simp [h1.dirs, w1, h3.dirs, bitDrive]
    · simp [h1.samples, w2, h3.samples]
    · simp [h1.clocks, w4, a1, h3.clocks, bitDrive]

end Sys2Proof.Machine
end

