-- ==== Sys2Proof/Laws/Lines.lean ====
section
/-!
SUPPORT. Every command of the transport writes the lines by SetLine alone (41_bus_primitives.md R110): what `LinesWritten` says of
each primitive, composed as their programs are.
-/

namespace Sys2Proof.Machine

variable {α β : Type}

/-- From a state with `P` the program writes the lines by SetLine alone, and ends with `Q` of its result and its state. -/
def Prog.WritesLines (P : State → Prop) (q : Prog α) (Q : α → State → Prop) : Prop :=
  ∀ s, P s → ∃ evs, (q.run s).1.history = evs.reverse ++ s.history ∧ LinesWritten s (q.run s).1 evs ∧ Q (q.run s).2 (q.run s).1

/-- A program that does so from every state. -/
abbrev Prog.LinesOnly (q : Prog α) : Prop := q.WritesLines (fun _ => True) fun _ _ => True

theorem Prog.linesOnly_done (a : α) : (Prog.done a).LinesOnly := fun _ _ => ⟨[], rfl, .none rfl rfl, trivial⟩

theorem Prog.WritesLines.bind {P : State → Prop} {M : α → State → Prop} {Q : β → State → Prop} {p : Prog α} {f : α → Prog β}
    (hp : p.WritesLines P M) (hf : ∀ a, (f a).WritesLines (M a) Q) : (p.bind f).WritesLines P Q := fun s hs => by
  obtain ⟨e1, h1, w1, m⟩ := hp s hs
  obtain ⟨e2, h2, w2, q⟩ := hf _ _ m
  rw [Prog.run_bind]
  exact ⟨e1 ++ e2, by rw [h2, h1]; simp, w1.trans w2, q⟩

theorem Prog.WritesLines.andThen {P M : State → Prop} {Q : β → State → Prop} {p : Prog α} {q : Prog β}
    (hp : p.WritesLines P fun _ => M) (hq : q.WritesLines M Q) : (p.andThen q).WritesLines P Q := hp.bind fun _ => hq

theorem Prog.WritesLines.weaken {P : State → Prop} {Q : α → State → Prop} {p : Prog α} (h : p.WritesLines P Q) :
    p.WritesLines P fun _ _ => True := fun s hs =>
  let ⟨e, h1, h2, _⟩ := h s hs
  ⟨e, h1, h2, trivial⟩

/-- A step that records nothing and leaves the bus lines. -/
theorem silent_writesLines (op : MicroOp) (F : Pin → Prop) (h : ∀ s, (op.run s).1.history = s.history ∧
    (op.run s).1.scl = s.scl ∧ (op.run s).1.sda = s.sda) :
    (perform op).WritesLines (fun s => F s.sda) fun _ t => F t.sda := fun s hs => by
  obtain ⟨h1, h2, h3⟩ := h s
  exact ⟨[], h1, .none (by rw [run_perform, h2]) (by rw [run_perform, h3]), by dsimp only at hs ⊢; rwa [run_perform, h3]⟩

theorem setLine_linesOnly (l : Line) (hl : l.onBus = true) (b : Bool) : (setLine l b).LinesOnly := fun s _ =>
  let ⟨evs, h⟩ := setLine_facts l b s hl
  ⟨evs, h.history, h.wrote, trivial⟩

theorem setScl_writesLines (b : Bool) (F : Pin → Prop) :
    (setLine .scl b).WritesLines (fun s => F s.sda) fun _ t => F t.sda := fun s hs =>
  let ⟨evs, h⟩ := setLine_facts .scl b s rfl
  ⟨evs, h.history, h.wrote, by dsimp only at hs ⊢; rw [h.sda]; exact hs⟩

theorem waitClockHigh_writesLines (p : Params) (F : Pin → Prop) :
    (waitClockHigh p).WritesLines (fun s => F s.sda) fun _ t => F t.sda := fun s hs => by
  obtain ⟨t, w, evs, hr, h⟩ := waitClockHigh_facts p s
  rw [hr]
  exact ⟨evs, h.history, h.wrote, by dsimp only at hs ⊢; rwa [h.bus.2.2.2.1]⟩

theorem silent_linesOnly (op : MicroOp) (h : ∀ s, (op.run s).1.history = s.history ∧
    (op.run s).1.scl = s.scl ∧ (op.run s).1.sda = s.sda) : (perform op).LinesOnly := silent_writesLines op (fun _ => True) h

theorem waitClockHigh_linesOnly (p : Params) : (waitClockHigh p).LinesOnly := waitClockHigh_writesLines p fun _ => True

/-! With SDA released: the samples of SDA, which cannot meet contention. -/

theorem releaseSda_writesLines : (setLine .sda true).WritesLines (fun _ => True) fun _ t => t.sda.dir = .input := fun s _ =>
  let ⟨evs, h⟩ := setLine_facts .sda true s rfl
  ⟨evs, h.history, h.wrote, by dsimp only; rw [h.sda]; rfl⟩

theorem sampleSda_writesLines :
    (perform (.sample .sda)).WritesLines (fun s => s.sda.dir = .input) fun _ t => t.sda.dir = .input := fun s hs => by
  obtain ⟨t, level, x, hr, h⟩ := sampleSda_facts s hs
  rw [run_perform, hr]
  exact ⟨[.sample .sda level x], h.history, .sample (by rw [h.scl]) (by rw [h.sda]), by dsimp only at hs ⊢; rwa [h.sda]⟩

/-! ### The primitives -/

theorem frameStart_linesOnly : frameStart.LinesOnly :=
  (setLine_linesOnly .sda rfl false).andThen (setLine_linesOnly .scl rfl false)

theorem frameStop_linesOnly (p : Params) : (frameStop p).LinesOnly :=
  (setLine_linesOnly .sda rfl false).andThen <| (waitClockHigh_linesOnly p).bind fun r =>
    match r with
    | .timeout => Prog.linesOnly_done _
    | .ok => (setLine_linesOnly .sda rfl true).andThen (Prog.linesOnly_done _)

theorem sendBits_linesOnly (p : Params) (v : Byte) (n : Nat) : (sendBits p v n).LinesOnly := by
  induction n with
  | zero => exact Prog.linesOnly_done _
  | succ i ih =>
    exact (silent_linesOnly (.bitIdx i) fun _ => ⟨rfl, rfl, rfl⟩).andThen <| (setLine_linesOnly .sda rfl _).andThen <|
      (waitClockHigh_linesOnly p).bind fun r =>
        match r with
        | .timeout => Prog.linesOnly_done _
        | .ok => (setLine_linesOnly .scl rfl false).andThen <|
          (silent_linesOnly (.delay _) fun _ => ⟨rfl, rfl, rfl⟩).andThen ih

theorem sendByte_linesOnly (p : Params) (v : Byte) : (sendByte p v).LinesOnly :=
  (sendBits_linesOnly p v 8).bind fun r =>
    match r with
    | .timeout => Prog.linesOnly_done _
    | .ok => releaseSda_writesLines.andThen <| (waitClockHigh_writesLines p fun q => q.dir = .input).bind fun r =>
      match r with
      | .timeout => fun _ _ => ⟨[], rfl, .none rfl rfl, trivial⟩
      | .ok => sampleSda_writesLines.weaken.bind fun _ => Prog.linesOnly_done _

theorem recvBits_writesLines (p : Params) (n : Nat) :
    (recvBits p n).WritesLines (fun s => s.sda.dir = .input) fun _ _ => True := by
  induction n with
  | zero => exact fun _ _ => ⟨[], rfl, .none rfl rfl, trivial⟩
  | succ i ih =>
    exact (silent_writesLines (.bitIdx i) (fun q => q.dir = .input) fun _ => ⟨rfl, rfl, rfl⟩).andThen <|
      (waitClockHigh_writesLines p fun q => q.dir = .input).bind fun r =>
        match r with
        | .timeout => fun _ _ => ⟨[], rfl, .none rfl rfl, trivial⟩
        | .ok => sampleSda_writesLines.bind fun level =>
          (silent_writesLines (.shiftAcc level) (fun q => q.dir = .input) fun _ => ⟨rfl, rfl, rfl⟩).andThen <|
          (setScl_writesLines false fun q => q.dir = .input).andThen <|
          (silent_writesLines (.delay _) (fun q => q.dir = .input) fun _ => ⟨rfl, rfl, rfl⟩).andThen ih

theorem recvByte_linesOnly (p : Params) : (recvByte p).LinesOnly := releaseSda_writesLines.andThen (recvBits_writesLines p 8)

theorem modeEntryBits_linesOnly (n : Nat) : (modeEntryBits n).LinesOnly := by
  induction n with
  | zero => exact Prog.linesOnly_done _
  | succ i ih =>
    have delay : ∀ d, (perform (.delay d)).LinesOnly := fun d => silent_linesOnly _ fun _ => ⟨rfl, rfl, rfl⟩
    have extra : (modeExtra i).LinesOnly := by
      unfold modeExtra
      split
      · exact delay _
      · exact Prog.linesOnly_done _
    exact (silent_linesOnly (.bitIdx i) fun _ => ⟨rfl, rfl, rfl⟩).andThen <| (setLine_linesOnly .scl rfl _).andThen <|
      (delay _).andThen <| (setLine_linesOnly .sda rfl _).andThen <| (delay _).andThen <| (setLine_linesOnly .sda rfl _).andThen <|
      (delay _).andThen <| extra.andThen ih

/-! ### Register access -/

theorem giveUp_linesOnly (r : Sent) : (giveUp r).LinesOnly :=
  (silent_linesOnly .attempts fun _ => ⟨rfl, rfl, rfl⟩).andThen (Prog.linesOnly_done _)

theorem writeAttempt_linesOnly (p : Params) (a v : Byte) (onFail : Sent → Prog Code) (hf : ∀ r, (onFail r).LinesOnly) :
    (writeAttempt p a v onFail).LinesOnly :=
  (silent_linesOnly .incAtt fun _ => ⟨rfl, rfl, rfl⟩).andThen <| frameStart_linesOnly.andThen <|
    (sendByte_linesOnly p a).bind fun r =>
      match r with
      | .timeout => hf _
      | .acked false => hf _
      | .acked true => (sendByte_linesOnly p v).bind fun r =>
        match r with
        | .timeout => hf _
        | .acked false => hf _
        | .acked true => (frameStop_linesOnly p).bind fun _ =>
          (silent_linesOnly .attempts fun _ => ⟨rfl, rfl, rfl⟩).andThen (Prog.linesOnly_done _)

theorem writeAttempts_linesOnly (p : Params) (a v : Byte) (n : Nat) : (writeAttempts p a v n).LinesOnly := by
  induction n with
  | zero => exact writeAttempt_linesOnly p a v _ giveUp_linesOnly
  | succ n ih => exact writeAttempt_linesOnly p a v _ fun _ => ih

theorem readBack_linesOnly (p : Params) : (readBack p).LinesOnly :=
  (silent_linesOnly .attempts fun _ => ⟨rfl, rfl, rfl⟩).andThen <| (recvByte_linesOnly p).bind fun d =>
    match d with
    | .timeout => Prog.linesOnly_done _
    | .ok => (silent_linesOnly .data fun _ => ⟨rfl, rfl, rfl⟩).andThen <|
      (frameStop_linesOnly p).bind fun _ => Prog.linesOnly_done _

theorem readAttempt_linesOnly (p : Params) (a : Byte) (onFail : Sent → Prog Code) (hf : ∀ r, (onFail r).LinesOnly) :
    (readAttempt p a onFail).LinesOnly :=
  (silent_linesOnly .incAtt fun _ => ⟨rfl, rfl, rfl⟩).andThen <| frameStart_linesOnly.andThen <|
    (sendByte_linesOnly p a).bind fun r =>
      match r with
      | .timeout => hf _
      | .acked false => hf _
      | .acked true => readBack_linesOnly p

theorem readAttempts_linesOnly (p : Params) (a : Byte) (n : Nat) : (readAttempts p a n).LinesOnly := by
  induction n with
  | zero => exact readAttempt_linesOnly p a _ giveUp_linesOnly
  | succ n ih => exact readAttempt_linesOnly p a _ fun _ => ih

/-! ### The commands -/

theorem finish_linesOnly (c : Code) : (finish c).LinesOnly :=
  (silent_linesOnly (.code c) fun _ => ⟨rfl, rfl, rfl⟩).andThen (silent_linesOnly .idle fun _ => ⟨rfl, rfl, rfl⟩)

theorem start_linesOnly : (command .start).LinesOnly := frameStart_linesOnly.andThen (finish_linesOnly _)

theorem stop_linesOnly : (command .stop).LinesOnly := (frameStop_linesOnly _).bind fun _ => finish_linesOnly _

theorem send_linesOnly (v : Byte) : (command (.send v)).LinesOnly :=
  (sendByte_linesOnly _ v).bind fun r =>
    match r with
    | .timeout => finish_linesOnly _
    | .acked a => (silent_linesOnly (.ack a) fun _ => ⟨rfl, rfl, rfl⟩).andThen (finish_linesOnly _)

theorem recv_linesOnly : (command .recv).LinesOnly :=
  (recvByte_linesOnly _).bind fun r =>
    match r with
    | .timeout => finish_linesOnly _
    | .ok => (silent_linesOnly .data fun _ => ⟨rfl, rfl, rfl⟩).andThen (finish_linesOnly _)

theorem msend_linesOnly (a v : Byte) : (command (.msend a v)).LinesOnly :=
  ((silent_linesOnly .clearAtt fun _ => ⟨rfl, rfl, rfl⟩).andThen (writeAttempts_linesOnly _ a v _)).bind finish_linesOnly

theorem mrecv_linesOnly (a : Byte) : (command (.mrecv a)).LinesOnly :=
  ((silent_linesOnly .clearAtt fun _ => ⟨rfl, rfl, rfl⟩).andThen (readAttempts_linesOnly _ a _)).bind finish_linesOnly

/-- A command that writes the lines by SetLine alone does so as a whole, whatever its events are called. -/
theorem exec_linesWritten {i : Instr} {s t : State} {evs : List Event} (h : (command i).LinesOnly) (ht : exec i s = .next t)
    (he : t.history = evs.reverse ++ s.history) : LinesWritten s t evs := by
  obtain ⟨e, h1, h2, -⟩ := h (s.setBusy true) trivial
  rw [exec_eq_command] at ht
  obtain rfl := Host.Outcome.next.inj ht
  obtain rfl : evs = e := List.reverse_injective (List.append_cancel_right (he.symm.trans h1))
  exact ⟨h2.writes, h2.scl, h2.sda, h2.quiet, h2.clear⟩

/-- Between the two changes of IRQ_OFF mode entry writes the lines by SetLine alone. -/
theorem modeEntry_lines (p : Params) (s : State) : ∃ up mid down,
    ((modeEntry p).run s).1.history = (.irq true up :: (mid ++ [.irq false down])).reverse ++ s.history ∧
    LinesWritten s ((modeEntry p).run s).1 mid := by
  have h : ((modeEntryBits modeBits).andThen <| (perform (.precise true)).andThen <| (waitClockHigh p).bind fun r =>
      (perform (.precise false)).andThen (Prog.done r)).LinesOnly :=
    (modeEntryBits_linesOnly _).andThen <| (silent_linesOnly (.precise true) fun _ => ⟨rfl, rfl, rfl⟩).andThen <|
      (waitClockHigh_linesOnly p).bind fun _ =>
        (silent_linesOnly (.precise false) fun _ => ⟨rfl, rfl, rfl⟩).andThen (Prog.linesOnly_done _)
  obtain ⟨mid, h1, h2, -⟩ := h ((s.pass 0).setIrqOff true) trivial
  simp only [Prog.run_andThen, Prog.run_bind, run_perform, run_precise, Prog.run_done] at h1 h2
  simp only [modeEntry, Prog.run_andThen, Prog.run_bind, run_perform, run_irqOff, run_precise, Prog.run_done]
  generalize (waitClockHigh p).run _ = r at h1 h2 ⊢
  refine ⟨(s.pass 0).now, mid, (((r.1.pass 0).setPrecise false).pass 0).now, ?_, h2.writes, h2.scl, h2.sda, h2.quiet, h2.clear⟩
  rw [State.setIrqOff_history, State.pass_history, h1]
  simp

end Sys2Proof.Machine
end

