-- ==== Sys2Proof/Laws/ModeEntry.lean ====
section
/-!
SUPPORT. What the pattern bits of mode entry and the whole of it do, said once (44_mode_entry.md R200 to R207).
-/

namespace Sys2Proof.Machine

/-- The least time of the low `n` bits of the pattern (R205). -/
def patternNs (n : Nat) : Nat := 23000 * n + (if modeExtraIndex < n then tModeExtraNs else 0)

/-- The direction changes of the low `n` bits of the pattern, the highest first (R200). -/
def patternDirs : Nat → List (Line × Drive)
  | 0 => []
  | n + 1 => (.scl, bitDrive (modeBit n)) :: (.sda, .out0) :: (.sda, .released) :: patternDirs n

/-- The gaps before the direction changes of the low `n` bits of the pattern, `lead` the first (R200, R204). -/
def patternGaps : Nat → Nat → List Nat
  | _, 0 => []
  | lead, n + 1 =>
    lead :: tModeClkNs :: tModePulseNs :: patternGaps (tModePulseNs + if n = modeExtraIndex then tModeExtraNs else 0) n

theorem patternGaps_modeBits : patternGaps 0 modeBits ++ [tModePulseNs] = modeGaps := by decide

/-- What the low `n` bits of the pattern do (R200, R204, R206): `ts` are the times of the changes of SCL. -/
structure PatternFacts (n : Nat) (s : State) (ts : List Nat) (evs : List Event) (t : State) : Prop where
  frame : BusFrame s t
  acc : t.acc = s.acc
  sda : s.sda = { dir := .input, latch := false } ∨ n ≠ 0 → t.sda = { dir := .input, latch := false }
  sclLatch : s.scl.latch = false ∨ (∃ i, i < n ∧ modeBit i = false) → t.scl.latch = false
  history : t.history = evs.reverse ++ s.history
  dirs : dirChanges evs = patternDirs n
  samples : ∀ l, sampledLevels l evs = []
  quiet : NoIrq evs
  times : sclTimes evs = ts
  count : ts.length = n
  time : s.now + patternNs n ≤ t.now
  least : ∀ k x, ts[k]? = some x → s.now + (patternNs n - patternNs (n - k)) ≤ x
  spaced : ∀ k x y, ts[0]? = some y → ts[k]? = some x → y + (patternNs n - patternNs (n - k)) ≤ x
  toEnd : ∀ y, ts[0]? = some y → y + patternNs n ≤ t.now
  gaps : ∀ a lead gs xs, a + lead ≤ s.now → (∀ b, b + (if n = 0 then lead else tModePulseNs) ≤ t.now → Spaced b gs xs) →
    Spaced a (patternGaps lead n ++ gs) (dirTimes evs ++ xs)

/-- The hold after a pattern bit (R200). -/
theorem modeExtra_facts (i : Nat) (s : State) : BusFrame s ((modeExtra i).run s).1 ∧ ((modeExtra i).run s).1.acc = s.acc ∧
    ((modeExtra i).run s).1.history = s.history ∧ ((modeExtra i).run s).1.scl = s.scl ∧
    ((modeExtra i).run s).1.sda = s.sda ∧
    s.now + (if i = modeExtraIndex then tModeExtraNs else 0) ≤ ((modeExtra i).run s).1.now := by
  unfold modeExtra
  split
  · exact pass_facts _ s
  · exact ⟨.refl s, rfl, rfl, rfl, rfl, Nat.le_refl _⟩

theorem patternNs_succ (i : Nat) :
    patternNs (i + 1) = patternNs i + 23000 + (if i = modeExtraIndex then tModeExtraNs else 0) := by
  unfold patternNs modeExtraIndex
  split <;> split <;> split <;> omega

theorem modeEntryBits_facts (n : Nat) (s : State) : ∃ ts evs, PatternFacts n s ts evs ((modeEntryBits n).run s).1 := by
  induction n generalizing s with
  | zero =>
    exact ⟨[], [], .refl s, rfl, by simp [modeEntryBits], by simp [modeEntryBits], rfl, rfl, fun _ => rfl, by simp [NoIrq], rfl, rfl,
      by simp [modeEntryBits, patternNs], by simp, by simp, by simp, fun a _ _ _ ha h => h a ha⟩
  | succ i ih =>
    simp only [modeEntryBits, Prog.run_andThen, run_perform, run_bitIdx, run_delay]
    have f0 := setBitIdx_facts i s
    have f0c : ((s.pass 0).setBitIdx i).scl = s.scl := rfl
    generalize (s.pass 0).setBitIdx i = s0 at f0 f0c ⊢
    obtain ⟨e1, h1⟩ := setLine_facts .scl (modeBit i) s0 rfl
    generalize ((setLine .scl (modeBit i)).run s0).1 = s1 at h1 ⊢
    have f2 := pass_facts tModeClkNs s1
    generalize s1.pass tModeClkNs = s2 at f2 ⊢
    obtain ⟨e3, h3⟩ := setLine_facts .sda false s2 rfl
    generalize ((setLine .sda false).run s2).1 = s3 at h3 ⊢
    have f4 := pass_facts tModePulseNs s3
    generalize s3.pass tModePulseNs = s4 at f4 ⊢
    obtain ⟨e5, h5⟩ := setLine_facts .sda true s4 rfl
    generalize ((setLine .sda true).run s4).1 = s5 at h5 ⊢
    have f6 := pass_facts tModePulseNs s5
    generalize s5.pass tModePulseNs = s6 at f6 ⊢
    have f7 := modeExtra_facts i s6
    generalize ((modeExtra i).run s6).1 = s7 at f7 ⊢
    obtain ⟨ts, e8, h8⟩ := ih s7
    generalize ((modeEntryBits i).run s7).1 = t at h8 ⊢
    obtain ⟨x, x1, x2, x3, x4⟩ := h1.times
    obtain ⟨y0, y1, y2, y3, y4⟩ := h3.times
    obtain ⟨z0, z1, z2, z3, z4⟩ := h5.times
    simp only [reduceIte, reduceCtorEq] at x3 y3 z3
    have hs := patternNs_succ i
    have c1 : tModeClkNs = 3000 := rfl
    have c2 : tModePulseNs = 10000 := rfl
    have t3 := h3.time
    have t5 := h5.time
    have t8 := h8.time
    have step : x + 23000 + (if i = modeExtraIndex then tModeExtraNs else 0) ≤ s7.now := by omega
    have scl5 : s7.scl = s1.scl := by
      rw [f7.2.2.2.1, f6.2.2.2.1, h5.scl, f4.2.2.2.1, h3.scl, f2.2.2.2.1]; rfl
    have sda5 : s7.sda = { dir := .input, latch := false } := by
      rw [f7.2.2.2.2.1, f6.2.2.2.2.1, h5.sda, f4.2.2.2.2.1, h3.sda]; rfl
    refine ⟨x :: ts, e1 ++ e3 ++ e5 ++ e8, ?_, ?_, fun _ => ?_, fun hl => h8.sclLatch ?_, ?_, ?_, fun l => ?_, ?_, ?_, ?_, by omega,
      fun k y hk => ?_, fun k y z hz hk => ?_, fun y hy => ?_, fun a lead gs xs ha hk => ?_⟩
    · exact ((((((f0.1.trans h1.frame).trans f2.1).trans h3.frame).trans f4.1).trans h5.frame).trans f6.1).trans
        (f7.1.trans h8.frame)
    · rw [h8.acc, f7.2.1, f6.2.1, h5.acc, f4.2.1, h3.acc, f2.2.1, h1.acc, f0.2.1]
    · exact h8.sda (Or.inl sda5)
    · rw [scl5, h1.scl]
      cases hb : modeBit i with
      | false => exact Or.inl rfl
      | true =>
        rcases hl with hl | ⟨j, hj, hj2⟩
        · exact Or.inl (by simp [f0c, hl])
        · refine Or.inr ⟨j, ?_, hj2⟩
          rcases Nat.lt_or_ge j i with h | h
          · exact h
          · rw [show j = i by omega, hb] at hj2; cases hj2
    · rw [h8.history, f7.2.2.1, f6.2.2.1, h5.history, f4.2.2.1, h3.history, f2.2.2.1, h1.history, f0.2.2.1]; simp
    · simp [h1.dirs, h3.dirs, h5.dirs, h8.dirs, patternDirs, bitDrive]
    · simp [h1.samples, h3.samples, h5.samples, h8.samples]
    · exact noIrq_append (noIrq_append (noIrq_append h1.quiet h3.quiet) h5.quiet) h8.quiet
    · simp [x3, y3, z3, h8.times]
    · simp [h8.count]
    · cases k with
      | zero => simp only [List.getElem?_cons_zero, Option.some.injEq, Nat.sub_zero] at hk ⊢; omega
      | succ k =>
        have := h8.least k y (by simpa using hk)
        rw [show i + 1 - (k + 1) = i - k by omega]
        omega
    · have hz : x = z := by simpa using hz
      cases k with
      | zero => simp only [List.getElem?_cons_zero, Option.some.injEq, Nat.sub_zero] at hk ⊢; omega
      | succ k =>
        have := h8.least k y (by simpa using hk)
        rw [show i + 1 - (k + 1) = i - k by omega]
        omega
    · have hy : x = y := by simpa using hy
      omega
    · have := h8.gaps z0 (tModePulseNs + if i = modeExtraIndex then tModeExtraNs else 0) gs xs (by omega) fun b hb => hk b (by
        simp only [show i + 1 ≠ 0 by omega, if_false]
        by_cases hi : i = 0
        · simp only [hi, if_true] at hb; omega
        · simpa [hi] using hb)
      simp only [dirTimes_append, x4, y4, z4, patternGaps, List.cons_append, List.nil_append, Spaced]
      exact ⟨by omega, by omega, by omega, this⟩

/-- What mode entry does (R200 to R207): `mid` are the events between the two changes of IRQ_OFF, `ts` the times of the
changes of SCL, the last the final release. -/
structure ModeEntryFacts (p : Params) (s : State) (up down : Nat) (mid : List Event) (ts : List Nat) (t : State) (w : Wait) :
    Prop where
  frame : t = { s.withEnv t with
    scl := { dir := .input, latch := false }, sda := { dir := .input, latch := false }, precise := false, irqOff := false
    bitIdx := t.bitIdx, t0 := t.t0, nPoll := t.nPoll, history := t.history }
  history : t.history = (.irq true up :: (mid ++ [.irq false down])).reverse ++ s.history
  quiet : NoIrq mid
  dirs : dirChanges mid = patternDirs modeBits ++ [(.scl, .released)]
  samples : sampledLevels .sda mid = []
  times : sclTimes mid = ts
  count : ts.length = modeBits + 1
  spaced : ∀ k x y, k ≤ modeBits → ts[0]? = some y → ts[k]? = some x → y + (patternNs modeBits - patternNs (modeBits - k)) ≤ x
  gaps : Spaced s.now modeGaps (dirTimes mid)
  time : s.now + patternNs modeBits ≤ t.now
  success : w = .ok → s.now + patternNs modeBits + p.tBitNs ≤ t.now
  /-- The final wait, with PRECISE = 1 (R201). -/
  ends : ∃ pattern wait, mid = pattern ++ wait ∧ (∀ l, sampledLevels l pattern = []) ∧ down ≤ t.now ∧
    (w = .ok → ∃ high, ClockSeen high wait ∧ high + p.tBitNs ≤ down) ∧
    (w = .timeout → p.wf → WaitTimedOut p true t.t0 down wait) ∧
    (p.wf → (sampledLevels .scl wait).length ≤ p.nPrecise)

theorem modeEntry_facts (p : Params) (s : State) : ∃ t w up down mid ts,
    (modeEntry p).run s = (t, w) ∧ ModeEntryFacts p s up down mid ts t w := by
  simp only [modeEntry, Prog.run_andThen, Prog.run_bind, run_perform, run_irqOff, run_precise, Prog.run_done]
  generalize hs0 : (s.pass 0).setIrqOff true = s0
  obtain ⟨ts, e1, h1⟩ := modeEntryBits_facts modeBits s0
  generalize ((modeEntryBits modeBits).run s0).1 = s1 at h1 ⊢
  generalize hs2 : (s1.pass 0).setPrecise true = s2
  obtain ⟨s3, w, e3, hr, h3⟩ := waitClockHigh_facts p s2
  rw [hr]
  obtain ⟨b1, b2, b3, b4, b5⟩ := h3.bus
  obtain ⟨w1, w2, w3, w4, w5⟩ := h3.wave
  obtain ⟨rel, r1, r2, r3, r4, -⟩ := h3.release
  have n0 : s.now ≤ s0.now := by rw [← hs0]; simp
  have n2 : s1.now ≤ s2.now := by rw [← hs2]; simp
  have t3 := h3.time
  have t1 := h1.time
  have hsda : s1.sda = { dir := .input, latch := false } := h1.sda (Or.inr (by decide))
  have hlatch : s1.scl.latch = false := h1.sclLatch (Or.inr ⟨0, by decide, by decide⟩)
  refine ⟨_, w, (s.pass 0).now, (((s3.pass 0).setPrecise false).pass 0).now, e1 ++ e3, ts ++ [rel], rfl, ?_, ?_,
    noIrq_append h1.quiet h3.quiet, ?_, ?_, ?_, ?_, fun k x y hk hy hx => ?_, ?_, ?_, fun hw => ?_,
    e1, e3, rfl, h1.samples, ?_, fun hw => ?_, fun hw hp => ?_, fun hp => ?_⟩
  · ext1 <;> simp [b1.int, b1.cmd, b1.res, b1.att, b1.faultContend, b1.host, b2, b4, b5, ← hs2, hsda, hlatch, h1.frame.int,
      h1.frame.cmd, h1.frame.res, h1.frame.att, h1.frame.faultContend, h1.frame.host, h1.acc, ← hs0]
  · simp [h3.history, ← hs2, h1.history, ← hs0]
  · simp [h1.dirs, w1]
  · simp [h1.samples, w2]
  · simp [h1.times, r3]
  · simp [h1.count]
  · have hc := h1.count
    have hy' : ts[0]? = some y := by
      rw [List.getElem?_append_left (by rw [hc]; decide)] at hy; exact hy
    rcases Nat.lt_or_ge k modeBits with h | h
    · rw [List.getElem?_append_left (by omega)] at hx
      exact h1.spaced k x y hy' hx
    · have hk' : k = modeBits := by omega
      subst hk'
      rw [List.getElem?_append_right (by omega), hc] at hx
      simp at hx
      have := h1.toEnd y hy'
      omega
  · have := h1.gaps s.now 0 [tModePulseNs] [rel] n0 fun b hb => ⟨by simp [modeBits] at hb; omega, trivial⟩
    rw [dirTimes_append, r4, ← patternGaps_modeBits]
    exact this
  · simp; omega
  · have := h3.success hw
    simp; omega
  · simp
  · obtain ⟨high, k1, k2⟩ := h3.seen hw
    exact ⟨high, k1, by simp; omega⟩
  · have := h3.missed hw hp
    rw [← hs2] at this
    exact this.mono (by simp; omega)
  · obtain ⟨rel, lows, high, -, -, -, h⟩ := h3.events
    exact h (by rw [← hs2]; rfl) hp.1

end Sys2Proof.Machine
end

