-- ==== Sys2Proof/Laws/PerInstr.lean ====
section
/-!
SUPPORT. The family `DecodeEncode`: the decoder gives back every encodable command (30_encoding.md R81 to R88), one lemma
for each constructor.
-/

namespace Sys2Proof.Laws.DecodeEncode

open Sys2Proof

/-- The decoder reads the command from the word the encoder gives it. -/
def Statement (i : Instr) : Prop := i.wellFormed = true → decode (encode i) = .ok i

theorem waitclk : Statement .waitclk := fun _ => rfl

theorem delayBit : Statement .delayBit := fun _ => rfl

theorem delayHalf : Statement .delayHalf := fun _ => rfl

theorem start : Statement .start := fun _ => rfl

theorem stop : Statement .stop := fun _ => rfl

theorem recv : Statement .recv := fun _ => rfl

theorem modeentry : Statement .modeentry := fun _ => rfl

theorem setline (l : Line) (b : Bool) : Statement (.setline l b) := by
  intro h
  have hl : l.onBus = true := h
  simp [encode, decode, decodeR, hl]

theorem getline (l : Line) : Statement (.getline l) := by
  intro h
  have hl : l.onBus = true := h
  simp [encode, decode, decodeR, decodeSample, hl]

theorem gdir (l : Line) (b : Bool) : Statement (.gdir l b) := fun _ => by simp [encode, decode, decodeR]

theorem gset (l : Line) (b : Bool) : Statement (.gset l b) := fun _ => by simp [encode, decode, decodeR]

theorem gget (l : Line) : Statement (.gget l) := fun _ => by simp [encode, decode, decodeR, decodeSample]

theorem delayUs (n : BitVec 16) : Statement (.delayUs n) := fun _ => by simp [encode, decode, decodeDelay]

theorem delayMs (n : BitVec 16) : Statement (.delayMs n) := fun _ => by simp [encode, decode, decodeDelay]

theorem send (v : Byte) : Statement (.send v) := fun _ => by simp [encode, decode, decodeSend]

theorem msend (a v : Byte) : Statement (.msend a v) := fun _ => by simp [encode, decode, decodeMsend]

theorem mrecv (a : Byte) : Statement (.mrecv a) := fun _ => by simp [encode, decode, decodeMrecv]

end Sys2Proof.Laws.DecodeEncode
end

