-- ==== Sys2Proof/Laws/RegisterAccess.lean ====
section
/-!
SUPPORT. What one attempt of MasterSend and MasterRecv, and all their attempts, can do, said once each
(45_register_access.md R220 to R235).
-/

namespace Sys2Proof.Machine

/-- The least duration of a failed attempt (R226). -/
def failedAttemptNs (p : Params) : Nat := min (16 * p.tBitNs + p.tHalfNs) tWaitNs

/-- The code of a byte that was not acknowledged, and the clock it ended at (R223). -/
theorem failed_byte {p : Params} {v : Byte} {s t : State} {evs : List Event} {r : Sent} (hp : p.wf)
    (h : SendByteFacts p v s evs t r) (hr : r ≠ .acked true) :
    ∃ k, ∀ es, FailedTry.FailedIn p s.precise ⟨v, failCode r, k, t.now, es⟩ evs ∧ SdaAfterByte v k t.sda := by
  have hm := h.missed
  rcases h.result with ⟨level, rfl, h1, h2, h3, -, h5, -⟩ | ⟨m, rfl, h0, h1, h2, h3, -, h4, h5, -⟩
  · have h6 := h.captured level rfl
    cases level with
    | false => exact absurd rfl hr
    | true => exact ⟨9, fun _ => ⟨Or.inl ⟨rfl, rfl, h5, h1, h3, h6⟩, by rw [SdaAfterByte, if_pos (Or.inl rfl)]; exact h2⟩⟩
  · refine ⟨m + 1, fun _ => ⟨Or.inr ⟨rfl, t.t0, Nat.le_add_left 1 m, Nat.succ_le_succ h0, h2, h1, h3, hm rfl hp⟩, ?_⟩⟩
    unfold SdaAfterByte
    rcases Nat.lt_or_ge m 8 with hm | hm
    · obtain ⟨k1, k2⟩ := h5 hm
      rw [show 8 - (m + 1) = 7 - m by omega]
      cases hb : byteBit v (7 - m) with
      | true => rw [if_pos (Or.inr rfl), k1, hb]; rfl
      | false =>
        rw [if_neg (by simp; omega)]
        rw [hb] at k1
        cases hs : t.sda with
        | mk d l => rw [hs] at k1 k2; have := k2 hb; simp_all
    · rw [if_pos (Or.inl (by omega))]; exact h4 (by omega)

/-- A byte that was acknowledged. -/
theorem acked_byte {p : Params} {v : Byte} {s t : State} {evs : List Event} (h : SendByteFacts p v s evs t (.acked true)) :
    ByteSent p v false evs := by
  rcases h.result with ⟨level, hl, h1, h2, h3, -, h5, -⟩ | ⟨m, hm, -⟩
  · cases level with
    | false => exact ⟨h5, h1, h3, h.captured false rfl⟩
    | true => cases hl
  · cases hm

/-- What an attempt that failed leaves (R223, R224): ATT counts it, no stop was sent, and after a refusal both lines are
released; `F` says which bytes it sent. -/
structure FailedAttempt (F : FailedTry → Prop) (p : Params) (s : State) (evs : List Event) (u : State) (r : Sent) : Prop where
  frame : BusFrame s.incAtt u
  acc : u.acc = s.acc
  history : u.history = evs.reverse ++ s.history
  scl : u.scl.dir = .input
  refused : r ≠ .timeout → r = .acked false ∧ u.sda.dir = .input ∧ ∃ pre, sampledLevels .sda evs = pre ++ [true]
  time : s.now ≤ u.now
  least : 1 ≤ p.tPollNs → s.precise = false → s.now + failedAttemptNs p ≤ u.now
  sent : ∃ b k, F ⟨b, failCode r, k, u.now, evs⟩ ∧ SdaAfterByte b k u.sda

/-- A byte sent after a state already reached: acknowledged, or the attempt has failed. -/
theorem sendByte_outcome (p : Params) (v : Byte) (s : State) :
    ∃ t r evs, (sendByte p v).run s = (t, r) ∧ SendByteFacts p v s evs t r ∧
      ((r = .acked true ∧ t.sda.dir = .input ∧ sampledLevels .sda evs = [false] ∧
          (∀ d, driveAtClocks d evs = byteDrives v ++ [.released]) ∧ s.now + (16 * p.tBitNs + p.tHalfNs) ≤ t.now) ∨
       (r ≠ .acked true ∧
          (r ≠ .timeout → r = .acked false ∧ t.sda.dir = .input ∧ sampledLevels .sda evs = [true]) ∧
          (1 ≤ p.tPollNs → s.precise = false → s.now + failedAttemptNs p ≤ t.now))) := by
  obtain ⟨t, r, e, hr, h⟩ := sendByte_facts p v s
  refine ⟨t, r, e, hr, h, ?_⟩
  rcases h.result with ⟨level, hr, h1, h2, -, h4, -, h5⟩ | ⟨m, hr, h0, -, -, -, -, -, -, h6⟩
  · subst hr
    cases level with
    | false => exact Or.inl ⟨rfl, h2, h1, h4, h5⟩
    | true =>
      refine Or.inr ⟨by simp, fun _ => ⟨rfl, h2, h1⟩, fun _ _ => ?_⟩
      have := Nat.min_le_left (16 * p.tBitNs + p.tHalfNs) tWaitNs
      unfold failedAttemptNs; omega
  · subst hr
    refine Or.inr ⟨by simp, fun h => absurd rfl h, fun hp hq => ?_⟩
    have := Nat.min_le_right (16 * p.tBitNs + p.tHalfNs) tWaitNs
    obtain ⟨k1, k2⟩ := h6 hp hq
    unfold failedAttemptNs
    rcases Nat.lt_or_ge m 8 with hm | hm
    · have := k1 hm; omega
    · have := k2 (by omega); omega

/-- A step that counts an attempt. -/
theorem incAtt_facts (s : State) : BusFrame s.incAtt ((s.pass 0).incAtt) ∧ ((s.pass 0).incAtt).acc = s.acc ∧
    ((s.pass 0).incAtt).history = s.history ∧ s.now ≤ ((s.pass 0).incAtt).now :=
  ⟨⟨rfl, rfl, rfl, rfl, rfl, rfl, rfl, rfl⟩, rfl, rfl, by simp⟩

/-! ### Writes -/

/-- An attempt of MasterSend whose two bytes were acknowledged, up to the end of its stop (R220, R225). -/
structure WrittenAttempt (p : Params) (a v : Byte) (s : State) (evs : List Event) (t : State) (c : Code) : Prop where
  frame : BusFrame (s.incAtt.attemptsFromAtt) t
  acc : t.acc = s.acc
  history : t.history = evs.reverse ++ s.history
  scl : t.scl.dir = .input
  samples : sampledLevels .sda evs = [false, false]
  time : s.now ≤ t.now
  code : c = .ok ∨ c = .timeout
  success : c = .ok → t.sda.dir = .input ∧
    (∀ d, driveAtClocks d evs = byteDrives a ++ [.released] ++ (byteDrives v ++ [.released]) ++ [.out0]) ∧
    s.now + (2 * (16 * p.tBitNs + p.tHalfNs) + p.tBitNs) ≤ t.now
  sent : ∃ e0 e1 e2 e3, evs = e0 ++ e1 ++ e2 ++ e3 ∧ FrameStarted e0 ∧ ByteSent p a false e1 ∧ ByteSent p v false e2 ∧
    StopEnded p s.precise t.t0 t.now c t.sda e3

theorem writeAttempt_run (p : Params) (hp : p.wf) (a v : Byte) (onFail : Sent → Prog Code) (s : State) :
    (∃ t c evs, (writeAttempt p a v onFail).run s = (t, c) ∧ WrittenAttempt p a v s evs t c) ∨
    (∃ u r evs, (writeAttempt p a v onFail).run s = (onFail r).run u ∧ FailedAttempt (WriteFailed p s.precise a v) p s evs u r) := by
  simp only [writeAttempt, Prog.run_andThen, Prog.run_bind, run_perform, run_incAtt]
  have f0 := incAtt_facts s
  generalize (s.pass 0).incAtt = s0 at f0 ⊢
  obtain ⟨e1, h1⟩ := frameStart_facts s0
  generalize (frameStart.run s0).1 = s1 at h1 ⊢
  obtain ⟨s2, r, e2, hr, h2, o2⟩ := sendByte_outcome p a s1
  rw [hr]
  have hq : s.precise = false → s1.precise = false := fun h => by
    rw [h1.frame.precise, f0.1.precise]; exact h
  have t1 := h1.time
  have t2 := h2.time
  rcases o2 with ⟨rfl, k1, k2, k3, k4⟩ | ⟨k1, k2, k3⟩
  · simp only [Prog.run_bind]
    obtain ⟨s3, r, e3, hr, h3, o3⟩ := sendByte_outcome p v s2
    rw [hr]
    have t3 := h3.time
    have pre := ((f0.1.trans h1.frame).trans h2.frame).trans h3.frame
    have hpr2 : s2.precise = s.precise := ((f0.1.trans h1.frame).trans h2.frame).precise
    have hpr3 : s3.precise = s.precise := pre.precise
    have hist : s3.history = (e1 ++ e2 ++ e3).reverse ++ s.history := by
      rw [h3.history, h2.history, h1.history, f0.2.2.1]; simp
    rcases o3 with ⟨rfl, j1, j2, j3, j4⟩ | ⟨j1, j2, j3⟩
    · left
      simp only [Prog.run_bind, Prog.run_andThen, run_perform, run_attempts, Prog.run_done]
      obtain ⟨s4, w, e4, hr, h4⟩ := frameStop_facts p s3
      rw [hr]
      have t4 := h4.time
      refine ⟨(s4.pass 0).attemptsFromAtt, w.code, e1 ++ e2 ++ e3 ++ e4, rfl, ?_, ?_, ?_, ?_, ?_, ?_, ?_, fun hc => ?_, ?_⟩
      · have q := pre.trans h4.frame
        have e : s4.att = s.incAtt.att := q.att
        exact ⟨q.int, q.precise, q.irqOff, q.cmd, by simp [q.res, e], q.att, q.faultContend, q.host⟩
      · simp [h4.acc, h3.acc, h2.acc, h1.acc, f0.2.1]
      · simp [h4.history, hist]
      · simp [h4.scl]
      · simp [h1.samples, k2, j2, h4.samples]
      · simp; omega
      · cases w <;> simp [Wait.code]
      · cases w with
        | timeout => cases hc
        | ok =>
          have := h4.success rfl
          refine ⟨by simp [h4.sda], fun d => by simp [h1.clocks, k3, j3, h4.clocks], by simp; omega⟩
      · exact ⟨e1, e2, e3, e4, rfl, h1.started, acked_byte h2, acked_byte h3,
          by rw [← hpr3]; exact (h4.ended hp).mono (by simp)⟩
    · right
      refine ⟨s3, r, e1 ++ e2 ++ e3, ?_, pre, by rw [h3.acc, h2.acc, h1.acc, f0.2.1], hist, h3.scl, fun hne => ?_, by omega, fun hp hs => ?_, ?_⟩
      · match r, j1 with
        | .acked true, j1 => exact absurd rfl j1
        | .acked false, _ => rfl
        | .timeout, _ => rfl
      · obtain ⟨i1, i2, i3⟩ := j2 hne
        exact ⟨i1, i2, [false], by simp [h1.samples, k2, i3]⟩
      · have := j3 hp (by rw [h2.frame.precise, hq hs]); omega
      · obtain ⟨k, hk⟩ := failed_byte hp h3 j1
        rw [hpr2] at hk
        exact ⟨v, k, ⟨e1, e2, h1.started, Or.inr ⟨e3, acked_byte h2, rfl, (hk _).1, rfl⟩⟩, (hk []).2⟩
  · right
    refine ⟨s2, r, e1 ++ e2, ?_, (f0.1.trans h1.frame).trans h2.frame, by rw [h2.acc, h1.acc, f0.2.1], ?_, h2.scl, fun hne => ?_, by omega, fun hp hs => ?_, ?_⟩
    · match r, k1 with
      | .acked true, j1 => exact absurd rfl j1
      | .acked false, _ => rfl
      | .timeout, _ => rfl
    · rw [h2.history, h1.history, f0.2.2.1]; simp
    · obtain ⟨i1, i2, i3⟩ := k2 hne
      exact ⟨i1, i2, [], by simp [h1.samples, i3]⟩
    · have := k3 hp (hq hs); omega
    · obtain ⟨k, hk⟩ := failed_byte hp h2 k1
      rw [show s1.precise = s.precise from (f0.1.trans h1.frame).precise] at hk
      exact ⟨a, k, ⟨e1, e2, h1.started, Or.inl ⟨rfl, (hk _).1, rfl⟩⟩, (hk []).2⟩

/-- One more failed attempt before the others. -/
theorem LastTry.cons {fails : List FailedTry} {c : Code} {sda : Pin} (h : LastTry fails c sda) (f : FailedTry) :
    LastTry (f :: fails) c sda := by
  obtain ⟨g, h1, h2⟩ := h
  exact ⟨g, by simp [List.getLast?_cons, h1], h2⟩

/-- One more failed attempt before the others, which had ended before all they did. -/
theorem TriesInOrder.cons {now : Nat} {rest evs : List Event} {fails : List FailedTry} (h : TriesInOrder now rest fails)
    (f : FailedTry) (hn : f.ended ≤ now) (he : evs = fails.flatMap FailedTry.events ++ rest) (hf : ∀ e ∈ evs, f.ended ≤ e.time) :
    TriesInOrder now rest (f :: fails) := ⟨hn, he ▸ hf, h⟩

/-- Attempts in order by some time are so by every later one. -/
theorem TriesInOrder.mono {x y : Nat} {rest : List Event} {fails : List FailedTry} (h : TriesInOrder x rest fails) (hxy : x ≤ y) :
    TriesInOrder y rest fails := by
  induction fails with
  | nil => trivial
  | cons f fs ih => exact ⟨h.1.trans hxy, h.2.1, ih h.2.2⟩

/-- What the attempts of MasterSend with `n` retries left do (R220 to R226): `k` attempts failed before the last. -/
structure WriteFacts (p : Params) (a v : Byte) (n k : Nat) (s : State) (evs : List Event) (t : State) (c : Code) : Prop where
  count : k ≤ n
  att : t.att = s.att + BitVec.ofNat 2 (k + 1)
  frame : BusFrame ({ s with att := t.att }.attemptsFromAtt) t
  acc : t.acc = s.acc
  history : t.history = evs.reverse ++ s.history
  scl : t.scl.dir = .input
  time : s.now ≤ t.now
  codes : c = .ok ∨ c = .nak ∨ c = .timeout
  ok : c = .ok → t.sda.dir = .input ∧ (∃ pre, sampledLevels .sda evs = pre ++ [false, false]) ∧
    (∀ d, ∃ pre, driveAtClocks d evs =
      pre ++ (byteDrives a ++ [.released] ++ (byteDrives v ++ [.released]) ++ [.out0]) ∧ (k = 0 → pre = [])) ∧
    (1 ≤ p.tPollNs → s.precise = false →
      s.now + (k * failedAttemptNs p + 2 * (16 * p.tBitNs + p.tHalfNs) + p.tBitNs) ≤ t.now)
  nak : c = .nak → k = n ∧ t.sda.dir = .input ∧ ∃ pre, sampledLevels .sda evs = pre ++ [true]
  tries : ∃ fails : List FailedTry, (∀ f ∈ fails, WriteFailed p s.precise a v f) ∧
    ((fails.length = n + 1 ∧ k = n ∧ evs = fails.flatMap FailedTry.events ∧ TriesInOrder t.now [] fails ∧ LastTry fails c t.sda) ∨
      (fails.length = k ∧ ∃ e0 e1 e2 e3, evs = fails.flatMap FailedTry.events ++ (e0 ++ e1 ++ e2 ++ e3) ∧
        TriesInOrder t.now (e0 ++ e1 ++ e2 ++ e3) fails ∧ FrameStarted e0 ∧ ByteSent p a false e1 ∧ ByteSent p v false e2 ∧
        StopEnded p s.precise t.t0 t.now c t.sda e3))

theorem WrittenAttempt.facts {p : Params} {a v : Byte} {s t : State} {evs : List Event} {c : Code}
    (h : WrittenAttempt p a v s evs t c) (n : Nat) : WriteFacts p a v n 0 s evs t c := by
  have e : t.att = s.att + 1 := h.frame.att
  refine ⟨Nat.zero_le n, e, ?_, h.acc, h.history, h.scl, h.time, ?_, fun hc => ?_, fun hc => ?_, ?_⟩
  · rw [e]; exact h.frame
  · rcases h.code with h | h <;> simp [h]
  · obtain ⟨h1, h2, h3⟩ := h.success hc
    exact ⟨h1, ⟨[], h.samples⟩, fun d => ⟨[], by simp [h2], fun _ => rfl⟩, fun _ _ => by omega⟩
  · rcases h.code with h | h <;> rw [h] at hc <;> cases hc
  · obtain ⟨e0, e1, e2, e3, h1, h2⟩ := h.sent
    exact ⟨[], by simp, Or.inr ⟨rfl, e0, e1, e2, e3, by simpa using h1, trivial, h2⟩⟩

/-- A failed attempt that was the last (R223, R224): its own code, and ATTEMPTS. -/
theorem giveUp_run (r : Sent) (u : State) : (giveUp r).run u = ((u.pass 0).attemptsFromAtt, failCode r) := rfl

theorem writeAttempts_facts (p : Params) (hp : p.wf) (a v : Byte) (n : Nat) (s : State) :
    ∃ k t c evs, (writeAttempts p a v n).run s = (t, c) ∧ WriteFacts p a v n k s evs t c := by
  induction n generalizing s with
  | zero =>
    rcases writeAttempt_run p hp a v giveUp s with ⟨t, c, e, hr, h⟩ | ⟨u, r, e, hr, h⟩
    · exact ⟨0, t, c, e, hr, h.facts 0⟩
    · refine ⟨0, (u.pass 0).attemptsFromAtt, failCode r, e, hr, Nat.le_refl 0, h.frame.att, ?_, h.acc, h.history, h.scl, ?_, ?_,
        fun hc => ?_, fun hc => ?_, ?_⟩
      · have e1 : u.att = s.incAtt.att := h.frame.att
        exact ⟨h.frame.int, h.frame.precise, h.frame.irqOff, h.frame.cmd, by simp [h.frame.res], rfl, h.frame.faultContend,
          h.frame.host⟩
      · have := h.time; simp; omega
      · cases r <;> simp [failCode]
      · cases r <;> cases hc
      · obtain ⟨_, h2, h3⟩ := h.refused (fun e => by subst e; cases hc)
        exact ⟨rfl, h2, h3⟩
      · obtain ⟨b, j, h1, h2⟩ := h.sent
        exact ⟨[⟨b, failCode r, j, u.now, e⟩], by simpa using h1,
          Or.inl ⟨rfl, rfl, by simp, ⟨by simp, by simp, trivial⟩, _, rfl, rfl, h2⟩⟩
  | succ n ih =>
    rcases writeAttempt_run p hp a v (fun _ => writeAttempts p a v n) s with ⟨t, c, e, hr, h⟩ | ⟨u, r, e, hr, h⟩
    · exact ⟨0, t, c, e, hr, h.facts _⟩
    · obtain ⟨k, t, c, e2, hr2, h2⟩ := ih u
      have e1 : u.att = s.att + 1 := h.frame.att
      have t1 := h.time
      have t2 := h2.time
      refine ⟨k + 1, t, c, e ++ e2, hr.trans hr2, by have := h2.count; omega, ?_, ?_, by rw [h2.acc, h.acc], ?_, h2.scl, by omega, h2.codes,
        fun hc => ?_, fun hc => ?_, ?_⟩
      · rw [h2.att, e1, BitVec.add_assoc]
        congr 1
        apply BitVec.eq_of_toNat_eq; simp; omega
      · exact ⟨h2.frame.int.trans h.frame.int, h2.frame.precise.trans h.frame.precise, h2.frame.irqOff.trans h.frame.irqOff,
          h2.frame.cmd.trans h.frame.cmd, by rw [h2.frame.res]; simp [h.frame.res], rfl,
          h2.frame.faultContend.trans h.frame.faultContend, h2.frame.host.trans h.frame.host⟩
      · rw [h2.history, h.history]; simp
      · obtain ⟨k1, ⟨pre, k2⟩, k3, k4⟩ := h2.ok hc
        refine ⟨k1, ⟨sampledLevels .sda e ++ pre, by simp [k2]⟩, fun d => ?_, fun hp hs => ?_⟩
        · obtain ⟨pre, k3, -⟩ := k3 (driveAfter d e)
          exact ⟨driveAtClocks d e ++ pre, by rw [driveAtClocks_append, k3]; simp only [List.append_assoc], fun h => by omega⟩
        · have j1 := h.least hp hs
          have j2 := k4 hp (by rw [h.frame.precise]; exact hs)
          have e3 : (k + 1) * failedAttemptNs p = k * failedAttemptNs p + failedAttemptNs p := by ring
          omega
      · obtain ⟨k1, k2, pre, k3⟩ := h2.nak hc
        exact ⟨by omega, k2, sampledLevels .sda e ++ pre, by simp [k3]⟩
      · obtain ⟨b, j, g1, g2⟩ := h.sent
        obtain ⟨fails, i1, i2⟩ := h2.tries
        have hpr : u.precise = s.precise := h.frame.precise
        have later := Prog.run_later hr2 h2.history
        rw [hpr] at i1 i2
        refine ⟨⟨b, failCode r, j, u.now, e⟩ :: fails, by simpa using ⟨g1, i1⟩, ?_⟩
        rcases i2 with ⟨i2, i3, i4, i5, i6⟩ | ⟨i2, e0, e1, e2', e3, i3, i4, i5⟩
        · exact Or.inl ⟨by simp [i2], by omega, by simp [i4], i5.cons _ t2 (by simpa using i4) later, i6.cons _⟩
        · exact Or.inr ⟨by simp [i2], e0, e1, e2', e3, by simp [i3], i4.cons _ t2 i3 later, i5⟩

/-! ### Reads -/

/-- What follows an acknowledged address (R230, R232, R233): `bits` are the samples of SDA in the receive. -/
structure ReadBackFacts (p : Params) (s : State) (bits : List Bool) (evs : List Event) (t : State) (c : Code) : Prop where
  int : t.int = s.int
  precise : t.precise = s.precise
  irqOff : t.irqOff = s.irqOff
  cmd : t.cmd = s.cmd
  att : t.att = s.att
  faultContend : t.faultContend = s.faultContend
  host : t.host = s.host
  history : t.history = evs.reverse ++ s.history
  samples : sampledLevels .sda evs = bits
  scl : t.scl.dir = .input
  time : s.now ≤ t.now
  result :
    (c = .ok ∧ bits.length = 8 ∧ t.sda.dir = .input ∧
      t.res = { s.res with attempts := ⟨s.att, true⟩, data := ⟨bits.foldl shiftIn s.acc, true⟩ } ∧
      (∀ d, driveAtClocks d evs = List.replicate 8 Drive.released ++ [.out0]) ∧
      s.now + (15 * p.tBitNs + p.tHalfNs + p.tBitNs) ≤ t.now) ∨
    (c = .timeout ∧ bits.length < 8 ∧ t.res = { s.res with attempts := ⟨s.att, true⟩ } ∧ t.sda.dir = .input ∧
      dirChanges evs = recvChanges.take (2 * bits.length + 2) ∧ ReceiveMissed p s.precise t.t0 t.now bits evs) ∨
    (c = .timeout ∧ bits.length = 8 ∧ t.sda.dir = .output ∧
      t.res = { s.res with attempts := ⟨s.att, true⟩, data := ⟨bits.foldl shiftIn s.acc, true⟩ })
  stopped : bits.length = 8 → ∃ e2 e3, evs = e2 ++ e3 ∧ dirChanges e2 = recvChanges ∧ sampledLevels .sda e2 = bits ∧
    BitsReceived p bits e2 ∧ StopEnded p s.precise t.t0 t.now c t.sda e3

theorem readBack_facts (p : Params) (hp : p.wf) (s : State) :
    ∃ t c bits evs, (readBack p).run s = (t, c) ∧ ReadBackFacts p s bits evs t c := by
  simp only [readBack, Prog.run_andThen, Prog.run_bind, run_perform, run_attempts]
  have f0 : ((s.pass 0).attemptsFromAtt).int = s.int ∧ ((s.pass 0).attemptsFromAtt).precise = s.precise ∧
      ((s.pass 0).attemptsFromAtt).irqOff = s.irqOff ∧ ((s.pass 0).attemptsFromAtt).cmd = s.cmd ∧
      ((s.pass 0).attemptsFromAtt).att = s.att ∧ ((s.pass 0).attemptsFromAtt).faultContend = s.faultContend ∧
      ((s.pass 0).attemptsFromAtt).host = s.host ∧ ((s.pass 0).attemptsFromAtt).acc = s.acc ∧
      ((s.pass 0).attemptsFromAtt).history = s.history ∧
      ((s.pass 0).attemptsFromAtt).res = { s.res with attempts := ⟨s.att, true⟩ } ∧
      s.now ≤ ((s.pass 0).attemptsFromAtt).now := ⟨rfl, rfl, rfl, rfl, rfl, rfl, rfl, rfl, rfl, rfl, by simp⟩
  generalize (s.pass 0).attemptsFromAtt = s0 at f0 ⊢
  obtain ⟨i1, i2, i3, i4, i5, i6, i7, i8, i9, i10, i11⟩ := f0
  obtain ⟨s1, w, bits, e1, hr, h1⟩ := recvByte_facts p s0
  rw [hr]
  have t1 := h1.time
  cases w with
  | timeout =>
    obtain ⟨k1, k2⟩ := h1.failure rfl
    exact ⟨s1, .timeout, bits, e1, rfl, h1.frame.int.trans i1, h1.frame.precise.trans i2, h1.frame.irqOff.trans i3,
      h1.frame.cmd.trans i4, h1.frame.att.trans i5, h1.frame.faultContend.trans i6, h1.frame.host.trans i7,
      by rw [h1.history, i9], h1.samples, k2, by omega,
      Or.inr (Or.inl ⟨rfl, k1, h1.frame.res.trans i10, by rw [h1.sda], by rw [h1.dirs]; rfl,
        by rw [← i2]; exact h1.missed rfl hp⟩), fun h => by omega⟩
  | ok =>
    obtain ⟨k1, k2, k3⟩ := h1.success rfl
    simp only [Prog.run_andThen, Prog.run_bind, run_perform, run_data, Prog.run_done]
    have f2 : ((s1.pass 0).dataFromAcc).int = s1.int ∧ ((s1.pass 0).dataFromAcc).precise = s1.precise ∧
        ((s1.pass 0).dataFromAcc).irqOff = s1.irqOff ∧ ((s1.pass 0).dataFromAcc).cmd = s1.cmd ∧
        ((s1.pass 0).dataFromAcc).att = s1.att ∧ ((s1.pass 0).dataFromAcc).faultContend = s1.faultContend ∧
        ((s1.pass 0).dataFromAcc).host = s1.host ∧ ((s1.pass 0).dataFromAcc).history = s1.history ∧
        ((s1.pass 0).dataFromAcc).res = { s1.res with data := ⟨s1.acc, true⟩ } ∧
        s1.now ≤ ((s1.pass 0).dataFromAcc).now := ⟨rfl, rfl, rfl, rfl, rfl, rfl, rfl, rfl, rfl, by simp⟩
    generalize (s1.pass 0).dataFromAcc = s2 at f2 ⊢
    obtain ⟨j1, j2, j3, j4, j5, j6, j7, j8, j9, j10⟩ := f2
    obtain ⟨t, w, e2, hr, h2⟩ := frameStop_facts p s2
    rw [hr]
    have t2 := h2.time
    have hres : t.res = { s.res with attempts := ⟨s.att, true⟩, data := ⟨bits.foldl shiftIn s.acc, true⟩ } := by
      rw [h2.frame.res, j9, h1.frame.res, i10, h1.acc, i8]
    refine ⟨t, w.code, bits, e1 ++ e2, rfl, h2.frame.int.trans (j1.trans (h1.frame.int.trans i1)),
      h2.frame.precise.trans (j2.trans (h1.frame.precise.trans i2)), h2.frame.irqOff.trans (j3.trans (h1.frame.irqOff.trans i3)),
      h2.frame.cmd.trans (j4.trans (h1.frame.cmd.trans i4)), h2.frame.att.trans (j5.trans (h1.frame.att.trans i5)),
      h2.frame.faultContend.trans (j6.trans (h1.frame.faultContend.trans i6)),
      h2.frame.host.trans (j7.trans (h1.frame.host.trans i7)), ?_, ?_, ?_, by omega, ?_,
      fun _ => ⟨e1, e2, rfl, h1.dirs, h1.samples, h1.received rfl,
        by rw [← i2, ← h1.frame.precise, ← j2]; exact h2.ended hp⟩⟩
    · rw [h2.history, j8, h1.history, i9]; simp
    · simp [h1.samples, h2.samples]
    · rw [h2.scl]
    · cases w with
      | ok =>
        have := h2.success rfl
        refine Or.inl ⟨rfl, k1, by rw [h2.sda]; rfl, hres, fun d => ?_, by omega⟩
        rw [driveAtClocks_append, h1.shown, k1, h2.clocks]; rfl
      | timeout => exact Or.inr (Or.inr ⟨rfl, k1, by rw [h2.sda]; rfl, hres⟩)

/-- An attempt of MasterRecv (R230): the address was acknowledged and `readBack` follows, or it failed. -/
theorem readAttempt_run (p : Params) (hp : p.wf) (a : Byte) (onFail : Sent → Prog Code) (s : State) :
    (∃ u evs, (readAttempt p a onFail).run s = (readBack p).run u ∧ BusFrame s.incAtt u ∧
      u.history = evs.reverse ++ s.history ∧ sampledLevels .sda evs = [false] ∧
      (∀ d, driveAtClocks d evs = byteDrives a ++ [.released]) ∧ s.now + (16 * p.tBitNs + p.tHalfNs) ≤ u.now ∧
      ∃ e0 e1, evs = e0 ++ e1 ∧ FrameStarted e0 ∧ ByteSent p a false e1) ∨
    (∃ u r evs, (readAttempt p a onFail).run s = (onFail r).run u ∧ FailedAttempt (ReadFailed p s.precise a) p s evs u r) := by
  simp only [readAttempt, Prog.run_andThen, Prog.run_bind, run_perform, run_incAtt]
  have f0 := incAtt_facts s
  generalize (s.pass 0).incAtt = s0 at f0 ⊢
  obtain ⟨e1, h1⟩ := frameStart_facts s0
  generalize (frameStart.run s0).1 = s1 at h1 ⊢
  obtain ⟨s2, r, e2, hr, h2, o2⟩ := sendByte_outcome p a s1
  rw [hr]
  have hq : s.precise = false → s1.precise = false := fun h => by
    rw [h1.frame.precise, f0.1.precise]; exact h
  have t1 := h1.time
  have t2 := h2.time
  have hist : s2.history = (e1 ++ e2).reverse ++ s.history := by rw [h2.history, h1.history, f0.2.2.1]; simp
  rcases o2 with ⟨rfl, k1, k2, k3, k4⟩ | ⟨k1, k2, k3⟩
  · exact Or.inl ⟨s2, e1 ++ e2, rfl, (f0.1.trans h1.frame).trans h2.frame, hist,
      by simp [h1.samples, k2], fun d => by simp [h1.clocks, k3], by omega, e1, e2, rfl, h1.started, acked_byte h2⟩
  · right
    refine ⟨s2, r, e1 ++ e2, ?_, (f0.1.trans h1.frame).trans h2.frame, by rw [h2.acc, h1.acc, f0.2.1], hist, h2.scl,
      fun hne => ?_, by omega, fun hp hs => ?_, ?_⟩
    · match r, k1 with
      | .acked true, j1 => exact absurd rfl j1
      | .acked false, _ => rfl
      | .timeout, _ => rfl
    · obtain ⟨i1, i2, i3⟩ := k2 hne
      exact ⟨i1, i2, [], by simp [h1.samples, i3]⟩
    · have := k3 hp (hq hs); omega
    · obtain ⟨k, hk⟩ := failed_byte hp h2 k1
      rw [show s1.precise = s.precise from (f0.1.trans h1.frame).precise] at hk
      exact ⟨a, k, ⟨e1, e2, h1.started, rfl, (hk _).1, rfl⟩, (hk []).2⟩

/-- What follows FrameStart and an acknowledged address in an attempt of MasterRecv (R230, R232, R233): the receive timed out at
clock `bits.length + 1`, or it gave `bits` and a stop followed. -/
def ReadEnded (p : Params) (precise : Bool) (t0 ending : Nat) (res : Res) (c : Code) (n : BitVec 2) (sda : Pin) (res' : Res) (evs : List Event) : Prop :=
  ∃ bits : List Bool,
    (c = .timeout ∧ bits.length < 8 ∧ sampledLevels .sda evs = bits ∧ dirChanges evs = recvChanges.take (2 * bits.length + 2) ∧
      ReceiveMissed p precise t0 ending bits evs ∧ sda.dir = .input ∧ res' = { res with attempts := ⟨n, true⟩ }) ∨
    (bits.length = 8 ∧ (∃ acc, res' = { res with attempts := ⟨n, true⟩, data := ⟨bits.foldl shiftIn acc, true⟩ }) ∧
      ∃ e2 e3, evs = e2 ++ e3 ∧ dirChanges e2 = recvChanges ∧ sampledLevels .sda e2 = bits ∧ BitsReceived p bits e2 ∧
        StopEnded p precise t0 ending c sda e3)

theorem ReadBackFacts.ended {p : Params} {s t : State} {bits : List Bool} {evs : List Event} {c : Code}
    (h : ReadBackFacts p s bits evs t c) : ReadEnded p s.precise t.t0 t.now s.res c s.att t.sda t.res evs := by
  refine ⟨bits, ?_⟩
  rcases h.result with ⟨-, k1, -, k3, -⟩ | ⟨k0, k1, k2, k3, k4, k5⟩ | ⟨-, k1, -, k3⟩
  · exact Or.inr ⟨k1, ⟨_, k3⟩, h.stopped k1⟩
  · exact Or.inl ⟨k0, k1, h.samples, k4, k5, k3, k2⟩
  · exact Or.inr ⟨k1, ⟨_, k3⟩, h.stopped k1⟩

/-- What the attempts of MasterRecv with `n` retries left do (R230 to R235): `k` attempts failed before the last. -/
structure ReadFacts (p : Params) (a : Byte) (n k : Nat) (s : State) (evs : List Event) (t : State) (c : Code) : Prop where
  count : k ≤ n
  att : t.att = s.att + BitVec.ofNat 2 (k + 1)
  int : t.int = s.int
  precise : t.precise = s.precise
  irqOff : t.irqOff = s.irqOff
  cmd : t.cmd = s.cmd
  faultContend : t.faultContend = s.faultContend
  host : t.host = s.host
  history : t.history = evs.reverse ++ s.history
  scl : t.scl.dir = .input
  time : s.now ≤ t.now
  result :
    (c = .ok ∧ t.sda.dir = .input ∧
      (∃ (bits : List Bool) (acc : Byte) (pre : List Bool), bits.length = 8 ∧
        sampledLevels .sda evs = pre ++ false :: bits ∧
        t.res = { s.res with attempts := ⟨t.att, true⟩, data := ⟨bits.foldl shiftIn acc, true⟩ }) ∧
      (∀ d, ∃ pre, driveAtClocks d evs = pre ++ (byteDrives a ++ List.replicate 9 Drive.released ++ [.out0]) ∧
        (k = 0 → pre = [])) ∧
      (1 ≤ p.tPollNs → s.precise = false → s.now + (k * failedAttemptNs p + (16 * p.tBitNs + p.tHalfNs) +
        (15 * p.tBitNs + p.tHalfNs) + p.tBitNs) ≤ t.now)) ∨
    (c = .nak ∧ k = n ∧ t.sda.dir = .input ∧ t.res = { s.res with attempts := ⟨t.att, true⟩ } ∧
      ∃ pre, sampledLevels .sda evs = pre ++ [true]) ∨
    (c = .timeout ∧ t.res = { s.res with attempts := ⟨t.att, true⟩ }) ∨
    (c = .timeout ∧ t.sda.dir = .output ∧
      ∃ (bits : List Bool) (acc : Byte) (pre : List Bool), bits.length = 8 ∧
        sampledLevels .sda evs = pre ++ false :: bits ∧
        t.res = { s.res with attempts := ⟨t.att, true⟩, data := ⟨bits.foldl shiftIn acc, true⟩ })
  tries : ∃ fails : List FailedTry, (∀ f ∈ fails, ReadFailed p s.precise a f) ∧
    ((fails.length = n + 1 ∧ k = n ∧ evs = fails.flatMap FailedTry.events ∧ TriesInOrder t.now [] fails ∧ LastTry fails c t.sda ∧
        t.res = { s.res with attempts := ⟨t.att, true⟩ }) ∨
      (fails.length = k ∧ ∃ e0 e1 e2, evs = fails.flatMap FailedTry.events ++ (e0 ++ e1 ++ e2) ∧
        TriesInOrder t.now (e0 ++ e1 ++ e2) fails ∧ FrameStarted e0 ∧ ByteSent p a false e1 ∧
        ReadEnded p s.precise t.t0 t.now s.res c t.att t.sda t.res e2))

/-- The read that follows an acknowledged address, as the whole of an attempt. -/
theorem readBack_after (p : Params) (hp : p.wf) (a : Byte) (m : Nat) (s u : State) (e : List Event) (g1 : BusFrame s.incAtt u)
    (g3 : u.history = e.reverse ++ s.history) (g4 : sampledLevels .sda e = [false])
    (g5 : ∀ d, driveAtClocks d e = byteDrives a ++ [.released]) (g6 : s.now + (16 * p.tBitNs + p.tHalfNs) ≤ u.now)
    (g7 : ∃ e0 e1, e = e0 ++ e1 ∧ FrameStarted e0 ∧ ByteSent p a false e1) :
    ∃ t c evs, (readBack p).run u = (t, c) ∧ ReadFacts p a m 0 s evs t c := by
  obtain ⟨t, c, bits, e2, hr, h⟩ := readBack_facts p hp u
  have hatt : t.att = s.att + 1 := h.att.trans g1.att
  have ht := h.time
  have hres : u.res = s.res := g1.res
  have hu : u.att = t.att := h.att.symm
  refine ⟨t, c, e ++ e2, hr, Nat.zero_le m, hatt, h.int.trans g1.int, h.precise.trans g1.precise,
    h.irqOff.trans g1.irqOff, h.cmd.trans g1.cmd, h.faultContend.trans g1.faultContend, h.host.trans g1.host, ?_, h.scl,
    by omega, ?_, ?_⟩
  · rw [h.history, g3]; simp
  · rcases h.result with ⟨rfl, k1, k2, k3, k4, k5⟩ | ⟨rfl, k1, k2, -⟩ | ⟨rfl, k1, k2, k3⟩
    · refine Or.inl ⟨rfl, k2, ⟨bits, u.acc, [], k1, by simp [g4, h.samples], by rw [k3, hres, hu]⟩, fun d => ⟨[], ?_, fun _ => rfl⟩,
        fun _ _ => by omega⟩
      simp [g5, k4, List.replicate_succ]
    · exact Or.inr (Or.inr (Or.inl ⟨rfl, by rw [k2, hres, hu]⟩))
    · exact Or.inr (Or.inr (Or.inr ⟨rfl, k2, bits, u.acc, [], k1, by simp [g4, h.samples], by rw [k3, hres, hu]⟩))
  · obtain ⟨e0, e1, he, h0, h1⟩ := g7
    have := h.ended
    rw [hres, hu, show u.precise = s.precise from g1.precise] at this
    exact ⟨[], by simp, Or.inr ⟨rfl, e0, e1, e2, by simp [he], trivial, h0, h1, this⟩⟩

theorem readAttempts_facts (p : Params) (hp : p.wf) (a : Byte) (n : Nat) (s : State) :
    ∃ k t c evs, (readAttempts p a n).run s = (t, c) ∧ ReadFacts p a n k s evs t c := by
  induction n generalizing s with
  | zero =>
    rcases readAttempt_run p hp a giveUp s with ⟨u, e, hr, g1, g3, g4, g5, g6, g7⟩ | ⟨u, r, e, hr, h⟩
    · obtain ⟨t, c, evs, hr2, hf⟩ := readBack_after p hp a 0 s u e g1 g3 g4 g5 g6 g7
      exact ⟨0, t, c, evs, hr.trans hr2, hf⟩
    · have hres : u.res = s.res := h.frame.res
      refine ⟨0, (u.pass 0).attemptsFromAtt, failCode r, e, hr, Nat.le_refl 0, h.frame.att, h.frame.int, h.frame.precise,
        h.frame.irqOff, h.frame.cmd, h.frame.faultContend, h.frame.host, h.history, h.scl, ?_, ?_, ?_⟩
      · have := h.time; simp; omega
      · cases r with
        | timeout => exact Or.inr (Or.inr (Or.inl ⟨rfl, by simp [hres]⟩))
        | acked b =>
          obtain ⟨_, h2, h3⟩ := h.refused (by simp)
          exact Or.inr (Or.inl ⟨rfl, rfl, h2, by simp [hres], h3⟩)
      · obtain ⟨b, j, h1, h2⟩ := h.sent
        exact ⟨[⟨b, failCode r, j, u.now, e⟩], by simpa using h1,
          Or.inl ⟨rfl, rfl, by simp, ⟨by simp, by simp, trivial⟩, ⟨_, rfl, rfl, h2⟩, by simp [hres]⟩⟩
  | succ n ih =>
    rcases readAttempt_run p hp a (fun _ => readAttempts p a n) s with ⟨u, e, hr, g1, g3, g4, g5, g6, g7⟩ | ⟨u, r, e, hr, h⟩
    · obtain ⟨t, c, evs, hr2, hf⟩ := readBack_after p hp a (n + 1) s u e g1 g3 g4 g5 g6 g7
      exact ⟨0, t, c, evs, hr.trans hr2, hf⟩
    · obtain ⟨k, t, c, e2, hr2, h2⟩ := ih u
      have e1 : u.att = s.att + 1 := h.frame.att
      have hres : u.res = s.res := h.frame.res
      have t1 := h.time
      have t2 := h2.time
      refine ⟨k + 1, t, c, e ++ e2, hr.trans hr2, by have := h2.count; omega, ?_, h2.int.trans h.frame.int,
        h2.precise.trans h.frame.precise, h2.irqOff.trans h.frame.irqOff, h2.cmd.trans h.frame.cmd,
        h2.faultContend.trans h.frame.faultContend, h2.host.trans h.frame.host, ?_, h2.scl, by omega, ?_, ?_⟩
      · rw [h2.att, e1, BitVec.add_assoc]
        congr 1
        apply BitVec.eq_of_toNat_eq; simp; omega
      · rw [h2.history, h.history]; simp
      · rcases h2.result with ⟨rfl, k1, ⟨bits, acc, pre, k2, k3, k4⟩, k5, k6⟩ | ⟨rfl, k1, k2, k3, pre, k4⟩ | ⟨rfl, k1⟩ |
          ⟨rfl, k1, bits, acc, pre, k2, k3, k4⟩
        · refine Or.inl ⟨rfl, k1, ⟨bits, acc, sampledLevels .sda e ++ pre, k2, by simp [k3], by rw [k4, hres]⟩, fun d => ?_,
            fun hp hs => ?_⟩
          · obtain ⟨pre, k5, -⟩ := k5 (driveAfter d e)
            exact ⟨driveAtClocks d e ++ pre, by rw [driveAtClocks_append, k5]; simp only [List.append_assoc],
              fun h => by omega⟩
          · have j1 := h.least hp hs
            have j2 := k6 hp (by rw [h.frame.precise]; exact hs)
            have e3 : (k + 1) * failedAttemptNs p = k * failedAttemptNs p + failedAttemptNs p := by ring
            omega
        · exact Or.inr (Or.inl ⟨rfl, by omega, k2, by rw [k3, hres], sampledLevels .sda e ++ pre, by simp [k4]⟩)
        · exact Or.inr (Or.inr (Or.inl ⟨rfl, by rw [k1, hres]⟩))
        · exact Or.inr (Or.inr (Or.inr ⟨rfl, k1, bits, acc, sampledLevels .sda e ++ pre, k2, by simp [k3], by rw [k4, hres]⟩))
      · obtain ⟨b, j, g1, g2⟩ := h.sent
        obtain ⟨fails, i1, i2⟩ := h2.tries
        have later := Prog.run_later hr2 h2.history
        rw [show u.precise = s.precise from h.frame.precise] at i1 i2
        rw [hres] at i2
        refine ⟨⟨b, failCode r, j, u.now, e⟩ :: fails, by simpa using ⟨g1, i1⟩, ?_⟩
        rcases i2 with ⟨i2, i3, i4, i5, i6, i7⟩ | ⟨i2, e0, e1, e2', i3, i4, i5⟩
        · exact Or.inl ⟨by simp [i2], by omega, by simp [i4], i5.cons _ t2 (by simpa using i4) later, i6.cons _, i7⟩
        · exact Or.inr ⟨by simp [i2], e0, e1, e2', by simp [i3], i4.cons _ t2 i3 later, i5⟩

end Sys2Proof.Machine
end

