-- ==== Sys2Proof/Laws/Supply.lean ====
section
/-!
SUPPORT. Runs whose next draws are known: every elementary step takes one draw, and a wait during which the Peer leaves SCL
alone ends at its first sample.
-/

namespace Sys2Proof.Machine

/-- At least `n` draws are listed, and `Q` holds of the Peer's drive and of each drive it takes in a listed draw. -/
def State.Supplied (Q : PeerLow → Prop) (n : Nat) (s : State) : Prop :=
  n ≤ s.draws.length ∧ (∀ d ∈ s.draws, ∀ q ∈ drives d.own, Q q) ∧ Q s.peer

theorem State.Supplied.mono {Q : PeerLow → Prop} {n m : Nat} {s : State} (h : s.Supplied Q n) (hm : m ≤ n) :
    s.Supplied Q m := ⟨hm.trans h.1, h.2⟩

theorem State.Supplied.nextDraw {Q : PeerLow → Prop} {n : Nat} {s : State} (h : s.Supplied Q (n + 1)) :
    ∀ q ∈ drives s.nextDraw.own, Q q := by
  obtain ⟨h1, h2, -⟩ := h
  unfold State.nextDraw drawFrom
  cases hd : s.draws with
  | nil => simp [hd] at h1
  | cons d ds => exact h2 d (by simp [hd])

/-- The Peer's drive after the next step. -/
theorem State.Supplied.peer_pass {Q : PeerLow → Prop} {n : Nat} {s : State} (h : s.Supplied Q (n + 1)) (d : Nat) :
    Q (s.pass d).peer := lastDrive_of h.2.2 h.nextDraw

/-- A state whose draws are the rest of `s`'s and whose Peer took its own steps. -/
theorem State.Supplied.tail {Q : PeerLow → Prop} {n : Nat} {s t : State} (h : s.Supplied Q (n + 1))
    (ht : t.draws = s.draws.tail) (hp : t.peer = (s.pass 0).peer) : t.Supplied Q n := by
  refine ⟨?_, fun d hd => h.2.1 d ?_, hp ▸ h.peer_pass 0⟩
  · have := h.1; rw [ht, List.length_tail]; omega
  · rw [ht] at hd; exact List.mem_of_mem_tail hd

/-- Every elementary step takes one draw. -/
@[simp] theorem MicroOp.run_draws (op : MicroOp) (s : State) : (op.run s).1.draws = s.draws.tail := by
  cases op <;> simp [MicroOp.run, MicroOp.effect]

/-- No elementary step of the Engine moves the Peer: it has its own steps. -/
@[simp] theorem MicroOp.run_peer (op : MicroOp) (s : State) : (op.run s).1.peer = (s.pass 0).peer := by
  cases op <;> simp [MicroOp.run, MicroOp.effect]

theorem State.Supplied.step {Q : PeerLow → Prop} {n : Nat} {s : State} (h : s.Supplied Q (n + 1)) (op : MicroOp) :
    (op.run s).1.Supplied Q n := h.tail (op.run_draws s) (op.run_peer s)

theorem State.Supplied.pass {Q : PeerLow → Prop} {n : Nat} {s : State} (h : s.Supplied Q (n + 1)) (d : Nat) :
    (s.pass d).Supplied Q n := h.tail rfl rfl

/-- SetLine takes at most two draws. -/
theorem setLine_supplied {Q : PeerLow → Prop} {n : Nat} {s : State} (h : s.Supplied Q (n + 2)) (l : Line) (b : Bool) :
    ((setLine l b).run s).1.Supplied Q n := by
  cases b with
  | true => exact (h.step (.dir l .input)).mono (by omega)
  | false => exact (h.step (.lowLatch l)).step (.dir l .output)

/-- A clock-high wait during which the Peer leaves SCL alone takes four draws and succeeds. -/
theorem waitClockHigh_supplied {Q : PeerLow → Prop} {n : Nat} {s : State} (p : Params) (hQ : ∀ q, Q q → q.scl = false)
    (h : s.Supplied Q (n + 4)) : ∃ t, (waitClockHigh p).run s = (t, .ok) ∧ t.Supplied Q n := by
  have h1 := h.step (.dir .scl .input)
  have h2 := h1.step .startWait
  have hrun : (waitClockHigh p).run s =
      (waitLoop p (tWaitNs + 2)).run (MicroOp.startWait.run ((MicroOp.dir .scl .input).run s).1).1 := rfl
  have hd : ((MicroOp.startWait.run ((MicroOp.dir .scl .input).run s).1).1).scl.dir = .input := rfl
  generalize (MicroOp.startWait.run ((MicroOp.dir .scl .input).run s).1).1 = u at h2 hrun hd
  rw [hrun, waitLoop_high p _ u hd (hQ _ (h2.peer_pass 0))]
  exact ⟨_, rfl, (h2.step (.delay 0)).tail rfl rfl⟩

end Sys2Proof.Machine
end

