-- ==== Sys2Proof/Tests/Slice0.lean ====
section
/-!
SUPPORT. Small tests of the model's own: ill-formed terms, one word for each constructor written out from the encoding,
the named rejections, the spec's vectors (95_test_vectors.md), and for every obligation with a hypothesis a witness that
meets it. Expected values are the spec's, not the model's.
-/

namespace Sys2Proof.Tests

open Sys2Proof.Machine

-- One test is elaborated after the other: each evaluates in the kernel and would otherwise hold a thread of its own.
set_option Elab.async false

/-! ### Ill-formed terms -/

/-- SETLINE does not accept INT (30_encoding.md R84). -/
theorem test_setline_int_ill_formed : (Instr.setline .int true).wellFormed = false := by decide
/-- GETLINE does not accept INT (R84). -/
theorem test_getline_int_ill_formed : (Instr.getline .int).wellFormed = false := by decide
/-- The word an ill-formed SETLINE would have is rejected (95_test_vectors.md B7). -/
theorem test_setline_int_word : decode 0x01020000#32 = .error .lineNotOnBus := by rfl
/-- GGET accepts INT (R84). -/
theorem test_gget_int_well_formed : (Instr.gget .int).wellFormed = true := by decide

/-! ### Decoding: words written from R80 to R87, most from 95_test_vectors.md -/

theorem test_decode_setline : decode 0b00000001000000010000000000000001#32 = .ok (.setline .sda true) := by rfl
theorem test_decode_setline_low : decode 0b00000001000000000000000000000000#32 = .ok (.setline .scl false) := by rfl
theorem test_decode_getline : decode 0b00000010000000010000000000000000#32 = .ok (.getline .sda) := by rfl
theorem test_decode_waitclk : decode 0b00000011000000000000000000000000#32 = .ok .waitclk := by rfl
theorem test_decode_gdir : decode 0b00000100000000100000000000000001#32 = .ok (.gdir .int true) := by rfl
theorem test_decode_gset : decode 0b00000101000000010000000000000001#32 = .ok (.gset .sda true) := by rfl
theorem test_decode_gget : decode 0b00000110000000100000000000000000#32 = .ok (.gget .int) := by rfl
theorem test_decode_delay_bit : decode 0b00010000000000000000000000000000#32 = .ok .delayBit := by rfl
theorem test_decode_delay_half : decode 0b00010000000000010000000000000000#32 = .ok .delayHalf := by rfl
theorem test_decode_delay_us : decode 0b00010000000000100000000001100100#32 = .ok (.delayUs 100#16) := by rfl
theorem test_decode_delay_ms : decode 0b00010000000000110000000000001111#32 = .ok (.delayMs 15#16) := by rfl
theorem test_decode_start : decode 0b00100000000000000000000000000000#32 = .ok .start := by rfl
theorem test_decode_stop : decode 0b00100001000000000000000000000000#32 = .ok .stop := by rfl
theorem test_decode_send : decode 0b00100010000000000000000011000001#32 = .ok (.send 0xC1#8) := by rfl
theorem test_decode_recv : decode 0b00100011000000000000000000000000#32 = .ok .recv := by rfl
theorem test_decode_modeentry : decode 0b00110000000000000000000000000000#32 = .ok .modeentry := by rfl
theorem test_decode_msend : decode 0b01000000000000001100001010000000#32 = .ok (.msend 0xC2#8 0x80#8) := by rfl
theorem test_decode_mrecv : decode 0b01000001000000001101100100000000#32 = .ok (.mrecv 0xD9#8) := by rfl

/-! ### Rejected words: one for each case of R89 -/

theorem test_reject_unused_opcode : decode 0x07000000#32 = .error .unusedOpcode := by rfl
theorem test_reject_reserved_bit : decode 0x20000001#32 = .error .reservedBit := by rfl
theorem test_reject_reserved_bit_r : decode 0x01000002#32 = .error .reservedBit := by rfl
theorem test_reject_line_3 : decode 0x04030000#32 = .error .lineReserved := by rfl
theorem test_reject_sample_v : decode 0x06020001#32 = .error .sampleWithV := by rfl
theorem test_reject_delay_unit : decode 0x10040000#32 = .error .delayUnit := by rfl
theorem test_reject_delay_count : decode 0x10010005#32 = .error .delayCount := by rfl
theorem test_reject_send_unit : decode 0x22010000#32 = .error .unitField := by rfl
theorem test_reject_mrecv_b : decode 0x4100C101#32 = .error .byteField := by rfl

/-! ### Helpers -/

/-- The vectors' parameters (95_test_vectors.md, Conventions). -/
def p0 : Params := ⟨5000, 10, 1000⟩

/-- No time of its own, and a Peer that keeps its drive. -/
def quiet : Draw := ⟨[], false, 0⟩

/-- No time of its own, and a Peer that pulls the data line. -/
def dataLow : Draw := ⟨[.peer ⟨false, true⟩], false, 0⟩

/-- Every step takes 60 ms or more, and the Peer pulls the clock. -/
def slow : Draw := ⟨[.time 60000000, .peer ⟨true, false⟩], false, 0⟩

/-- The reset state at time 0 with both lines high and ACC at a value the kernel can compute with. -/
def start0 : State := { State.reset with now := 0, peer := ⟨false, false⟩, acc := 0xA5 }

/-- A script of the Peer: its drive at a time, before an elementary step, with the samples of SDA taken so far. -/
abbrev Script := Nat → MicroOp → Nat → PeerLow

/-- A zero-overrun run of a command under a script. -/
def play (f : Script) : Prog Bool → State → State
  | .done _, s => s
  | .act op k, s =>
    let d := f (s.now + op.least) op (sampledLevels .sda s.history).length
    let r := op.run { s with draws := [⟨[.peer d], false, 0⟩] }
    play f (k r.2) r.1

/-- The Peer P0. -/
def peerQuiet : Script := fun _ _ _ => ⟨false, false⟩

/-- The Peer PA. -/
def peerAck : Script := fun _ op _ => ⟨false, op == .sample .sda⟩

/-- The Peer PS(t). -/
def peerStretch (t : Nat) : Script := fun now _ _ => ⟨decide (t ≤ now), false⟩

/-- The Peer PD(d), for a command that samples `acks` acknowledges before the byte. -/
def peerData (acks : Nat) (d : Byte) : Script := fun _ op n =>
  ⟨false, op == .sample .sda && (decide (n < acks) || !byteBit d (7 - (n - acks)))⟩

/-- A Peer that refuses the byte number `n` sent and acknowledges the others. -/
def peerRefuse (n : Nat) : Script := fun _ op m => ⟨false, op == .sample .sda && m != n⟩

/-- A zero-overrun run of a command from the reset state. -/
def fresh (f : Script) (c : Prog Bool) : State := play f c (start0.setBusy true)

/-- A zero-overrun run of a command whose start state is the one START leaves (vector T1). -/
def afterStart (f : Script) (c : Prog Bool) : State := play f c ((fresh peerQuiet startCommand).setBusy true)

/-! ### The spec's vectors -/

/-- B1: SETLINE scl, low. -/
theorem test_setline_low : (fresh peerQuiet (setlineCommand .scl false)).scl = ⟨.output, false⟩
    ∧ (fresh peerQuiet (setlineCommand .scl false)).history = [.dir .scl .out0 0] := by decide +kernel

/-- B22: SETLINE of a line whose latch is 1 writes the latch first. -/
theorem test_setline_latch_first :
    (play peerQuiet (setlineCommand .sda false) { start0 with sda := ⟨.output, true⟩ }).history
      = [.dir .sda .out0 0, .latch .sda false 0] := by decide +kernel

/-- B4: GETLINE scl with the Peer pulling it low. -/
theorem test_getline_low : (fresh (peerStretch 0) (getlineCommand .scl)).res.lvl = ⟨false, true⟩ := by decide +kernel

/-- B3: GETLINE sda reads the pull-up. -/
theorem test_getline_high : (fresh peerQuiet (getlineCommand .sda)).history = [.sample .sda true 0] := by decide +kernel

/-- B10: WAITCLK on a free clock ends after one bit period. -/
theorem test_waitclk_ok : (fresh peerQuiet (waitclkCommand p0)).now = 5000
    ∧ (fresh peerQuiet (waitclkCommand p0)).res.code = .ok := by decide +kernel

/-- B11: WAITCLK with the clock held until 2500. -/
theorem test_waitclk_stretched :
    (fresh (fun now _ _ => ⟨decide (now < 2500), false⟩) (waitclkCommand p0)).now = 8000 := by decide +kernel

/-- B20: GDIR sda, out with latch 1 drives high. -/
theorem test_gdir_active_high :
    (play peerQuiet (gdirCommand .sda false) { start0 with sda := ⟨.input, true⟩ }).history = [.dir .sda .out1 0] := by
  decide +kernel

/-- B16: GDIR int, out. -/
theorem test_gdir_int : (fresh peerQuiet (gdirCommand .int false)).int = ⟨.output, false⟩ := by decide +kernel

/-- B25: GSET records the latch even when it did not change. -/
theorem test_gset_records : (fresh peerQuiet (gsetCommand .int false)).history = [.latch .int false 0] := by
  decide +kernel

/-- B17: GGET int reads what the block drives. -/
theorem test_gget_int : (play peerQuiet (ggetCommand .int) { start0 with int := ⟨.output, false⟩ }).res.lvl = ⟨false, true⟩ := by
  decide +kernel

/-- B21: a sample in contention sets the mark and is recorded. -/
theorem test_gget_contention :
    (play (fun _ _ _ => ⟨false, true⟩) (ggetCommand .sda) { start0 with sda := ⟨.output, true⟩ }).faultContend = true := by
  decide +kernel

/-- D1 and D3. -/
theorem test_delay_bit : (fresh peerQuiet (delayBitCommand p0)).now = 5000 := by decide +kernel
theorem test_delay_half_rounds_down : (fresh peerQuiet (delayHalfCommand ⟨5, 10, 1000⟩)).now = 2 := by decide +kernel

/-- D7 and D8. -/
theorem test_delay_us_unsigned : (fresh peerQuiet (delayUsCommand 65535#16)).now = 65535000 := by decide +kernel
theorem test_delay_ms : (fresh peerQuiet (delayMsCommand 15#16)).now = 15000000 := by decide +kernel

/-- T1: START. -/
theorem test_start_order : (fresh peerQuiet startCommand).history = [.dir .scl .out0 0, .dir .sda .out0 0] := by
  decide +kernel

/-- T2: STOP. -/
theorem test_stop_order : (afterStart peerQuiet (stopCommand p0)).history.take 4
    = [.dir .sda .released 5000, .sample .scl true 0, .dir .scl .released 0, .dir .sda .out0 0] := by decide +kernel

/-- T4: SEND 0xC0, acknowledged. -/
theorem test_send_acked : (afterStart peerAck (sendCommand p0 0xC0#8)).res.ack = ⟨true, true⟩
    ∧ (afterStart peerAck (sendCommand p0 0xC0#8)).now = 82500 := by decide +kernel

/-- T5: SEND 0xC0, refused: ACK = 0 and CODE = OK. -/
theorem test_send_refused : (afterStart peerQuiet (sendCommand p0 0xC0#8)).res.ack = ⟨false, true⟩
    ∧ (afterStart peerQuiet (sendCommand p0 0xC0#8)).res.code = .ok := by decide +kernel

/-- T13: RECV of 0x12. -/
theorem test_recv_0x12 : (afterStart (peerData 0 0x12#8) (recvCommand p0)).res.data = ⟨0x12#8, true⟩
    ∧ (afterStart (peerData 0 0x12#8) (recvCommand p0)).now = 77500 := by decide +kernel

/-- T13: RECV leaves the clock low. -/
theorem test_recv_clock_low : (afterStart (peerData 0 0x12#8) (recvCommand p0)).scl = ⟨.output, false⟩ := by decide +kernel

/-- M1: MODEENTRY. -/
theorem test_modeentry_time : (fresh peerQuiet (modeentryCommand p0)).now = 380000
    ∧ (fresh peerQuiet (modeentryCommand p0)).res.code = .ok := by decide +kernel

/-- M2: MODEENTRY's final wait ends at the ceiling. -/
theorem test_modeentry_ceiling : (fresh (peerStretch 375000) (modeentryCommand p0)).now = 384000
    ∧ (fresh (peerStretch 375000) (modeentryCommand p0)).res.code = .timeout := by decide +kernel

/-- A3: MSEND whose value byte is refused once. -/
theorem test_msend_second_attempt : (fresh (peerRefuse 1) (msendCommand p0 0xC0#8 0x14#8)).now = 335000
    ∧ (fresh (peerRefuse 1) (msendCommand p0 0xC0#8 0x14#8)).res.attempts = ⟨2#2, true⟩ := by decide +kernel

/-- A4: MSEND refused three times. -/
theorem test_msend_nak : (fresh peerQuiet (msendCommand p0 0xC0#8 0x14#8)).res.code = .nak
    ∧ (fresh peerQuiet (msendCommand p0 0xC0#8 0x14#8)).now = 247500 := by decide +kernel

/-- A7: MRECV of 0x12. -/
theorem test_mrecv_0x12 : (fresh (peerData 1 0x12#8) (mrecvCommand p0 0xC1#8)).res.data = ⟨0x12#8, true⟩
    ∧ (fresh (peerData 1 0x12#8) (mrecvCommand p0 0xC1#8)).now = 165000 := by decide +kernel

/-- A8: MRECV refused three times. -/
theorem test_mrecv_nak : (fresh peerQuiet (mrecvCommand p0 0xC1#8)).res.code = .nak
    ∧ (fresh peerQuiet (mrecvCommand p0 0xC1#8)).res.attempts = ⟨3#2, true⟩ := by decide +kernel

/-! ### Witnesses: states and operands that meet the hypotheses of the obligations -/

/-- The reset state with a long list of equal draws to come. -/
def supplied (d : Draw) : State := { start0 with draws := List.replicate 1000 d }

/-- The code a next state holds. -/
def codeOf : Host.Outcome State Fault Refusal → Option Code
  | .next t => some t.res.code
  | .fault _ => none
  | .refused _ => none

/-- A state with every stored field of RES written. -/
def written0 : State :=
  { start0 with res := ⟨.timeout, false, ⟨true, true⟩, ⟨false, true⟩, ⟨0x12#8, true⟩, ⟨3#2, true⟩⟩ }

/-- Two interrupts during a MODEENTRY: the first comes before IRQ_OFF is 1, the second after (44_mode_entry.md R202). -/
theorem test_two_moves_in_a_command :
    (match stepOf [.during 0x30000000#32 [(0, .interrupt), (1, .interrupt)]] start0 with
      | .refused r => some r
      | .fault _ => none
      | .next _ => none) = some .interruptWhileOff := by decide +kernel

/-- A move of 30 us at the start of a DELAY.US 100 leaves 70 us of it (42_delay_unit.md R143; log 12). -/
theorem test_move_takes_time_of_the_step :
    (match stepOf [.during 0x10020064#32 [(0, .interrupt)]]
        { start0 with draws := [⟨[.time 30000], false, 0⟩, quiet, quiet, quiet] } with
      | .next t => some (t.now, t.res.code, t.res.busy)
      | .fault _ => none
      | .refused _ => none) = some (100000, .ok, false) := by decide +kernel

/-- The Peer takes two drives in one step, and the last one holds (10_state.md R23). -/
theorem test_last_drive_holds :
    ({ start0 with draws := [⟨[.peer ⟨true, true⟩, .time 4, .peer ⟨false, true⟩], false, 0⟩] } : State).pass 0
      = { start0 with now := 4, peer := ⟨false, true⟩, drawn := 1 } := rfl

theorem witness_EncodedCommandsDecode : (Instr.setline .sda false).wellFormed = true := by decide

theorem witness_DecodedWordsAreEncodings : decode 0x05020001#32 = .ok (.gset .int true) := by rfl

theorem witness_DecoderFollowsOpcodeMap :
    decode 0x06010000#32 = .ok (.gget .sda) ∧ opcodeRows[5]? = some ⟨0xFFFCFFFF#32, 0x06000000#32, true⟩
      ∧ (OpcodeRow.mk 0xFFFCFFFF#32 0x06000000#32 true).hits 0x06010000#32 = true
      ∧ (∀ r ∈ opcodeRows, r.hits 0x06030000#32 = false) ∧ decode 0x06030000#32 = .error .lineReserved := by
  refine ⟨rfl, by decide, by decide, by decide, rfl⟩

theorem witness_IllegalWordsOnlyWriteCode : decode 0xFFFFFFFF#32 = .error .unusedOpcode
    ∧ decode 0x03000001#32 = .error .reservedBit ∧ decode 0x05040000#32 = .error .reservedBit
    ∧ decode 0x05030000#32 = .error .lineReserved ∧ decode 0x02020000#32 = .error .lineNotOnBus
    ∧ decode 0x02010001#32 = .error .sampleWithV ∧ decode 0x10040000#32 = .error .delayUnit
    ∧ decode 0x10000001#32 = .error .delayCount ∧ decode 0x22000100#32 = .error .byteField
    ∧ decode 0x40010000#32 = .error .unitField ∧ decode 0x4100C101#32 = .error .byteField
    ∧ start0.lineOf [.cmd 0x01020000#32] = some (.cmd 0x01020000#32) ∧ start0.res.busy = false ∧ decode 0x01020000#32 = .error .lineNotOnBus :=
  ⟨rfl, rfl, rfl, rfl, rfl, rfl, rfl, rfl, rfl, rfl, rfl, rfl, rfl, rfl⟩

/-- A line that assembles, and each clause at the ends of its range. -/
theorem witness_AssembledCommandsDecode :
    assemble (.wreg1 0xC0 255) = some [.start, .send 0xC0#8, .send 255#8, .stop] ∧ 65535 < 65536 ∧ 255 < 256
      ∧ assembleWords (.msend 0xC0 0x14) = some [0x4000C014#32] ∧ assembleWords (.delayMs 65535) = some [0x1003FFFF#32]
      ∧ assemble (.delayUs 65536) = none ∧ assemble (.mrecv 256) = none ∧ assemble (.gset .int 2) = none := by
  decide

/-- A line of the program, no word given and a word given. -/
theorem witness_StepRunsDecodedCommand : start0.lineOf [.cmd 0x4000C014#32] = some (.cmd 0x4000C014#32)
    ∧ start0.res.busy = false ∧ decode 0x4000C014#32 = .ok (.msend 0xC0#8 0x14#8)
    ∧ start0.host.given = none ∧ (start0.give 0x4000C014#32).host.given = some 0x4000C014#32 :=
  ⟨rfl, rfl, rfl, rfl, rfl⟩

/-- A word given to the Host runs at the very next step, whatever the program, and is used up by it. -/
theorem test_given_word_runs :
    (match step (start0.withFetchWord 32 0x05020001) with
      | .next t => some (t.int, t.cmd, t.host)
      | .fault _ => none
      | .refused _ => none) = some (⟨.input, true⟩, 0x05020001#32, ⟨1, none, none⟩) := by decide +kernel

/-- A reset alone, and a reset after two reads. -/
theorem witness_ResetDuringCommandEndsIt :
    start0.lineOf [.during 0x20000000#32 [(2, .reset)]]
        = some (.during 0x20000000#32 (([] : List Nat).map (fun j => (j, .read resAddr 4)) ++ [(2, .reset)]))
      ∧ start0.lineOf [.during 0x20000000#32 [(1, .read resAddr 4), (0, .read resAddr 4), (2, .reset)]]
        = some (.during 0x20000000#32 ([1, 0].map (fun j => (j, .read resAddr 4)) ++ [(2, .reset)]))
      ∧ start0.res.busy = false := ⟨rfl, rfl, rfl⟩

/-- One read, and two reads. -/
theorem witness_ReadDuringCommandLetsItGoOn :
    start0.lineOf [.during 0x30000000#32 [(140, .read resAddr 4)]]
        = some (.during 0x30000000#32 ((140, .read resAddr 4) :: ([] : List Nat).map (fun j => (j, .read resAddr 4))))
      ∧ start0.lineOf [.during 0x30000000#32 [(140, .read resAddr 4), (3, .read resAddr 4)]]
        = some (.during 0x30000000#32 ((140, .read resAddr 4) :: [3].map (fun j => (j, .read resAddr 4))))
      ∧ start0.res.busy = false := ⟨rfl, rfl, rfl⟩

/-- A narrow access, a misaligned one, one past the window; an idle block, a word that decodes and a move that writes it; a busy block at
each line that writes CMD and at a `HOST.IF`; IRQ_OFF both ways. -/
theorem witness_WindowAccesses : (2 ≠ 4 ∨ 8 % 4 ≠ 0) ∧ (4 ≠ 4 ∨ 6 % 4 ≠ 0)
    ∧ ((cmdAddr + 8) % 4 = 0 ∧ cmdAddr + 8 ≠ cmdAddr ∧ cmdAddr + 8 ≠ resAddr)
    ∧ start0.res.busy = false ∧ decode 0x20000000#32 = .ok .start
    ∧ start0.lineOf [.move (.write cmdAddr 4 0x20000000#32)] = some (.move (.write cmdAddr 4 0x20000000#32))
    ∧ (start0.setBusy true).lineOf [.ifGoto (.is .code 0) 0] = some (.ifGoto (.is .code 0) 0)
    ∧ (start0.setBusy true).res.busy = true ∧ (start0.setBusy true).lineOf [.cmd 0#32] = some (.cmd 0#32)
    ∧ (start0.setBusy true).lineOf [.during 0#32 [(0, .reset)]] = some (.during 0#32 [(0, .reset)])
    ∧ ({ start0 with irqOff := true } : State).irqOff = true ∧ start0.irqOff = false := by
  refine ⟨by decide, by decide, ⟨?_, ?_, ?_⟩, rfl, rfl, rfl, rfl, rfl, rfl, rfl, rfl, rfl⟩
  · simp [cmdAddr, Config.blockBase]
  · simp
  · unfold resAddr cmdAddr; omega

/-- A write of START to CMD while BUSY = 0 runs START (10_state.md R31). -/
theorem test_idle_write_runs_the_command :
    (match hostMove (.write cmdAddr 4 0x20000000#32) start0 with
      | .next t => some (t.cmd, t.sda, t.scl, t.res.busy)
      | .fault _ => none
      | .refused _ => none) = some (0x20000000#32, ⟨.output, false⟩, ⟨.output, false⟩, false) := by
  rw [show hostMove (.write cmdAddr 4 0x20000000#32) start0 = writeCmd 0x20000000#32 start0 from by
    have h : wholeWord cmdAddr 4 = true := by simp [wholeWord, cmdAddr, Config.blockBase]
    simp [hostMove, h]]
  decide +kernel

/-- Every field of RES written, and each code. -/
theorem witness_HostIfBranches (f : ResSel) (c : Code) :
    ({ written0 with res := { written0.res with code := c } } : State).lineOf [.ifGoto (.is f 0) 6] = some (.ifGoto (.is f 0) 6)
      ∧ ({ written0 with res := { written0.res with code := c } } : State).res.code = c
      ∧ written0.res.busy = false ∧ written0.res.attempts.written = true ∧ written0.res.data.written = true
      ∧ written0.res.ack.written = true ∧ written0.res.lvl.written = true := ⟨rfl, rfl, rfl, rfl, rfl, rfl, rfl⟩

/-- Each code while BUSY = 0. -/
theorem witness_ReadOfResLayout (c : Code) : ({ written0 with res := { written0.res with code := c } } : State).res.busy = false
    ∧ ({ written0 with res := { written0.res with code := c } } : State).res.code = c := ⟨rfl, rfl⟩

theorem witness_RunEndsAfterLastLine : start0.lineOf [] = none ∧ start0.lineOf [.hostEnd] = some .hostEnd
    ∧ start0.lineOf [.power true] = some (.power true) := ⟨rfl, rfl, rfl⟩

/-- A next state in the run of a program, and one of `step` with a word given. -/
theorem witness_StepKeepsIdle : written0.Idle ∧ (∃ t, stepOf [.cmd 0x23000000#32] written0 = .next t)
    ∧ (written0.give 0x23000000#32).Idle ∧ ∃ t, step (written0.give 0x23000000#32) = .next t :=
  ⟨⟨rfl, rfl, rfl, fun _ => by decide⟩, ⟨_, rfl⟩, ⟨rfl, rfl, rfl, fun _ => by decide⟩, _, rfl⟩

theorem witness_StepKeepsHistoryOrdered :
    ({ start0 with now := 7, history := [.irq false 7, .irq true 3] } : State).HistoryOrdered
      ∧ ∃ t, stepOf [.move .reset] { start0 with now := 7, history := [.irq false 7, .irq true 3] } = .next t :=
  ⟨⟨by decide, by decide⟩, _, rfl⟩

theorem witness_ContentionMarkIsSticky :
    ({ start0 with faultContend := true } : State).faultContend = true
      ∧ ∃ t, stepOf [.move .reset] { start0 with faultContend := true } = .next t := ⟨rfl, _, rfl⟩

theorem witness_OpenDrainAtEveryInstant :
    State.OpenDrain start0 ∧ Instr.gset .scl false ≠ .gset .scl true ∧ Instr.gset .scl false ≠ .gset .sda true :=
  ⟨⟨rfl, rfl⟩, by decide, by decide⟩

/-- DELAY.BIT has three elementary steps: BUSY is 0 after the third. -/
theorem witness_FlagsInsideCommands : (start0.within .delayBit 3).res.busy = false
    ∧ (start0.within .delayBit 2).res.busy = true ∧ Instr.delayBit ≠ .modeentry := ⟨rfl, rfl, by decide⟩

theorem witness_CommandsCompleteWithTheirCodes : (Instr.getline .scl).wellFormed = true
    ∧ codeOf (exec (.msend 0xC0#8 0x14#8) (supplied quiet)) = some .nak
    ∧ codeOf (exec .recv (supplied slow)) = some .timeout := by
  refine ⟨rfl, by decide +kernel, by decide +kernel⟩

theorem witness_ResFieldsWrittenByCommand : (∃ t, exec (.send 0xC0#8) (supplied quiet) = .next t)
    ∧ codeOf (exec (.send 0xC0#8) (supplied quiet)) = some .ok ∧ codeOf (exec .recv (supplied quiet)) = some .ok
    ∧ codeOf (exec (.mrecv 0xC1#8) (supplied dataLow)) = some .ok := by
  refine ⟨⟨_, rfl⟩, by decide +kernel, by decide +kernel, by decide +kernel⟩

theorem witness_OnlyRawCommandsActOnInt : (∃ t, exec (.gdir .int false) start0 = .next t)
    ∧ (∃ t, exec (.gset .int true) start0 = .next t) ∧ ∃ t, exec (.gget .int) start0 = .next t :=
  ⟨⟨_, rfl⟩, ⟨_, rfl⟩, _, rfl⟩

/-- The Engine's side of each case on SCL (SDA is alike), and INT driven and not. -/
theorem witness_LevelIsWiredAnd : Line.scl.onBus = true ∧ Line.sda.onBus = true
    ∧ (({ start0 with scl := ⟨.output, true⟩, peer := ⟨true, false⟩ } : State).pin .scl = ⟨.output, true⟩
      ∧ ({ start0 with scl := ⟨.output, true⟩, peer := ⟨true, false⟩ } : State).peerLow .scl = true)
    ∧ (({ start0 with scl := ⟨.output, true⟩ } : State).pin .scl = ⟨.output, true⟩
      ∧ ({ start0 with scl := ⟨.output, true⟩ } : State).peerLow .scl = false)
    ∧ ({ start0 with scl := ⟨.output, false⟩ } : State).pin .scl = ⟨.output, false⟩
    ∧ start0.pin .scl = ⟨.input, false⟩
    ∧ ({ start0 with int := ⟨.output, true⟩ } : State).int.dir = .output ∧ start0.int.dir = .input :=
  ⟨rfl, rfl, ⟨rfl, rfl⟩, ⟨rfl, rfl⟩, rfl, rfl, rfl, rfl⟩

theorem witness_SetlineDrivesOrReleases : Line.scl.onBus = true ∧ Line.sda.onBus = true := by decide

theorem witness_SamplesGiveTheLevel :
    (Instr.getline .sda = .getline .sda ∧ Line.sda.onBus = true) ∧ Instr.gget .int = .gget .int := by decide

theorem witness_LatchWriteOnInputKeepsWire :
    (start0.pin .sda).dir = .input ∧ ∃ t, exec (.gset .sda true) start0 = .next t := ⟨rfl, _, rfl⟩

theorem witness_WaitEndsWithinSampleBound : p0.wf ∧ (Params.mk 0 1 1).wf
    ∧ ({ start0 with precise := true } : State).precise = true ∧ start0.precise = false
    ∧ ((waitClockHigh p0).run (supplied quiet)).2 = .ok ∧ ((waitClockHigh p0).run (supplied slow)).2 = .timeout := by
  refine ⟨by decide, by decide, rfl, rfl, by decide +kernel, by decide +kernel⟩

theorem witness_DelaysAdvanceTime : Instr.delayBit = .delayBit ∧ Instr.delayHalf = .delayHalf
    ∧ (Instr.delayUs 65535#16 = .delayUs 65535#16 ∧ 65535000 = (65535#16).toNat * 1000)
    ∧ (Instr.delayMs 0#16 = .delayMs 0#16 ∧ 0 = (0#16).toNat * 1000000) := by decide

/-- The Peer says nothing, or takes the drive of no line in a step of its own. -/
theorem witness_StartFromIdleShowsStartCondition :
    start0.BusReleased ∧ start0.peer = { scl := false, sda := false }
      ∧ 4 ≤ [quiet, ⟨[.time 7, .peer ⟨false, false⟩], true, 0⟩, quiet, quiet, slow].length
      ∧ ∀ d ∈ [quiet, ⟨[.time 7, .peer ⟨false, false⟩], true, 0⟩, quiet, quiet, slow].take 4, ∀ q ∈ drives d.own,
          q = { scl := false, sda := false } :=
  ⟨⟨rfl, rfl⟩, rfl, by decide, by decide⟩

/-- A STOP that ends OK and one that times out, from a state with PRECISE = 0. -/
theorem witness_StopReleasesDataLast : codeOf (exec .stop (supplied quiet)) = some .ok
    ∧ codeOf (exec .stop (supplied slow)) = some .timeout ∧ (supplied slow).precise = false := by
  refine ⟨by decide +kernel, by decide +kernel, rfl⟩

theorem witness_SendShowsBitsMsbFirst : codeOf (exec (.send 0xC0#8) (supplied quiet)) = some .ok
    ∧ codeOf (exec (.send 0xC0#8) (supplied slow)) = some .timeout := by
  refine ⟨by decide +kernel, by decide +kernel⟩

/-- The ninth clock and the eighth, told by the high samples of SCL (vectors T10 and T6 at other times). -/
theorem witness_SendLineState : codeOf (exec (.send 0x00#8) (supplied quiet)) = some .ok
    ∧ codeOf (exec (.send 0xFF#8) (supplied slow)) = some .timeout
    ∧ codeOf (exec (.send 0x7F#8) (supplied slow)) = some .timeout
    ∧ (afterStart (peerStretch 77500) (sendCommand ⟨5000, 10, 60000000⟩ 0xC0#8)).res.code = .timeout
    ∧ ((sampledLevels .scl (afterStart (peerStretch 77500) (sendCommand ⟨5000, 10, 60000000⟩ 0xC0#8)).history).filter
        id).length = 8 := by
  refine ⟨by decide +kernel, by decide +kernel, by decide +kernel, by decide +kernel, by decide +kernel⟩

theorem witness_SendDuration : (supplied quiet).precise = false ∧ codeOf (exec (.send 0xC0#8) (supplied quiet)) = some .ok
    ∧ (supplied slow).precise = false ∧ codeOf (exec (.send 0xC0#8) (supplied slow)) = some .timeout := by
  refine ⟨rfl, by decide +kernel, rfl, by decide +kernel⟩

theorem witness_RecvDuration : codeOf (exec .recv (supplied quiet)) = some .ok := by decide +kernel

theorem witness_EightShiftsFillAcc : [false, false, false, true, false, false, true, false].length = 8 := by decide

theorem witness_ModeentryPatternTimes : codeOf (exec .modeentry (supplied quiet)) = some .ok := by decide +kernel

/-- IRQ_OFF fell among the events. -/
def irqFell (es : List Event) : Bool := es.any fun e =>
  match e with
  | .irq b _ => !b
  | .dir _ _ _ => false
  | .latch _ _ _ => false
  | .sample _ _ _ => false
  | .contend _ _ => false

theorem irqFell_mem {es : List Event} (h : irqFell es = true) : ∃ x, .irq false x ∈ es := by
  obtain ⟨e, h1, h2⟩ := List.any_eq_true.1 h
  cases e with
  | irq b x => cases b with
    | false => exact ⟨x, h1⟩
    | true => cases h2
  | _ => cases h2

/-- Of a MODEENTRY whose latches are 0 the first elementary step raises IRQ_OFF, PRECISE is 1 after 130 of them, just before the last
release of SCL, the first sample of SCL is the 133rd, PRECISE is 0 again after 135 and IRQ_OFF after 136. -/
theorem witness_PreciseOnlyInFinalWait : (supplied quiet).precise = false ∧ ((supplied quiet).within .modeentry 0).history = []
    ∧ ((supplied quiet).within .modeentry 1).history = [.irq true 0]
    ∧ ((supplied quiet).within .modeentry 130).precise = true
    ∧ (dirChanges ((supplied quiet).within .modeentry 130).history).length = 45
    ∧ ((supplied quiet).within .modeentry 131).history
      = .dir .scl .released 375000 :: ((supplied quiet).within .modeentry 130).history
    ∧ ((supplied quiet).within .modeentry 133).history
      = .sample .scl true 375000 :: ((supplied quiet).within .modeentry 132).history
    ∧ (dirChanges ((supplied quiet).within .modeentry 135).history).length = 46
    ∧ ((supplied quiet).within .modeentry 135).precise = false
    ∧ .sample .scl true 375000 ∈ ((supplied quiet).within .modeentry 135).history
    ∧ ∃ x, .irq false x ∈ ((supplied quiet).within .modeentry 136).history := by
  refine ⟨rfl, rfl, by decide +kernel, by decide +kernel, by decide +kernel, by decide +kernel, by decide +kernel, by decide +kernel,
    by decide +kernel, by decide +kernel, irqFell_mem (by decide +kernel)⟩

/-- A Peer that holds SDA low acknowledges every byte, one that never pulls it refuses every byte, and at a slow clock held low
every wait times out. -/
theorem witness_MsendResult : codeOf (exec (.msend 0xC0#8 0x14#8) (supplied dataLow)) = some .ok
    ∧ codeOf (exec (.msend 0xC0#8 0x14#8) (supplied quiet)) = some .nak
    ∧ codeOf (exec (.msend 0xC0#8 0x14#8) (supplied slow)) = some .timeout := by
  refine ⟨by decide +kernel, by decide +kernel, by decide +kernel⟩

theorem witness_MrecvResult : codeOf (exec (.mrecv 0xC1#8) (supplied dataLow)) = some .ok
    ∧ codeOf (exec (.mrecv 0xC1#8) (supplied quiet)) = some .nak
    ∧ codeOf (exec (.mrecv 0xC1#8) (supplied slow)) = some .timeout := by
  refine ⟨by decide +kernel, by decide +kernel, by decide +kernel⟩

/-- The code a next state holds, and ATTEMPTS. -/
def codeAndAttempts : Host.Outcome State Fault Refusal → Option (Code × BitVec 2)
  | .next t => some (t.res.code, t.res.attempts.value)
  | .fault _ => none
  | .refused _ => none

theorem witness_MsendShowsAddressThenValue :
    codeAndAttempts (exec (.msend 0xC0#8 0x14#8) (supplied dataLow)) = some (.ok, 1#2) := by decide +kernel

theorem witness_MsendDuration : (supplied dataLow).precise = false
    ∧ codeOf (exec (.msend 0xC0#8 0x14#8) (supplied dataLow)) = some .ok := by
  refine ⟨rfl, by decide +kernel⟩

theorem witness_MrecvShowsAddressThenReleases :
    codeAndAttempts (exec (.mrecv 0xC1#8) (supplied dataLow)) = some (.ok, 1#2) := by decide +kernel

theorem witness_MrecvDuration : (supplied dataLow).precise = false
    ∧ codeOf (exec (.mrecv 0xC1#8) (supplied dataLow)) = some .ok := by
  refine ⟨rfl, by decide +kernel⟩

theorem witness_UnstretchedCommandsEndOk : (Instr.recv).wellFormed = true ∧ 1000 ≤ (supplied quiet).draws.length
    ∧ (supplied quiet).peer.scl = false ∧ ∀ d ∈ (supplied quiet).draws, ∀ q ∈ drives d.own, q.scl = false :=
  ⟨rfl, Nat.le_of_eq List.length_replicate.symm, rfl, fun d h => by rw [List.eq_of_mem_replicate h]; decide⟩

/-- The Peer at one level of SDA, by its drive before the command and by steps of its own. -/
theorem witness_ConstantPeerResults (low : Bool) :
    ({ supplied ⟨[.peer ⟨false, low⟩], false, 0⟩ with peer := ⟨false, low⟩ } : State).peer = { scl := false, sda := low }
      ∧ 1000 ≤ (supplied ⟨[.peer ⟨false, low⟩], false, 0⟩).draws.length
      ∧ ∀ d ∈ (supplied ⟨[.peer ⟨false, low⟩], false, 0⟩).draws, ∀ q ∈ drives d.own, q = { scl := false, sda := low } :=
  ⟨rfl, Nat.le_of_eq List.length_replicate.symm, fun d h => by rw [List.eq_of_mem_replicate h]; simp [drives]⟩

end Sys2Proof.Tests
end

