-- ==== Sys2Proof/Proofs/Scope.lean ====
section
/-!
The end of the host program, HOST.END and HOST.POWER (00_scope.md R10, 30_encoding.md R93): the step at each is a step
in which the Host does nothing, and such a step is time and the Peer going on.
-/

namespace Sys2Proof.Machine

/-! ### A step of another agent that only lets time and the Peer go on -/

/-- The frame of a step that only passes. -/
theorem State.pass_eq_withEnv (d : Nat) (s : State) : s.pass d = s.withEnv (s.pass d) := rfl

/-- Time does not go back while a step passes (10_state.md R30). -/
theorem State.now_le_pass (d : Nat) (s : State) : s.now ≤ (s.pass d).now := by
  rw [State.pass_now]
  omega

/-! ### Lines at which the Host does nothing to the block -/

/-- With no line left the run is over (R10). -/
theorem stepOf_of_lineOf_none {program : List HostLine} {s : State} (h : s.lineOf program = none) :
    stepOf program s = .next (s.pass 0) := by
  rw [stepOf, h, hostStep]

/-- At `HOST.END` the run is over (R10, R93), and the host's position stays. -/
theorem stepOf_of_lineOf_hostEnd {program : List HostLine} {s : State} (h : s.lineOf program = some .hostEnd) :
    stepOf program s = .next (s.pass 0) := by
  rw [stepOf, h, hostStep]

/-- The block sees nothing of `HOST.POWER`, on or off (R93). -/
theorem stepOf_of_lineOf_power {program : List HostLine} {s : State} {on : Bool}
    (h : s.lineOf program = some (.power on)) : stepOf program s = .next (s.pass 0).advance := by
  rw [stepOf, h, hostStep]

/-- Settles O16: at each of these lines the next state is that of a step that passes. -/
theorem runEndsAfterLastLine : Obligations.RunEndsAfterLastLine := by
  refine ⟨fun program s hline => ?_, fun program s on hline => ?_⟩
  · have hstep : stepOf program s = .next (s.pass 0) :=
      hline.elim stepOf_of_lineOf_none stepOf_of_lineOf_hostEnd
    exact ⟨s.pass 0, hstep, s.pass_eq_withEnv 0, s.now_le_pass 0⟩
  · exact ⟨s.pass 0, stepOf_of_lineOf_power hline, s.pass_eq_withEnv 0, s.now_le_pass 0⟩

end Sys2Proof.Machine
end

section
/-!
The Host's side of the register window: the word a read of RES gives (10_state.md R32, R37, R38, R41, R48), what each
access, refusal and line does (R31, R36, 20_memory.md R64), and the reset (R49).
-/

namespace Sys2Proof.Machine

/-! ### The word a read of RES gives -/

/-- The word as a number: each field at its place (R32). -/
theorem toNat_resWord (free : Word) (s : State) : (resWord free s).toNat =
    (attemptsAsRead free s).toNat * 16777216 + (dataAsRead free s).toNat * 65536 + s.irqOff.toNat * 1024 +
      s.precise.toNat * 512 + s.res.busy.toNat * 256 + (lvlAsRead free s).toNat * 32 + (ackAsRead free s).toNat * 16 +
      (codeAsRead free s).toNat := by
  unfold resWord
  simp only [toNat_append_eq, BitVec.toNat_ofBool, BitVec.toNat_ofNat]
  omega

/-- The fields of several bits, and the three runs of reserved bits (R32, R41). -/
theorem resWord_fields (free : Word) (s : State) :
    (resWord free s).extractLsb' 0 4 = codeAsRead free s ∧ (resWord free s).extractLsb' 16 8 = dataAsRead free s ∧
    (resWord free s).extractLsb' 24 2 = attemptsAsRead free s ∧ (resWord free s).extractLsb' 6 2 = 0#2 ∧
    (resWord free s).extractLsb' 11 5 = 0#5 ∧ (resWord free s).extractLsb' 26 6 = 0#6 := by
  have hirq := s.irqOff.toNat_le
  have hprecise := s.precise.toNat_le
  have hbusy := s.res.busy.toNat_le
  have hlvl := (lvlAsRead free s).toNat_le
  have hack := (ackAsRead free s).toNat_le
  simp only [← BitVec.toNat_inj, toNat_extract_eq, toNat_resWord, BitVec.toNat_ofNat]
  omega

/-- The fields of one bit (R32). -/
theorem resWord_bits (free : Word) (s : State) :
    (resWord free s).getLsbD 4 = ackAsRead free s ∧ (resWord free s).getLsbD 5 = lvlAsRead free s ∧
    (resWord free s).getLsbD 8 = s.res.busy ∧ (resWord free s).getLsbD 9 = s.precise ∧
    (resWord free s).getLsbD 10 = s.irqOff := by
  unfold resWord
  simp only [BitVec.getLsbD_append]
  simp

/-- Every bit of a field that is 0 is 0. -/
theorem getLsbD_of_extract_zero {w : Word} {k n b : Nat} (h : w.extractLsb' k n = 0#n) (hk : k ≤ b) (hb : b < k + n) :
    w.getLsbD b = false := by
  have hbit := congrArg (BitVec.getLsbD · (b - k)) h
  simpa [BitVec.getLsbD_extractLsb', show b - k < n by omega, Nat.add_sub_cancel' hk] using hbit

/-- A read of RES changes the host's last read, time and the Peer alone (R37, R38). -/
theorem readRes_eq (s : State) : readRes s = { s.withEnv (readRes s) with
    host := { s.host with lastRead := some (resWord s.nextDraw.res (s.pass 0)) } } := rfl

/-- While BUSY = 0 CODE reads as the code's number (00_scope.md R8, R33). -/
theorem codeAsRead_idle {s : State} (h : s.res.busy = false) (free : Word) : codeAsRead free s = s.res.code.bits := by
  rw [codeAsRead, h, if_neg Bool.false_ne_true]

/-- Settles O12: the word is `resWord` of the block at that instant, field by field. -/
theorem readOfResLayout : Obligations.ReadOfResLayout := by
  intro s
  obtain ⟨hcode, hdata, hattempts, h6, h11, h26⟩ := resWord_fields s.nextDraw.res (s.pass 0)
  obtain ⟨hack, hlvl, hbusy, hprecise, hirq⟩ := resWord_bits s.nextDraw.res (s.pass 0)
  refine ⟨readRes s, resWord s.nextDraw.res (s.pass 0), hostMove_readRes s, rfl, readRes_eq s, s.now_le_pass 0,
    hbusy, hprecise, hirq, h6, h11, h26, hcode, fun code n hn hb hc => ?_, hack, hlvl, hdata, hattempts⟩
  rw [hcode, codeAsRead_idle (s := s.pass 0) hb, State.pass_res, hc]
  simp only [List.mem_cons, Prod.mk.injEq, List.not_mem_nil, or_false] at hn
  rcases hn with ⟨rfl, rfl⟩ | ⟨rfl, rfl⟩ | ⟨rfl, rfl⟩ | ⟨rfl, rfl⟩ <;> rfl

/-- Settles O13, from the layout of the word. -/
theorem mirrorsLiveReservedZero : Obligations.MirrorsLiveReservedZero := by
  intro s
  obtain ⟨t, w, hmove, hread, -, -, -, hprecise, hirq, h6, h11, h26, -⟩ := readOfResLayout s
  refine ⟨t, w, hmove, hread, hprecise, hirq, fun b hb => ?_⟩
  rcases hb with rfl | rfl | ⟨hlo, hhi⟩ | ⟨hlo, hhi⟩
  · exact getLsbD_of_extract_zero h6 (by omega) (by omega)
  · exact getLsbD_of_extract_zero h6 (by omega) (by omega)
  · exact getLsbD_of_extract_zero h11 hlo (by omega)
  · exact getLsbD_of_extract_zero h26 hlo (by omega)

/-! ### The host window and the lines of a program -/

/-- A narrow or misaligned access is no whole word (20_memory.md R64). -/
theorem wholeWord_of_narrow {addr bytes : Nat} (h : bytes ≠ 4 ∨ addr % 4 ≠ 0) : wholeWord addr bytes = false := by
  rcases h with h | h <;> simp [wholeWord, h]

theorem wholeWord_of_aligned {addr : Nat} (h : addr % 4 = 0) : wholeWord addr 4 = true := by simp [wholeWord, h]

theorem hostMove_narrow {addr bytes : Nat} (h : wholeWord addr bytes = false) (v : Word) (s : State) :
    hostMove (.write addr bytes v) s = .refused .windowAccess ∧ hostMove (.read addr bytes) s = .refused .windowAccess := by
  simp [hostMove, h]

theorem hostMove_outside {addr : Nat} (h : wholeWord addr 4 = true) (hc : addr ≠ cmdAddr) (hr : addr ≠ resAddr) (v : Word)
    (s : State) :
    hostMove (.write addr 4 v) s = .fault .outsideWindow ∧ hostMove (.read addr 4) s = .fault .outsideWindow := by
  simp [hostMove, h, hc, hr]

theorem execWord_of_decode {w : Word} {i : Instr} (h : decode w = .ok i) (s : State) : execWord w s = exec i s := by
  rw [execWord, h]

/-- CMD is written while BUSY = 0 only (10_state.md R31, R36). -/
theorem writeCmd_idle {s : State} (h : s.res.busy = false) (w : Word) : writeCmd w s = execWord w (s.setCmd w) := by
  rw [writeCmd, h, if_neg Bool.false_ne_true]

theorem writeCmd_busy {s : State} (h : s.res.busy = true) (w : Word) : writeCmd w s = .refused .cmdWhileBusy := by
  rw [writeCmd, h, if_pos rfl]

theorem duringCommand_idle {s : State} (h : s.res.busy = false) (w : Word) (moves : List (Nat × HostMove)) :
    duringCommand w moves s = runWithMoves moves (commandOfWord w) (s.accept w) := by
  rw [duringCommand, h, if_neg Bool.false_ne_true]

theorem duringCommand_busy {s : State} (h : s.res.busy = true) (w : Word) (moves : List (Nat × HostMove)) :
    duringCommand w moves s = .refused .cmdWhileBusy := by
  rw [duringCommand, h, if_pos rfl]

theorem hostIf_busy {s : State} (h : s.res.busy = true) (c : Cond) (n : Nat) : hostIf c n s = .refused .decisionWhileBusy := by
  rw [hostIf, h, if_pos rfl]

theorem hostMove_interrupt_off {s : State} (h : s.irqOff = true) : hostMove .interrupt s = .refused .interruptWhileOff := by
  simp [hostMove, h]

theorem hostMove_interrupt_on {s : State} (h : s.irqOff = false) : hostMove .interrupt s = .next (s.pass 0) := by
  simp [hostMove, h]

section Lines

variable {program : List HostLine} {s : State}

theorem stepOf_of_lineOf_cmd {w : Word} (h : s.lineOf program = some (.cmd w)) :
    stepOf program s = thenUpdate State.advance (writeCmd w s) := by rw [stepOf, h, hostStep]

theorem stepOf_of_lineOf_during {w : Word} {moves : List (Nat × HostMove)} (h : s.lineOf program = some (.during w moves)) :
    stepOf program s = thenUpdate State.advance (duringCommand w moves s) := by rw [stepOf, h, hostStep]

theorem stepOf_of_lineOf_move {m : HostMove} (h : s.lineOf program = some (.move m)) :
    stepOf program s = thenUpdate State.advance (hostMove m s) := by rw [stepOf, h, hostStep]

theorem stepOf_of_lineOf_ifGoto {c : Cond} {n : Nat} (h : s.lineOf program = some (.ifGoto c n)) :
    stepOf program s = hostIf c n s := by rw [stepOf, h, hostStep]

/-- A line that writes a word to CMD runs the command it decodes to. -/
theorem stepOf_runs_decoded {w : Word} {i : Instr} (h : s.lineOf program = some (.cmd w)) (hb : s.res.busy = false)
    (hd : decode w = .ok i) : stepOf program s = thenUpdate State.advance (exec i (s.setCmd w)) := by
  rw [stepOf_of_lineOf_cmd h, writeCmd_idle hb, execWord_of_decode hd]

theorem lineOf_given {w : Word} (h : s.host.given = some w) : s.lineOf program = some (.cmd w) := by
  rw [State.lineOf, h]

theorem lineOf_not_given (h : s.host.given = none) : s.lineOf program = program[s.host.pos]? := by
  rw [State.lineOf, h]

end Lines

/-- The whole word of a table row is given to the Host as it is (log 29). -/
theorem withFetchWord_given (s : State) (w : Word) : (s.withFetchWord 32 w.toNat).host.given = some w := by
  show some (BitVec.ofNat 32 (w.toNat % 2 ^ 32)) = some w
  rw [Nat.mod_eq_of_lt w.isLt, BitVec.ofNat_toNat, BitVec.setWidth_eq]

/-- Settles O7: the line is the program's or the word given, and a line that writes CMD runs the decoded command. -/
theorem stepRunsDecodedCommand : Obligations.StepRunsDecodedCommand :=
  ⟨fun _ _ _ _ hline hb hd => stepOf_runs_decoded hline hb hd, step_eq_stepOf,
    fun _ _ => ⟨lineOf_not_given, fun _ => lineOf_given⟩,
    fun s w _ hd => stepOf_runs_decoded (lineOf_given (withFetchWord_given s w)) rfl hd⟩

/-- Settles O14: one rule for each access, refusal and line. -/
theorem windowAccesses : Obligations.WindowAccesses := by
  refine ⟨fun s addr bytes v h => hostMove_narrow (wholeWord_of_narrow h) v s,
    fun s addr v ha hc hr => hostMove_outside (wholeWord_of_aligned ha) hc hr v s,
    fun s w hb => ?_, fun program s m hline => stepOf_of_lineOf_move hline,
    fun s w hb => (hostMove_writeCmd w s).trans (writeCmd_busy hb w), fun program s w moves hb hline => ?_,
    fun program s c n hb hline => (stepOf_of_lineOf_ifGoto hline).trans (hostIf_busy hb c n), fun s => rfl,
    fun s => ⟨readCmd s, hostMove_readCmd s, rfl, rfl, s.now_le_pass 0⟩,
    fun s v => ⟨s.pass 0, hostMove_writeRes v s, s.pass_eq_withEnv 0, s.now_le_pass 0⟩,
    fun s => ⟨hostMove_interrupt_off, fun h => ⟨s.pass 0, hostMove_interrupt_on h, s.pass_eq_withEnv 0, s.now_le_pass 0⟩⟩⟩
  · have hwrite : hostMove (.write cmdAddr 4 w) s = execWord w (s.setCmd w) :=
      (hostMove_writeCmd w s).trans (writeCmd_idle hb w)
    exact ⟨hwrite, fun i hd => hwrite.trans (execWord_of_decode hd _)⟩
  · rcases hline with hline | hline
    · rw [stepOf_of_lineOf_cmd hline, writeCmd_busy hb]; rfl
    · rw [stepOf_of_lineOf_during hline, duringCommand_busy hb]; rfl

/-! ### Reset -/

/-- Settles O8. -/
theorem resetLeavesEngineIdle : Obligations.ResetLeavesEngineIdle :=
  ⟨fun l => by cases l <;> rfl, rfl, rfl, rfl, rfl, rfl, rfl, rfl, rfl⟩

/-- A reset of the block puts the lines, the flags and RES at their reset values (R49, 70_reset_and_hazards.md R280). -/
theorem State.blockReset_pin (s : State) (l : Line) : s.blockReset.pin l = State.reset.pin l := by cases l <;> rfl
@[simp] theorem State.blockReset_precise (s : State) : s.blockReset.precise = false := rfl
@[simp] theorem State.blockReset_irqOff (s : State) : s.blockReset.irqOff = false := rfl
/-- What is no state of the block, and FAULT_CONTEND, it leaves (R26; logs 7, 10, 26). -/
@[simp] theorem State.blockReset_faultContend (s : State) : s.blockReset.faultContend = s.faultContend := rfl
@[simp] theorem State.blockReset_host (s : State) : s.blockReset.host = s.host := rfl

theorem State.blockReset_history (s : State) : ∃ evs, s.blockReset.history = evs ++ s.history := ⟨_, rfl⟩

/-- Settles O9: a reset move is `blockReset`, from every state. -/
theorem blockResetReleasesLines : Obligations.BlockResetReleasesLines := fun s =>
  ⟨s.blockReset, hostMove_reset s, fun l => (s.blockReset_pin l).trans (resetLeavesEngineIdle.1 l), s.blockReset_precise,
    s.blockReset_irqOff, rfl, rfl, rfl, rfl, rfl, rfl, s.blockReset_faultContend, s.blockReset_host,
    s.now_le_pass 0, s.blockReset_history⟩

end Sys2Proof.Machine
end

section
/-!
BUSY, PRECISE, IRQ_OFF and the idle condition through commands, host moves and steps (10_state.md R28, R29, R36, R40), and the
sticky mark FAULT_CONTEND (R26).
-/

namespace Sys2Proof.Machine

/-! ### BUSY during a command -/

section Leaves

variable {α : Type}

theorem Prog.leaves_mono {R S : α → Flags → Prop} (h : ∀ a f, R a f → S a f) {p : Prog α} {f : Flags}
    (hp : p.Leaves R f) : p.Leaves S f := by
  induction p generalizing f with
  | done a => exact h a f hp
  | act op k ih => exact ⟨hp.1, fun b => ih b (hp.2 b)⟩

/-- A program that keeps BUSY at 1 before each of its steps has ended where BUSY is 0. -/
theorem Prog.done_of_leaves {R : α → Flags → Prop} {p : Prog α} {f : Flags} (h : p.Leaves R f) (hb : f.busy = false) :
    ∃ a, p = .done a ∧ R a f := by
  cases p with
  | done a => exact ⟨a, rfl, h⟩
  | act op k => exact absurd (hb.symm.trans h.1) Bool.false_ne_true

/-- What an elementary step does to BUSY depends on BUSY alone. -/
theorem MicroOp.onFlags_busy_congr (op : MicroOp) {f g : Flags} (h : f.busy = g.busy) :
    (op.onFlags f).busy = (op.onFlags g).busy := by
  cases op <;> simp [MicroOp.onFlags, h]

/-- So whether a program ends with BUSY = 0 depends on BUSY alone. -/
theorem Prog.leaves_notBusy_congr {p : Prog α} {f g : Flags} (h : f.busy = g.busy)
    (hp : p.Leaves (fun _ x => x.busy = false) f) : p.Leaves (fun _ x => x.busy = false) g := by
  induction p generalizing f g with
  | done a => exact h.symm.trans hp
  | act op k ih => exact ⟨h.symm.trans hp.1, fun b => ih b (op.onFlags_busy_congr h) (hp.2 b)⟩

end Leaves

/-- Flags at rest with BUSY = 1: those of a command accepted after reset. -/
def restingBusy : Flags := ⟨true, false, false, 0, ⟨0, false⟩⟩

theorem restingBusy_resting : restingBusy.Resting := ⟨rfl, rfl, fun h => absurd h Bool.false_ne_true⟩

/-- Every command keeps BUSY at 1 before each of its steps and ends with BUSY = 0, whatever the other flags are (R36). -/
theorem command_leaves_notBusy (i : Instr) {f : Flags} (hb : f.busy = true) :
    (command i).Leaves (fun _ x => x.busy = false) f :=
  Prog.leaves_notBusy_congr (show restingBusy.busy = f.busy from hb.symm)
    (Prog.leaves_mono (fun _ _ h => h.1) (command_leaves i rfl restingBusy_resting))

theorem commandOfWord_leaves_notBusy (w : Word) {f : Flags} (hb : f.busy = true) :
    (commandOfWord w).Leaves (fun _ x => x.busy = false) f :=
  Prog.leaves_notBusy_congr (show restingBusy.busy = f.busy from hb.symm)
    (Prog.leaves_mono (fun _ _ h => h.1) (commandOfWord_leaves w rfl restingBusy_resting))

theorem runCommand_notBusy (i : Instr) (s : State) : (runCommand (command i) s).res.busy = false :=
  Prog.run_leaves (p := command i) (s := s.setBusy true) (command_leaves_notBusy i rfl)

/-- Where BUSY is 0 inside a command, the command has ended (R36). -/
theorem within_eq_end {i : Instr} {s : State} {k : Nat} (h : (s.within i k).res.busy = false) :
    runCommand (command i) s = s.within i k := by
  obtain ⟨a, hrest, -⟩ := Prog.done_of_leaves
    (Prog.runFor_leaves k (s := s.setBusy true) (command_leaves_notBusy i rfl)) h
  calc runCommand (command i) s
      = (((command i).runFor k (s.setBusy true)).2.run ((command i).runFor k (s.setBusy true)).1).1 :=
        congrArg Prod.fst (Prog.runFor_then_run k (command i) (s.setBusy true)).symm
    _ = s.within i k := by rw [hrest]; rfl

/-- PRECISE and IRQ_OFF are written by MODEENTRY alone (R28, R29). -/
theorem MicroOp.run_precise_irqOff {i : Instr} (hi : i ≠ .modeentry) {op : MicroOp} (hop : commandOp i op = true) (s : State) :
    (op.run s).1.precise = s.precise ∧ (op.run s).1.irqOff = s.irqOff := by
  cases op with
  | precise b => exact absurd (of_decide_eq_true hop) hi
  | irqOff b => exact absurd (of_decide_eq_true hop) hi
  | _ => simp [MicroOp.run, MicroOp.effect]

/-- Settles O23. -/
theorem flagsInsideCommands : Obligations.FlagsInsideCommands := by
  intro i s k
  refine ⟨fun hb => ⟨runCommand (command i) s, exec_eq_command i s, within_eq_end hb⟩, fun hi => ?_⟩
  have hkeep : ∀ op t, commandOp i op = true → (t.precise = s.precise ∧ t.irqOff = s.irqOff) →
      (op.run t).1.precise = s.precise ∧ (op.run t).1.irqOff = s.irqOff := fun op t hop ht =>
    have hrun := MicroOp.run_precise_irqOff hi hop t
    ⟨hrun.1.trans ht.1, hrun.2.trans ht.2⟩
  exact (Prog.runFor_keeps (P := fun t => t.precise = s.precise ∧ t.irqOff = s.irqOff) hkeep k (command_uses i)
    (s := s.setBusy true) ⟨rfl, rfl⟩).1

/-! ### Reads of RES during a command -/

/-- Reads of RES leave the rest of a command to end as the whole does. -/
theorem afterReads_leaves {R : Bool → Flags → Prop} (ks : List Nat) {c : Prog Bool} {s : State} (h : c.Leaves R s.flags) :
    (afterReads ks c s).2.Leaves R (afterReads ks c s).1.flags := by
  induction ks generalizing c s with
  | nil => exact h
  | cons k ks ih => exact ih (Prog.after_leaves _ (Prog.runFor_leaves k h))

/-- A command read from and otherwise left alone runs to its end (R37, R38). -/
theorem runWithMoves_reads_only (ks : List Nat) (c : Prog Bool) (s : State) :
    runWithMoves (ks.map (fun k => (k, .read resAddr 4))) c s = .next ((afterReads ks c s).2.run (afterReads ks c s).1).1 := by
  have h := runWithMoves_reads ks [] c s
  rwa [List.append_nil, runWithMoves_nil] at h

/-- Settles O11: the read is one move (`runWithMoves_read`), and reads alone leave the command to run to its end. -/
theorem readDuringCommandLetsItGoOn : Obligations.ReadDuringCommandLetsItGoOn := by
  intro program s w k moves hline hb
  have hstep : stepOf program s = thenUpdate State.advance
      (runWithMoves ((k, .read resAddr 4) :: moves) (commandOfWord w) (s.accept w)) := by
    rw [stepOf_of_lineOf_during hline, duringCommand_idle hb]
  refine ⟨((commandOfWord w).runFor k (s.accept w)).1, ((commandOfWord w).runFor k (s.accept w)).2, rfl,
    by rw [hstep, runWithMoves_read], readRes_eq _, ?_⟩
  rintro ks rfl
  refine ⟨_, by rw [hstep, ← List.map_cons (f := fun j => (j, HostMove.read resAddr 4)), runWithMoves_reads_only]; rfl, rfl,
    ?_⟩
  exact Prog.run_leaves (afterReads_leaves (k :: ks) (commandOfWord_leaves_notBusy w rfl))

/-! ### The idle condition -/

/-- `State.Idle` in the terms of `Laws/Flags.lean`. -/
theorem State.idle_iff (s : State) : s.Idle ↔ s.flags.busy = false ∧ s.flags.Resting :=
  ⟨fun h => ⟨h.busy, h.precise, h.irqOff, h.attempts⟩, fun ⟨hb, hp, hi, ha⟩ => ⟨hb, hp, hi, ha⟩⟩

/-- Settles O18. -/
theorem resetIsIdle : Obligations.ResetIsIdle := ⟨rfl, rfl, rfl, fun h => absurd h Bool.false_ne_true⟩

theorem State.blockReset_idle (s : State) : s.blockReset.Idle := ⟨rfl, rfl, rfl, fun h => absurd h Bool.false_ne_true⟩

theorem State.Idle.of_flags_eq {s t : State} (hs : s.Idle) (h : t.flags = s.flags) : t.Idle := by
  rw [State.idle_iff, h]
  exact s.idle_iff.1 hs

/-- What is left of a command ends with the idle condition, from the state reached. -/
def Prog.EndsIdle (c : Prog Bool) (s : State) : Prop := c.Leaves (fun _ f => f.busy = false ∧ f.Resting) s.flags

theorem Prog.endsIdle_done {b : Bool} {s : State} (hs : s.Idle) : (Prog.done b).EndsIdle s := s.idle_iff.1 hs

theorem State.Idle.accept_endsIdle {s : State} (hs : s.Idle) (w : Word) : (commandOfWord w).EndsIdle (s.accept w) :=
  commandOfWord_leaves w rfl (s.idle_iff.1 hs).2

theorem Prog.EndsIdle.run_idle {c : Prog Bool} {s : State} (h : c.EndsIdle s) : (c.run s).1.Idle :=
  (State.idle_iff _).2 (Prog.run_leaves h)

/-- No move of the Host stops that: a reset gives the idle condition at once and leaves nothing of the command, a command word is
accepted only when the command has ended, and nothing else touches a flag. -/
theorem hostMove_endsIdle {m : HostMove} {c : Prog Bool} {s u : State} (x : Nat) (hc : c.EndsIdle s)
    (h : hostMove m s = .next u) : (leftAfter m x c).EndsIdle u := by
  rcases hostMove_next h with ⟨rfl, rfl⟩ | ⟨hm, hcase⟩
  · exact Prog.endsIdle_done s.blockReset_idle
  rw [leftAfter_rest hm]
  refine Prog.after_leaves x ?_
  rcases hcase with ⟨w, hb, rfl⟩ | ⟨w, rfl⟩ | rfl
  · obtain ⟨b, rfl, hs⟩ := Prog.done_of_leaves hc hb
    exact Prog.endsIdle_done (((State.idle_iff s).2 hs).accept_endsIdle w).run_idle
  · exact hc
  · exact hc

theorem runWithMoves_idle {moves : List (Nat × HostMove)} {c : Prog Bool} {s t : State} (hc : c.EndsIdle s)
    (h : runWithMoves moves c s = .next t) : t.Idle := by
  induction moves generalizing c s with
  | nil =>
    obtain rfl := Host.Outcome.next.inj h
    exact hc.run_idle
  | cons km moves ih =>
    obtain ⟨k, m⟩ := km
    obtain ⟨u, hu, hrest⟩ := thenOutcome_next h
    exact ih (hostMove_endsIdle _ (Prog.runFor_leaves k hc) hu) hrest

/-- A move between commands is a move after a command that has ended. -/
theorem hostMove_idle {m : HostMove} {s t : State} (hs : s.Idle) (h : hostMove m s = .next t) : t.Idle := by
  have hrun : runWithMoves [(0, m)] (.done false) s = .next t := by
    rw [runWithMoves_cons, Prog.runFor_zero, h]
    cases m <;> rfl
  exact runWithMoves_idle (Prog.endsIdle_done hs) hrun

theorem stepOf_idle {program : List HostLine} {s t : State} (hs : s.Idle) (h : stepOf program s = .next t) : t.Idle := by
  rcases stepOf_next h with ⟨w, u, -, rfl, rfl⟩ | ⟨w, moves, u, -, rfl, hu⟩ | ⟨m, u, rfl, hu⟩ | ⟨n, -, rfl⟩ | ⟨-, rfl⟩ | rfl
  · exact (hs.accept_endsIdle w).run_idle.of_flags_eq rfl
  · exact (runWithMoves_idle (hs.accept_endsIdle w) hu).of_flags_eq rfl
  · exact (hostMove_idle hs hu).of_flags_eq rfl
  · exact hs.of_flags_eq rfl
  · exact hs.of_flags_eq rfl
  · exact hs.of_flags_eq rfl

/-- Settles O17. -/
theorem stepKeepsIdle : Obligations.StepKeepsIdle := fun _ s _ hs hstep =>
  hstep.elim (fun h => stepOf_idle hs ((step_eq_stepOf s).symm.trans h)) (stepOf_idle hs)

/-! ### FAULT_CONTEND -/

/-- An elementary step never clears FAULT_CONTEND (R26): a sample in contention sets it, nothing else writes it. -/
theorem MicroOp.run_keeps_faultContend (op : MicroOp) {s : State} (h : s.faultContend = true) :
    (op.run s).1.faultContend = true := by
  cases op with
  | sample l => rw [run_sample, State.sampled_faultContend, State.pass_faultContend, h, Bool.true_or]
  | _ => simpa [MicroOp.run, MicroOp.effect] using h

theorem kept_faultContend : Kept fun s => s.faultContend = true where
  op op _ h := op.run_keeps_faultContend h
  pass _ h := h
  accept _ _ h := h
  hostRead _ _ h := h
  goto _ _ h := h
  blockReset _ h := h

/-- Settles O21. -/
theorem contentionMarkIsSticky : Obligations.ContentionMarkIsSticky := fun _ s _ hs hstep =>
  hstep.elim (fun h => stepOf_keeps kept_faultContend hs ((step_eq_stepOf s).symm.trans h)) (stepOf_keeps kept_faultContend hs)

end Sys2Proof.Machine
end

section
/-!
The code every command ends with (10_state.md R33, 60_exceptions.md R251) and the fields of RES it writes (R42).
-/

namespace Sys2Proof.Machine

/-! ### The code a command ends with -/

section WritesCode

variable {α β : Type}

/-- The program writes CODE before it ends, whatever the replies. -/
def Prog.WritesCode : Prog α → Prop
  | .done _ => False
  | .act op k => (∃ c, op = .code c) ∨ ∀ b, (k b).WritesCode

theorem Prog.writesCode_bind (p : Prog α) {f : α → Prog β} (hf : ∀ a, (f a).WritesCode) : (p.bind f).WritesCode := by
  induction p with
  | done a => exact hf a
  | act op k ih => exact .inr fun b => ih b

theorem Prog.writesCode_andThen (p : Prog α) {q : Prog β} (hq : q.WritesCode) : (p.andThen q).WritesCode :=
  Prog.writesCode_bind p fun _ => hq

theorem finish_writesCode (c : Code) : (finish c).WritesCode := .inl ⟨c, rfl⟩

/-- CODE is written by one elementary step alone (10_state.md R33). -/
theorem MicroOp.run_res_code (op : MicroOp) (s : State) :
    (∃ c, op = .code c ∧ (op.run s).1.res.code = c) ∨ (op.run s).1.res.code = s.res.code := by
  cases op with
  | code c => exact .inl ⟨c, rfl, rfl⟩
  | _ => exact .inr (by simp [MicroOp.run, MicroOp.effect])

/-- The code a program that writes one ends with was written by one of its steps. -/
theorem Prog.code_of_writesCode {Q : MicroOp → Prop} {p : Prog α} (hu : p.Uses Q) (hw : p.WritesCode) (s : State) :
    Q (.code (p.run s).1.res.code) := by
  induction p generalizing s with
  | done a => exact hw.elim
  | act op k ih =>
    rcases hw with ⟨c, rfl⟩ | hw
    · refine Prog.run_keeps (P := fun t => Q (.code t.res.code)) (fun op t hop ht => ?_) (hu.2 _) hu.1
      rcases op.run_res_code t with ⟨c, rfl, hc⟩ | hc
      · rwa [hc]
      · rwa [hc]
    · exact ih _ (hu.2 _) (hw _) _

end WritesCode

theorem command_writesCode (i : Instr) : (command i).WritesCode := by
  cases i with
  | setline l b =>
    show (setlineCommand l b).WritesCode
    unfold setlineCommand
    split
    · exact Prog.writesCode_andThen _ (finish_writesCode _)
    · exact finish_writesCode _
  | getline l =>
    show (getlineCommand l).WritesCode
    unfold getlineCommand
    split
    · exact Prog.writesCode_bind _ fun _ => Prog.writesCode_andThen _ (finish_writesCode _)
    · exact finish_writesCode _
  | waitclk => exact Prog.writesCode_bind _ fun _ => finish_writesCode _
  | gdir l b => exact Prog.writesCode_andThen _ (finish_writesCode _)
  | gset l v => exact Prog.writesCode_andThen _ (finish_writesCode _)
  | gget l => exact Prog.writesCode_bind _ fun _ => Prog.writesCode_andThen _ (finish_writesCode _)
  | delayBit => exact Prog.writesCode_andThen _ (finish_writesCode _)
  | delayHalf => exact Prog.writesCode_andThen _ (finish_writesCode _)
  | delayUs n => exact Prog.writesCode_andThen _ (finish_writesCode _)
  | delayMs n => exact Prog.writesCode_andThen _ (finish_writesCode _)
  | start => exact Prog.writesCode_andThen _ (finish_writesCode _)
  | stop => exact Prog.writesCode_bind _ fun _ => finish_writesCode _
  | send v =>
    refine Prog.writesCode_bind _ fun r => ?_
    cases r with
    | timeout => exact finish_writesCode _
    | acked a => exact Prog.writesCode_andThen _ (finish_writesCode _)
  | recv =>
    refine Prog.writesCode_bind _ fun r => ?_
    cases r with
    | timeout => exact finish_writesCode _
    | ok => exact Prog.writesCode_andThen _ (finish_writesCode _)
  | modeentry => exact Prog.writesCode_bind _ fun _ => finish_writesCode _
  | msend a v => exact Prog.writesCode_bind _ finish_writesCode
  | mrecv a => exact Prog.writesCode_bind _ finish_writesCode

/-- A command ends with one of the codes `commandOp` gives it (60_exceptions.md R251). -/
theorem runCommand_code (i : Instr) (s : State) : commandOp i (.code (runCommand (command i) s).res.code) = true :=
  Prog.code_of_writesCode (command_uses i) (command_writesCode i) _

theorem eq_of_isAccess {i : Instr} (h : isAccess i = true) : (∃ a v, i = .msend a v) ∨ ∃ a, i = .mrecv a := by
  cases i with
  | msend a v => exact .inl ⟨a, v, rfl⟩
  | mrecv a => exact .inr ⟨a, rfl⟩
  | _ => cases h

theorem eq_of_canTimeOut {i : Instr} (h : canTimeOut i = true) :
    i = .waitclk ∨ i = .stop ∨ (∃ v, i = .send v) ∨ i = .recv ∨ i = .modeentry ∨ (∃ a v, i = .msend a v) ∨
      ∃ a, i = .mrecv a := by
  cases i <;> simp_all [canTimeOut, isAccess]

/-- Settles O24: BUSY is 0 at the end of every command, and its code is one that `commandOp` gives it. -/
theorem commandsCompleteWithTheirCodes : Obligations.CommandsCompleteWithTheirCodes := by
  intro i s
  have hcode := runCommand_code i s
  refine ⟨runCommand (command i) s, exec_eq_command i s, runCommand_notBusy i s, fun hwf hc => ?_, fun hc => ?_, fun hc => ?_⟩
  · rw [hc, commandOp, hwf] at hcode
    cases hcode
  · rw [hc] at hcode
    exact eq_of_isAccess hcode
  · rw [hc] at hcode
    exact eq_of_canTimeOut hcode

/-! ### The fields of RES a command writes -/

/-- What every step of a command and its acceptance leave as it is, the command leaves as it is. -/
theorem exec_keeps {γ : Type} (F : State → γ) {i : Instr} {s t : State} (h : exec i s = .next t)
    (hbusy : F (s.setBusy true) = F s) (hop : ∀ op u, commandOp i op = true → F (op.run u).1 = F u) : F t = F s := by
  rw [exec_eq_command] at h
  obtain rfl := Host.Outcome.next.inj h
  exact Prog.run_keeps (P := fun u => F u = F s) (fun op u ho hu => (hop op u ho).trans hu) (command_uses i) hbusy

/-- ACK is written by SEND alone (R34, R42). -/
theorem exec_ack {i : Instr} {s t : State} (h : exec i s = .next t) (hi : ∀ v, i ≠ .send v) : t.res.ack = s.res.ack := by
  refine exec_keeps (fun u => u.res.ack) h rfl fun op u hop => ?_
  cases op with
  | ack b =>
    cases i with
    | send v => exact absurd rfl (hi v)
    | _ => cases hop
  | _ => simp [MicroOp.run, MicroOp.effect]

/-- LVL is written by GETLINE and GGET alone (R35, R42). -/
theorem exec_lvl {i : Instr} {s t : State} (h : exec i s = .next t) (hi : ∀ l, i ≠ .getline l ∧ i ≠ .gget l) :
    t.res.lvl = s.res.lvl := by
  refine exec_keeps (fun u => u.res.lvl) h rfl fun op u hop => ?_
  cases op with
  | lvl b =>
    cases i with
    | getline l => exact absurd rfl (hi l).1
    | gget l => exact absurd rfl (hi l).2
    | _ => cases hop
  | _ => simp [MicroOp.run, MicroOp.effect]

/-- DATA is written by RECV and MRECV alone (R39, R42). -/
theorem exec_data {i : Instr} {s t : State} (h : exec i s = .next t) (hr : i ≠ .recv) (hm : ∀ a, i ≠ .mrecv a) :
    t.res.data = s.res.data := by
  refine exec_keeps (fun u => u.res.data) h rfl fun op u hop => ?_
  cases op with
  | data =>
    cases i with
    | recv => exact absurd rfl hr
    | mrecv a => exact absurd rfl (hm a)
    | _ => cases hop
  | _ => simp [MicroOp.run, MicroOp.effect]

/-- ATTEMPTS is written by MSEND and MRECV alone (R40, R42). -/
theorem exec_attempts {i : Instr} {s t : State} (h : exec i s = .next t) (hi : isAccess i = false) :
    t.res.attempts = s.res.attempts := by
  refine exec_keeps (fun u => u.res.attempts) h rfl fun op u hop => ?_
  cases op with
  | attempts => exact absurd (hop.symm.trans hi) (by decide)
  | _ => simp [MicroOp.run, MicroOp.effect]

/-- SEND writes ACK exactly when it ends with OK (43_transport.md R171). -/
theorem exec_send_res {v : Byte} {s t : State} (h : exec (.send v) s = .next t) :
    (∃ b, t.res = { s.res with code := .ok, busy := false, ack := ⟨b, true⟩ }) ∨
      t.res = { s.res with code := .timeout, busy := false } := by
  rw [exec_eq_command] at h
  obtain rfl := Host.Outcome.next.inj h
  obtain ⟨u, r, evs, hr, hfacts⟩ := sendByte_facts Config.params v (s.setBusy true)
  have hres : u.res = (s.setBusy true).res := hfacts.frame.res
  simp only [runCommand, command, sendCommand, Prog.run_bind, hr]
  cases r with
  | timeout => exact .inr (by simp [hres])
  | acked b => exact .inl ⟨b, by simp [hres]⟩

/-- What RECV leaves in `t` where its byte left `u` with outcome `w` (43_transport.md R181): RES is written, and time and the Peer
go on. -/
structure RecvEnd (s u t : State) (w : Wait) : Prop where
  frame : t = { u.withEnv t with res := t.res }
  time : u.now ≤ t.now
  ok : w = .ok → t.res = { s.res with code := .ok, busy := false, data := ⟨u.acc, true⟩ }
  timeout : w = .timeout → t.res = { s.res with code := .timeout, busy := false }

theorem exec_recv_run (s : State) : ∃ u w bits evs t, RecvByteFacts Config.params (s.setBusy true) bits evs u w ∧
    exec .recv s = .next t ∧ RecvEnd s u t w := by
  obtain ⟨u, w, bits, evs, hr, hfacts⟩ := recvByte_facts Config.params (s.setBusy true)
  have hres : u.res = (s.setBusy true).res := hfacts.frame.res
  refine ⟨u, w, bits, evs, runCommand (command .recv) s, hfacts, exec_eq_command _ s, ?_⟩
  simp only [runCommand, command, recvCommand, Prog.run_bind, hr]
  cases w with
  | ok => exact ⟨rfl, by simp; omega, fun _ => by simp [hres], fun hw => by cases hw⟩
  | timeout => exact ⟨rfl, by simp; omega, (fun hw => by cases hw), fun _ => by simp [hres]⟩

/-- MRECV that ends with OK has written DATA (45_register_access.md R230). -/
theorem exec_mrecv_data {a : Byte} {s t : State} (h : exec (.mrecv a) s = .next t) (hc : t.res.code = .ok) :
    t.res.data.written = true := by
  rw [exec_eq_command] at h
  obtain rfl := Host.Outcome.next.inj h
  obtain ⟨k, u, c, evs, hr, hfacts⟩ := readAttempts_facts Config.params Config.params_wf a busRetries
    (((s.setBusy true).pass 0).clearAtt)
  have hrun : runCommand (command (.mrecv a)) s = ((finish c).run u).1 := by
    simp only [runCommand, command, mrecvCommand, masterRecv, Prog.run_bind, Prog.run_andThen, run_perform, run_clearAtt, hr]
  rw [hrun] at hc ⊢
  have hc : c = .ok := hc
  have hdata : ((finish c).run u).1.res.data = u.res.data := rfl
  rw [hdata]
  rcases hfacts.result with ⟨-, -, ⟨bits, acc, -, -, -, hres⟩, -⟩ | ⟨hn, -⟩ | ⟨ht, -⟩ | ⟨ht, -⟩
  · rw [hres]
  · cases hn.symm.trans hc
  · cases ht.symm.trans hc
  · cases ht.symm.trans hc

/-- RECV writes DATA exactly when it ends with OK (43_transport.md R181). -/
theorem exec_recv_res {s t : State} (h : exec .recv s = .next t) :
    (∃ d, t.res = { s.res with code := .ok, busy := false, data := ⟨d, true⟩ }) ∨
      t.res = { s.res with code := .timeout, busy := false } := by
  obtain ⟨u, w, bits, evs, t', -, hrun, hend⟩ := exec_recv_run s
  obtain rfl := Host.Outcome.next.inj (hrun.symm.trans h)
  cases w with
  | ok => exact .inl ⟨u.acc, hend.ok rfl⟩
  | timeout => exact .inr (hend.timeout rfl)

/-- Settles O25. -/
theorem resFieldsWrittenByCommand : Obligations.ResFieldsWrittenByCommand := by
  intro i s t h
  refine ⟨fun hne => ?_, fun hne => ?_, fun hne => ?_, fun hne => ?_, ?_, ?_, ?_⟩
  · by_cases hi : ∃ v, i = .send v
    · obtain ⟨v, rfl⟩ := hi
      rcases exec_send_res h with ⟨b, hres⟩ | hres
      · exact ⟨v, rfl, by rw [hres]⟩
      · exact absurd (by rw [hres]) hne
    · exact absurd (exec_ack h fun v hv => hi ⟨v, hv⟩) hne
  · by_contra hi
    exact hne (exec_lvl h fun l => ⟨fun hl => hi ⟨l, .inl hl⟩, fun hl => hi ⟨l, .inr hl⟩⟩)
  · by_cases hr : i = .recv
    · subst hr
      rcases exec_recv_res h with ⟨d, hres⟩ | hres
      · exact .inl ⟨rfl, by rw [hres]⟩
      · exact absurd (by rw [hres]) hne
    · by_contra hi
      exact hne (exec_data h hr fun a ha => hi (.inr ⟨a, ha⟩))
  · by_contra hi
    exact hne (exec_attempts h (Bool.eq_false_iff.2 fun ha => hi (eq_of_isAccess ha)))
  · rintro v rfl hc
    rcases exec_send_res h with ⟨b, hres⟩ | hres
    · rw [hres]
    · rw [hres] at hc; cases hc
  · rintro rfl hc
    rcases exec_recv_res h with ⟨d, hres⟩ | hres
    · rw [hres]
    · rw [hres] at hc; cases hc
  · rintro a rfl hc
    exact exec_mrecv_data h hc

end Sys2Proof.Machine
end

section
/-!
ACC and the byte RECV assembles in it (10_state.md R44, 43_transport.md R180 to R182), and the level of a line (10_state.md R24, R25,
R27).
-/

namespace Sys2Proof.Machine

/-! ### The accumulator -/

/-- The bit shifted in is the lowest. -/
@[simp] theorem byteBit_shiftIn_zero (acc : Byte) (b : Bool) : byteBit (shiftIn acc b) 0 = b := by
  simp [byteBit, shiftIn]

/-- Every other bit of ACC but the highest moves up by one. -/
@[simp] theorem byteBit_shiftIn_succ (acc : Byte) (b : Bool) (i : Nat) (hi : i < 7) :
    byteBit (shiftIn acc b) (i + 1) = byteBit acc i := by
  simp [byteBit, shiftIn, show i + 1 < 8 by omega]
  exact (BitVec.getLsbD_eq_getElem (show i < 8 by omega)).symm

/-- The low bits of a byte, the highest first. -/
def lowBits (v : Byte) : Nat → List Bool
  | 0 => []
  | n + 1 => byteBit v n :: lowBits v n

theorem lowBits_eight (v : Byte) : lowBits v 8 = [7, 6, 5, 4, 3, 2, 1, 0].map (byteBit v) := rfl

/-- A shift moves the low bits up and adds the new one below them. -/
theorem lowBits_shiftIn (acc : Byte) (b : Bool) (n : Nat) (hn : n < 8) :
    lowBits (shiftIn acc b) (n + 1) = lowBits acc n ++ [b] := by
  induction n with
  | zero => simp [lowBits]
  | succ n ih => rw [lowBits, ih (by omega), byteBit_shiftIn_succ acc b n (by omega)]; rfl

/-- After a number of shifts the bits shifted in follow the low bits ACC held. -/
theorem lowBits_shifts (acc : Byte) (bits : List Bool) (n : Nat) (hn : n + bits.length ≤ 8) :
    lowBits (bits.foldl shiftIn acc) (n + bits.length) = lowBits acc n ++ bits := by
  induction bits generalizing acc n with
  | nil => simp
  | cons b bits ih =>
    rw [List.length_cons] at hn ⊢
    rw [List.foldl_cons, show n + (bits.length + 1) = n + 1 + bits.length by omega, ih _ _ (by omega),
      lowBits_shiftIn acc b n (by omega), List.append_assoc]
    rfl

/-- Settles O48: eight shifts leave no bit of what ACC held. -/
theorem eightShiftsFillAcc : Obligations.EightShiftsFillAcc := by
  intro acc bits hlen
  have h := lowBits_shifts acc bits 0 (by omega)
  rwa [Nat.zero_add, hlen, lowBits_eight] at h

/-! ### The level of a line -/

section Level

variable {s : State} {l : Line} (free : Bool)

/-- Driven high and pulled low: contention, and the level is the draw (R25). -/
theorem level_contention (hl : l.onBus = true) (hd : (s.pin l).dir = .output) (hv : (s.pin l).latch = true)
    (hp : s.peerLow l = true) : s.level free l = free := by
  cases l <;> simp_all [State.level, State.contends, Pin.drivesHigh, Line.onBus]

theorem level_drivenHigh (hl : l.onBus = true) (hd : (s.pin l).dir = .output) (hv : (s.pin l).latch = true)
    (hp : s.peerLow l = false) : s.level free l = true := by
  cases l <;> simp_all [State.level, State.contends, Pin.drivesHigh, Pin.drivesLow, Line.onBus]

theorem level_drivenLow (hl : l.onBus = true) (hd : (s.pin l).dir = .output) (hv : (s.pin l).latch = false) :
    s.level free l = false := by
  cases l <;> simp_all [State.level, State.contends, Pin.drivesHigh, Pin.drivesLow, Line.onBus]

/-- Released: the Peer's pull alone decides (R24, R25). -/
theorem level_released (hl : l.onBus = true) (hd : (s.pin l).dir = .input) : s.level free l = !s.peerLow l := by
  cases l <;> simp_all [State.level, State.contends, Pin.drivesHigh, Pin.drivesLow, Line.onBus]

/-- INT while driven (R27). -/
theorem level_int_driven (hd : s.int.dir = .output) : s.level free .int = s.int.latch := by rw [State.level, if_pos hd]

theorem level_int_released (hd : s.int.dir = .input) : s.level free .int = free := by
  rw [State.level, hd, if_neg (by decide)]

end Level

/-- Settles O27. -/
theorem levelIsWiredAnd : Obligations.LevelIsWiredAnd := fun _ free =>
  ⟨fun _ hl => ⟨level_contention free hl, level_drivenHigh free hl, level_drivenLow free hl, level_released free hl⟩,
    level_int_driven free, level_int_released free⟩

/-! ### RECV -/

/-- The last of spaced times may be later. -/
theorem Spaced.last_le {x y : Nat} (hxy : x ≤ y) {gaps ts : List Nat} {start : Nat} (h : Spaced start gaps (ts ++ [x])) :
    Spaced start gaps (ts ++ [y]) := by
  induction ts generalizing gaps start with
  | nil =>
    cases gaps with
    | nil => exact h
    | cons gap gaps => exact ⟨h.1.trans hxy, by simp only [Spaced]⟩
  | cons t ts ih =>
    cases gaps with
    | nil => exact h
    | cons gap gaps => exact ⟨h.1, ih h.2⟩

/-- A receive that has timed out by some time has by every later one. -/
theorem ReceiveMissed.mono {p : Params} {precise : Bool} {t0 x y : Nat} {bits : List Bool} {evs : List Event}
    (h : ReceiveMissed p precise t0 x bits evs) (hxy : x ≤ y) : ReceiveMissed p precise t0 y bits evs := by
  obtain ⟨got, last, hgot, hlast, he⟩ := h
  exact ⟨got, last, hgot, hlast.mono hxy, he⟩

/-- The Engine never drives SDA while it receives (43_transport.md R180). -/
theorem recvChanges_sda_released : ∀ c ∈ recvChanges, c.1 = .sda → c.2 = .released := by decide

theorem RecvByteFacts.dirs_subset {p : Params} {s t : State} {bits : List Bool} {evs : List Event} {w : Wait}
    (h : RecvByteFacts p s bits evs t w) : ∀ c ∈ dirChanges evs, c ∈ recvChanges := by
  intro c hc
  rw [h.dirs] at hc
  split at hc
  · exact hc
  · exact List.mem_of_mem_take hc

/-- RECV changes what its byte changes, and RES (R180, R181). -/
theorem RecvByteFacts.frame_to {p : Params} {s u t : State} {bits : List Bool} {evs : List Event} {w : Wait}
    (h : RecvByteFacts p (s.setBusy true) bits evs u w) (ht : t = { u.withEnv t with res := t.res }) :
    t = { s.withEnv t with
      scl := t.scl, sda := { s.sda with dir := .input }, acc := t.acc, bitIdx := t.bitIdx, t0 := t.t0, nPoll := t.nPoll
      history := t.history, res := t.res } := by
  have hu := h.frame
  refine State.ext rfl ?_ ?_ ?_ ?_ rfl ?_ rfl rfl rfl ?_ rfl rfl ?_ rfl rfl ?_ rfl rfl
  · exact (congrArg State.sda ht).trans h.sda
  · exact (congrArg State.int ht).trans hu.int
  · exact (congrArg State.precise ht).trans hu.precise
  · exact (congrArg State.irqOff ht).trans hu.irqOff
  · exact (congrArg State.cmd ht).trans hu.cmd
  · exact (congrArg State.att ht).trans hu.att
  · exact (congrArg State.faultContend ht).trans hu.faultContend
  · exact (congrArg State.host ht).trans hu.host

/-- Settles O45: the facts of `RecvByte` carried over the end of the command, and the eight bits read back from ACC. -/
theorem recvAssemblesSamples : Obligations.RecvAssemblesSamples := by
  intro s
  obtain ⟨u, w, bits, evs, t, h, hrun, hend⟩ := exec_recv_run s
  have hhist : t.history = evs.reverse ++ s.history := (congrArg State.history hend.frame).trans h.history
  have ht0 : t.t0 = u.t0 := (congrArg State.t0 hend.frame :)
  refine ⟨t, evs, hrun, hhist, h.frame_to hend.frame, fun c hc => recvChanges_sda_released c (h.dirs_subset c hc),
    exec_linesWritten recv_linesOnly hrun hhist, h.spaced, ?_⟩
  cases w with
  | ok =>
    obtain ⟨hlen, -, -⟩ := h.success rfl
    have hbits : [7, 6, 5, 4, 3, 2, 1, 0].map (byteBit u.acc) = bits := by
      rw [h.acc]
      exact eightShiftsFillAcc _ bits hlen
    exact .inl ⟨u.acc, h.samples.trans hbits.symm, hbits.symm ▸ h.received rfl, (h.toEnd rfl).last_le hend.time, h.dirs,
      hend.ok rfl⟩
  | timeout =>
    obtain ⟨hlen, -⟩ := h.failure rfl
    refine .inr ⟨bits.length + 1, by omega, by omega, by rw [h.samples]; rfl, h.dirs, ?_, hend.timeout rfl⟩
    rw [h.samples, ht0]
    exact (h.missed rfl Config.params_wf).mono hend.time

end Sys2Proof.Machine
end

section
/-!
The event history (20_memory.md R68): it stays in order of time over every step, and what SEND, MSEND and MRECV record of the
bytes they send is each byte's bits, most significant first (R62, R63).
-/

namespace Sys2Proof.Machine

/-! ### The order of the history -/

/-- Settles O20: there is no event to be out of order. -/
theorem resetHistoryOrdered : Obligations.ResetHistoryOrdered := ⟨.nil, fun _ he => absurd he List.not_mem_nil⟩

/-- `t` is `s` after an act that ended at `t.now` and recorded its events then. -/
def State.RecordsAtEnd (s t : State) : Prop :=
  s.now ≤ t.now ∧ ∃ evs, t.history = evs ++ s.history ∧ ∀ e ∈ evs, e.time = t.now

/-- Events of the present instant go in order on top of older ones. -/
theorem State.HistoryOrdered.record {s t : State} (hs : s.HistoryOrdered) (h : s.RecordsAtEnd t) : t.HistoryOrdered := by
  obtain ⟨hpairs, hpast⟩ := hs
  obtain ⟨hnow, evs, hhist, htime⟩ := h
  have hold : ∀ e ∈ s.history, e.time ≤ t.now := fun e he => (hpast e he).trans hnow
  unfold State.HistoryOrdered
  rw [hhist]
  refine ⟨List.pairwise_append.2 ⟨?_, hpairs, fun new hnew old he => ?_⟩, fun e he => ?_⟩
  · exact List.pairwise_of_forall_mem_list fun new hnew old he => by rw [htime new hnew, htime old he]
  · exact htime new hnew ▸ hold old he
  · exact (List.mem_append.1 he).elim (fun he => (htime e he).le) (hold e)

theorem MicroOp.run_recordsAtEnd (op : MicroOp) (s : State) : s.RecordsAtEnd (op.run s).1 := by
  obtain ⟨evs, hhist, hnow, htime⟩ := op.run_events s
  exact ⟨hnow, evs, hhist, htime⟩

theorem State.recordsAtEnd_of_history_eq {s t : State} (hnow : s.now ≤ t.now) (h : t.history = s.history) :
    s.RecordsAtEnd t := ⟨hnow, [], h, fun _ he => absurd he List.not_mem_nil⟩

theorem resetEvents_time {s : State} {l : Line} {e : Event} (he : e ∈ resetEvents s l) : e.time = s.now := by
  simp only [resetEvents, List.mem_append, List.mem_ite_nil_right, List.mem_singleton] at he
  rcases he with ⟨-, rfl⟩ | ⟨-, rfl⟩ <;> rfl

/-- A reset records the changes it makes at the instant it is made (log 10), and time goes on (log 7). -/
theorem State.blockReset_recordsAtEnd (s : State) : s.RecordsAtEnd s.blockReset := by
  refine ⟨s.now_le_pass 0, (if s.irqOff then [.irq false (s.pass 0).now] else []) ++ resetEvents (s.pass 0) .int ++
    resetEvents (s.pass 0) .sda ++ resetEvents (s.pass 0) .scl, rfl, fun e he => ?_⟩
  simp only [List.mem_append, List.mem_ite_nil_right, List.mem_singleton] at he
  rcases he with ((⟨-, rfl⟩ | he) | he) | he
  · rfl
  · exact (resetEvents_time he :)
  · exact (resetEvents_time he :)
  · exact (resetEvents_time he :)

/-- `t` is reached from `s`: its history is in order and ends in that of `s`, and time has not gone back. -/
structure HistoryFrom (s t : State) : Prop where
  ordered : t.HistoryOrdered
  time : s.now ≤ t.now
  added : ∃ evs, t.history = evs ++ s.history

theorem HistoryFrom.refl {s : State} (hs : s.HistoryOrdered) : HistoryFrom s s := ⟨hs, Nat.le_refl _, [], rfl⟩

theorem HistoryFrom.record {s t u : State} (h : HistoryFrom s t) (hu : t.RecordsAtEnd u) : HistoryFrom s u := by
  obtain ⟨evs, ht⟩ := h.added
  have hordered := h.ordered.record hu
  obtain ⟨hnow, new, hhist, -⟩ := hu
  exact ⟨hordered, h.time.trans hnow, new ++ evs, by rw [hhist, ht, List.append_assoc]⟩

theorem kept_historyFrom (s : State) : Kept (HistoryFrom s) where
  op op t h := h.record (op.run_recordsAtEnd t)
  pass t h := h.record (State.recordsAtEnd_of_history_eq (t.now_le_pass 0) rfl)
  accept _ _ h := h.record (State.recordsAtEnd_of_history_eq (Nat.le_refl _) rfl)
  hostRead _ _ h := h.record (State.recordsAtEnd_of_history_eq (Nat.le_refl _) rfl)
  goto _ _ h := h.record (State.recordsAtEnd_of_history_eq (Nat.le_refl _) rfl)
  blockReset t h := h.record t.blockReset_recordsAtEnd

/-- Every step moves the host on, or had no word given to use up (log 11). -/
theorem stepOf_given {program : List HostLine} {s t : State} (h : stepOf program s = .next t) : t.host.given = none := by
  rcases stepOf_next h with ⟨_, _, -, rfl, -⟩ | ⟨_, _, _, -, rfl, -⟩ | ⟨_, _, rfl, -⟩ | ⟨_, -, rfl⟩ | ⟨hg, rfl⟩ | rfl
  · rfl
  · rfl
  · rfl
  · rfl
  · exact hg
  · rfl

theorem stepOf_historyFrom {program : List HostLine} {s t : State} (hs : s.HistoryOrdered) (h : stepOf program s = .next t) :
    HistoryFrom s t := stepOf_keeps (kept_historyFrom s) (HistoryFrom.refl hs) h

/-- Settles O19: each elementary step and each act of the Host records its events at its end. -/
theorem stepKeepsHistoryOrdered : Obligations.StepKeepsHistoryOrdered := by
  intro program s t hs hstep
  obtain ⟨program, h⟩ : ∃ program, stepOf program s = .next t :=
    hstep.elim (fun h => ⟨_, (step_eq_stepOf s).symm.trans h⟩) fun h => ⟨_, h⟩
  obtain ⟨hordered, htime, hadded⟩ := stepOf_historyFrom hs h
  exact ⟨hordered, htime, hadded, stepOf_given h⟩

/-! ### SEND -/

/-- What SEND leaves in `t` where its byte left `u` with outcome `r` (43_transport.md R171): RES is written, and time and the Peer
go on. -/
structure SendEnd (s u t : State) (r : Sent) : Prop where
  frame : t = { u.withEnv t with res := t.res }
  time : u.now ≤ t.now
  acked : ∀ b, r = .acked b → t.res = { s.res with code := .ok, busy := false, ack := ⟨b, true⟩ }
  timeout : r = .timeout → t.res = { s.res with code := .timeout, busy := false }

theorem exec_send_run (v : Byte) (s : State) : ∃ u r evs t, SendByteFacts Config.params v (s.setBusy true) evs u r ∧
    exec (.send v) s = .next t ∧ SendEnd s u t r := by
  obtain ⟨u, r, evs, hr, hfacts⟩ := sendByte_facts Config.params v (s.setBusy true)
  have hres : u.res = (s.setBusy true).res := hfacts.frame.res
  refine ⟨u, r, evs, runCommand (command (.send v)) s, hfacts, exec_eq_command _ s, ?_⟩
  simp only [runCommand, command, sendCommand, Prog.run_bind, hr]
  cases r with
  | acked b => exact ⟨rfl, by simp; omega, fun _ hb => by cases hb; simp [hres], fun hw => by cases hw⟩
  | timeout => exact ⟨rfl, by simp; omega, (fun _ hb => by cases hb), fun _ => by simp [hres]⟩

/-- Settles O42: the facts of `SendByte`, carried over the end of the command. -/
theorem sendShowsBitsMsbFirst : Obligations.SendShowsBitsMsbFirst := by
  intro v d s
  obtain ⟨u, r, evs, t, h, hrun, hend⟩ := exec_send_run v s
  have hhist : t.history = evs.reverse ++ s.history := (congrArg State.history hend.frame).trans h.history
  refine ⟨t, evs, hrun, hhist, h.spaced, exec_linesWritten (send_linesOnly v) hrun hhist, ?_⟩
  rcases h.result with ⟨level, hr, -, -, -, hshown, hdirs, -⟩ | ⟨m, hr, hm, -, hdirs, -, hshown, -⟩
  · have hcode : t.res.code = .ok := by rw [hend.acked _ hr]
    exact ⟨fun _ => ⟨hshown d, hdirs⟩, fun hc => by cases hcode.symm.trans hc⟩
  · have hcode : t.res.code = .timeout := by rw [hend.timeout hr]
    exact ⟨fun hc => (by cases hcode.symm.trans hc), fun _ => ⟨m + 1, by omega, by omega, hshown d, hdirs⟩⟩

/-! ### The direction changes of MSEND and MRECV -/

/-- A failed attempt ended with NAK or TIMEOUT (45_register_access.md R223). -/
theorem FailedTry.FailedIn.code_ne_ok {p : Params} {precise : Bool} {f : FailedTry} {evs : List Event}
    (h : f.FailedIn p precise evs) : f.code ≠ .ok := by
  rcases h with ⟨hc, -⟩ | ⟨hc, -⟩ <;> rw [hc] <;> decide

theorem WriteFailed.code_ne_ok {p : Params} {precise : Bool} {a v : Byte} {f : FailedTry} (h : WriteFailed p precise a v f) :
    f.code ≠ .ok := by
  obtain ⟨_, _, -, ⟨-, hf, -⟩ | ⟨_, -, -, hf, -⟩⟩ := h
  · exact hf.code_ne_ok
  · exact hf.code_ne_ok

theorem ReadFailed.code_ne_ok {p : Params} {precise : Bool} {a : Byte} {f : FailedTry} (h : ReadFailed p precise a f) :
    f.code ≠ .ok := by
  obtain ⟨_, _, -, -, hf, -⟩ := h
  exact hf.code_ne_ok

theorem LastTry.code_ne_ok {fails : List FailedTry} {c : Code} {sda : Pin} (h : LastTry fails c sda)
    (hf : ∀ f ∈ fails, f.code ≠ .ok) : c ≠ .ok := by
  obtain ⟨f, hlast, rfl, -⟩ := h
  exact hf f (List.mem_of_getLast? hlast)

/-- A stop that completed made all its changes (43_transport.md R162). -/
theorem StopEnded.dirs_of_ok {p : Params} {precise : Bool} {t0 ending : Nat} {sda : Pin} {evs : List Event}
    (h : StopEnded p precise t0 ending .ok sda evs) : dirChanges evs = stopChanges := by
  obtain ⟨-, _, _, -, -, ⟨-, hdirs, -⟩ | ⟨hc, -⟩⟩ := h
  · exact hdirs
  · cases hc

/-- A receive and a stop that completed made all their changes (45_register_access.md R230). -/
theorem ReadEnded.dirs_of_ok {p : Params} {precise : Bool} {t0 ending : Nat} {res res' : Res} {n : BitVec 2} {sda : Pin}
    {evs : List Event} (h : ReadEnded p precise t0 ending res .ok n sda res' evs) :
    dirChanges evs = recvChanges ++ stopChanges := by
  obtain ⟨bits, ⟨hc, -⟩ | ⟨-, -, e2, e3, rfl, hrecv, -, -, hstop⟩⟩ := h
  · cases hc
  · rw [dirChanges_append, hrecv, hstop.dirs_of_ok]

/-- The changes of an MSEND that completed: those of the failed attempts, and then a whole one (R220). -/
theorem WriteFacts.dirs_of_ok {p : Params} {a v : Byte} {n k : Nat} {s t : State} {evs : List Event}
    (h : WriteFacts p a v n k s evs t .ok) : ∃ before,
      dirChanges evs = before ++ (startChanges ++ sendChanges a ++ sendChanges v ++ stopChanges) ∧ (k = 0 → before = []) := by
  obtain ⟨fails, hfails, ⟨-, -, -, -, hlast⟩ | ⟨hk, e0, e1, e2, e3, rfl, -, h0, h1, h2, h3⟩⟩ := h.tries
  · exact absurd rfl (hlast.code_ne_ok fun f hf => (hfails f hf).code_ne_ok)
  · refine ⟨dirChanges (fails.flatMap FailedTry.events), ?_, fun hz => ?_⟩
    · simp only [dirChanges_append, h0.1, h1.1, h2.1, h3.dirs_of_ok]
    · rw [List.length_eq_zero_iff.1 (hk.trans hz)]; rfl

/-- The changes of an MRECV that completed: those of the failed attempts, and then a whole one (R230). -/
theorem ReadFacts.dirs_of_ok {p : Params} {a : Byte} {n k : Nat} {s t : State} {evs : List Event}
    (h : ReadFacts p a n k s evs t .ok) : ∃ before,
      dirChanges evs = before ++ (startChanges ++ sendChanges a ++ recvChanges ++ stopChanges) ∧ (k = 0 → before = []) := by
  obtain ⟨fails, hfails, ⟨-, -, -, -, hlast, -⟩ | ⟨hk, e0, e1, e2, rfl, -, h0, h1, h2⟩⟩ := h.tries
  · exact absurd rfl (hlast.code_ne_ok fun f hf => (hfails f hf).code_ne_ok)
  · refine ⟨dirChanges (fails.flatMap FailedTry.events), ?_, fun hz => ?_⟩
    · simp only [dirChanges_append, h0.1, h1.1, h2.dirs_of_ok, List.append_assoc]
    · rw [List.length_eq_zero_iff.1 (hk.trans hz)]; rfl

/-! ### MSEND and MRECV -/

/-- ATTEMPTS tells the first attempt apart: two retries do not overflow two bits (10_state.md R46). -/
theorem no_retry_of_attempts_one {k : Nat} {u t : State} {c : Code} (hk : k ≤ busRetries)
    (hatt : u.att = 0#2 + BitVec.ofNat 2 (k + 1)) (hres : u.res.attempts.value = u.att) (hend : t = (u.withEnv t).ended c)
    (hone : t.res.attempts.value = 1#2) : k = 0 := by
  have hk : k ≤ 2 := hk
  have hcount : 0#2 + BitVec.ofNat 2 (k + 1) = 1#2 :=
    calc 0#2 + BitVec.ofNat 2 (k + 1) = u.res.attempts.value := (hres.trans hatt).symm
      _ = t.res.attempts.value := (congrArg (·.res.attempts.value) hend).symm
      _ = 1#2 := hone
  have := congrArg BitVec.toNat hcount
  simp only [BitVec.toNat_add, BitVec.toNat_ofNat] at this
  omega

/-- MSEND and MRECV end with the code their attempts gave (45_register_access.md R221, R231): CODE and BUSY are written, and time and
the Peer go on. -/
theorem runCommand_bind_finish {p : Prog Code} {s u : State} {c : Code} (hp : p.run (s.setBusy true) = (u, c)) :
    runCommand (p.bind finish) s = (u.withEnv (runCommand (p.bind finish) s)).ended c ∧
      u.now ≤ (runCommand (p.bind finish) s).now := by
  have hrun : runCommand (p.bind finish) s = ((finish c).run u).1 := by rw [runCommand, Prog.run_bind, hp]
  rw [hrun]
  exact finish_spec c u

theorem exec_msend_run (a v : Byte) (s : State) : ∃ k u c evs t,
    WriteFacts Config.params a v busRetries k (((s.setBusy true).pass 0).clearAtt) evs u c ∧
      exec (.msend a v) s = .next t ∧ t = (u.withEnv t).ended c ∧ u.now ≤ t.now := by
  obtain ⟨k, u, c, evs, hr, h⟩ := writeAttempts_facts Config.params Config.params_wf a v busRetries
    (((s.setBusy true).pass 0).clearAtt)
  exact ⟨k, u, c, evs, _, h, exec_eq_command _ s,
    runCommand_bind_finish (p := masterSend Config.params a v) ((Prog.run_andThen _ _ _).trans hr)⟩

theorem exec_mrecv_run (a : Byte) (s : State) : ∃ k u c evs t,
    ReadFacts Config.params a busRetries k (((s.setBusy true).pass 0).clearAtt) evs u c ∧
      exec (.mrecv a) s = .next t ∧ t = (u.withEnv t).ended c ∧ u.now ≤ t.now := by
  obtain ⟨k, u, c, evs, hr, h⟩ := readAttempts_facts Config.params Config.params_wf a busRetries
    (((s.setBusy true).pass 0).clearAtt)
  exact ⟨k, u, c, evs, _, h, exec_eq_command _ s,
    runCommand_bind_finish (p := masterRecv Config.params a) ((Prog.run_andThen _ _ _).trans hr)⟩

/-- Settles O54: what the attempts show and change, where the last of them completed. -/
theorem msendShowsAddressThenValue : Obligations.MsendShowsAddressThenValue := by
  intro a v d s
  obtain ⟨k, u, c, evs, t, h, hrun, hend, -⟩ := exec_msend_run a v s
  refine ⟨t, evs, hrun, (congrArg State.history hend).trans h.history, fun hc => ?_⟩
  obtain rfl : c = .ok := (congrArg (·.res.code) hend).symm.trans hc
  obtain ⟨-, -, hshown, -⟩ := h.ok rfl
  obtain ⟨pre, hpre, hpre0⟩ := hshown d
  obtain ⟨before, hbefore, hbefore0⟩ := h.dirs_of_ok
  refine ⟨pre, before, hpre, hbefore, fun hone => ?_⟩
  have hk := no_retry_of_attempts_one h.count h.att (congrArg (·.attempts.value) h.frame.res) hend hone
  exact ⟨hpre0 hk, hbefore0 hk⟩

/-- An MRECV that completed shows the address byte and releases (R230), and ATTEMPTS counts its attempts. -/
theorem ReadFacts.shown_of_ok {p : Params} {a : Byte} {n k : Nat} {s t : State} {evs : List Event}
    (h : ReadFacts p a n k s evs t .ok) : t.res.attempts.value = t.att ∧ ∀ d, ∃ pre,
      driveAtClocks d evs = pre ++ (byteDrives a ++ List.replicate 9 .released ++ [.out0]) ∧ (k = 0 → pre = []) := by
  rcases h.result with ⟨-, -, ⟨_, _, _, -, -, hres⟩, hshown, -⟩ | ⟨hc, -⟩ | ⟨hc, -⟩ | ⟨hc, -⟩
  · exact ⟨by rw [hres], hshown⟩
  · cases hc
  · cases hc
  · cases hc

/-- Settles O57: what the attempts show and change, where the last of them completed. -/
theorem mrecvShowsAddressThenReleases : Obligations.MrecvShowsAddressThenReleases := by
  intro a d s
  obtain ⟨k, u, c, evs, t, h, hrun, hend, -⟩ := exec_mrecv_run a s
  refine ⟨t, evs, hrun, (congrArg State.history hend).trans h.history, fun hc => ?_⟩
  obtain rfl : c = .ok := (congrArg (·.res.code) hend).symm.trans hc
  obtain ⟨hatt, hshown⟩ := h.shown_of_ok
  obtain ⟨pre, hpre, hpre0⟩ := hshown d
  obtain ⟨before, hbefore, hbefore0⟩ := h.dirs_of_ok
  refine ⟨pre, before, hpre, hbefore, fun hone => ?_⟩
  have hk := no_retry_of_attempts_one h.count h.att hatt hend hone
  exact ⟨hpre0 hk, hbefore0 hk⟩

end Sys2Proof.Machine
end

section
/-!
The command words (30_encoding.md R80 to R90): the decoder's inverse is the encoder, its search is that of the opcode map, and what
it rejects is R89's list.
-/

namespace Sys2Proof

open Machine

/-! ### Words put together from their fields -/

theorem encodeN_of_reservedNClear {w : Word} (h : reservedNClear w = true) : encodeN (opField w) = w := by
  rw [reservedNClear_iff] at h
  rw [← BitVec.toNat_inj, toNat_encodeN, toNat_opField]
  omega

/-- A word is its four bytes. -/
theorem encodeI_fields (w : Word) : encodeI (opField w) (uField w) (aField w) (bField w) = w := by
  rw [← BitVec.toNat_inj, toNat_encodeI, toNat_opField, toNat_uField, toNat_aField, toNat_bField]
  omega

theorem encodeImm_fields (w : Word) : encodeImm (opField w) (uField w) (immField w) = w := by
  rw [← BitVec.toNat_inj, toNat_encodeImm, toNat_opField, toNat_uField, toNat_immField]
  omega

theorem toNat_vField (w : Word) : (vField w).toNat = w.toNat % 2 := by
  rw [vField_eq]
  rcases Nat.mod_two_eq_zero_or_one w.toNat with h | h <;> simp [h]

theorem encodeR_fields {w : Word} {l : Line} (hres : reservedRClear w = true) (hl : lineField w = fieldOfLine l) :
    encodeR (opField w) l (vField w) = w := by
  rw [reservedRClear_iff] at hres
  rw [← BitVec.toNat_inj, toNat_encodeR, ← hl, toNat_opField, toNat_lineField, toNat_vField]
  omega

/-- The LINE field names a line exactly when it is that line's number (30_encoding.md R84). -/
theorem lineOfField_eq_some {f : BitVec 2} {l : Line} : lineOfField f = some l ↔ f = fieldOfLine l := by
  refine ⟨fun h => ?_, fun h => h ▸ lineOfField_fieldOfLine l⟩
  unfold lineOfField at h
  split_ifs at h with h0 h1 h2 <;> cases h <;> assumption

/-- LINE = 3 is the one reserved value (R84). -/
theorem lineOfField_eq_none {f : BitVec 2} : lineOfField f = none ↔ f = 3#2 := by
  revert f; decide

/-! ### The decoder, one format at a time -/

section Decoder

variable {w : Word} {i : Instr}

theorem decodeN_ok {j : Instr} (h : decodeN j w = .ok i) : i = j ∧ encodeN (opField w) = w := by
  unfold decodeN at h
  split_ifs at h with hres
  exact ⟨(Except.ok.inj h).symm, encodeN_of_reservedNClear hres⟩

theorem decodeN_error {j : Instr} : (∃ why, decodeN j w = .error why) ↔ w.extractLsb' 0 24 ≠ 0#24 := by
  unfold decodeN reservedNClear
  split_ifs with hres <;> simpa using hres

/-- What a word of format R decodes to is built from a line the command admits. -/
theorem decodeR_ok {accept : Line → Bool} {build : Line → Bool → Except Reject Instr} (h : decodeR accept build w = .ok i) :
    ∃ l, accept l = true ∧ build l (vField w) = .ok i ∧ encodeR (opField w) l (vField w) = w := by
  unfold decodeR at h
  split_ifs at h with hres
  split at h
  · cases h
  next l hl =>
    split_ifs at h with hacc
    exact ⟨l, hacc, h, encodeR_fields hres (lineOfField_eq_some.1 hl)⟩

theorem decodeSample_ok {build : Line → Instr} {l : Line} {v : Bool} (h : decodeSample build l v = .ok i) :
    v = false ∧ i = build l := by
  unfold decodeSample at h
  split_ifs at h with hv
  exact ⟨Bool.eq_false_of_not_eq_true hv, (Except.ok.inj h).symm⟩

theorem decodeSample_error {build : Line → Instr} {l : Line} {v : Bool} :
    (∃ why, decodeSample build l v = .error why) ↔ v = true := by
  cases v <;> simp [decodeSample]

theorem not_reservedRClear_iff : ¬ reservedRClear w = true ↔ w.extractLsb' 18 6 ≠ 0#6 ∨ w.extractLsb' 1 15 ≠ 0#15 := by
  rw [reservedRClear, Bool.and_eq_true, beq_iff_eq, beq_iff_eq, Classical.not_and_iff_not_or_not]

/-- When format R rejects, for a command that admits at least the two bus lines and whose `build` rejects when `P` holds. -/
theorem decodeR_error {accept : Line → Bool} {build : Line → Bool → Except Reject Instr} {P : Prop}
    (hacc : ∀ l : Line, l.onBus = true → accept l = true)
    (hbuild : ∀ l, (∃ why, build l (vField w) = .error why) ↔ P) :
    (∃ why, decodeR accept build w = .error why) ↔
      (w.extractLsb' 18 6 ≠ 0#6 ∨ w.extractLsb' 1 15 ≠ 0#15) ∨ lineField w = 3#2 ∨
        (lineField w = 2#2 ∧ accept .int = false) ∨ P := by
  rw [← not_reservedRClear_iff]
  unfold decodeR
  by_cases hres : reservedRClear w = true
  · rw [if_pos hres]
    cases hl : lineOfField (lineField w) with
    | none => simp [lineOfField_eq_none.1 hl]
    | some l =>
      rw [lineOfField_eq_some.1 hl]
      cases l with
      | scl => simp [hacc .scl rfl, hbuild, hres, fieldOfLine]
      | sda => simp [hacc .sda rfl, hbuild, hres, fieldOfLine]
      | int => cases ha : accept .int <;> simp [ha, hbuild, hres, fieldOfLine]
  · simp [hres]

/-- SETLINE and GETLINE (R84). -/
theorem decodeR_bus_error {build : Line → Bool → Except Reject Instr} {P : Prop}
    (hbuild : ∀ l, (∃ why, build l (vField w) = .error why) ↔ P) :
    (∃ why, decodeR Line.onBus build w = .error why) ↔
      (w.extractLsb' 18 6 ≠ 0#6 ∨ w.extractLsb' 1 15 ≠ 0#15) ∨ lineField w = 3#2 ∨ lineField w = 2#2 ∨ P := by
  rw [decodeR_error (fun _ h => h) hbuild, Line.onBus, and_iff_left rfl]

/-- GDIR, GSET and GGET (R84). -/
theorem decodeR_any_error {build : Line → Bool → Except Reject Instr} {P : Prop}
    (hbuild : ∀ l, (∃ why, build l (vField w) = .error why) ↔ P) :
    (∃ why, decodeR (fun _ => true) build w = .error why) ↔
      (w.extractLsb' 18 6 ≠ 0#6 ∨ w.extractLsb' 1 15 ≠ 0#15) ∨ lineField w = 3#2 ∨ P := by
  rw [decodeR_error (fun _ _ => rfl) hbuild]
  simp

theorem decodeDelay_ok (hop : opField w = 0x10#8) (h : decodeDelay w = .ok i) : i.wellFormed = true ∧ encode i = w := by
  have hw := encodeImm_fields w
  unfold decodeDelay at h
  rw [hop] at hw
  split_ifs at h with hu himm hu himm hu hu <;> cases h
  · exact ⟨rfl, by rwa [hu, himm] at hw⟩
  · exact ⟨rfl, by rwa [hu, himm] at hw⟩
  · exact ⟨rfl, by rwa [hu] at hw⟩
  · exact ⟨rfl, by rwa [hu] at hw⟩

theorem decodeDelay_error :
    (∃ why, decodeDelay w = .error why) ↔ 4#8 ≤ uField w ∨ (uField w < 2#8 ∧ immField w ≠ 0#16) := by
  unfold decodeDelay
  split_ifs with hu himm hu himm hu hu
  · simp [hu, himm]
  · simp [hu, himm]
  · simp [hu, himm]
  · simp [hu, himm]
  · simp [hu]
  · simp [hu]
  · refine iff_of_true ⟨_, rfl⟩ (.inl ?_)
    bv_omega

theorem decodeSend_ok (hop : opField w = 0x22#8) (h : decodeSend w = .ok i) : i.wellFormed = true ∧ encode i = w := by
  have hw := encodeI_fields w
  unfold decodeSend at h
  split_ifs at h with hu ha
  cases h
  exact ⟨rfl, by rwa [hop, hu, ha] at hw⟩

theorem decodeSend_error : (∃ why, decodeSend w = .error why) ↔ uField w ≠ 0#8 ∨ aField w ≠ 0#8 := by
  unfold decodeSend
  split_ifs with hu ha <;> simp [*]

theorem decodeMsend_ok (hop : opField w = 0x40#8) (h : decodeMsend w = .ok i) : i.wellFormed = true ∧ encode i = w := by
  have hw := encodeI_fields w
  unfold decodeMsend at h
  split_ifs at h with hu
  cases h
  exact ⟨rfl, by rwa [hop, hu] at hw⟩

theorem decodeMsend_error : (∃ why, decodeMsend w = .error why) ↔ uField w ≠ 0#8 := by
  unfold decodeMsend
  split_ifs with hu <;> simp [*]

theorem decodeMrecv_ok (hop : opField w = 0x41#8) (h : decodeMrecv w = .ok i) : i.wellFormed = true ∧ encode i = w := by
  have hw := encodeI_fields w
  unfold decodeMrecv at h
  split_ifs at h with hu hb
  cases h
  exact ⟨rfl, by rwa [hop, hu, hb] at hw⟩

theorem decodeMrecv_error : (∃ why, decodeMrecv w = .error why) ↔ uField w ≠ 0#8 ∨ bField w ≠ 0#8 := by
  unfold decodeMrecv
  split_ifs with hu hb <;> simp [*]

end Decoder

/-- The opcodes of the map (30_encoding.md R87). -/
def opcodes : List (BitVec 8) :=
  [0x01#8, 0x02#8, 0x03#8, 0x04#8, 0x05#8, 0x06#8, 0x10#8, 0x20#8, 0x21#8, 0x22#8, 0x23#8, 0x30#8, 0x40#8, 0x41#8]

/-- The decoder at each opcode. -/
theorem decode_cases (w : Word) :
    (opField w = 0x01#8 ∧ decode w = decodeR Line.onBus (fun l v => .ok (.setline l v)) w) ∨
    (opField w = 0x02#8 ∧ decode w = decodeR Line.onBus (decodeSample .getline) w) ∨
    (opField w = 0x03#8 ∧ decode w = decodeN .waitclk w) ∨
    (opField w = 0x04#8 ∧ decode w = decodeR (fun _ => true) (fun l v => .ok (.gdir l v)) w) ∨
    (opField w = 0x05#8 ∧ decode w = decodeR (fun _ => true) (fun l v => .ok (.gset l v)) w) ∨
    (opField w = 0x06#8 ∧ decode w = decodeR (fun _ => true) (decodeSample .gget) w) ∨
    (opField w = 0x10#8 ∧ decode w = decodeDelay w) ∨
    (opField w = 0x20#8 ∧ decode w = decodeN .start w) ∨
    (opField w = 0x21#8 ∧ decode w = decodeN .stop w) ∨
    (opField w = 0x22#8 ∧ decode w = decodeSend w) ∨
    (opField w = 0x23#8 ∧ decode w = decodeN .recv w) ∨
    (opField w = 0x30#8 ∧ decode w = decodeN .modeentry w) ∨
    (opField w = 0x40#8 ∧ decode w = decodeMsend w) ∨
    (opField w = 0x41#8 ∧ decode w = decodeMrecv w) ∨
    (opField w ∉ opcodes ∧ decode w = .error .unusedOpcode) := by
  by_cases hop : opField w ∈ opcodes
  · simp only [opcodes, List.mem_cons, List.not_mem_nil, or_false] at hop
    rcases hop with hop | hop | hop | hop | hop | hop | hop | hop | hop | hop | hop | hop | hop | hop <;>
      simp [decode, hop]
  · have hop' := hop
    simp only [opcodes, List.mem_cons, List.not_mem_nil, or_false, not_or] at hop'
    simp [decode, hop, hop']

/-! ### Decoding and encoding are inverse -/

/-- Settles O1, one lemma of `Laws.DecodeEncode` for each command. -/
theorem encodedCommandsDecode : Obligations.EncodedCommandsDecode := by
  intro i
  cases i with
  | setline l v => exact Laws.DecodeEncode.setline l v
  | getline l => exact Laws.DecodeEncode.getline l
  | waitclk => exact Laws.DecodeEncode.waitclk
  | gdir l v => exact Laws.DecodeEncode.gdir l v
  | gset l v => exact Laws.DecodeEncode.gset l v
  | gget l => exact Laws.DecodeEncode.gget l
  | delayBit => exact Laws.DecodeEncode.delayBit
  | delayHalf => exact Laws.DecodeEncode.delayHalf
  | delayUs n => exact Laws.DecodeEncode.delayUs n
  | delayMs n => exact Laws.DecodeEncode.delayMs n
  | start => exact Laws.DecodeEncode.start
  | stop => exact Laws.DecodeEncode.stop
  | send v => exact Laws.DecodeEncode.send v
  | recv => exact Laws.DecodeEncode.recv
  | modeentry => exact Laws.DecodeEncode.modeentry
  | msend a v => exact Laws.DecodeEncode.msend a v
  | mrecv a => exact Laws.DecodeEncode.mrecv a

/-- Settles O5: each word is the encoding of its command. -/
theorem writtenWordsDecode : Obligations.WrittenWordsDecode :=
  ⟨encodedCommandsDecode (.setline .sda true) rfl, encodedCommandsDecode (.gdir .int true) rfl,
    encodedCommandsDecode (.delayUs 100#16) rfl, encodedCommandsDecode (.send 0xC1#8) rfl,
    encodedCommandsDecode .modeentry rfl, encodedCommandsDecode (.msend 0xC2#8 0x80#8) rfl,
    encodedCommandsDecode (.mrecv 0xD9#8) rfl, by decide⟩

/-- A word of format N that decodes, where `j` is the command of its opcode. -/
theorem encode_of_decodeN {w : Word} {i j : Instr} {op : BitVec 8} (hop : opField w = op) (hj : j.wellFormed = true)
    (henc : encode j = encodeN op) (h : decodeN j w = .ok i) : i.wellFormed = true ∧ encode i = w := by
  obtain ⟨rfl, hw⟩ := decodeN_ok h
  exact ⟨hj, by rwa [henc, ← hop]⟩

/-- A word of format R that decodes to a command with both operands. -/
theorem encode_of_decodeR {w : Word} {i : Instr} {op : BitVec 8} {accept : Line → Bool} {cmd : Line → Bool → Instr}
    (hop : opField w = op) (hwf : ∀ l v, accept l = true → (cmd l v).wellFormed = true)
    (henc : ∀ l v, encode (cmd l v) = encodeR op l v) (h : decodeR accept (fun l v => .ok (cmd l v)) w = .ok i) :
    i.wellFormed = true ∧ encode i = w := by
  obtain ⟨l, hl, hi, hw⟩ := decodeR_ok h
  cases hi
  exact ⟨hwf l _ hl, by rwa [henc, ← hop]⟩

/-- A word of format R that decodes to a sample, whose V is 0 (R85). -/
theorem encode_of_decodeR_sample {w : Word} {i : Instr} {op : BitVec 8} {accept : Line → Bool} {cmd : Line → Instr}
    (hop : opField w = op) (hwf : ∀ l, accept l = true → (cmd l).wellFormed = true)
    (henc : ∀ l, encode (cmd l) = encodeR op l false) (h : decodeR accept (decodeSample cmd) w = .ok i) :
    i.wellFormed = true ∧ encode i = w := by
  obtain ⟨l, hl, hi, hw⟩ := decodeR_ok h
  obtain ⟨hv, rfl⟩ := decodeSample_ok hi
  exact ⟨hwf l hl, by rwa [henc, ← hop, ← hv]⟩

/-- Settles O2: at each opcode, the word is put together again from the fields the decoder read. -/
theorem decodedWordsAreEncodings : Obligations.DecodedWordsAreEncodings := by
  intro w i h
  rcases decode_cases w with ⟨hop, hd⟩ | ⟨hop, hd⟩ | ⟨hop, hd⟩ | ⟨hop, hd⟩ | ⟨hop, hd⟩ | ⟨hop, hd⟩ | ⟨hop, hd⟩ |
    ⟨hop, hd⟩ | ⟨hop, hd⟩ | ⟨hop, hd⟩ | ⟨hop, hd⟩ | ⟨hop, hd⟩ | ⟨hop, hd⟩ | ⟨hop, hd⟩ | ⟨hop, hd⟩ <;> rw [hd] at h
  · exact encode_of_decodeR (cmd := .setline) hop (fun _ _ hl => hl) (fun _ _ => rfl) h
  · exact encode_of_decodeR_sample (cmd := .getline) hop (fun _ hl => hl) (fun _ => rfl) h
  · exact encode_of_decodeN hop rfl rfl h
  · exact encode_of_decodeR hop (fun _ _ _ => rfl) (fun _ _ => rfl) h
  · exact encode_of_decodeR hop (fun _ _ _ => rfl) (fun _ _ => rfl) h
  · exact encode_of_decodeR_sample hop (fun _ _ => rfl) (fun _ => rfl) h
  · exact decodeDelay_ok hop h
  · exact encode_of_decodeN hop rfl rfl h
  · exact encode_of_decodeN hop rfl rfl h
  · exact decodeSend_ok hop h
  · exact encode_of_decodeN hop rfl rfl h
  · exact encode_of_decodeN hop rfl rfl h
  · exact decodeMsend_ok hop h
  · exact decodeMrecv_ok hop h
  · cases h

/-- The decoder accepts exactly the encodings. -/
theorem decode_eq_ok_iff (w : Word) (i : Instr) : decode w = .ok i ↔ i.wellFormed = true ∧ encode i = w :=
  ⟨decodedWordsAreEncodings w i, fun ⟨hwf, hw⟩ => hw ▸ encodedCommandsDecode i hwf⟩

/-! ### The rows of the opcode map -/

theorem append_eq_append_iff {m n : Nat} {x x' : BitVec m} {y y' : BitVec n} : x ++ y = x' ++ y' ↔ x = x' ∧ y = y' := by
  refine ⟨fun h => ?_, fun ⟨hx, hy⟩ => hx ▸ hy ▸ rfl⟩
  have hx : x = x' :=
    calc x = (x ++ y).extractLsb' n m := BitVec.extractLsb'_append_eq_left.symm
      _ = (x' ++ y').extractLsb' n m := by rw [h]
      _ = x' := BitVec.extractLsb'_append_eq_left
  subst hx
  exact ⟨rfl, (BitVec.append_right_inj x).1 h⟩

theorem encodeI_inj {op op' u u' : BitVec 8} {a a' b b' : Byte} :
    encodeI op u a b = encodeI op' u' a' b' ↔ op = op' ∧ u = u' ∧ a = a' ∧ b = b' := by
  refine (append_eq_append_iff (x := op ++ u ++ a)).trans ?_
  rw [append_eq_append_iff, append_eq_append_iff, and_assoc, and_assoc]

/-- A count is two bytes, the higher first (30_encoding.md R83). -/
theorem encodeImm_of_bytes (op u : BitVec 8) (a b : Byte) : encodeImm op u (a ++ b) = encodeI op u a b := by
  rw [← BitVec.toNat_inj, toNat_encodeImm, toNat_encodeI, toNat_append_eq]
  omega

theorem encodeImm_bytes (op u : BitVec 8) (imm : BitVec 16) :
    encodeI op u (imm.extractLsb' 8 8) (imm.extractLsb' 0 8) = encodeImm op u imm := by
  rw [← BitVec.toNat_inj, toNat_encodeI, toNat_encodeImm, toNat_extract_eq, toNat_extract_eq]
  omega

/-- A word of format R with its reserved bits as they are (30_encoding.md R82). -/
def formatR (op : BitVec 8) (hi : BitVec 6) (line : BitVec 2) (lo : BitVec 15) (v : BitVec 1) : Word :=
  op ++ hi ++ line ++ lo ++ v

theorem encodeR_eq_formatR (op : BitVec 8) (l : Line) (v : Bool) :
    encodeR op l v = formatR op 0 (fieldOfLine l) 0 (fieldOfFlag v) := rfl

theorem formatR_inj {op op' : BitVec 8} {hi hi' : BitVec 6} {line line' : BitVec 2} {lo lo' : BitVec 15} {v v' : BitVec 1} :
    formatR op hi line lo v = formatR op' hi' line' lo' v' ↔ op = op' ∧ hi = hi' ∧ line = line' ∧ lo = lo' ∧ v = v' := by
  refine (append_eq_append_iff (x := op ++ hi ++ line ++ lo)).trans ?_
  rw [append_eq_append_iff, append_eq_append_iff, append_eq_append_iff, and_assoc, and_assoc, and_assoc]

/-- Every word in the fields of format R. -/
theorem formatR_fields (w : Word) :
    formatR (opField w) (w.extractLsb' 18 6) (lineField w) (w.extractLsb' 1 15) (fieldOfFlag (vField w)) = w := by
  rw [← BitVec.toNat_inj, formatR]
  simp only [toNat_append_eq, toNat_extract_eq, toNat_opField, toNat_lineField, fieldOfFlag, BitVec.toNat_ofBool, toNat_vField]
  omega

/-- A mask acts on each byte. -/
theorem and_encodeI (w : Word) (opMask uMask : BitVec 8) (aMask bMask : Byte) : w &&& encodeI opMask uMask aMask bMask =
    encodeI (opField w &&& opMask) (uField w &&& uMask) (aField w &&& aMask) (bField w &&& bMask) := by
  conv_lhs => rw [← encodeI_fields w]
  refine (BitVec.and_append (x₁ := opField w ++ uField w ++ aField w)).trans ?_
  rw [BitVec.and_append, BitVec.and_append]
  rfl

/-- A mask acts on each field. -/
theorem and_formatR (w : Word) (opMask : BitVec 8) (hiMask : BitVec 6) (lineMask : BitVec 2) (loMask : BitVec 15)
    (vMask : BitVec 1) : w &&& formatR opMask hiMask lineMask loMask vMask =
      formatR (opField w &&& opMask) (w.extractLsb' 18 6 &&& hiMask) (lineField w &&& lineMask)
        (w.extractLsb' 1 15 &&& loMask) (fieldOfFlag (vField w) &&& vMask) := by
  conv_lhs => rw [← formatR_fields w]
  refine (BitVec.and_append (x₁ := opField w ++ w.extractLsb' 18 6 ++ lineField w ++ w.extractLsb' 1 15)).trans ?_
  rw [BitVec.and_append, BitVec.and_append, BitVec.and_append]
  rfl

/-- The mask of a field that must be 0, or of an operand. -/
def zeroMask (n : Nat) (zero : Bool) : BitVec n := bif zero then BitVec.allOnes n else 0

theorem and_zeroMask {n : Nat} {x : BitVec n} {zero : Bool} : x &&& zeroMask n zero = 0 ↔ (zero = true → x = 0) := by
  cases zero <;> simp [zeroMask]

/-- A row of format R (R82, R87): SETLINE and GETLINE accept LINE 0 and 1 only, so their mask holds LINE's high bit; V is an
operand or 0. -/
def rowR (op : BitVec 8) (busOnly vZero : Bool) : OpcodeRow :=
  ⟨formatR (BitVec.allOnes 8) (BitVec.allOnes 6) (bif busOnly then 2#2 else 0#2) (BitVec.allOnes 15) (zeroMask 1 vZero),
    formatR op 0 0 0 0, !busOnly⟩

/-- A row of format I, or of format N (R81, R83, R87): U is fixed, A and B are operands or 0. -/
def rowI (op u : BitVec 8) (aZero bZero : Bool) : OpcodeRow :=
  ⟨encodeI (BitVec.allOnes 8) (BitVec.allOnes 8) (zeroMask 8 aZero) (zeroMask 8 bZero), encodeI op u 0 0, false⟩

/-- The masks and patterns of R87, by format. -/
theorem opcodeRows_eq : opcodeRows =
    [rowR 0x01 true false, rowR 0x02 true true, rowI 0x03 0 true true, rowR 0x04 false false, rowR 0x05 false false,
      rowR 0x06 false true, rowI 0x10 0 true true, rowI 0x10 1 true true, rowI 0x10 2 false false, rowI 0x10 3 false false,
      rowI 0x20 0 true true, rowI 0x21 0 true true, rowI 0x22 0 true false, rowI 0x23 0 true true, rowI 0x30 0 true true,
      rowI 0x40 0 false false, rowI 0x41 0 false true] := by
  decide

/-- The words of a row of format I. -/
theorem rowI_hits_iff {op u : BitVec 8} {aZero bZero : Bool} {w : Word} : (rowI op u aZero bZero).hits w = true ↔
    ∃ a b, encodeI op u a b = w ∧ (aZero = true → a = 0) ∧ (bZero = true → b = 0) := by
  have hhits : (rowI op u aZero bZero).hits w = true ↔ opField w = op ∧ uField w = u ∧
      (aZero = true → aField w = 0) ∧ (bZero = true → bField w = 0) := by
    simp only [OpcodeRow.hits, rowI, and_encodeI, Bool.not_false, Bool.true_or, Bool.and_true, beq_iff_eq, encodeI_inj,
      BitVec.and_allOnes, and_zeroMask]
  rw [hhits]
  constructor
  · rintro ⟨rfl, rfl, ha, hb⟩
    exact ⟨aField w, bField w, encodeI_fields w, ha, hb⟩
  · rintro ⟨a, b, rfl, ha, hb⟩
    simpa using ⟨ha, hb⟩

/-- R84 as the masks and the LINE test of the rows have it. -/
theorem lineTest_iff {f : BitVec 2} {busOnly : Bool} :
    (f &&& (bif busOnly then 2#2 else 0#2) = 0 ∧ (!!busOnly || f != 3#2) = true) ↔
      ∃ l, fieldOfLine l = f ∧ (busOnly = true → l.onBus = true) := by
  constructor
  · rintro ⟨hmask, htest⟩
    cases hl : lineOfField f with
    | none =>
      rw [lineOfField_eq_none.1 hl] at hmask htest
      cases busOnly with
      | false => exact absurd htest (by decide)
      | true => exact absurd hmask (by decide)
    | some l =>
      refine ⟨l, (lineOfField_eq_some.1 hl).symm, ?_⟩
      rintro rfl
      rw [lineOfField_eq_some.1 hl] at hmask
      cases l with
      | scl => rfl
      | sda => rfl
      | int => exact absurd hmask (by decide)
  · rintro ⟨l, rfl, hbus⟩
    cases l with
    | scl => cases busOnly <;> decide
    | sda => cases busOnly <;> decide
    | int =>
      cases busOnly with
      | false => decide
      | true => exact absurd (hbus rfl) (by decide)

theorem fieldOfFlag_eq_zero {v : Bool} : fieldOfFlag v = 0 ↔ v = false := by cases v <;> decide

/-- The words of a row of format R. -/
theorem rowR_hits_iff {op : BitVec 8} {busOnly vZero : Bool} {w : Word} : (rowR op busOnly vZero).hits w = true ↔
    ∃ l v, encodeR op l v = w ∧ (busOnly = true → l.onBus = true) ∧ (vZero = true → v = false) := by
  have hhits : (rowR op busOnly vZero).hits w = true ↔ opField w = op ∧ w.extractLsb' 18 6 = 0 ∧ w.extractLsb' 1 15 = 0 ∧
      (∃ l, fieldOfLine l = lineField w ∧ (busOnly = true → l.onBus = true)) ∧ (vZero = true → vField w = false) := by
    simp only [OpcodeRow.hits, rowR, and_formatR, Bool.and_eq_true, beq_iff_eq, formatR_inj, BitVec.and_allOnes, and_zeroMask,
      ← lineTest_iff, fieldOfFlag_eq_zero]
    tauto
  rw [hhits]
  constructor
  · rintro ⟨rfl, hhi, hlo, ⟨l, hl, hbus⟩, hv⟩
    exact ⟨l, vField w, (by rw [encodeR_eq_formatR, hl, ← hhi, ← hlo]; exact formatR_fields w), hbus, hv⟩
  · rintro ⟨l, v, rfl, hbus, hv⟩
    have hres := reservedRClear_encodeR op l v
    rw [reservedRClear, Bool.and_eq_true, beq_iff_eq, beq_iff_eq] at hres
    obtain ⟨hhi, hlo⟩ := hres
    exact ⟨opField_encodeR op l v, hhi, hlo, ⟨l, (lineField_encodeR op l v).symm, hbus⟩, by rwa [vField_encodeR]⟩

/-- The row of a command hits its word. -/
theorem row_hits_encode {i : Instr} (h : i.wellFormed = true) :
    ∃ r, opcodeRows[rowIndex i]? = some r ∧ r.hits (encode i) = true := by
  rw [opcodeRows_eq]
  cases i with
  | setline l v => exact ⟨_, rfl, rowR_hits_iff.2 ⟨l, v, rfl, fun _ => h, nofun⟩⟩
  | getline l => exact ⟨_, rfl, rowR_hits_iff.2 ⟨l, false, rfl, fun _ => h, fun _ => rfl⟩⟩
  | gdir l v => exact ⟨_, rfl, rowR_hits_iff.2 ⟨l, v, rfl, nofun, nofun⟩⟩
  | gset l v => exact ⟨_, rfl, rowR_hits_iff.2 ⟨l, v, rfl, nofun, nofun⟩⟩
  | gget l => exact ⟨_, rfl, rowR_hits_iff.2 ⟨l, false, rfl, nofun, fun _ => rfl⟩⟩
  | delayUs n => exact ⟨_, rfl, rowI_hits_iff.2 ⟨_, _, encodeImm_bytes _ _ n, nofun, nofun⟩⟩
  | delayMs n => exact ⟨_, rfl, rowI_hits_iff.2 ⟨_, _, encodeImm_bytes _ _ n, nofun, nofun⟩⟩
  | send v => exact ⟨_, rfl, rowI_hits_iff.2 ⟨0, v, rfl, fun _ => rfl, nofun⟩⟩
  | msend a v => exact ⟨_, rfl, rowI_hits_iff.2 ⟨a, v, rfl, nofun, nofun⟩⟩
  | mrecv a => exact ⟨_, rfl, rowI_hits_iff.2 ⟨a, 0, rfl, nofun, fun _ => rfl⟩⟩
  | _ => exact ⟨_, rfl, rowI_hits_iff.2 ⟨0, 0, by decide, fun _ => rfl, fun _ => rfl⟩⟩

/-- A row without an operand hits the one word of its command. -/
theorem encode_of_fixed_row_hits {op u : BitVec 8} {w : Word} {i : Instr} (henc : encode i = encodeI op u 0 0)
    (h : (rowI op u true true).hits w = true) : encode i = w := by
  obtain ⟨a, b, hw, ha, hb⟩ := rowI_hits_iff.1 h
  rwa [ha rfl, hb rfl, ← henc] at hw

/-- A row hits the words of its commands alone. -/
theorem encode_of_row_hits {k : Nat} {r : OpcodeRow} {w : Word} (hk : opcodeRows[k]? = some r) (h : r.hits w = true) :
    ∃ i, i.wellFormed = true ∧ rowIndex i = k ∧ encode i = w := by
  rw [opcodeRows_eq] at hk
  match k, hk with
  | 0, rfl =>
    obtain ⟨l, v, hw, hl, -⟩ := rowR_hits_iff.1 h
    exact ⟨.setline l v, hl rfl, rfl, hw⟩
  | 1, rfl =>
    obtain ⟨l, v, hw, hl, hv⟩ := rowR_hits_iff.1 h
    exact ⟨.getline l, hl rfl, rfl, by rwa [hv rfl] at hw⟩
  | 2, rfl => exact ⟨.waitclk, rfl, rfl, encode_of_fixed_row_hits (by decide) h⟩
  | 3, rfl =>
    obtain ⟨l, v, hw, -, -⟩ := rowR_hits_iff.1 h
    exact ⟨.gdir l v, rfl, rfl, hw⟩
  | 4, rfl =>
    obtain ⟨l, v, hw, -, -⟩ := rowR_hits_iff.1 h
    exact ⟨.gset l v, rfl, rfl, hw⟩
  | 5, rfl =>
    obtain ⟨l, v, hw, -, hv⟩ := rowR_hits_iff.1 h
    exact ⟨.gget l, rfl, rfl, by rwa [hv rfl] at hw⟩
  | 6, rfl => exact ⟨.delayBit, rfl, rfl, encode_of_fixed_row_hits (by decide) h⟩
  | 7, rfl => exact ⟨.delayHalf, rfl, rfl, encode_of_fixed_row_hits (by decide) h⟩
  | 8, rfl =>
    obtain ⟨a, b, hw, -, -⟩ := rowI_hits_iff.1 h
    exact ⟨.delayUs (a ++ b), rfl, rfl, (encodeImm_of_bytes _ _ a b).trans hw⟩
  | 9, rfl =>
    obtain ⟨a, b, hw, -, -⟩ := rowI_hits_iff.1 h
    exact ⟨.delayMs (a ++ b), rfl, rfl, (encodeImm_of_bytes _ _ a b).trans hw⟩
  | 10, rfl => exact ⟨.start, rfl, rfl, encode_of_fixed_row_hits (by decide) h⟩
  | 11, rfl => exact ⟨.stop, rfl, rfl, encode_of_fixed_row_hits (by decide) h⟩
  | 12, rfl =>
    obtain ⟨a, b, hw, ha, -⟩ := rowI_hits_iff.1 h
    exact ⟨.send b, rfl, rfl, by rwa [ha rfl] at hw⟩
  | 13, rfl => exact ⟨.recv, rfl, rfl, encode_of_fixed_row_hits (by decide) h⟩
  | 14, rfl => exact ⟨.modeentry, rfl, rfl, encode_of_fixed_row_hits (by decide) h⟩
  | 15, rfl =>
    obtain ⟨a, b, hw, -, -⟩ := rowI_hits_iff.1 h
    exact ⟨.msend a b, rfl, rfl, hw⟩
  | 16, rfl =>
    obtain ⟨a, b, hw, -, hb⟩ := rowI_hits_iff.1 h
    exact ⟨.mrecv a, rfl, rfl, by rwa [hb rfl] at hw⟩
  | k + 17, hk => cases hk

/-- Settles O3: the words a row hits are the encodings of its commands, which are the words that decode to them. -/
theorem decoderFollowsOpcodeMap : Obligations.DecoderFollowsOpcodeMap := by
  have hmap : ∀ (w : Word) (i : Instr), decode w = .ok i → ∃ r, opcodeRows[rowIndex i]? = some r ∧ r.hits w = true := by
    intro w i h
    obtain ⟨hwf, rfl⟩ := (decode_eq_ok_iff w i).1 h
    exact row_hits_encode hwf
  have hsearch : ∀ (w : Word) (k : Nat) (r : OpcodeRow), opcodeRows[k]? = some r → r.hits w = true →
      ∃ i, decode w = .ok i ∧ rowIndex i = k := by
    intro w k r hk h
    obtain ⟨i, hwf, hi, hw⟩ := encode_of_row_hits hk h
    exact ⟨i, (decode_eq_ok_iff w i).2 ⟨hwf, hw⟩, hi⟩
  refine ⟨hmap, hsearch, fun w => ⟨fun hnone => ?_, ?_⟩⟩
  · cases hd : decode w with
    | error why => exact ⟨why, rfl⟩
    | ok i =>
      obtain ⟨r, hr, hhit⟩ := hmap w i hd
      exact absurd hhit (Bool.eq_false_iff.1 (hnone r (List.mem_of_getElem? hr)))
  · rintro ⟨why, herr⟩ r hr
    rw [Bool.eq_false_iff]
    intro hhit
    obtain ⟨k, hk⟩ := List.getElem?_of_mem hr
    obtain ⟨i, hi, -⟩ := hsearch w k r hk hhit
    cases herr.symm.trans hi

/-! ### The ILLEGAL words -/

/-- R89's list, one format and opcode at a time. -/
theorem decode_error_iff (w : Word) : (∃ why, decode w = .error why) ↔
    (opField w ∉ opcodes) ∨
    (opField w ∈ [0x03#8, 0x20#8, 0x21#8, 0x23#8, 0x30#8] ∧ w.extractLsb' 0 24 ≠ 0#24) ∨
    (opField w ∈ [0x01#8, 0x02#8, 0x04#8, 0x05#8, 0x06#8] ∧ (w.extractLsb' 18 6 ≠ 0#6 ∨ w.extractLsb' 1 15 ≠ 0#15)) ∨
    (opField w ∈ [0x01#8, 0x02#8, 0x04#8, 0x05#8, 0x06#8] ∧ lineField w = 3#2) ∨
    (opField w ∈ [0x01#8, 0x02#8] ∧ lineField w = 2#2) ∨
    (opField w ∈ [0x02#8, 0x06#8] ∧ vField w = true) ∨
    (opField w = 0x10#8 ∧ (4#8 ≤ uField w ∨ (uField w < 2#8 ∧ immField w ≠ 0#16))) ∨
    (opField w = 0x22#8 ∧ (uField w ≠ 0#8 ∨ aField w ≠ 0#8)) ∨
    (opField w = 0x40#8 ∧ uField w ≠ 0#8) ∨
    (opField w = 0x41#8 ∧ (uField w ≠ 0#8 ∨ bField w ≠ 0#8)) := by
  rcases decode_cases w with ⟨hop, hd⟩ | ⟨hop, hd⟩ | ⟨hop, hd⟩ | ⟨hop, hd⟩ | ⟨hop, hd⟩ | ⟨hop, hd⟩ | ⟨hop, hd⟩ |
    ⟨hop, hd⟩ | ⟨hop, hd⟩ | ⟨hop, hd⟩ | ⟨hop, hd⟩ | ⟨hop, hd⟩ | ⟨hop, hd⟩ | ⟨hop, hd⟩ | ⟨hop, hd⟩ <;> rw [hd]
  · rw [decodeR_bus_error (P := False) (by simp)]; simp [hop, opcodes]
  · rw [decodeR_bus_error fun _ => decodeSample_error]; simp [hop, opcodes]
  · rw [decodeN_error]; simp [hop, opcodes]
  · rw [decodeR_any_error (P := False) (by simp)]; simp [hop, opcodes]
  · rw [decodeR_any_error (P := False) (by simp)]; simp [hop, opcodes]
  · rw [decodeR_any_error fun _ => decodeSample_error]; simp [hop, opcodes]
  · rw [decodeDelay_error]; simp [hop, opcodes]
  · rw [decodeN_error]; simp [hop, opcodes]
  · rw [decodeN_error]; simp [hop, opcodes]
  · rw [decodeSend_error]; simp [hop, opcodes]
  · rw [decodeN_error]; simp [hop, opcodes]
  · rw [decodeN_error]; simp [hop, opcodes]
  · rw [decodeMsend_error]; simp [hop, opcodes]
  · rw [decodeMrecv_error]; simp [hop, opcodes]
  · simp [hop]

/-- A rejected word completes with CODE = ILLEGAL, whatever was rejected (30_encoding.md R89). -/
theorem execWord_of_reject {w : Word} {why : Reject} (h : decode w = .error why) (s : State) :
    execWord w s = .next (runCommand illegalCommand s) := by rw [execWord, h]

/-- The ILLEGAL completion writes CODE and BUSY; besides, time and the Peer go on. -/
theorem runCommand_illegal (s : State) : runCommand illegalCommand s =
    (s.withEnv (runCommand illegalCommand s)).ended .illegal ∧ s.now ≤ (runCommand illegalCommand s).now :=
  finish_spec .illegal (s.setBusy true)

/-- Settles O4: R89's list is `decode_error_iff`, and every rejected word runs the ILLEGAL completion. -/
theorem illegalWordsOnlyWriteCode : Obligations.IllegalWordsOnlyWriteCode := by
  refine ⟨decode_error_iff, fun w why s h => ?_, fun program s w why hline hb h => ?_⟩
  · exact ⟨_, execWord_of_reject h s, runCommand_illegal s⟩
  · refine ⟨_, ?_, runCommand_illegal (s.setCmd w)⟩
    rw [stepOf_of_lineOf_cmd hline, writeCmd_idle hb, execWord_of_reject h]
    rfl

end Sys2Proof
end

section
/-!
HOST.IF (30_encoding.md R93): what each field of the word read from RES is worth to a condition, and the branch.
-/

namespace Sys2Proof.Machine

/-! ### The fields of RES a condition tests -/

theorem toNat_extract_one (w : Word) (k : Nat) : (w.extractLsb' k 1).toNat = (w.getLsbD k).toNat := by
  rw [toNat_extract_eq, BitVec.getLsbD, Nat.testBit_eq_decide_div_mod_eq]
  rcases Nat.mod_two_eq_zero_or_one (w.toNat / 2 ^ k) with h | h <;> simp [h]

/-- The fields of several bits, and those of one bit (10_state.md R32). -/
theorem field_of_resWord (free : Word) (s : State) :
    ResSel.of (resWord free s) .code = (codeAsRead free s).toNat ∧ ResSel.of (resWord free s) .data = (dataAsRead free s).toNat ∧
    ResSel.of (resWord free s) .attempts = (attemptsAsRead free s).toNat := by
  simp only [ResSel.of, resWord_fields, and_self]

theorem flag_of_resWord (free : Word) (s : State) :
    ResSel.of (resWord free s) .ack = (ackAsRead free s).toNat ∧ ResSel.of (resWord free s) .lvl = (lvlAsRead free s).toNat ∧
    ResSel.of (resWord free s) .busy = s.res.busy.toNat ∧ ResSel.of (resWord free s) .precise = s.precise.toNat ∧
    ResSel.of (resWord free s) .irqoff = s.irqOff.toNat := by
  simp only [ResSel.of, toNat_extract_one, resWord_bits, and_self]

/-- A test of a field compares its number (30_encoding.md R93). -/
theorem holds_is {w : Word} {field : ResSel} {x : Nat} (h : field.of w = x) (v : Nat) :
    (Cond.is field v).holds w = (x == v) := by rw [Cond.holds, h]

section Written

variable {s : State} (hb : s.res.busy = false) (free : Word)
include hb

/-- A field that has been written reads as it was written while BUSY = 0 (10_state.md R38, R48). -/
theorem ackAsRead_written (h : s.res.ack.written = true) : ackAsRead free s = s.res.ack.value := by
  simp [ackAsRead, hb, h]

theorem lvlAsRead_written (h : s.res.lvl.written = true) : lvlAsRead free s = s.res.lvl.value := by
  simp [lvlAsRead, hb, h]

theorem dataAsRead_written (h : s.res.data.written = true) : dataAsRead free s = s.res.data.value := by
  simp [dataAsRead, hb, h]

theorem attemptsAsRead_written (h : s.res.attempts.written = true) : attemptsAsRead free s = s.res.attempts.value := by
  simp [attemptsAsRead, hb, h]

end Written

/-- The numbers of the codes (00_scope.md R8). -/
theorem code_number {code : Code} {m : Nat}
    (h : (code, m) ∈ [(Code.ok, 0), (.timeout, 1), (.nak, 2), (.illegal, 3)]) : code.bits.toNat = m := by
  simp only [List.mem_cons, Prod.mk.injEq, List.not_mem_nil, or_false] at h
  rcases h with ⟨rfl, rfl⟩ | ⟨rfl, rfl⟩ | ⟨rfl, rfl⟩ | ⟨rfl, rfl⟩ <;> rfl

/-! ### The branch -/

/-- `HOST.IF` while BUSY = 0 reads RES once and goes to one of two lines (log 22). -/
theorem hostIf_idle {s : State} (h : s.res.busy = false) (c : Cond) (n : Nat) : hostIf c n s =
    .next ((readRes s).goto (if c.holds (resWord s.nextDraw.res (s.pass 0)) then n else s.host.pos + 1)) := by
  rw [hostIf, h, if_neg Bool.false_ne_true]
  split <;> rfl

/-- Settles O15: the word read is `resWord` of the block at that instant, and the conditions test its fields. -/
theorem hostIfBranches : Obligations.HostIfBranches := by
  intro program s c n hline hb
  have hidle : (s.pass 0).res.busy = false := hb
  obtain ⟨hcode, hdata, hattempts⟩ := field_of_resWord s.nextDraw.res (s.pass 0)
  obtain ⟨hack, hlvl, hbusy, hprecise, hirq⟩ := flag_of_resWord s.nextDraw.res (s.pass 0)
  rw [codeAsRead_idle hidle, State.pass_res] at hcode
  rw [hidle] at hbusy
  refine ⟨_, resWord s.nextDraw.res (s.pass 0), (stepOf_of_lineOf_ifGoto hline).trans (hostIf_idle hb c n), rfl,
    s.now_le_pass 0, rfl, rfl, holds_is hcode, fun code m hm hc => ?_, holds_is hbusy, holds_is hprecise, holds_is hirq,
    fun hw => ?_, fun hw => ?_, fun hw => ?_, fun hw => ?_, fun a b => ⟨rfl, rfl, rfl⟩⟩
  · rw [hc, code_number hm] at hcode
    exact holds_is hcode
  · rw [ackAsRead_written hidle _ hw] at hack
    exact holds_is hack
  · rw [lvlAsRead_written hidle _ hw] at hlvl
    exact holds_is hlvl
  · rw [dataAsRead_written hidle _ hw] at hdata
    exact holds_is hdata
  · rw [attemptsAsRead_written hidle _ hw] at hattempts
    exact holds_is hattempts

end Sys2Proof.Machine
end

section
/-!
The assembler (30_encoding.md R91) and the pseudo-instructions (R92): when an operand is in range, the words a line gives, and that
every command it stands for is encodable.
-/

namespace Sys2Proof.Machine

/-! ### Operands -/

theorem whenOk_eq_some {α : Type} {ok : Bool} {x y : α} : whenOk ok x = some y ↔ ok = true ∧ x = y := by
  cases ok <;> simp [whenOk]

theorem byteOperand_of_lt {n : Nat} (h : n < 256) : byteOperand n = some (BitVec.ofNat 8 n) := by
  simp [byteOperand, whenOk, h]

theorem byteOperand_of_gt {n : Nat} (h : 255 < n) : byteOperand n = none := by
  simp [byteOperand, whenOk, show ¬n < 256 by omega]

theorem countOperand_of_lt {n : Nat} (h : n < 65536) : countOperand n = some (BitVec.ofNat 16 n) := by
  simp [countOperand, whenOk, h]

theorem countOperand_of_gt {n : Nat} (h : 65535 < n) : countOperand n = none := by
  simp [countOperand, whenOk, show ¬n < 65536 by omega]

/-! ### Encodable commands -/

/-- A line that asks for a bus line is assembled only on one (R84, R91). -/
theorem assemble_wellFormed {a : Asm} {is : List Instr} (h : assemble a = some is) : is.all Instr.wellFormed = true := by
  cases a with
  | setline l _ | getline l | release l | low l =>
    obtain ⟨hl, rfl⟩ := whenOk_eq_some.1 h
    simpa [Instr.wellFormed] using hl
  | gset l v =>
    obtain ⟨-, rfl⟩ := whenOk_eq_some.1 h
    rfl
  | delayUs n | delayMs n | send n | mrecv n | rreg1 n =>
    obtain ⟨_, -, rfl⟩ := Option.map_eq_some_iff.1 h
    rfl
  | msend a b | wreg1 a b =>
    obtain ⟨_, -, h⟩ := Option.bind_eq_some_iff.1 h
    obtain ⟨_, -, rfl⟩ := Option.map_eq_some_iff.1 h
    rfl
  | _ =>
    obtain rfl := Option.some.inj h
    rfl

/-! ### Words of operands given as numbers -/

/-- Format I with U = 0 (R83). -/
theorem encodeI_ofNat (op : BitVec 8) {a b : Nat} (ha : a < 256) (hb : b < 256) :
    encodeI op 0#8 (BitVec.ofNat 8 a) (BitVec.ofNat 8 b) = encodeN op + BitVec.ofNat 32 (a * 256 + b) := by
  have hop := op.isLt
  rw [← BitVec.toNat_inj, BitVec.toNat_add, toNat_encodeI, toNat_encodeN]
  simp only [BitVec.toNat_ofNat]
  omega

/-- Format I with a count (R83). -/
theorem encodeImm_ofNat (op u : BitVec 8) {n : Nat} (hn : n < 65536) :
    encodeImm op u (BitVec.ofNat 16 n) = encodeImm op u 0#16 + BitVec.ofNat 32 n := by
  have hop := op.isLt
  have hu := u.isLt
  rw [← BitVec.toNat_inj, BitVec.toNat_add, toNat_encodeImm, toNat_encodeImm]
  simp only [BitVec.toNat_ofNat]
  omega

theorem encode_send_ofNat {b : Nat} (h : b < 256) :
    encode (.send (BitVec.ofNat 8 b)) = 0x22000000#32 + BitVec.ofNat 32 b := by
  have hw := encodeI_ofNat 0x22#8 (show 0 < 256 by decide) h
  rwa [Nat.zero_mul, Nat.zero_add] at hw

theorem encode_mrecv_ofNat {a : Nat} (h : a < 256) :
    encode (.mrecv (BitVec.ofNat 8 a)) = 0x41000000#32 + BitVec.ofNat 32 (a * 256) := by
  have hw := encodeI_ofNat 0x41#8 h (show 0 < 256 by decide)
  rwa [Nat.add_zero] at hw

theorem encode_msend_ofNat {a b : Nat} (ha : a < 256) (hb : b < 256) :
    encode (.msend (BitVec.ofNat 8 a) (BitVec.ofNat 8 b)) = 0x40000000#32 + BitVec.ofNat 32 (a * 256 + b) :=
  encodeI_ofNat 0x40#8 ha hb

theorem encode_delayUs_ofNat {n : Nat} (h : n < 65536) :
    encode (.delayUs (BitVec.ofNat 16 n)) = 0x10020000#32 + BitVec.ofNat 32 n := encodeImm_ofNat 0x10#8 2#8 h

theorem encode_delayMs_ofNat {n : Nat} (h : n < 65536) :
    encode (.delayMs (BitVec.ofNat 16 n)) = 0x10030000#32 + BitVec.ofNat 32 n := encodeImm_ofNat 0x10#8 3#8 h

/-! ### The lines -/

theorem encode_frame_commands :
    encode .start = 0x20000000#32 ∧ encode .stop = 0x21000000#32 ∧ encode .recv = 0x23000000#32 := ⟨rfl, rfl, rfl⟩

/-- Settles O6: operands in range give the words, operands out of range give none, and every command is well-formed. -/
theorem assembledCommandsDecode : Obligations.AssembledCommandsDecode := by
  refine ⟨fun a is h i hi => encodedCommandsDecode i (List.all_eq_true.1 (assemble_wellFormed h) i hi), ?_, rfl, rfl, rfl, rfl,
    rfl, rfl, rfl, rfl, fun n hn => ?_, fun a ha => ?_, fun b => rfl, rfl, rfl, rfl, fun l n hn => ?_, fun n hn => ?_,
    fun b hb => ?_⟩
  · rintro l n (⟨rfl, rfl⟩ | ⟨rfl, rfl⟩ | ⟨rfl, rfl⟩) <;> decide
  · simp [assembleWords, assemble, countOperand_of_lt hn, encode_delayUs_ofNat hn, encode_delayMs_ofNat hn]
  · obtain ⟨hstart, hstop, hrecv⟩ := encode_frame_commands
    refine ⟨?_, ?_, ?_, fun b hb => ⟨?_, ?_⟩⟩
    · simp [assembleWords, assemble, byteOperand_of_lt ha, encode_send_ofNat ha]
    · simp [assembleWords, assemble, byteOperand_of_lt ha, encode_mrecv_ofNat ha]
    · simp [assembleWords, assemble, byteOperand_of_lt ha, encode_send_ofNat ha, hstart, hstop, hrecv]
    · simp [assembleWords, assemble, byteOperand_of_lt ha, byteOperand_of_lt hb, encode_msend_ofNat ha hb]
    · simp [assembleWords, assemble, byteOperand_of_lt ha, byteOperand_of_lt hb, encode_send_ofNat ha, encode_send_ofNat hb, hstart,
        hstop]
  · simp [assemble, whenOk, show ¬n < 2 by omega]
  · simp [assemble, countOperand_of_gt hn]
  · simp [assemble, byteOperand_of_gt hb]

end Sys2Proof.Machine
end

section
/-!
The raw bus commands (41_bus_primitives.md R110 to R112, R120 to R125): how a command ends, what SETLINE, GDIR and GSET write, and
what a sample leaves.
-/

namespace Sys2Proof.Machine

/-! ### The end of a command -/

/-- A command that ends with a code its program `p` decides: CODE and BUSY are written after `p`, and time and the Peer go on
(10_state.md R33, R36). -/
theorem exec_bind_finish {α : Type} {i : Instr} {p : Prog α} {code : α → Code} (h : command i = p.bind fun a => finish (code a))
    {s u : State} {a : α} (hp : p.run (s.setBusy true) = (u, a)) :
    ∃ t, exec i s = .next t ∧ t = (u.withEnv t).ended (code a) ∧ u.now ≤ t.now := by
  have hrun : runCommand (command i) s = ((finish (code a)).run u).1 := by rw [runCommand, h, Prog.run_bind, hp]
  exact ⟨_, (exec_eq_command i s).trans (by rw [hrun]), finish_spec (code a) u⟩

/-! ### SETLINE and GETLINE -/

theorem command_setline_onBus {l : Line} (hl : l.onBus = true) (b : Bool) :
    command (.setline l b) = (setLine l b).bind fun _ => finish .ok := by
  rw [command, setlineCommand, lineAccepted, hl, if_pos rfl, Prog.andThen]

/-- SetLine on a bus line writes the pin it names, the history, time and the Peer, and nothing else (R110). -/
theorem SetLineFacts.eq {l : Line} {b : Bool} {s t : State} {evs : List Event} (h : SetLineFacts l b s evs t)
    (hl : l.onBus = true) : t = { (s.setPin l (linePin b (s.pin l))).withEnv t with history := evs.reverse ++ s.history } := by
  refine h.frame.eq.trans ?_
  rw [h.scl, h.sda, h.acc, h.bitIdx, h.wait.1, h.wait.2, h.history]
  cases l with
  | int => cases hl
  | scl | sda => rfl

/-- SETLINE on a bus line writes what SetLine writes, and ends with OK (R111). -/
theorem exec_setline_onBus {l : Line} (hl : l.onBus = true) (b : Bool) (s : State) : ∃ t evs u,
    exec (.setline l b) s = .next t ∧ SetLineFacts l b (s.setBusy true) evs u ∧ u.now ≤ t.now ∧
    t = (({ s.setPin l (linePin b (s.pin l)) with history := evs.reverse ++ s.history } : State).withEnv t).ended .ok := by
  obtain ⟨evs, h⟩ := setLine_facts l b (s.setBusy true) hl
  obtain ⟨t, hexec, ht, hnow⟩ := exec_bind_finish (command_setline_onBus hl b) (s := s) rfl
  refine ⟨t, evs, _, hexec, h, hnow, ht.trans ((congrArg (fun v => (v.withEnv t).ended .ok) (h.eq hl)).trans ?_)⟩
  cases l <;> rfl

/-- Settles O28: the events of SetLine and the pin it leaves. -/
theorem setlineDrivesOrReleases : Obligations.SetlineDrivesOrReleases := by
  intro l s hl
  refine ⟨?_, ?_⟩
  · obtain ⟨t, evs, u, hexec, h, hnow, ht⟩ := exec_setline_onBus hl true s
    obtain ⟨x, y, hx, hxy, hy, rfl⟩ := h.events
    refine ⟨t, y, hexec, hx.trans hxy, hy.trans hnow, ht.trans ?_⟩
    cases l <;> rfl
  · obtain ⟨t, evs, u, hexec, h, hnow, ht⟩ := exec_setline_onBus hl false s
    obtain ⟨x, y, hx, hxy, hy, rfl⟩ := h.events
    refine ⟨t, x, y, hexec, hx, hxy, hy.trans hnow, ht.trans ?_⟩
    have hlatch : ((s.setBusy true).pin l).latch = (s.pin l).latch := by cases l <;> rfl
    rw [hlatch]
    cases (s.pin l).latch <;> rfl

/-- SETLINE and GETLINE on INT complete as a word that names no command does (R111, R112; log 20). -/
theorem exec_illegalCommand {i : Instr} (h : command i = illegalCommand) (s : State) :
    ∃ t, exec i s = .next t ∧ t = (s.withEnv t).ended .illegal ∧ s.now ≤ t.now :=
  exec_bind_finish (p := .done ()) (code := fun _ => .illegal) (u := s.setBusy true) (a := ()) h rfl

/-- Settles O29. -/
theorem intIsNoBusLine : Obligations.IntIsNoBusLine := fun _ s =>
  ⟨exec_illegalCommand rfl s, exec_illegalCommand rfl s⟩

/-! ### GDIR and GSET -/

/-- Settles O31. -/
theorem gdirSetsDirection : Obligations.GdirSetsDirection := by
  intro l b s
  obtain ⟨t, hexec, ht, hnow⟩ := exec_bind_finish (i := .gdir l b) (code := fun _ => .ok)
    (p := perform (.dir l (if b then .input else .output))) rfl (s := s) rfl
  refine ⟨t, (s.pass 0).now, hexec, s.now_le_pass 0, ?_, ht.trans ?_⟩
  · simpa using hnow
  · cases l <;> cases b <;> rfl

/-- Settles O32. -/
theorem gsetWritesLatch : Obligations.GsetWritesLatch := by
  intro l v s
  obtain ⟨t, hexec, ht, hnow⟩ := exec_bind_finish (i := .gset l v) (p := perform (.latch l v)) (code := fun _ => .ok) rfl
    (s := s) rfl
  refine ⟨t, (s.pass 0).now, hexec, s.now_le_pass 0, ?_, ht.trans ?_⟩
  · simpa using hnow
  · cases l <;> rfl

theorem State.level_onBus {l : Line} (hl : l.onBus = true) (s : State) (free : Bool) :
    s.level free l = if s.contends l then free else !((s.pin l).drivesLow || s.peerLow l) := by
  cases l with
  | int => cases hl
  | scl | sda => rfl

/-- The level of a line is a matter of its own pin and of the Peer's pull on it (10_state.md R25, R27). -/
theorem State.level_congr {s t : State} {m : Line} (hpin : s.pin m = t.pin m) (hpeer : s.peerLow m = t.peerLow m) (free : Bool) :
    s.level free m = t.level free m := by
  cases m with
  | int => rw [State.level, State.level, ← State.pin_int, ← State.pin_int, hpin]
  | scl | sda => rw [State.level_onBus rfl, State.level_onBus rfl, State.contends, State.contends, hpin, hpeer]

@[simp] theorem State.peerLow_setPin (l m : Line) (p : Pin) (s : State) : (s.setPin l p).peerLow m = s.peerLow m := by
  cases l <;> cases m <;> rfl

/-- The latch of a released line reaches no level (10_state.md R22, R25). -/
theorem State.level_setPin_latch {s : State} {l : Line} (h : (s.pin l).dir = .input) (v free : Bool) (m : Line) :
    (s.setPin l { s.pin l with latch := v }).level free m = s.level free m := by
  have hpin := State.pin_setPin l m { s.pin l with latch := v } s
  by_cases hm : m = l
  · subst hm
    rw [if_pos rfl] at hpin
    have hdir : ((s.setPin m { s.pin m with latch := v }).pin m).dir = .input := by rw [hpin]; exact h
    cases m with
    | int => rw [level_int_released free h, level_int_released free hdir]
    | scl | sda => rw [level_released free rfl h, level_released free rfl hdir, State.peerLow_setPin]
  · exact State.level_congr (hpin.trans (if_neg hm)) (State.peerLow_setPin l m _ s) free

/-- Settles O33: the level reads the lines and the Peer's drive alone. -/
theorem latchWriteOnInputKeepsWire : Obligations.LatchWriteOnInputKeepsWire := by
  intro l v s t hdir ht free m
  obtain ⟨t', at_, hexec, -, -, heq⟩ := gsetWritesLatch l v s
  obtain rfl := Host.Outcome.next.inj (hexec.symm.trans ht)
  calc t'.level free m
      = ((s.withEnv t').setPin l { (s.withEnv t').pin l with latch := v }).level free m := by
        refine (congrArg (State.level · free m) heq).trans ?_
        cases l <;> cases m <;> rfl
    _ = (s.withEnv t').level free m := State.level_setPin_latch (by cases l <;> exact hdir) v free m

/-! ### GETLINE and GGET -/

/-- A sample records the level, and contention before it, and marks contention (10_state.md R25, R26; log 21). -/
theorem State.sampled_eq (l : Line) (free : Bool) (s : State) : s.sampled l free = { s with
    faultContend := s.faultContend || s.contends l
    history := .sample l (s.level free l) s.now :: ((if s.contends l then [.contend l s.now] else []) ++ s.history) } := by
  ext1 <;> simp

/-- On a bus line GETLINE is GGET (R112, R124). -/
theorem command_getline_onBus {l : Line} (hl : l.onBus = true) : command (.getline l) = command (.gget l) := by
  rw [command, getlineCommand, lineAccepted, hl, if_pos rfl, command, ggetCommand]

/-- Settles O30: the level is written to LVL after the sample. -/
theorem samplesGiveTheLevel : Obligations.SamplesGiveTheLevel := by
  intro i l s hi
  have hcommand : command i = ((perform (.sample l)).bind fun v => perform (.lvl v)).bind fun _ => finish .ok := by
    rcases hi with ⟨rfl, hl⟩ | rfl
    · exact command_getline_onBus hl
    · rfl
  obtain ⟨t, hexec, ht, hnow⟩ := exec_bind_finish (code := fun _ => .ok) hcommand (s := s) rfl
  refine ⟨t, s.pass 0, _, rfl, rfl, hexec, ?_, ht.trans ?_⟩
  · refine Nat.le_trans ?_ hnow
    simp
  · simp only [run_sample, run_lvl, State.sampled_eq]
    cases l <;> rfl

end Sys2Proof.Machine
end

section
/-!
What no command does to the lines but by GDIR and GSET (41_bus_primitives.md R110, R121, R125), and what the raw commands leave alone.
-/

namespace Sys2Proof.Machine

/-! ### Open drain -/

theorem Pin.drivesHigh_of_latch_false {p : Pin} (h : p.latch = false) : p.drivesHigh = false := by
  rw [Pin.drivesHigh, h, Bool.and_false]

/-- With both bus latches 0 no line is in contention; a Peer drive on INT is not modelled (10_state.md R23, R25). -/
theorem State.OpenDrain.contends_eq_false {s : State} (h : s.OpenDrain) (l : Line) : s.contends l = false := by
  obtain ⟨hscl, hsda⟩ := h
  cases l with
  | scl => rw [State.contends, State.pin_scl, Pin.drivesHigh_of_latch_false hscl, Bool.false_and]
  | sda => rw [State.contends, State.pin_sda, Pin.drivesHigh_of_latch_false hsda, Bool.false_and]
  | int => rw [State.contends, State.peerLow, Bool.and_false]

/-- No elementary step but a latch write of 1 raises a bus latch or finds contention (70_reset_and_hazards.md R294). -/
theorem MicroOp.run_openDrain {op : MicroOp} (hop : op ≠ .latch .scl true ∧ op ≠ .latch .sda true) {s : State}
    (hs : s.OpenDrain) : (op.run s).1.OpenDrain ∧ (op.run s).1.faultContend = s.faultContend := by
  obtain ⟨hscl, hsda⟩ := hs
  cases op with
  | latch l v =>
    cases v with
    | true =>
      cases l with
      | scl => exact absurd rfl hop.1
      | sda => exact absurd rfl hop.2
      | int => exact ⟨⟨hscl, hsda⟩, rfl⟩
    | false => cases l <;> simp [State.OpenDrain, hscl, hsda]
  | sample l =>
    have hcontends : (s.pass 0).contends l = false := State.OpenDrain.contends_eq_false (s := s.pass 0) ⟨hscl, hsda⟩ l
    refine ⟨?_, ?_⟩
    · simp [State.OpenDrain, hscl, hsda]
    · rw [run_sample, State.sampled_faultContend, hcontends, Bool.or_false, State.pass_faultContend]
  | lowLatch l | dir l d => cases l <;> simp [State.OpenDrain, hscl, hsda]
  | _ => exact ⟨⟨hscl, hsda⟩, rfl⟩

/-- Settles O22: a command that is no GSET of a bus line to 1 takes no step that raises a bus latch. -/
theorem openDrainAtEveryInstant : Obligations.OpenDrainAtEveryInstant := by
  intro i s k hs hscl hsda
  have hop : ∀ op t, commandOp i op = true → t.OpenDrain ∧ t.faultContend = s.faultContend →
      (op.run t).1.OpenDrain ∧ (op.run t).1.faultContend = s.faultContend := fun op t hop ht => by
    have hraise : op ≠ .latch .scl true ∧ op ≠ .latch .sda true :=
      ⟨fun h => hscl (by subst h; exact of_decide_eq_true hop), fun h => hsda (by subst h; exact of_decide_eq_true hop)⟩
    obtain ⟨hdrain, hfault⟩ := op.run_openDrain hraise ht.1
    exact ⟨hdrain, hfault.trans ht.2⟩
  obtain ⟨hdrain, hfault⟩ := (Prog.runFor_keeps (P := fun t => t.OpenDrain ∧ t.faultContend = s.faultContend) hop k
    (command_uses i) (s := s.setBusy true) ⟨hs, rfl⟩).1
  exact ⟨hdrain, Pin.drivesHigh_of_latch_false hdrain.1, Pin.drivesHigh_of_latch_false hdrain.2, hfault⟩

/-! ### INT, CMD and the Host -/

/-- No elementary step writes CMD or the Host (10_state.md R21, R31). -/
@[simp] theorem MicroOp.keeps_cmd (op : MicroOp) (s : State) : (op.run s).1.cmd = s.cmd := by
  cases op <;> simp [MicroOp.run, MicroOp.effect]

@[simp] theorem MicroOp.keeps_host (op : MicroOp) (s : State) : (op.run s).1.host = s.host := by
  cases op <;> simp [MicroOp.run, MicroOp.effect]

/-- INT is written by GDIR int and GSET int alone (41_bus_primitives.md R125). -/
theorem exec_int {i : Instr} {s t : State} (h : exec i s = .next t) (hdir : ∀ b, i ≠ .gdir .int b) (hset : ∀ b, i ≠ .gset .int b) :
    t.int = s.int := by
  refine exec_keeps State.int h rfl fun op u hop => ?_
  cases op with
  | lowLatch l =>
    cases l with
    | int => cases hop
    | scl | sda => rw [run_lowLatch, State.clearLatch_int]; rfl
  | latch l v =>
    cases l with
    | int => exact absurd (of_decide_eq_true hop) (hset v)
    | scl | sda => rfl
  | dir l d =>
    cases l with
    | int => exact absurd (of_decide_eq_true hop) (hdir _)
    | scl | sda => rfl
  | sample l => rw [run_sample, State.sampled_int]; rfl
  | _ => rfl

theorem canTimeOut_of_isAccess {i : Instr} (h : isAccess i = true) : canTimeOut i = true := by
  cases i with
  | msend | mrecv => rfl
  | _ => cases h

/-- The steps that write PRECISE, IRQ_OFF, ACC, ATT, T0 or NPOLL are those of commands with a clock-high wait. -/
theorem exec_registers {i : Instr} {s t : State} (h : exec i s = .next t) (hi : canTimeOut i = false) :
    t.precise = s.precise ∧ t.irqOff = s.irqOff ∧ t.acc = s.acc ∧ t.att = s.att ∧ t.t0 = s.t0 ∧ t.nPoll = s.nPoll := by
  have hwait : canTimeOut i ≠ true := Bool.eq_false_iff.1 hi
  have haccess : isAccess i ≠ true := fun ha => hwait (canTimeOut_of_isAccess ha)
  have hmode : i ≠ .modeentry := fun hm => hwait (by rw [hm]; rfl)
  have hkeeps := exec_keeps (fun u => (u.precise, u.irqOff, u.acc, u.att, u.t0, u.nPoll)) h rfl fun op u hop => by
    cases op with
    | precise b | irqOff b => exact absurd (of_decide_eq_true hop) hmode
    | clearAtt | incAtt => exact absurd hop haccess
    | shiftAcc b | startWait | countPoll => exact absurd hop hwait
    | _ => simp [MicroOp.run, MicroOp.effect]
  simpa only [Prod.mk.injEq] using hkeeps

/-- Settles O26. -/
theorem onlyRawCommandsActOnInt : Obligations.OnlyRawCommandsActOnInt := by
  intro i s t h
  refine ⟨exec_keeps State.cmd h rfl fun op u _ => op.keeps_cmd u, exec_keeps State.host h rfl fun op u _ => op.keeps_host u,
    fun hne => ?_, fun hraw => exec_registers h ?_⟩
  · by_contra hi
    exact hne (exec_int h (fun b hb => hi (.inl ⟨b, hb⟩)) fun b hb => hi (.inr ⟨b, hb⟩))
  · rcases hraw with ⟨l, b, rfl⟩ | ⟨l, b, rfl⟩ | ⟨l, rfl⟩ <;> rfl

end Sys2Proof.Machine
end

section
/-!
The clock-high wait (41_bus_primitives.md R113 to R119): its bound of samples, the line it leaves, and WAITCLK.
-/

namespace Sys2Proof.Machine

/-! ### WaitClockHigh -/

/-- Settles O36. -/
theorem waitLeavesClockReleased : Obligations.WaitLeavesClockReleased := by
  intro p s
  obtain ⟨t, w, evs, hrun, h⟩ := waitClockHigh_facts p s
  obtain ⟨-, -, -, hsda, hscl⟩ := h.bus
  obtain ⟨hdirs, -⟩ := h.wave
  exact ⟨t, w, evs, hrun, h.history, congrArg Pin.dir hscl, hsda, hdirs⟩

/-- Settles O35: the wait's own bounds, for admitted parameters. -/
theorem waitEndsWithinSampleBound : Obligations.WaitEndsWithinSampleBound := by
  refine ⟨rfl, fun p s hp => ?_⟩
  obtain ⟨hceil, hpoll⟩ := hp
  obtain ⟨t, w, evs, hrun, h⟩ := waitClockHigh_facts p s
  obtain ⟨_, _, _, -, -, hdeadline, hprecise⟩ := h.events
  exact ⟨t, w, evs, hrun, h.history, hdeadline hpoll, fun hone => le_min (hprecise hone hceil) (hdeadline hpoll), h.success,
    fun hw => h.failure hw hpoll⟩

/-! ### WAITCLK -/

/-- WAITCLK changes what its wait changes, and CODE and BUSY (R117, R119). -/
theorem WaitSpec.frame_to {p : Params} {s u t : State} {rel : Nat} {lows : List Nat} {w : Wait}
    (h : WaitSpec p (s.setBusy true) rel lows u w) (ht : t = (u.withEnv t).ended w.code) : t = { s.withEnv t with
      scl := { s.scl with dir := .input }, t0 := t.t0, nPoll := t.nPoll, history := t.history
      res := { s.res with code := t.res.code, busy := false } } := by
  have ht0 : t.t0 = u.t0 := (congrArg State.t0 ht :)
  have hnPoll : t.nPoll = u.nPoll := (congrArg State.nPoll ht :)
  have hhist : t.history = u.history := (congrArg State.history ht :)
  have hcode : t.res.code = w.code := congrArg (·.res.code) ht
  rw [ht0, hnPoll, hhist, hcode]
  exact ht.trans (congrArg (fun v => (v.withEnv t).ended w.code) h.frame)

/-- Settles O34: what the wait can do, carried over the end of the command. -/
theorem waitclkWaitsForHigh : Obligations.WaitclkWaitsForHigh := by
  intro s
  obtain ⟨rel, lows, h⟩ := waitClockHigh_spec Config.params (s.setBusy true)
  rcases hrun : (waitClockHigh Config.params).run (s.setBusy true) with ⟨u, w⟩
  rw [hrun] at h
  obtain ⟨t, hexec, ht, hnow⟩ := exec_bind_finish (i := .waitclk) (code := Wait.code) rfl hrun
  have ht0 : t.t0 = u.t0 := (congrArg State.t0 ht :)
  have hhist : t.history = u.history := (congrArg State.history ht :)
  have hcode : t.res.code = w.code := congrArg (·.res.code) ht
  obtain ⟨hstart, hrel, -⟩ := h.time
  refine ⟨t, rel, lows, hexec, hstart, ht0 ▸ hrel, fun x hx => ht0 ▸ (h.ordered.2 x hx).1, h.frame_to ht, ?_⟩
  rw [ht0, hhist]
  cases w with
  | ok =>
    obtain ⟨high, hevents, hlows, hhigh, hbit⟩ := h.success rfl
    exact .inl ⟨hcode, high, hhigh, hlows, hbit.trans hnow, hevents⟩
  | timeout =>
    exact .inr ⟨hcode, h.sampled rfl, h.failure rfl, (h.cause rfl Config.params_wf.2).symm.imp (·.trans_le hnow) id⟩

end Sys2Proof.Machine
end

section
/-!
Commands during which nothing but the Engine pulls SCL low: no clock-high wait fails, so no command times out
(41_bus_primitives.md R113, 60_exceptions.md R251).
-/

namespace Sys2Proof.Machine

variable {α β : Type}

/-- A drive of the Peer that does not pull SCL. -/
def PeerLow.LeavesScl (q : PeerLow) : Prop := q.scl = false

/-- While the Peer leaves SCL alone in the listed draws, the program takes at most `n` of them and ends with `R` of its result and
its state. -/
def Prog.Unstretched (n : Nat) (R : α → State → Prop) (p : Prog α) : Prop :=
  ∀ (m : Nat) (s : State), s.Supplied PeerLow.LeavesScl (n + m) →
    R (p.run s).2 (p.run s).1 ∧ (p.run s).1.Supplied PeerLow.LeavesScl m

/-! ### Building such programs -/

theorem Prog.Unstretched.le {n k : Nat} {R : α → State → Prop} {p : Prog α} (h : p.Unstretched n R) (hn : n ≤ k) :
    p.Unstretched k R := fun m s hs => h m s (hs.mono (Nat.add_le_add_right hn m))

theorem Prog.Unstretched.bind {n k : Nat} {S : α → Prop} {R : β → State → Prop} {p : Prog α} {f : α → Prog β}
    (hp : p.Unstretched n fun a _ => S a) (hf : ∀ a, S a → (f a).Unstretched k R) : (p.bind f).Unstretched (n + k) R := by
  intro m s hs
  obtain ⟨hmid, hleft⟩ := hp (k + m) s (by rwa [← Nat.add_assoc])
  rw [Prog.run_bind]
  exact hf _ hmid m _ hleft

theorem Prog.Unstretched.andThen {n k : Nat} {S : α → Prop} {R : β → State → Prop} {p : Prog α} {q : Prog β}
    (hp : p.Unstretched n fun a _ => S a) (hq : q.Unstretched k R) : (p.andThen q).Unstretched (n + k) R :=
  hp.bind fun _ _ => hq

theorem Prog.unstretched_done {R : α → State → Prop} {a : α} (h : ∀ s, R a s) : (Prog.done a).Unstretched 0 R := fun m s hs =>
  ⟨h s, hs.mono (Nat.zero_add m).ge⟩

/-- Every elementary step takes one draw. -/
theorem perform_unstretched (op : MicroOp) : (perform op).Unstretched 1 fun _ _ => True := fun m _ hs =>
  ⟨trivial, State.Supplied.step (hs.mono (Nat.add_comm m 1).le) op⟩

theorem setLine_unstretched (l : Line) (b : Bool) : (setLine l b).Unstretched 2 fun _ _ => True := fun m _ hs =>
  ⟨trivial, setLine_supplied (hs.mono (Nat.add_comm m 2).le) l b⟩

/-- A wait that nothing stretches succeeds (41_bus_primitives.md R113). -/
theorem waitClockHigh_unstretched (p : Params) : (waitClockHigh p).Unstretched 4 fun w _ => w = .ok := fun m s hs => by
  obtain ⟨t, hrun, hleft⟩ := waitClockHigh_supplied p (fun _ hq => hq) (hs.mono (Nat.add_comm m 4).le)
  rw [hrun]
  exact ⟨rfl, hleft⟩

/-! ### The transport -/

theorem frameStart_unstretched : frameStart.Unstretched 4 fun _ _ => True :=
  (setLine_unstretched .sda false).andThen (setLine_unstretched .scl false)

theorem frameStop_unstretched (p : Params) : (frameStop p).Unstretched 8 fun w _ => w = .ok := by
  refine (setLine_unstretched .sda false).andThen (k := 6) ((waitClockHigh_unstretched p).bind (k := 2) ?_)
  rintro w rfl
  exact (setLine_unstretched .sda true).andThen (Prog.unstretched_done fun _ => rfl)

theorem sendBits_unstretched (p : Params) (v : Byte) (n : Nat) : (sendBits p v n).Unstretched (10 * n) fun w _ => w = .ok := by
  induction n with
  | zero => exact Prog.unstretched_done fun _ => rfl
  | succ i ih =>
    refine Prog.Unstretched.le ((perform_unstretched _).andThen <| (setLine_unstretched .sda _).andThen <|
      (waitClockHigh_unstretched p).bind (k := 3 + 10 * i) ?_) (by omega)
    rintro w rfl
    exact Prog.Unstretched.le ((setLine_unstretched .scl false).andThen <| (perform_unstretched _).andThen ih) (by omega)

theorem sendByte_unstretched (p : Params) (v : Byte) : (sendByte p v).Unstretched 87 fun r _ => r ≠ .timeout := by
  refine (sendBits_unstretched p v 8).bind (k := 7) ?_
  rintro w rfl
  refine (setLine_unstretched .sda true).andThen (k := 5) ((waitClockHigh_unstretched p).bind (k := 1) ?_)
  rintro w rfl
  exact (perform_unstretched _).bind fun _ _ => Prog.unstretched_done fun _ => Sent.noConfusion

theorem recvBits_unstretched (p : Params) (n : Nat) : (recvBits p n).Unstretched (10 * n) fun w _ => w = .ok := by
  induction n with
  | zero => exact Prog.unstretched_done fun _ => rfl
  | succ i ih =>
    refine Prog.Unstretched.le ((perform_unstretched _).andThen <| (waitClockHigh_unstretched p).bind (k := 5 + 10 * i) ?_)
      (by omega)
    rintro w rfl
    exact Prog.Unstretched.le ((perform_unstretched _).bind fun _ _ => (perform_unstretched _).andThen <|
      (setLine_unstretched .scl false).andThen <| (perform_unstretched _).andThen ih) (by omega)

theorem recvByte_unstretched (p : Params) : (recvByte p).Unstretched 82 fun w _ => w = .ok :=
  (setLine_unstretched .sda true).andThen (recvBits_unstretched p 8)

/-! ### Mode entry -/

theorem modeExtra_unstretched (i : Nat) : (modeExtra i).Unstretched 1 fun _ _ => True := by
  unfold modeExtra
  split
  · exact perform_unstretched _
  · exact (Prog.unstretched_done fun _ => trivial).le (by omega)

theorem modeEntryBits_unstretched (n : Nat) : (modeEntryBits n).Unstretched (11 * n) fun _ _ => True := by
  induction n with
  | zero => exact Prog.unstretched_done fun _ => trivial
  | succ i ih =>
    exact Prog.Unstretched.le ((perform_unstretched _).andThen <| (setLine_unstretched .scl _).andThen <|
      (perform_unstretched _).andThen <| (setLine_unstretched .sda _).andThen <| (perform_unstretched _).andThen <|
      (setLine_unstretched .sda _).andThen <| (perform_unstretched _).andThen <| (modeExtra_unstretched i).andThen ih) (by omega)

theorem modeEntry_unstretched (p : Params) : (modeEntry p).Unstretched 173 fun w _ => w = .ok := by
  refine (perform_unstretched _).andThen (k := 172) <| (modeEntryBits_unstretched modeBits).andThen (k := 7) <|
    (perform_unstretched _).andThen (k := 6) <| (waitClockHigh_unstretched p).bind (k := 2) ?_
  rintro w rfl
  exact (perform_unstretched _).andThen <| (perform_unstretched _).andThen <| Prog.unstretched_done fun _ => rfl

/-! ### Register access -/

/-- A last attempt that was refused and did not time out gives NAK (45_register_access.md R223). -/
theorem giveUp_unstretched {r : Sent} (hr : r ≠ .timeout) : (giveUp r).Unstretched 1 fun c _ => c ≠ .timeout :=
  (perform_unstretched _).andThen <| Prog.unstretched_done fun _ => by
    cases r with
    | timeout => exact absurd rfl hr
    | acked b => exact Code.noConfusion

theorem readBack_unstretched (p : Params) : (readBack p).Unstretched 92 fun c _ => c ≠ .timeout := by
  refine (perform_unstretched _).andThen (k := 91) <| (recvByte_unstretched p).bind (k := 9) ?_
  rintro w rfl
  refine (perform_unstretched _).andThen (k := 8) <| (frameStop_unstretched p).bind (k := 0) ?_
  rintro w rfl
  exact Prog.unstretched_done fun _ => Code.noConfusion

section Attempts

variable {p : Params} {a v : Byte} {k : Nat} {onFail : Sent → Prog Code}
  (hf : ∀ r, r ≠ .timeout → (onFail r).Unstretched k fun c _ => c ≠ .timeout)
include hf

/-- An attempt ends the access or, after a refusal, goes on as `onFail` does (45_register_access.md R220, R223). -/
theorem writeAttempt_unstretched : (writeAttempt p a v onFail).Unstretched (188 + k) fun c _ => c ≠ .timeout := by
  refine Prog.Unstretched.le ((perform_unstretched _).andThen <| frameStart_unstretched.andThen <|
    (sendByte_unstretched p a).bind (k := 96 + k) fun r hr => ?_) (by omega)
  match r with
  | .timeout => exact absurd rfl hr
  | .acked false => exact (hf _ hr).le (by omega)
  | .acked true =>
    refine Prog.Unstretched.le ((sendByte_unstretched p v).bind (k := 9 + k) fun r hr => ?_) (by omega)
    match r with
    | .timeout => exact absurd rfl hr
    | .acked false => exact (hf _ hr).le (by omega)
    | .acked true =>
      refine Prog.Unstretched.le ((frameStop_unstretched p).bind (k := 1) ?_) (Nat.le_add_right 9 k)
      rintro w rfl
      exact (perform_unstretched _).andThen <| Prog.unstretched_done fun _ => Code.noConfusion

theorem readAttempt_unstretched : (readAttempt p a onFail).Unstretched (184 + k) fun c _ => c ≠ .timeout := by
  refine Prog.Unstretched.le ((perform_unstretched _).andThen <| frameStart_unstretched.andThen <|
    (sendByte_unstretched p a).bind (k := 92 + k) fun r hr => ?_) (by omega)
  match r with
  | .timeout => exact absurd rfl hr
  | .acked false => exact (hf _ hr).le (by omega)
  | .acked true => exact (readBack_unstretched p).le (by omega)

end Attempts

theorem writeAttempts_unstretched (p : Params) (a v : Byte) (n : Nat) :
    (writeAttempts p a v n).Unstretched (188 * (n + 1) + 1) fun c _ => c ≠ .timeout := by
  induction n with
  | zero => exact writeAttempt_unstretched fun _ hr => giveUp_unstretched hr
  | succ n ih => exact (writeAttempt_unstretched fun _ _ => ih).le (by omega)

theorem readAttempts_unstretched (p : Params) (a : Byte) (n : Nat) :
    (readAttempts p a n).Unstretched (184 * (n + 1) + 1) fun c _ => c ≠ .timeout := by
  induction n with
  | zero => exact readAttempt_unstretched fun _ hr => giveUp_unstretched hr
  | succ n ih => exact (readAttempt_unstretched fun _ _ => ih).le (by omega)

/-! ### The commands -/

theorem finish_unstretched {c : Code} (hc : c ≠ .timeout) : (finish c).Unstretched 2 fun _ t => t.res.code ≠ .timeout :=
  fun m s hs => ⟨hc, ((perform_unstretched (.code c)).andThen (perform_unstretched .idle) m s hs).2⟩

/-- No command that waits for the clock ends with TIMEOUT, and none takes 1000 draws. -/
theorem command_unstretched {i : Instr} (hi : canTimeOut i = true) :
    (command i).Unstretched 1000 fun _ t => t.res.code ≠ .timeout := by
  have hok : (finish .ok).Unstretched 2 fun _ t => t.res.code ≠ .timeout := finish_unstretched Code.noConfusion
  cases i with
  | waitclk =>
    refine Prog.Unstretched.le ((waitClockHigh_unstretched _).bind (k := 2) ?_) (by decide)
    rintro w rfl
    exact hok
  | stop =>
    refine Prog.Unstretched.le ((frameStop_unstretched _).bind (k := 2) ?_) (by decide)
    rintro w rfl
    exact hok
  | send v =>
    refine Prog.Unstretched.le ((sendByte_unstretched _ v).bind (k := 3) fun r hr => ?_) (by decide)
    cases r with
    | timeout => exact absurd rfl hr
    | acked b => exact (perform_unstretched _).andThen hok
  | recv =>
    refine Prog.Unstretched.le ((recvByte_unstretched _).bind (k := 3) ?_) (by decide)
    rintro w rfl
    exact (perform_unstretched _).andThen hok
  | modeentry =>
    refine Prog.Unstretched.le ((modeEntry_unstretched _).bind (k := 2) ?_) (by decide)
    rintro w rfl
    exact hok
  | msend a v =>
    exact Prog.Unstretched.le (((perform_unstretched .clearAtt).andThen (writeAttempts_unstretched _ a v busRetries)).bind
      fun _ => finish_unstretched) (by decide)
  | mrecv a =>
    exact Prog.Unstretched.le (((perform_unstretched .clearAtt).andThen (readAttempts_unstretched _ a busRetries)).bind
      fun _ => finish_unstretched) (by decide)
  | _ => cases hi

/-- Settles O59: of the codes a command can end with (R251), TIMEOUT does not happen and ILLEGAL is not for a well-formed one. -/
theorem unstretchedCommandsEndOk : Obligations.UnstretchedCommandsEndOk := by
  intro i s hwf hdraws hpeer hdrives
  have hcode := runCommand_code i s
  refine ⟨runCommand (command i) s, exec_eq_command i s, ?_⟩
  cases hc : (runCommand (command i) s).res.code with
  | ok => exact .inl rfl
  | nak =>
    rw [hc] at hcode
    exact .inr ⟨rfl, eq_of_isAccess hcode⟩
  | timeout =>
    rw [hc] at hcode
    exact absurd hc (command_unstretched hcode 0 (s.setBusy true) ⟨hdraws, hdrives, hpeer⟩).1
  | illegal =>
    rw [hc, commandOp, hwf] at hcode
    cases hcode

end Sys2Proof.Machine
end

section
/-! The delay commands (42_delay_unit.md R140 to R144): each is one `Delay` and the end of the command. -/

namespace Sys2Proof.Machine

/-- A command that is one delay ends with OK, its duration over: CODE and BUSY are written, and time and the Peer go on (R140). -/
theorem exec_of_command_eq_delayCommand {i : Instr} {d : Nat} (h : command i = delayCommand d) (s : State) :
    ∃ t, exec i s = .next t ∧ s.now + d ≤ t.now ∧ t = (s.withEnv t).ended .ok := by
  obtain ⟨t, hexec, ht, hnow⟩ := exec_bind_finish (p := perform (.delay d)) (code := fun _ => .ok) h (s := s) rfl
  obtain ⟨-, -, -, -, -, hdelay⟩ := pass_facts d (s.setBusy true)
  exact ⟨t, hexec, hdelay.trans hnow, ht⟩

/-- Settles O37: the duration of each command's one delay (R141 to R144). -/
theorem delaysAdvanceTime : Obligations.DelaysAdvanceTime := by
  rintro i d s (⟨rfl, rfl⟩ | ⟨rfl, rfl⟩ | ⟨n, rfl, rfl⟩ | ⟨n, rfl, rfl⟩)
  · exact exec_of_command_eq_delayCommand (i := .delayBit) rfl s
  · exact exec_of_command_eq_delayCommand (i := .delayHalf) rfl s
  · exact exec_of_command_eq_delayCommand (i := .delayUs n) rfl s
  · exact exec_of_command_eq_delayCommand (i := .delayMs n) rfl s

end Sys2Proof.Machine
end

section
/-!
START and STOP (43_transport.md R160 to R164), what SEND captures, leaves and takes (R170 to R175), and the line state and duration
of RECV (R183, R184): the facts of the shared primitives, carried over the end of each command.
-/

namespace Sys2Proof.Machine

/-- A command of the transport changes what its primitive changes, and RES. -/
theorem BusFrame.eq_to {s u t : State} (h : BusFrame (s.setBusy true) u) (ht : t = { u.withEnv t with res := t.res }) :
    t = { s.withEnv t with scl := t.scl, sda := t.sda, acc := t.acc, bitIdx := t.bitIdx, t0 := t.t0, nPoll := t.nPoll
                           history := t.history, res := t.res } :=
  State.ext rfl rfl ((congrArg State.int ht).trans h.int) ((congrArg State.precise ht).trans h.precise)
    ((congrArg State.irqOff ht).trans h.irqOff) rfl ((congrArg State.cmd ht).trans h.cmd) rfl rfl rfl
    ((congrArg State.att ht).trans h.att) rfl rfl ((congrArg State.faultContend ht).trans h.faultContend) rfl rfl
    ((congrArg State.host ht).trans h.host) rfl rfl

/-! ### START -/

/-- START changes what its FrameStart changes, and CODE and BUSY (R161, R164). -/
theorem FrameStartFacts.frame_to {s u t : State} {evs : List Event} (h : FrameStartFacts (s.setBusy true) evs u)
    (ht : t = (u.withEnv t).ended .ok) : t = ({ s.withEnv t with
      scl := { dir := .output, latch := false }, sda := { dir := .output, latch := false }, history := t.history }
        : State).ended .ok := by
  obtain ⟨ht0, hnPoll⟩ := h.wait
  have hu := h.frame.eq
  rw [h.scl, h.sda, h.acc, h.bitIdx, ht0, hnPoll] at hu
  have hhist : t.history = u.history := (congrArg State.history ht :)
  rw [hhist]
  exact ht.trans (congrArg (fun v => (v.withEnv t).ended .ok) hu)

/-- Settles O38: the events of `FrameStart`, and the end of the command after them. -/
theorem startDrivesDataThenClockLow : Obligations.StartDrivesDataThenClockLow := by
  intro s
  obtain ⟨evs, h⟩ := frameStart_facts (s.setBusy true)
  obtain ⟨t, hexec, ht, hnow⟩ := exec_bind_finish (i := .start) (code := fun _ => Code.ok) (s := s) (p := frameStart) rfl rfl
  obtain ⟨x0, x1, x2, x3, h0, h1, h2, h3, h4, hevs⟩ := h.events
  exact ⟨t, evs, x0, x1, x2, x3, hexec, (congrArg State.history ht).trans h.history, h0, h1, h2, h3, h4.trans hnow, hevs, h.dirs,
    h.samples .scl, h.samples .sda, h.frame_to ht⟩

/-- A line the Engine releases reads as the Peer leaves it (10_state.md R24). -/
theorem State.wire_of_input {s : State} {l : Line} (h : (s.pin l).dir = .input) : s.wire l = !s.peerLow l := by
  simp [State.wire, Pin.drivesLow, h]

/-- A line the Engine drives low is low, whatever the Peer does. -/
theorem State.wire_of_drivesLow {s : State} {l : Line} (h : (s.pin l).drivesLow = true) : s.wire l = false := by
  simp [State.wire, h]

/-- A Peer that leaves both lines alone before a step and in each of its own steps leaves them alone after it. -/
theorem State.peer_pass_of_idle {s : State} {d : Draw} (hd : s.nextDraw = d) (hp : s.peer = { scl := false, sda := false })
    (h : ∀ q ∈ drives d.own, q = { scl := false, sda := false }) (n : Nat) :
    (s.pass n).peer = { scl := false, sda := false } := by
  rw [State.pass_peer, hd]
  exact lastDrive_of (Q := (· = { scl := false, sda := false })) hp h

/-- Settles O39: the start condition is the second step of START, the drive of SDA: it stands between the clearing of SDA's latch
and what START does to SCL. -/
theorem startFromIdleShowsStartCondition : Obligations.StartFromIdleShowsStartCondition := by
  rintro s ⟨hscl, hsda⟩ hpeer hlen hdraws
  obtain ⟨d0, d1, ds, hd⟩ : ∃ d0 d1 ds, s.draws = d0 :: d1 :: ds :=
    match s.draws, hlen with
    | d0 :: d1 :: ds, _ => ⟨d0, d1, ds, rfl⟩
  have hbefore : s.within .start 1 = ((s.setBusy true).pass 0).clearLatch .sda := rfl
  have hafter : s.within .start 2 = ((s.within .start 1).pass 0).writeDir .sda .output := rfl
  have hnext0 : (s.setBusy true).nextDraw = d0 := by simp [State.nextDraw, drawFrom, hd]
  have hnext1 : (s.within .start 1).nextDraw = d1 := by simp [hbefore, drawFrom, hd]
  have hpeer1 : (s.within .start 1).peer = { scl := false, sda := false } := by
    rw [hbefore, State.clearLatch_peer]
    exact State.peer_pass_of_idle hnext0 hpeer (hdraws d0 (by simp [hd])) 0
  have hpeer2 : (s.within .start 2).peer = { scl := false, sda := false } := by
    rw [hafter, State.writeDir_peer]
    exact State.peer_pass_of_idle hnext1 hpeer1 (hdraws d1 (by simp [hd])) 0
  refine ⟨1, ?_, ?_, ?_, ?_⟩
  · rw [State.wire_of_input (by simp [hbefore, hscl]), State.peerLow, hpeer1]; rfl
  · rw [State.wire_of_input (by simp [hafter, hbefore, hscl]), State.peerLow, hpeer2]; rfl
  · rw [State.wire_of_input (by simp [hbefore, hsda]), State.peerLow, hpeer1]; rfl
  · exact State.wire_of_drivesLow (by simp [hafter, hbefore, Pin.drivesLow])

/-! ### STOP -/

/-- STOP changes what its FrameStop changes, and CODE and BUSY (R163, R164). -/
theorem FrameStopFacts.frame_to {p : Params} {s u t : State} {evs : List Event} {w : Wait}
    (h : FrameStopFacts p (s.setBusy true) evs u w) (ht : t = (u.withEnv t).ended w.code) : t = { s.withEnv t with
      scl := { s.scl with dir := .input }, sda := { t.sda with latch := false }, t0 := t.t0, nPoll := t.nPoll
      history := t.history, res := { s.res with code := t.res.code, busy := false } } := by
  have hres : t.res = { s.res with code := w.code, busy := false } :=
    (congrArg State.res ht).trans (congrArg (fun r => { r with code := w.code, busy := false }) h.frame.res)
  have hscl : t.scl = { s.scl with dir := .input } := (congrArg State.scl ht).trans h.scl
  have hsda : t.sda = { dir := if w = .ok then .input else .output, latch := false } := (congrArg State.sda ht).trans h.sda
  have hacc : t.acc = s.acc := (congrArg State.acc ht).trans h.acc
  have hbit : t.bitIdx = s.bitIdx := (congrArg State.bitIdx ht).trans h.bitIdx
  have hframe : t = { u.withEnv t with res := t.res } :=
    ht.trans (congrArg (fun r => { u.withEnv t with res := r }) (congrArg State.res ht).symm)
  refine (h.frame.eq_to hframe).trans ?_
  rw [hres, hscl, hsda, hacc, hbit]
  rfl

/-- Settles O40: the facts of `FrameStop` by its outcome, and the end of the command after them. -/
theorem stopReleasesDataLast : Obligations.StopReleasesDataLast := by
  intro s
  obtain ⟨u, w, evs, hrun, h⟩ := frameStop_facts Config.params (s.setBusy true)
  obtain ⟨t, hexec, ht, hnow⟩ := exec_bind_finish (i := .stop) (code := Wait.code) rfl hrun
  have hhist : t.history = evs.reverse ++ s.history := (congrArg State.history ht).trans h.history
  have hended : StopEnded Config.params s.precise t.t0 t.now t.res.code t.sda evs := by
    have ht0 : t.t0 = u.t0 := (congrArg State.t0 ht :)
    have hcode : t.res.code = w.code := congrArg (·.res.code) ht
    have hsda : t.sda = u.sda := (congrArg State.sda ht :)
    rw [ht0, hcode, hsda]
    exact (h.ended Config.params_wf).mono hnow
  have hsda : t.sda.dir = if w = .ok then .input else .output :=
    congrArg Pin.dir ((congrArg State.sda ht).trans h.sda)
  refine ⟨t, evs, hexec, hhist, h.frame_to ht, exec_linesWritten stop_linesOnly hexec hhist, h.samples, hended, ?_⟩
  cases w with
  | ok => exact .inl ⟨congrArg (·.res.code) ht, hsda, h.dirs, (h.success rfl).trans hnow⟩
  | timeout =>
    exact .inr ⟨congrArg (·.res.code) ht, hsda, h.dirs, fun hs =>
      (h.failure rfl Config.params_wf.2 hs).trans_le hnow⟩

/-! ### SEND -/

/-- SEND changes what its byte changes, and RES (R171). -/
theorem SendByteFacts.frame_to {p : Params} {v : Byte} {s u t : State} {evs : List Event} {r : Sent}
    (h : SendByteFacts p v (s.setBusy true) evs u r) (ht : t = { u.withEnv t with res := t.res }) : t = { s.withEnv t with
      scl := t.scl, sda := t.sda, bitIdx := t.bitIdx, t0 := t.t0, nPoll := t.nPoll, history := t.history, res := t.res } := by
  have hacc : t.acc = s.acc := (congrArg State.acc ht).trans h.acc
  refine (h.frame.eq_to ht).trans ?_
  rw [hacc]
  rfl

/-- A byte that timed out did so at the clock after those that were seen (R170, R175). -/
theorem SendByteFacts.timedOut {p : Params} {v : Byte} {s u : State} {evs : List Event} (hp : p.wf)
    (h : SendByteFacts p v s evs u .timeout) : sampledLevels .sda evs = [] ∧
      ByteTimedOut p s.precise u.t0 u.now v (clocksSeen evs + 1) evs := by
  rcases h.result with ⟨_, hr, -⟩ | ⟨m, -, hm, hsamples, hdirs, hclocks, -⟩
  · cases hr
  · obtain rfl : clocksSeen evs = m := hclocks
    exact ⟨hsamples, by omega, by omega, hdirs, hsamples, by omega, h.missed rfl hp⟩

/-- A byte that timed out by some time has by every later one. -/
theorem ByteTimedOut.mono {p : Params} {precise : Bool} {t0 x y : Nat} {b : Byte} {k : Nat} {evs : List Event}
    (h : ByteTimedOut p precise t0 x b k evs) (hxy : x ≤ y) : ByteTimedOut p precise t0 y b k evs := by
  obtain ⟨hlo, hhi, hdirs, hsamples, hclocks, before, wait, hevs, hwait⟩ := h
  exact ⟨hlo, hhi, hdirs, hsamples, hclocks, before, wait, hevs, hwait.mono hxy⟩

/-- Settles O41: the two outcomes of `SendByte`, carried over the end of the command. -/
theorem sendCapturesAcknowledge : Obligations.SendCapturesAcknowledge := by
  intro v s
  obtain ⟨u, r, evs, t, h, hexec, hend⟩ := exec_send_run v s
  have ht0 : t.t0 = u.t0 := (congrArg State.t0 hend.frame :)
  refine ⟨t, evs, hexec, (congrArg State.history hend.frame).trans h.history, h.frame_to hend.frame, ?_⟩
  cases r with
  | acked b =>
    rcases h.result with ⟨level, hr, hsamples, -, hclocks, -⟩ | ⟨_, hr, -⟩
    · exact .inl ⟨level, hsamples, hclocks, h.captured level hr, hend.acked _ hr⟩
    · cases hr
  | timeout =>
    obtain ⟨hsamples, hout⟩ := h.timedOut Config.params_wf
    exact .inr ⟨hsamples, ⟨_, ht0 ▸ hout.mono hend.time⟩, hend.timeout rfl⟩

theorem Pin.eq_of_dir_latch {p : Pin} {d : Dir} {v : Bool} (hd : p.dir = d) (hv : p.latch = v) : p = { dir := d, latch := v } := by
  subst hd hv; rfl

/-- Settles O43: the lines as `SendByte` left them. -/
theorem sendLineState : Obligations.SendLineState := by
  intro v s
  obtain ⟨u, r, evs, t, h, hexec, hend⟩ := exec_send_run v s
  have hscl : t.scl = u.scl := (congrArg State.scl hend.frame :)
  have hsda : t.sda = u.sda := (congrArg State.sda hend.frame :)
  refine ⟨t, evs, hexec, (congrArg State.history hend.frame).trans h.history, hscl ▸ h.scl, ?_⟩
  rw [hsda]
  rcases h.result with ⟨level, hr, -, hin, -⟩ | ⟨m, hr, hm, -, -, hclocks, -, hlast, hbit, -⟩
  · rw [hend.acked _ hr]
    exact ⟨fun _ => hin, fun hc => by cases hc⟩
  · rw [hend.timeout hr]
    refine ⟨fun hc => (by cases hc), fun _ => ⟨m + 1, by omega, by omega, hclocks, fun hk => hlast (by omega), fun hk => ?_⟩⟩
    obtain ⟨hdir, hlatch⟩ := hbit (by omega)
    rw [show 8 - (m + 1) = 7 - m by omega]
    exact ⟨fun hb => by rw [hdir, hb]; rfl, fun hb => Pin.eq_of_dir_latch (by rw [hdir, hb]; rfl) (hlatch hb)⟩

/-- Settles O44: how long `SendByte` took, and the end of the command after it. -/
theorem sendDuration : Obligations.SendDuration := by
  intro v s hs
  obtain ⟨u, r, evs, t, h, hexec, hend⟩ := exec_send_run v s
  have hnow := hend.time
  refine ⟨t, evs, hexec, (congrArg State.history hend.frame).trans h.history, ?_⟩
  rcases h.result with ⟨level, hr, -, -, -, -, -, htime⟩ | ⟨m, hr, hm, -, -, hclocks, -, -, -, htime⟩
  · rw [hend.acked _ hr]
    exact ⟨fun _ => htime.trans hnow, fun hc => by cases hc⟩
  · rw [hend.timeout hr]
    obtain ⟨hbit, hlast⟩ := htime Config.params_wf.2 hs
    refine ⟨fun hc => (by cases hc), fun _ => ⟨m + 1, by omega, by omega, hclocks, fun hk => ?_, fun hk => ?_⟩⟩
    · exact (hbit (by omega)).trans_le hnow
    · have hover : s.now + (15 * Config.params.tBitNs + Config.params.tHalfNs + tWaitNs) < u.now := hlast (by omega)
      omega

/-! ### RECV -/

/-- Settles O46: the lines as `RecvByte` left them. -/
theorem recvLineState : Obligations.RecvLineState := by
  intro s
  obtain ⟨u, w, bits, evs, t, h, hexec, hend⟩ := exec_recv_run s
  have hscl : t.scl = u.scl := (congrArg State.scl hend.frame :)
  have hsda : t.sda = u.sda := (congrArg State.sda hend.frame :)
  refine ⟨t, hexec, by rw [hsda, h.sda], ?_⟩
  rw [hscl]
  cases w with
  | ok =>
    obtain ⟨-, hlow, -⟩ := h.success rfl
    exact .inl ⟨by rw [hend.ok rfl], by rw [hlow], by rw [hlow]⟩
  | timeout => exact .inr ⟨by rw [hend.timeout rfl], (h.failure rfl).2⟩

/-- Settles O47: how long `RecvByte` took, and the end of the command after it. -/
theorem recvDuration : Obligations.RecvDuration := by
  intro s
  obtain ⟨u, w, bits, evs, t, h, hexec, hend⟩ := exec_recv_run s
  refine ⟨t, hexec, fun hc => ?_⟩
  cases w with
  | ok =>
    obtain ⟨-, -, htime⟩ := h.success rfl
    exact htime.trans hend.time
  | timeout =>
    rw [hend.timeout rfl] at hc
    cases hc

end Sys2Proof.Machine
end

section
/-!
Commands during which the Peer leaves SCL alone and holds SDA at one level: every sample of SDA gives that level, so the results of
SEND, RECV, MSEND and MRECV are known (43_transport.md R171, R181, 45_register_access.md R220, R230).
-/

namespace Sys2Proof.Machine

variable {α : Type}

/-- More than `n` draws are listed, and in them and before them the Peer leaves SCL alone and pulls SDA low, or not, throughout. -/
def State.Held (low : Bool) (n : Nat) (s : State) : Prop := s.Supplied (· = { scl := false, sda := low }) (n + 1)

/-! ### Running under such a Peer -/

theorem State.Held.mono {low : Bool} {n m : Nat} {s : State} (h : s.Held low n) (hm : m ≤ n) : s.Held low m :=
  State.Supplied.mono h (Nat.succ_le_succ hm)

/-- A run takes draws and lists no new ones. -/
theorem Prog.length_draws_run_le (p : Prog α) (s : State) : (p.run s).1.draws.length ≤ s.draws.length := by
  induction p generalizing s with
  | done a => exact Nat.le_refl _
  | act op k ih =>
    refine (ih _ (op.run s).1).trans ?_
    rw [MicroOp.run_draws, List.length_tail]
    exact Nat.sub_le _ 1

/-- While draws are left after a run, the Peer took all its own steps of the run from the list. -/
theorem Prog.run_supplied {Q : PeerLow → Prop} {n : Nat} (p : Prog α) {s : State} (hs : s.Supplied Q 0)
    (hleft : n + 1 ≤ (p.run s).1.draws.length) : (p.run s).1.Supplied Q (n + 1) := by
  induction p generalizing s with
  | done a => exact ⟨hleft, hs.2⟩
  | act op k ih =>
    have hrest := (k (op.run s).2).length_draws_run_le (op.run s).1
    rw [MicroOp.run_draws, List.length_tail] at hrest
    rw [Prog.run_act] at hleft ⊢
    exact ih _ (State.Supplied.step ⟨by omega, hs.2⟩ op) hleft

/-- What a program does while nothing stretches the clock, it does under such a Peer, which stays so. -/
theorem Prog.Unstretched.held {n k : Nat} {low : Bool} {R : α → State → Prop} {p : Prog α} {s : State} (h : p.Unstretched n R)
    (hs : s.Held low k) (hn : n ≤ k) : R (p.run s).2 (p.run s).1 ∧ (p.run s).1.Held low (k - n) := by
  obtain ⟨hlen, hdrives, hpeer⟩ := hs
  have hscl : s.Supplied PeerLow.LeavesScl (n + (k - n + 1)) :=
    ⟨by omega, fun d hd q hq => by rw [PeerLow.LeavesScl, hdrives d hd q hq], by rw [PeerLow.LeavesScl, hpeer]⟩
  obtain ⟨hR, hleft, -⟩ := h (k - n + 1) s hscl
  exact ⟨hR, p.run_supplied ⟨Nat.zero_le _, hdrives, hpeer⟩ hleft⟩

theorem State.Held.step {low : Bool} {k : Nat} {s : State} (h : s.Held low k) (hk : 1 ≤ k) (op : MicroOp) :
    (op.run s).1.Held low (k - 1) := ((perform_unstretched op).held h hk).2

/-- SDA, released, reads as the Peer holds it (10_state.md R25). -/
theorem sampleSda_held {low : Bool} {k : Nat} {s : State} (h : s.Held low k) (hsda : s.sda.dir = .input) :
    ((MicroOp.sample .sda).run s).2 = !low := by
  rw [run_sample]
  refine (level_released (s := s.pass 0) (l := .sda) s.nextDraw.level rfl hsda).trans ?_
  rw [State.peerLow, h.peer_pass 0]

/-! ### The transport -/

theorem waitClockHigh_held {low : Bool} {k : Nat} {s : State} (p : Params) (h : s.Held low k) (hk : 4 ≤ k) : ∃ t evs,
    (waitClockHigh p).run s = (t, .ok) ∧ WaitFacts p s evs t .ok ∧ t.Held low (k - 4) := by
  obtain ⟨t, w, evs, hr, hfacts⟩ := waitClockHigh_facts p s
  obtain ⟨hw, hleft⟩ := (waitClockHigh_unstretched p).held h hk
  rw [hr] at hw hleft
  exact ⟨t, evs, hw ▸ hr, hw ▸ hfacts, hleft⟩

theorem frameStart_held {low : Bool} {k : Nat} {s : State} (h : s.Held low k) (hk : 4 ≤ k) :
    BusFrame s (frameStart.run s).1 ∧ (frameStart.run s).1.Held low (k - 4) := by
  obtain ⟨_, hfacts⟩ := frameStart_facts s
  exact ⟨hfacts.frame, (frameStart_unstretched.held h hk).2⟩

theorem frameStop_held {low : Bool} {k : Nat} {s : State} (p : Params) (h : s.Held low k) (hk : 8 ≤ k) : ∃ t,
    (frameStop p).run s = (t, .ok) ∧ BusFrame s t ∧ t.Held low (k - 8) := by
  obtain ⟨t, w, _, hr, hfacts⟩ := frameStop_facts p s
  obtain ⟨hw, hleft⟩ := (frameStop_unstretched p).held h hk
  rw [hr] at hw hleft
  exact ⟨t, hw ▸ hr, hfacts.frame, hleft⟩

/-- The acknowledge is what the Peer holds SDA at: low is acknowledged (43_transport.md R170). -/
theorem sendByte_held {low : Bool} {k : Nat} {s : State} (p : Params) (v : Byte) (h : s.Held low k) (hk : 87 ≤ k) : ∃ t,
    (sendByte p v).run s = (t, .acked low) ∧ BusFrame s t ∧ t.Held low (k - 87) := by
  have hack : ((sendByte p v).run s).2 = .acked low := by
    obtain ⟨hbits, h1⟩ := (sendBits_unstretched p v 8).held h (by omega)
    obtain ⟨_, hline⟩ := setLine_facts .sda true ((sendBits p v 8).run s).1 rfl
    obtain ⟨-, h2⟩ := (setLine_unstretched .sda true).held h1 (by omega)
    obtain ⟨t, _, hwait, hclock, h3⟩ := waitClockHigh_held p h2 (by omega)
    obtain ⟨-, -, -, hsda, -⟩ := hclock.bus
    have hlevel := sampleSda_held h3 (by rw [hsda, hline.sda]; rfl)
    simp only [sendByte, Prog.run_bind, hbits, Prog.run_andThen, hwait, run_perform, Prog.run_done, hlevel, Bool.not_not]
  obtain ⟨t, r, _, hr, hfacts⟩ := sendByte_facts p v s
  obtain ⟨-, hleft⟩ := (sendByte_unstretched p v).held h hk
  rw [hr] at hack hleft
  exact ⟨t, hack ▸ hr, hfacts.frame, hleft⟩

/-- A byte is its eight bits. -/
theorem byteBit_injective {v w : Byte} (h : [7, 6, 5, 4, 3, 2, 1, 0].map (byteBit v) = [7, 6, 5, 4, 3, 2, 1, 0].map (byteBit w)) :
    v = w := by
  simp only [List.map_cons, List.map_nil, List.cons.injEq] at h
  obtain ⟨h7, h6, h5, h4, h3, h2, h1, h0, -⟩ := h
  refine BitVec.eq_of_getLsbD_eq fun i hi => ?_
  interval_cases i <;> assumption

/-- Eight samples of SDA held low shift in 0x00, of SDA never pulled 0xFF (10_state.md R44). -/
theorem foldl_shiftIn_level (low : Bool) (acc : Byte) :
    (List.replicate 8 (!low)).foldl shiftIn acc = if low then 0x00#8 else 0xFF#8 := by
  refine byteBit_injective ((eightShiftsFillAcc acc _ List.length_replicate).trans ?_)
  cases low <;> decide

/-- Every bit shifted into ACC is the level the Peer holds SDA at (R180). -/
theorem recvBits_held {low : Bool} (p : Params) (n : Nat) {k : Nat} {s : State} (h : s.Held low k) (hk : 10 * n ≤ k)
    (hsda : s.sda.dir = .input) : ((recvBits p n).run s).1.acc = (List.replicate n (!low)).foldl shiftIn s.acc := by
  induction n generalizing s k with
  | zero => rfl
  | succ i ih =>
    have h0 := h.step (by omega) (.bitIdx i)
    obtain ⟨s1, _, hwait, hclock, h1⟩ := waitClockHigh_held p h0 (by omega)
    obtain ⟨-, hacc1, -, hsda1, -⟩ := hclock.bus
    have hin : s1.sda.dir = .input := (congrArg Pin.dir hsda1).trans hsda
    have hlevel := sampleSda_held h1 hin
    obtain ⟨s2, level, _, hr, hsample⟩ := sampleSda_facts s1 hin
    have h2 := h1.step (by omega) (.sample .sda)
    rw [hr] at hlevel h2
    obtain rfl : level = !low := hlevel
    have h3 := h2.step (by omega) (.shiftAcc !low)
    obtain ⟨_, hline⟩ := setLine_facts .scl false ((MicroOp.shiftAcc !low).run s2).1 rfl
    obtain ⟨-, h4⟩ := (setLine_unstretched .scl false).held h3 (by omega)
    have h5 := h4.step (by omega) (.delay (bitHold p i))
    simp only [recvBits, Prog.run_andThen, Prog.run_bind, run_perform, hwait, hr]
    rw [ih h5 (by omega)]
    · rw [run_delay, State.pass_acc, hline.acc, run_shiftAcc, State.pushAcc_acc, State.pass_acc, hsample.acc, hacc1]
      rfl
    · rw [run_delay, State.pass_sda, hline.sda]
      exact (congrArg Pin.dir hsample.sda).trans hin

/-- RECV's byte is the level the Peer holds SDA at, in each of its bits, and its clocks are not stretched (R180). -/
theorem recvByte_held {low : Bool} {k : Nat} {s : State} (p : Params) (h : s.Held low k) (hk : 82 ≤ k) : ∃ t,
    (recvByte p).run s = (t, .ok) ∧ BusFrame s t ∧ t.acc = (if low then 0x00#8 else 0xFF#8) ∧ t.Held low (k - 82) := by
  obtain ⟨t, w, _, _, hr, hfacts⟩ := recvByte_facts p s
  obtain ⟨hw, hleft⟩ := (recvByte_unstretched p).held h hk
  obtain ⟨_, hline⟩ := setLine_facts .sda true s rfl
  obtain ⟨-, h1⟩ := (setLine_unstretched .sda true).held h (by omega)
  have hacc : ((recvByte p).run s).1.acc = if low then 0x00#8 else 0xFF#8 := by
    rw [recvByte, Prog.run_andThen, recvBits_held p 8 h1 (by omega) (by rw [hline.sda]; rfl), foldl_shiftIn_level]
  rw [hr] at hw hleft hacc
  exact ⟨t, hw ▸ hr, hfacts.frame, hacc, hleft⟩

/-! ### The attempts of MSEND and MRECV -/

section Attempts

variable {p : Params} {a v : Byte} {onFail : Sent → Prog Code} {s u u1 u2 : State} {w : Wait}

/-- What every attempt begins with: it is counted, and FrameStart and the address byte follow (45_register_access.md R220, R230). -/
def addressByte (p : Params) (a : Byte) : Prog Sent := (perform .incAtt).andThen <| frameStart.andThen (sendByte p a)

/-- An attempt whose address is refused goes on as `onFail` does, a write and a read alike (R223). -/
theorem writeAttempt_refused (h : (addressByte p a).run s = (u, .acked false)) :
    (writeAttempt p a v onFail).run s = (onFail (.acked false)).run u := by
  simp only [addressByte, Prog.run_andThen, run_perform] at h
  simp only [writeAttempt, Prog.run_andThen, Prog.run_bind, run_perform, h]

theorem readAttempt_refused (h : (addressByte p a).run s = (u, .acked false)) :
    (readAttempt p a onFail).run s = (onFail (.acked false)).run u := by
  simp only [addressByte, Prog.run_andThen, run_perform] at h
  simp only [readAttempt, Prog.run_andThen, Prog.run_bind, run_perform, h]

/-- A write whose two bytes are acknowledged ends with its stop (R220, R225). -/
theorem writeAttempt_acked (h : (addressByte p a).run s = (u, .acked true)) (h1 : (sendByte p v).run u = (u1, .acked true))
    (h2 : (frameStop p).run u1 = (u2, w)) :
    (writeAttempt p a v onFail).run s = ((u2.pass 0).attemptsFromAtt, w.code) := by
  simp only [addressByte, Prog.run_andThen, run_perform] at h
  simp only [writeAttempt, Prog.run_andThen, Prog.run_bind, run_perform, h, h1, h2, run_attempts, Prog.run_done]

/-- A read whose address is acknowledged goes on to its receive (R230). -/
theorem readAttempt_acked (h : (addressByte p a).run s = (u, .acked true)) :
    (readAttempt p a onFail).run s = (readBack p).run u := by
  simp only [addressByte, Prog.run_andThen, run_perform] at h
  simp only [readAttempt, Prog.run_andThen, Prog.run_bind, run_perform, h]

/-- A receive that completes leaves its byte in DATA, and ends with its stop (R230, R233). -/
theorem readBack_received (h1 : (recvByte p).run ((u.pass 0).attemptsFromAtt) = (u1, .ok))
    (h2 : (frameStop p).run ((u1.pass 0).dataFromAcc) = (u2, w)) : (readBack p).run u = (u2, w.code) := by
  simp only [readBack, Prog.run_andThen, Prog.run_bind, run_perform, run_attempts, run_data, h1, h2, Prog.run_done]

end Attempts

theorem addressByte_held {low : Bool} {k : Nat} {s : State} (p : Params) (a : Byte) (h : s.Held low k) (hk : 92 ≤ k) : ∃ t,
    (addressByte p a).run s = (t, .acked low) ∧ t.att = s.att + 1 ∧ t.Held low (k - 92) := by
  obtain ⟨hstart, h1⟩ := frameStart_held (h.step (by omega) .incAtt) (by omega)
  obtain ⟨t, hr, hbyte, h2⟩ := sendByte_held p a h1 (by omega)
  refine ⟨t, ?_, hbyte.att.trans hstart.att, h2.mono (by omega)⟩
  simp only [addressByte, Prog.run_andThen, run_perform, hr]

/-- Attempts whose addresses are all refused give NAK (R223): `f n` are those of a write or a read with `n` retries left. -/
theorem attempts_refused {f : Nat → Prog Code} {p : Params} {a : Byte}
    (hlast : ∀ s u, (addressByte p a).run s = (u, .acked false) → (f 0).run s = (giveUp (.acked false)).run u)
    (hmore : ∀ n s u, (addressByte p a).run s = (u, .acked false) → (f (n + 1)).run s = (f n).run u)
    (n : Nat) {k : Nat} {s : State} (h : s.Held false k) (hk : 92 * (n + 1) ≤ k) : ((f n).run s).2 = .nak := by
  induction n generalizing s k with
  | zero =>
    obtain ⟨u, hr, -⟩ := addressByte_held p a h hk
    rw [hlast s u hr]
    rfl
  | succ n ih =>
    obtain ⟨u, hr, -, hu⟩ := addressByte_held p a h (by omega)
    rw [hmore n s u hr]
    exact ih hu (by omega)

theorem writeAttempts_neverPulled {k : Nat} {s : State} (p : Params) (a v : Byte) (n : Nat) (h : s.Held false k)
    (hk : 92 * (n + 1) ≤ k) : ((writeAttempts p a v n).run s).2 = .nak :=
  attempts_refused (f := writeAttempts p a v) (fun _ _ => writeAttempt_refused) (fun _ _ _ => writeAttempt_refused) n h hk

theorem readAttempts_neverPulled {k : Nat} {s : State} (p : Params) (a : Byte) (n : Nat) (h : s.Held false k)
    (hk : 92 * (n + 1) ≤ k) : ((readAttempts p a n).run s).2 = .nak :=
  attempts_refused (f := readAttempts p a) (fun _ _ => readAttempt_refused) (fun _ _ _ => readAttempt_refused) n h hk

/-- With SDA held low the first attempt of a write completes (R220). -/
theorem writeAttempts_heldLow {k : Nat} {s : State} (p : Params) (a v : Byte) (n : Nat) (h : s.Held true k) (hk : 187 ≤ k) :
    ((writeAttempts p a v n).run s).2 = .ok ∧ ((writeAttempts p a v n).run s).1.att = s.att + 1 := by
  obtain ⟨u, haddr, hatt, hu⟩ := addressByte_held p a h (by omega)
  obtain ⟨u1, hvalue, hbyte, h1⟩ := sendByte_held p v hu (by omega)
  obtain ⟨u2, hstop, hend, -⟩ := frameStop_held p h1 (by omega)
  have hrun : (writeAttempts p a v n).run s = ((u2.pass 0).attemptsFromAtt, .ok) := by
    cases n <;> exact writeAttempt_acked haddr hvalue hstop
  rw [hrun]
  exact ⟨rfl, hend.att.trans (hbyte.att.trans hatt)⟩

/-- With SDA held low the first attempt of a read completes, with DATA 0x00 (R230). -/
theorem readAttempts_heldLow {k : Nat} {s : State} (p : Params) (a : Byte) (n : Nat) (h : s.Held true k) (hk : 184 ≤ k) :
    ((readAttempts p a n).run s).2 = .ok ∧ ((readAttempts p a n).run s).1.att = s.att + 1 ∧
      ((readAttempts p a n).run s).1.res.data = ⟨0x00#8, true⟩ := by
  obtain ⟨u, haddr, hatt, hu⟩ := addressByte_held p a h (by omega)
  obtain ⟨u1, hrecv, hbyte, hacc, h1⟩ := recvByte_held p (hu.step (by omega) .attempts) (by omega)
  obtain ⟨u2, hstop, hend, -⟩ := frameStop_held p (h1.step (by omega) .data) (by omega)
  have hrun : (readAttempts p a n).run s = (u2, .ok) := by
    cases n <;> exact (readAttempt_acked haddr).trans (readBack_received hrecv hstop)
  rw [hrun]
  refine ⟨rfl, hend.att.trans (hbyte.att.trans hatt), ?_⟩
  rw [hend.res]
  exact congrArg (ResField.mk · true) hacc

/-! ### The commands -/

/-- The state in which the attempts of MSEND and MRECV start. -/
def State.accessStart (s : State) : State := ((s.setBusy true).pass 0).clearAtt

/-- MSEND that does not time out releases both lines and writes the code and the count of its attempts (45_register_access.md
R221, R223); a refused one has made three. -/
theorem exec_msend_end (a v : Byte) (s : State) : ∃ u c t, (writeAttempts Config.params a v busRetries).run s.accessStart = (u, c) ∧
    exec (.msend a v) s = .next t ∧ (c = .nak → u.att = 3#2) ∧
    (c ≠ .timeout → t.BusReleased ∧ t.res = { s.res with code := c, busy := false, attempts := ⟨u.att, true⟩ }) := by
  obtain ⟨k, u, c, evs, hr, h⟩ := writeAttempts_facts Config.params Config.params_wf a v busRetries s.accessStart
  obtain ⟨t, hexec, ht, -⟩ := exec_bind_finish (i := .msend a v) (p := masterSend Config.params a v) (code := id) rfl
    ((Prog.run_andThen _ _ _).trans hr)
  have hscl : t.scl = u.scl := (congrArg State.scl ht :)
  have hsda : t.sda = u.sda := (congrArg State.sda ht :)
  refine ⟨u, c, t, hr, hexec, fun hc => ?_, fun hc => ⟨⟨hscl ▸ h.scl, ?_⟩, ?_⟩⟩
  · rw [h.att, (h.nak hc).1]; rfl
  · rw [hsda]
    rcases h.codes with hok | hnak | hlate
    · exact (h.ok hok).1
    · exact (h.nak hnak).2.1
    · exact absurd hlate hc
  · exact (congrArg State.res ht).trans (congrArg (fun r => { r with code := c, busy := false }) h.frame.res)

/-- MRECV that does not time out releases both lines and writes the code, the count of its attempts and DATA (R231, R232); a refused
one has made three, and leaves DATA. -/
theorem exec_mrecv_end (a : Byte) (s : State) : ∃ u c t, (readAttempts Config.params a busRetries).run s.accessStart = (u, c) ∧
    exec (.mrecv a) s = .next t ∧ (c = .nak → u.att = 3#2 ∧ u.res.data = s.res.data) ∧
    (c ≠ .timeout → t.BusReleased ∧
      t.res = { s.res with code := c, busy := false, data := u.res.data, attempts := ⟨u.att, true⟩ }) := by
  obtain ⟨k, u, c, evs, hr, h⟩ := readAttempts_facts Config.params Config.params_wf a busRetries s.accessStart
  obtain ⟨t, hexec, ht, -⟩ := exec_bind_finish (i := .mrecv a) (p := masterRecv Config.params a) (code := id) rfl
    ((Prog.run_andThen _ _ _).trans hr)
  have hscl : t.scl = u.scl := (congrArg State.scl ht :)
  have hsda : t.sda = u.sda := (congrArg State.sda ht :)
  have hres : t.res = { u.res with code := c, busy := false } := congrArg State.res ht
  refine ⟨u, c, t, hr, hexec, ?_⟩
  rw [State.BusReleased, hscl, hsda, hres]
  rcases h.result with ⟨rfl, hrel, ⟨bits, acc, _, -, -, hdata⟩, -⟩ | ⟨rfl, hk, hrel, hdata, -⟩ | ⟨rfl, -⟩ | ⟨rfl, -⟩
  · exact ⟨fun hc => (by cases hc), fun _ => ⟨⟨h.scl, hrel⟩, by rw [hdata]; rfl⟩⟩
  · exact ⟨fun _ => ⟨by rw [h.att, hk]; rfl, by rw [hdata]; rfl⟩, fun _ => ⟨⟨h.scl, hrel⟩, by rw [hdata]; rfl⟩⟩
  · exact ⟨fun hc => (by cases hc), fun hc => absurd rfl hc⟩
  · exact ⟨fun hc => (by cases hc), fun hc => absurd rfl hc⟩

section Commands

variable {low : Bool} {s : State} (h : s.Held low 999)
include h

theorem State.Held.setBusy : (s.setBusy true).Held low 999 := h

theorem State.Held.accessStart : s.accessStart.Held low 998 := h.setBusy.step (by omega) .clearAtt

theorem exec_send_held (v : Byte) : ∃ t, exec (.send v) s = .next t ∧
    t.res = { s.res with code := .ok, busy := false, ack := ⟨low, true⟩ } := by
  obtain ⟨u, hr, hframe, -⟩ := sendByte_held Config.params v h.setBusy (by omega)
  refine ⟨_, exec_eq_command _ s, ?_⟩
  simp [runCommand, command, sendCommand, hr, hframe.res]

theorem exec_recv_held : ∃ t, exec .recv s = .next t ∧
    t.res = { s.res with code := .ok, busy := false, data := ⟨if low then 0x00#8 else 0xFF#8, true⟩ } := by
  obtain ⟨u, hr, hframe, hacc, -⟩ := recvByte_held Config.params h.setBusy (by omega)
  refine ⟨_, exec_eq_command _ s, ?_⟩
  simp [runCommand, command, recvCommand, hr, hframe.res, hacc]

theorem exec_msend_held (a v : Byte) : ∃ t, exec (.msend a v) s = .next t ∧ t.BusReleased ∧
    t.res = { s.res with code := if low then .ok else .nak, busy := false, attempts := ⟨if low then 1#2 else 3#2, true⟩ } := by
  obtain ⟨u, c, t, hr, hexec, hnak, hend⟩ := exec_msend_end a v s
  refine ⟨t, hexec, ?_⟩
  cases low with
  | true =>
    obtain ⟨hc, hatt⟩ := writeAttempts_heldLow Config.params a v busRetries h.accessStart (by omega)
    rw [hr] at hc hatt
    obtain rfl : c = .ok := hc
    have hatt : u.att = 1#2 := hatt
    exact hatt ▸ hend Code.noConfusion
  | false =>
    have hc := writeAttempts_neverPulled Config.params a v busRetries h.accessStart (by decide)
    rw [hr] at hc
    obtain rfl : c = .nak := hc
    exact hnak rfl ▸ hend Code.noConfusion

theorem exec_mrecv_held (a : Byte) : ∃ t, exec (.mrecv a) s = .next t ∧ t.BusReleased ∧
    t.res = { s.res with code := if low then .ok else .nak, busy := false
                         data := if low then ⟨0x00#8, true⟩ else s.res.data
                         attempts := ⟨if low then 1#2 else 3#2, true⟩ } := by
  obtain ⟨u, c, t, hr, hexec, hnak, hend⟩ := exec_mrecv_end a s
  refine ⟨t, hexec, ?_⟩
  cases low with
  | true =>
    obtain ⟨hc, hatt, hdata⟩ := readAttempts_heldLow Config.params a busRetries h.accessStart (by omega)
    rw [hr] at hc hatt hdata
    obtain rfl : c = .ok := hc
    have hatt : u.att = 1#2 := hatt
    have hdata : u.res.data = ⟨0x00#8, true⟩ := hdata
    exact hatt ▸ hdata ▸ hend Code.noConfusion
  | false =>
    have hc := readAttempts_neverPulled Config.params a busRetries h.accessStart (by decide)
    rw [hr] at hc
    obtain rfl : c = .nak := hc
    obtain ⟨hatt, hdata⟩ := hnak rfl
    exact hatt ▸ hdata ▸ hend Code.noConfusion

end Commands

/-- Settles O60: what each command reads of SDA is what the Peer holds it at. -/
theorem constantPeerResults : Obligations.ConstantPeerResults := by
  intro low s hlen hpeer hdraws
  have h : s.Held low 999 := ⟨hlen, hdraws, hpeer⟩
  exact ⟨exec_send_held h, exec_recv_held h, exec_msend_held h, exec_mrecv_held h⟩

end Sys2Proof.Machine
end

section
/-!
MODEENTRY as a whole (44_mode_entry.md R200 to R207): its result, its pattern and its least times, the facts of `ModeEntry()` carried
over the end of the command.
-/

namespace Sys2Proof.Machine

/-! ### The events between the two changes of IRQ_OFF -/

/-- Every direction change has its time. -/
theorem length_dirTimes (evs : List Event) : (dirTimes evs).length = (dirChanges evs).length := by
  induction evs with
  | nil => rfl
  | cons e evs ih =>
    cases e with
    | dir l d x => exact congrArg (· + 1) ih
    | _ => exact ih

/-- A whole mode entry: the events `mid` with the change of IRQ_OFF before and after them (R200, R202). -/
def irqHeld (up down : Nat) (mid : List Event) : List Event := .irq true up :: (mid ++ [.irq false down])

/-! No reading of the lines sees a change of IRQ_OFF. -/

@[simp] theorem dirChanges_irqHeld (up down : Nat) (mid : List Event) : dirChanges (irqHeld up down mid) = dirChanges mid := by
  simp [irqHeld, dirChanges]

@[simp] theorem dirTimes_irqHeld (up down : Nat) (mid : List Event) : dirTimes (irqHeld up down mid) = dirTimes mid := by
  simp [irqHeld, dirTimes]

@[simp] theorem sclTimes_irqHeld (up down : Nat) (mid : List Event) : sclTimes (irqHeld up down mid) = sclTimes mid := by
  simp [irqHeld, sclTimes]

@[simp] theorem lineWrites_irqHeld (up down : Nat) (mid : List Event) : lineWrites (irqHeld up down mid) = lineWrites mid := by
  simp [irqHeld, lineWrites]

@[simp] theorem sampledLevels_irqHeld (l : Line) (up down : Nat) (mid : List Event) :
    sampledLevels l (irqHeld up down mid) = sampledLevels l mid := by
  simp [irqHeld, sampledLevels]

theorem noContend_irq (b : Bool) (x : Nat) : NoContend [.irq b x] := by simp [NoContend]

theorem noContend_irqHeld (up down : Nat) {mid : List Event} (h : NoContend mid) : NoContend (irqHeld up down mid) :=
  noContend_append (noContend_irq true up) (noContend_append h (noContend_irq false down))

/-- The events between two changes of IRQ_OFF are told by the whole. -/
theorem irqHeld_inj {up up' down down' : Nat} {mid mid' : List Event} (h : irqHeld up down mid = irqHeld up' down' mid') :
    mid = mid' := by
  obtain ⟨-, h⟩ := List.cons.inj h
  exact (List.append_inj' h rfl).1

/-! ### The command -/

/-- MODEENTRY changes what `ModeEntry()` changes, and CODE and BUSY (R203). -/
theorem ModeEntryFacts.frame_to {p : Params} {s u t : State} {up down : Nat} {mid : List Event} {ts : List Nat} {w : Wait}
    (h : ModeEntryFacts p (s.setBusy true) up down mid ts u w) (ht : t = (u.withEnv t).ended w.code) : t = { s.withEnv t with
      scl := { dir := .input, latch := false }, sda := { dir := .input, latch := false }, precise := false, irqOff := false
      bitIdx := t.bitIdx, t0 := t.t0, nPoll := t.nPoll, history := t.history
      res := { s.res with code := t.res.code, busy := false } } := by
  have hbit : t.bitIdx = u.bitIdx := (congrArg State.bitIdx ht :)
  have ht0 : t.t0 = u.t0 := (congrArg State.t0 ht :)
  have hnPoll : t.nPoll = u.nPoll := (congrArg State.nPoll ht :)
  have hhist : t.history = u.history := (congrArg State.history ht :)
  have hcode : t.res.code = w.code := congrArg (·.res.code) ht
  rw [hbit, ht0, hnPoll, hhist, hcode]
  exact ht.trans (congrArg (fun v => (v.withEnv t).ended w.code) h.frame)

/-- What MODEENTRY does: `ModeEntry()`, the lines written by SetLine alone between the changes of IRQ_OFF, and the end of the
command. -/
theorem exec_modeentry_facts (s : State) : ∃ t u w up down mid ts, exec .modeentry s = .next t ∧
    ModeEntryFacts Config.params (s.setBusy true) up down mid ts u w ∧ LinesWritten s t mid ∧
    t = (u.withEnv t).ended w.code ∧ u.now ≤ t.now ∧ t.history = (irqHeld up down mid).reverse ++ s.history := by
  obtain ⟨u, w, up, down, mid, ts, hrun, h⟩ := modeEntry_facts Config.params (s.setBusy true)
  obtain ⟨up', mid', down', hhist', hlines⟩ := modeEntry_lines Config.params (s.setBusy true)
  rw [hrun] at hhist' hlines
  obtain rfl : mid = mid' :=
    irqHeld_inj (List.reverse_injective (List.append_cancel_right (h.history.symm.trans hhist')))
  obtain ⟨t, hexec, ht, hnow⟩ := exec_bind_finish (i := .modeentry) (code := Wait.code) rfl hrun
  have hscl : t.scl = u.scl := (congrArg State.scl ht :)
  have hsda : t.sda = u.sda := (congrArg State.sda ht :)
  refine ⟨t, u, w, up, down, mid, ts, hexec, h, ?_, ht, hnow, (congrArg State.history ht).trans h.history⟩
  exact ⟨hlines.writes, hscl ▸ hlines.scl, hsda ▸ hlines.sda, hlines.quiet, hlines.clear⟩

/-- Settles O49. -/
theorem modeentryResult : Obligations.ModeentryResult := by
  intro s
  obtain ⟨t, u, w, up, down, mid, ts, hexec, h, hlines, ht, hnow, hhist⟩ := exec_modeentry_facts s
  obtain ⟨pattern, wait, hmid, hpattern, hdown, hok, hlate, hceiling⟩ := h.ends
  have ht0 : t.t0 = u.t0 := (congrArg State.t0 ht :)
  have hcode : t.res.code = w.code := congrArg (·.res.code) ht
  refine ⟨t, irqHeld up down mid, up, down, mid, hexec, hhist, h.frame_to ht, ?_, rfl, h.quiet, hlines, hdown.trans hnow,
    pattern, wait, hmid, hpattern, hceiling Config.params_wf, ?_⟩
  · cases w with
    | ok => exact .inl hcode
    | timeout => exact .inr hcode
  · rw [ht0]
    cases w with
    | ok => exact .inl ⟨hcode, hok rfl⟩
    | timeout => exact .inr ⟨hcode, hlate rfl Config.params_wf⟩

/-- Settles O50: the changes of the fifteen bits, evaluated. -/
theorem modeentryEmitsPattern : Obligations.ModeentryEmitsPattern := by
  intro s
  obtain ⟨t, _, _, up, down, mid, _, hexec, h, hlines, -, -, hhist⟩ := exec_modeentry_facts s
  refine ⟨t, irqHeld up down mid, hexec, hhist, ?_, ?_, noContend_irqHeld up down hlines.clear, ?_⟩
  · rw [dirChanges_irqHeld, h.dirs]
    decide
  · rw [lineWrites_irqHeld, dirChanges_irqHeld, hlines.writes]
  · rw [sampledLevels_irqHeld, h.samples]

/-- The table of R205: the least time from the first change of SCL to the `k`-th, counted from 0, is that of the bits between. -/
theorem patternNs_table : ∀ k < 16,
    [0, 23000, 46000, 69000, 92000, 115000, 138000, 161000, 184000, 207000, 260000, 283000, 306000, 329000, 352000,
      375000].getD k 0 = patternNs modeBits - patternNs (modeBits - k) := by
  decide

/-- Settles O51. -/
theorem modeentryPatternTimes : Obligations.ModeentryPatternTimes := by
  intro s
  obtain ⟨t, u, w, up, down, mid, ts, hexec, h, -, ht, hnow, hhist⟩ := exec_modeentry_facts s
  have hcode : t.res.code = w.code := congrArg (·.res.code) ht
  refine ⟨t, irqHeld up down mid, hexec, hhist, ?_, ?_, ?_, fun k hk t0 tk h0 hk' => ?_, h.time.trans hnow, fun hok => ?_⟩
  · rw [sclTimes_irqHeld, h.times, h.count]
    rfl
  · rw [dirTimes_irqHeld, length_dirTimes, h.dirs]
    rfl
  · rw [dirTimes_irqHeld]
    exact h.gaps
  · rw [sclTimes_irqHeld, h.times] at h0 hk'
    rw [patternNs_table k hk]
    exact h.spaced k tk t0 (Nat.le_of_lt_succ hk) h0 hk'
  · cases w with
    | ok => exact (Nat.add_assoc _ _ _).ge.trans ((h.success rfl).trans hnow)
    | timeout => rw [hcode] at hok; cases hok

end Sys2Proof.Machine
end

section
/-!
PRECISE and IRQ_OFF at every instant of MODEENTRY (10_state.md R28, R29, 44_mode_entry.md R200 to R202, R205): each of its elementary
steps is read with the events before it and those it adds, part by part of the command.
-/

namespace Sys2Proof.Machine

variable {α β : Type}

/-! ### Every elementary step of a run -/

theorem Prog.bind_assoc {γ : Type} (p : Prog α) (f : α → Prog β) (g : β → Prog γ) :
    (p.bind f).bind g = p.bind fun a => (f a).bind g := by
  induction p with
  | done a => rfl
  | act op k ih => exact congrArg (Prog.act op) (funext fun b => ih b)

/-- `J` holds of the states before and after every elementary step of a run. -/
def Prog.Steps (J : State → State → Prop) : Prog α → State → Prop
  | .done _, _ => True
  | .act op k, s => J s (op.run s).1 ∧ (k (op.run s).2).Steps J (op.run s).1

theorem Prog.steps_bind {J : State → State → Prop} {p : Prog α} {f : α → Prog β} {s : State} :
    (p.bind f).Steps J s ↔ p.Steps J s ∧ (f (p.run s).2).Steps J (p.run s).1 := by
  induction p generalizing s with
  | done a => exact (iff_of_eq (true_and _)).symm
  | act op k ih => exact (and_congr_right fun _ => ih _).trans and_assoc.symm

theorem Prog.steps_andThen {J : State → State → Prop} {p : Prog α} {q : Prog β} {s : State} :
    (p.andThen q).Steps J s ↔ p.Steps J s ∧ q.Steps J (p.run s).1 := Prog.steps_bind

theorem steps_perform {J : State → State → Prop} {op : MicroOp} {s : State} : (perform op).Steps J s ↔ J s (op.run s).1 :=
  and_iff_left trivial

theorem Prog.steps_mono {J K : State → State → Prop} (h : ∀ t t', J t t' → K t t') {p : Prog α} {s : State} (hp : p.Steps J s) :
    p.Steps K s := by
  induction p generalizing s with
  | done a => trivial
  | act op k ih => exact ⟨h _ _ hp.1, ih _ hp.2⟩

/-- What holds of every step, and of the end of the run for both states, holds of any two successive instants. -/
theorem Prog.steps_runFor {J : State → State → Prop} (n : Nat) {p : Prog α} {s : State} (h : p.Steps J s)
    (hend : J (p.run s).1 (p.run s).1) : J (p.runFor n s).1 (p.runFor (n + 1) s).1 := by
  induction n generalizing p s with
  | zero =>
    cases p with
    | done a => exact hend
    | act op k => rw [Prog.runFor_act, Prog.runFor_zero, Prog.runFor_zero]; exact h.1
  | succ n ih =>
    cases p with
    | done a => rw [Prog.runFor_done, Prog.runFor_done]; exact hend
    | act op k => exact ih h.2 hend

/-- A step inside a part of a command that starts at `s` and records `all`: of these events, `evs` are recorded before the step and
`new` by it; time has not gone back, and the flags are those at the start. -/
def StepWithin (s : State) (all : List Event) (t t' : State) : Prop :=
  ∃ evs new rest, all = evs ++ new ++ rest ∧ t.history = evs.reverse ++ s.history ∧
    t'.history = (evs ++ new).reverse ++ s.history ∧ s.now ≤ t.now ∧ t.flags = s.flags

/-- Every step of a program of transport steps. -/
theorem Prog.steps_within {p : Prog α} (hp : p.Uses fun op => transportOp op = true) {s : State} {all : List Event}
    (hall : (p.run s).1.history = all.reverse ++ s.history) : p.Steps (StepWithin s all) s := by
  induction p generalizing s all with
  | done a => trivial
  | act op k ih =>
    obtain ⟨first, hfirst, hnow, -⟩ := op.run_events s
    obtain ⟨later, hlater, -⟩ := Prog.run_events (k (op.run s).2) (op.run s).1
    have hsplit : all = first.reverse ++ later.reverse := by
      refine List.reverse_injective (List.append_cancel_right (bs := s.history) ?_)
      rw [← hall, Prog.run_act, hlater, hfirst]
      simp
    have hflags : (op.run s).1.flags = s.flags := (op.run_flags s).trans (transportOp_onFlags hp.1 _)
    refine ⟨⟨[], first.reverse, later.reverse, hsplit, rfl, by simp [hfirst], Nat.le_refl _, rfl⟩, ?_⟩
    refine Prog.steps_mono ?_ (ih _ (hp.2 _) (all := later.reverse) (by simp [hlater]))
    rintro t t' ⟨evs, new, rest, hrest, ht, ht', htime, hfl⟩
    exact ⟨first.reverse ++ evs, new, rest, by rw [hsplit, hrest]; simp, by simp [ht, hfirst], by simp [ht', hfirst],
      hnow.trans htime, hfl.trans hflags⟩

/-! ### What is told of one step -/

/-- What the flags are at an instant `t` of a MODEENTRY begun in `s`: `evs` are its events up to `t`, `new` those of the next
elementary step. -/
structure FlagsTold (s t : State) (evs new : List Event) : Prop where
  /-- PRECISE = 1 comes after the pattern, with IRQ_OFF = 1 (R201, R202, R205). -/
  precise : t.precise = true → t.irqOff = true ∧ 45 ≤ (dirChanges evs).length ∧
    ∃ first, (sclTimes evs).head? = some first ∧ first + 375000 ≤ t.now
  /-- It stands at every sample (R206) ... -/
  sampling : ∀ l v x, .sample l v x ∈ new → t.precise = true
  /-- ... and at the last release of SCL. -/
  releasing : (dirChanges evs).length = 45 → ∀ x, .dir .scl .released x ∈ new → t.precise = true
  /-- It falls after the wait, and IRQ_OFF with the next step. -/
  waited : 46 ≤ (dirChanges evs).length → t.precise = false →
    (∀ high, .sample .scl true high ∈ evs → high + Config.params.tBitNs ≤ t.now) ∧ ∃ x, .irq false x ∈ evs ++ new
  /-- IRQ_OFF is 1 from its rise to its fall (R202). -/
  before : NoIrq evs → t.irqOff = s.irqOff
  raised : ∀ x, .irq true x ∈ evs → (∀ y, .irq false y ∉ evs) → t.irqOff = true
  lowered : ∀ x, .irq false x ∈ evs → t.irqOff = false

/-- Two successive instants of a MODEENTRY begun in `s`, and what is told of them. -/
def ToldStep (s t t' : State) : Prop :=
  ∃ evs new, t.history = evs.reverse ++ s.history ∧ t'.history = (evs ++ new).reverse ++ s.history ∧ FlagsTold s t evs new

theorem mem_dirChanges {l : Line} {d : Drive} {x : Nat} {evs : List Event} (h : .dir l d x ∈ evs) : (l, d) ∈ dirChanges evs := by
  obtain ⟨a, b, rfl⟩ := List.append_of_mem h
  simp [dirChanges]

theorem mem_sampledLevels {l : Line} {v : Bool} {x : Nat} {evs : List Event} (h : .sample l v x ∈ evs) :
    v ∈ sampledLevels l evs := by
  obtain ⟨a, b, rfl⟩ := List.append_of_mem h
  simp [sampledLevels]

theorem not_mem_of_sampledLevels {l : Line} {evs : List Event} (h : sampledLevels l evs = []) (v : Bool) (x : Nat) :
    .sample l v x ∉ evs := fun hx => List.not_mem_nil (h ▸ mem_sampledLevels hx)

theorem NoIrq.not_mem {evs : List Event} (h : NoIrq evs) (b : Bool) (x : Nat) : .irq b x ∉ evs := fun he => h _ he b x rfl

/-- Before the first event (R200). -/
theorem FlagsTold.start {s t : State} (hp : t.precise = false) (hi : t.irqOff = s.irqOff) (up : Nat) :
    FlagsTold s t [] [.irq true up] where
  precise h := by rw [hp] at h; cases h
  sampling := by simp
  releasing := by simp
  waited h := by simp [dirChanges] at h
  before _ := hi
  raised := by simp
  lowered := by simp

section Raised

variable {s t : State} {up : Nat} {evs new : List Event} (hi : t.irqOff = true) (hq : NoIrq evs)
include hi hq

/-- In the pattern and up to the rise of PRECISE: nothing is sampled, and there are no more than the pattern's changes (R206). -/
theorem FlagsTold.pattern (hp : t.precise = false) (hs : ∀ l v x, Event.sample l v x ∉ new)
    (hd : (dirChanges evs).length + (dirChanges new).length ≤ 45) : FlagsTold s t (.irq true up :: evs) new where
  precise h := by rw [hp] at h; cases h
  sampling l v x h := absurd h (hs l v x)
  releasing h x hx := by
    have h : (dirChanges evs).length = 45 := h
    have hnew := List.length_pos_of_mem (mem_dirChanges hx)
    omega
  waited h := by
    have h : 46 ≤ (dirChanges evs).length := h
    omega
  before h := absurd rfl (h _ List.mem_cons_self true up)
  raised _ _ _ := hi
  lowered x h := by simp [hq.not_mem] at h

/-- In the final wait, which has PRECISE = 1 (R201). -/
theorem FlagsTold.wait (hp : t.precise = true) (hd : 45 ≤ (dirChanges evs).length) {first : Nat}
    (hfirst : (sclTimes evs).head? = some first) (hnow : first + 375000 ≤ t.now) : FlagsTold s t (.irq true up :: evs) new where
  precise _ := ⟨hi, hd, first, hfirst, hnow⟩
  sampling _ _ _ _ := hp
  releasing _ _ _ := hp
  waited _ h := by rw [hp] at h; cases h
  before h := absurd rfl (h _ List.mem_cons_self true up)
  raised _ _ _ := hi
  lowered x h := by simp [hq.not_mem] at h

/-- Between the fall of PRECISE and that of IRQ_OFF. -/
theorem FlagsTold.fall (hp : t.precise = false) (hhigh : ∀ x, .sample .scl true x ∈ evs → x + Config.params.tBitNs ≤ t.now)
    (down : Nat) : FlagsTold s t (.irq true up :: evs) [.irq false down] where
  precise h := by rw [hp] at h; cases h
  sampling := by simp
  releasing := by simp
  waited _ _ := ⟨by simpa using hhigh, down, by simp⟩
  before h := absurd rfl (h _ List.mem_cons_self true up)
  raised _ _ _ := hi
  lowered x h := by simp [hq.not_mem] at h

end Raised

/-- After the last event (R200). -/
theorem FlagsTold.fallen {s t : State} {up down : Nat} {mid : List Event} (hp : t.precise = false) (hi : t.irqOff = false)
    (hhigh : ∀ x, .sample .scl true x ∈ mid → x + Config.params.tBitNs ≤ t.now) :
    FlagsTold s t (irqHeld up down mid) [] where
  precise h := by rw [hp] at h; cases h
  sampling := by simp
  releasing := by simp
  waited _ _ := ⟨by simpa [irqHeld] using hhigh, down, by simp [irqHeld]⟩
  before h := absurd rfl (h _ List.mem_cons_self true up)
  raised _ _ h := absurd (by simp [irqHeld]) (h down)
  lowered _ _ := hi

/-! ### The parts of the command -/

/-- The pattern records its forty-five changes and no sample, so no part of it records more. -/
theorem PatternFacts.told {s s0 : State} {up : Nat} {ts : List Nat} {all : List Event}
    (h : PatternFacts modeBits s0 ts all ((modeEntryBits modeBits).run s0).1) (hh : s0.history = .irq true up :: s.history)
    (hp : s0.precise = false) (hi : s0.irqOff = true) : (modeEntryBits modeBits).Steps (ToldStep s) s0 := by
  refine Prog.steps_mono ?_ (Prog.steps_within (modeEntryBits_uses (fun _ h => h) _) h.history)
  rintro t t' ⟨evs, new, rest, rfl, ht, ht', -, hflags⟩
  have hchanges := congrArg List.length h.dirs
  rw [dirChanges_append, dirChanges_append, List.length_append, List.length_append,
    show (patternDirs modeBits).length = 45 from rfl] at hchanges
  refine ⟨.irq true up :: evs, new, by simp [ht, hh], by simp [ht', hh],
    .pattern ((congrArg Flags.irqOff hflags).trans hi) (fun e he => h.quiet e (by simp [he]))
      ((congrArg Flags.precise hflags).trans hp)
      (fun l v x hx => not_mem_of_sampledLevels (h.samples l) v x (by simp [hx])) (by omega)⟩

/-- The final wait starts after the pattern, with both flags 1 (R201). -/
structure WaitStart (s : State) (up : Nat) (pattern : List Event) (s2 : State) : Prop where
  history : s2.history = (.irq true up :: pattern).reverse ++ s.history
  quiet : NoIrq pattern
  samples : ∀ l, sampledLevels l pattern = []
  changes : (dirChanges pattern).length = 45
  first : ∃ first, (sclTimes pattern).head? = some first ∧ first + 375000 ≤ s2.now
  precise : s2.precise = true
  irqOff : s2.irqOff = true

/-- What is told in the wait and just after it, with the wait's events so far. -/
theorem WaitStart.told {s s2 t : State} {up : Nat} {pattern evs new : List Event} (h : WaitStart s up pattern s2)
    (hq : NoIrq evs) (hp : t.precise = true) (hi : t.irqOff = true) (hnow : s2.now ≤ t.now) :
    FlagsTold s t (.irq true up :: (pattern ++ evs)) new := by
  obtain ⟨first, hfirst, htime⟩ := h.first
  refine .wait hi (noIrq_append h.quiet hq) hp ?_ (first := first) ?_ (htime.trans hnow)
  · rw [dirChanges_append, List.length_append, h.changes]
    exact Nat.le_add_right 45 _
  · rw [sclTimes_append, List.head?_append, hfirst]
    rfl

theorem WaitStart.steps {p : Params} {s s2 s3 : State} {up : Nat} {pattern all : List Event} {w : Wait}
    (h : WaitStart s up pattern s2) (hrun : (waitClockHigh p).run s2 = (s3, w)) (hw : WaitFacts p s2 all s3 w) :
    (waitClockHigh p).Steps (ToldStep s) s2 := by
  refine Prog.steps_mono ?_ (Prog.steps_within (waitClockHigh_uses (fun _ h => h) p) (all := all) (by rw [hrun]; exact hw.history))
  rintro t t' ⟨evs, new, rest, rfl, ht, ht', hnow, hflags⟩
  exact ⟨.irq true up :: (pattern ++ evs), new, by simp [ht, h.history], by simp [ht', h.history],
    h.told (fun e he => hw.quiet e (by simp [he])) ((congrArg Flags.precise hflags).trans h.precise)
      ((congrArg Flags.irqOff hflags).trans h.irqOff) hnow⟩

/-- Each high sample of a wait is a bit period past at its end (41_bus_primitives.md R113). -/
theorem WaitFacts.highs_past {p : Params} {s t : State} {evs : List Event} {w : Wait} (h : WaitFacts p s evs t w) (hp : p.wf)
    {x : Nat} (hx : .sample .scl true x ∈ evs) : x + p.tBitNs ≤ t.now := by
  cases w with
  | ok =>
    obtain ⟨high, ⟨before, ⟨-, -, hlow⟩, rfl⟩, hpast⟩ := h.seen rfl
    rcases List.mem_append.1 hx with hx | hx
    · exact absurd (mem_sampledLevels hx) hlow
    · obtain rfl : x = high := by simpa using hx
      exact hpast
  | timeout =>
    obtain ⟨⟨-, -, hlow⟩, -⟩ := h.missed rfl hp
    exact absurd (mem_sampledLevels hx) hlow

/-- From the fall of PRECISE on (R200): between the two changes of IRQ_OFF stand the events `mid`, every high sample of SCL among them
a bit period past. -/
structure WaitEnded (s : State) (up : Nat) (mid : List Event) (t : State) : Prop where
  history : t.history = (.irq true up :: mid).reverse ++ s.history
  quiet : NoIrq mid
  highs : ∀ x, .sample .scl true x ∈ mid → x + Config.params.tBitNs ≤ t.now
  precise : t.precise = false
  irqOff : t.irqOff = true

/-- From the fall of IRQ_OFF on (R200). -/
structure IrqFallen (s : State) (up down : Nat) (mid : List Event) (t : State) : Prop where
  history : t.history = (irqHeld up down mid).reverse ++ s.history
  highs : ∀ x, .sample .scl true x ∈ mid → x + Config.params.tBitNs ≤ t.now
  precise : t.precise = false
  irqOff : t.irqOff = false

/-- The rise of PRECISE after the pattern starts the wait. -/
theorem PatternFacts.waitStart {s s0 s1 : State} {up : Nat} {ts : List Nat} {pattern : List Event}
    (h : PatternFacts modeBits s0 ts pattern s1) (hh : s0.history = .irq true up :: s.history) (hi : s0.irqOff = true) :
    WaitStart s up pattern ((s1.pass 0).setPrecise true) where
  history := by simp [h.history, hh]
  quiet := h.quiet
  samples := h.samples
  changes := congrArg List.length h.dirs
  first := by
    have hlen : 0 < ts.length := by rw [h.count]; decide
    have hend : ts[0] + 375000 ≤ s1.now := h.toEnd _ (List.getElem?_eq_getElem hlen)
    exact ⟨ts[0], by rw [h.times, List.head?_eq_getElem?, List.getElem?_eq_getElem hlen], hend.trans (s1.now_le_pass 0)⟩
  precise := rfl
  irqOff := h.frame.irqOff.trans hi

/-- The fall of PRECISE ends the wait. -/
theorem WaitStart.ended {s s2 s3 : State} {up : Nat} {pattern all : List Event} {w : Wait} (h : WaitStart s up pattern s2)
    (hw : WaitFacts Config.params s2 all s3 w) : WaitEnded s up (pattern ++ all) ((s3.pass 0).setPrecise false) where
  history := by simp [hw.history, h.history]
  quiet := noIrq_append h.quiet hw.quiet
  highs x hx := (hw.highs_past Config.params_wf <| (List.mem_append.1 hx).resolve_left
    (not_mem_of_sampledLevels (h.samples .scl) true x)).trans (s3.now_le_pass 0)
  precise := rfl
  irqOff := hw.bus.1.irqOff.trans h.irqOff

theorem WaitEnded.fallen {s t : State} {up : Nat} {mid : List Event} (h : WaitEnded s up mid t) :
    IrqFallen s up (t.pass 0).now mid ((t.pass 0).setIrqOff false) where
  history := by simp [h.history, irqHeld]
  highs x hx := (h.highs x hx).trans (t.now_le_pass 0)
  precise := h.precise
  irqOff := rfl

/-- The end of the command records nothing and touches neither flag. -/
theorem IrqFallen.finish_told {s t : State} {up down : Nat} {mid : List Event} (h : IrqFallen s up down mid t) (c : Code) :
    (finish c).Steps (ToldStep s) t ∧ ToldStep s ((finish c).run t).1 ((finish c).run t).1 := by
  have htold : ∀ u u' : State, t.now ≤ u.now → u.history = t.history → u'.history = t.history → u.precise = t.precise →
      u.irqOff = t.irqOff → ToldStep s u u' := fun u u' hnow hu hu' hp hi =>
    ⟨_, [], hu.trans h.history, by rw [List.append_nil]; exact hu'.trans h.history,
      .fallen (hp.trans h.precise) (hi.trans h.irqOff) fun x hx => (h.highs x hx).trans hnow⟩
  have hcode : t.now ≤ ((t.pass 0).setCode c).now := t.now_le_pass 0
  exact ⟨Prog.steps_andThen.2 ⟨steps_perform.2 (htold _ _ le_rfl rfl rfl rfl rfl), steps_perform.2 (htold _ _ hcode rfl rfl rfl rfl)⟩,
    htold _ _ (finish_spec c t).2 rfl rfl rfl rfl⟩

/-- What follows the wait. -/
def afterWait (w : Wait) : Prog Bool :=
  (perform (.precise false)).andThen <| (perform (.irqOff false)).andThen (finish w.code)

theorem WaitStart.afterWait_told {s s2 s3 : State} {up : Nat} {pattern all : List Event} {w : Wait}
    (h : WaitStart s up pattern s2) (hw : WaitFacts Config.params s2 all s3 w) :
    (afterWait w).Steps (ToldStep s) s3 ∧ ToldStep s ((afterWait w).run s3).1 ((afterWait w).run s3).1 := by
  have hended := h.ended hw
  obtain ⟨hfinish, hend⟩ := hended.fallen.finish_told w.code
  refine ⟨Prog.steps_andThen.2 ⟨steps_perform.2 ?_, Prog.steps_andThen.2 ⟨steps_perform.2 ?_, hfinish⟩⟩, hend⟩
  · exact ⟨_, [], hended.history, by rw [List.append_nil]; exact hended.history,
      h.told hw.quiet (hw.bus.1.precise.trans h.precise) (hw.bus.1.irqOff.trans h.irqOff) hw.time⟩
  · exact ⟨_, _, hended.history, hended.fallen.history, .fall hended.irqOff hended.quiet hended.precise hended.highs _⟩

/-- MODEENTRY as its parts, one after the other (R200, R203). -/
theorem command_modeentry_parts : command .modeentry = (perform (.irqOff true)).andThen ((modeEntryBits modeBits).andThen
    ((perform (.precise true)).andThen ((waitClockHigh Config.params).bind afterWait))) := by
  have hbind : command .modeentry = (modeEntry Config.params).bind fun r => finish r.code := rfl
  simp only [hbind, modeEntry, Prog.andThen, Prog.bind_assoc]
  rfl

/-- Every step of MODEENTRY, and its end. -/
theorem modeentry_told (s : State) (hs : s.precise = false) : (command .modeentry).Steps (ToldStep s) (s.setBusy true) ∧
    ToldStep s ((command .modeentry).run (s.setBusy true)).1 ((command .modeentry).run (s.setBusy true)).1 := by
  simp only [command_modeentry_parts, Prog.steps_bind, Prog.steps_andThen, steps_perform, Prog.run_bind, Prog.run_andThen, run_perform,
    run_irqOff, run_precise]
  generalize hs0 : ((s.setBusy true).pass 0).setIrqOff true = s0
  obtain ⟨up, hhist⟩ : ∃ up, s0.history = .irq true up :: s.history := ⟨((s.setBusy true).pass 0).now, by rw [← hs0]; rfl⟩
  have hprecise : s0.precise = false := by rw [← hs0]; exact hs
  have hirq : s0.irqOff = true := by rw [← hs0]; rfl
  obtain ⟨ts, pattern, hpattern⟩ := modeEntryBits_facts modeBits s0
  have hsteps := hpattern.told hhist hprecise hirq
  generalize ((modeEntryBits modeBits).run s0).1 = s1 at hpattern ⊢
  have hstart := hpattern.waitStart hhist hirq
  obtain ⟨s3, w, all, hrun, hwait⟩ := waitClockHigh_facts Config.params ((s1.pass 0).setPrecise true)
  rw [hrun]
  obtain ⟨hafter, hend⟩ := hstart.afterWait_told hwait
  refine ⟨⟨?_, hsteps, ?_, hstart.steps hrun hwait, hafter⟩, hend⟩
  · exact ⟨[], [.irq true up], rfl, hhist, .start (s := s) (t := s.setBusy true) hs rfl up⟩
  · exact ⟨_, [], hstart.history, by rw [List.append_nil]; exact hstart.history,
      .pattern (hpattern.frame.irqOff.trans hirq) hpattern.quiet (hpattern.frame.precise.trans hprecise) (by simp) hstart.changes.le⟩

/-- Settles O52: what is told of every step, at the step that starts at each instant. -/
theorem preciseOnlyInFinalWait : Obligations.PreciseOnlyInFinalWait := by
  intro s k hs
  obtain ⟨hsteps, hend⟩ := modeentry_told s hs
  obtain ⟨evs, new, ht, ht', h⟩ := Prog.steps_runFor k hsteps hend
  exact ⟨evs, new, ht, ht', h.precise, h.sampling, h.releasing, h.waited, h.before, h.raised, h.lowered⟩

end Sys2Proof.Machine
end

section
/-!
MSEND and MRECV as whole commands (45_register_access.md R220 to R227, R230 to R235): what their attempts did, carried over the end of
the command, and how long a success takes.
-/

namespace Sys2Proof.Machine

/-! ### Counting the attempts -/

/-- Two retries do not overflow the two bits of ATT (10_state.md R46), so it counts the failed attempts and the last (R220). -/
theorem attempts_toNat {k : Nat} {n : BitVec 2} (hk : k ≤ busRetries) (hatt : n = 0#2 + BitVec.ofNat 2 (k + 1)) : n.toNat = k + 1 := by
  have hk : k ≤ 2 := hk
  rw [hatt, BitVec.toNat_add, BitVec.toNat_ofNat, BitVec.toNat_ofNat]
  omega

/-- Three attempts failed exactly when both retries were used, and ATT says so (R222). -/
theorem attempts_of_all_failed {k : Nat} {n : BitVec 2} (hk : k = busRetries) (hatt : n = 0#2 + BitVec.ofNat 2 (k + 1)) : n = 3#2 := by
  rw [hatt, hk]
  rfl

/-- The attempts start no earlier than the command (R36, R220). -/
theorem State.now_le_accessStart (s : State) : s.now ≤ s.accessStart.now := (s.setBusy true).now_le_pass 0

/-! ### MSEND -/

/-- MSEND changes what its attempts change, and CODE and BUSY: ACK, DATA and ACC are left (R221). -/
theorem WriteFacts.frame_to {p : Params} {a v : Byte} {m k : Nat} {s u t : State} {evs : List Event} {c : Code}
    (h : WriteFacts p a v m k s.accessStart evs u c) (ht : t = (u.withEnv t).ended c) : t = { s.withEnv t with
      scl := t.scl, sda := t.sda, bitIdx := t.bitIdx, att := u.att, t0 := t.t0, nPoll := t.nPoll, history := t.history
      res := { s.res with code := t.res.code, busy := false, attempts := ⟨u.att, true⟩ } } := by
  have hu := h.frame
  have hcode : t.res.code = c := congrArg (·.res.code) ht
  have hres : t.res = { s.res with code := c, busy := false, attempts := ⟨u.att, true⟩ } :=
    (congrArg State.res ht).trans (congrArg (fun r => { r with code := c, busy := false }) hu.res)
  refine State.ext rfl rfl ?_ ?_ ?_ rfl ?_ (by rw [hcode]; exact hres) ?_ rfl ?_ rfl rfl ?_ rfl rfl ?_ rfl rfl
  · exact (congrArg State.int ht).trans hu.int
  · exact (congrArg State.precise ht).trans hu.precise
  · exact (congrArg State.irqOff ht).trans hu.irqOff
  · exact (congrArg State.cmd ht).trans hu.cmd
  · exact (congrArg State.acc ht).trans h.acc
  · exact (congrArg State.att ht :)
  · exact (congrArg State.faultContend ht).trans hu.faultContend
  · exact (congrArg State.host ht).trans hu.host

/-- Settles O53: the attempts of MasterSend, carried over the end of the command. -/
theorem msendResult : Obligations.MsendResult := by
  intro a v s
  obtain ⟨k, u, c, evs, t, h, hexec, hend, hnow⟩ := exec_msend_run a v s
  have hhist : t.history = evs.reverse ++ s.history := (congrArg State.history hend).trans h.history
  have hcode : t.res.code = c := congrArg (·.res.code) hend
  have hsda : t.sda = u.sda := (congrArg State.sda hend :)
  have ht0 : t.t0 = u.t0 := (congrArg State.t0 hend :)
  refine ⟨t, evs, u.att, hexec, hhist, h.frame_to hend, (congrArg (·.scl.dir) hend).trans h.scl,
    exec_linesWritten (msend_linesOnly a v) hexec hhist, ?_⟩
  rw [hcode, hsda, ht0]
  obtain ⟨fails, hfails, htries⟩ := h.tries
  refine ⟨fails, hfails, ?_⟩
  rcases htries with ⟨hlen, hk, hevs, horder, hlast⟩ | ⟨hlen, e0, e1, e2, e3, hevs, horder, h0, h1, h2, hstop⟩
  · exact .inl ⟨hlen, attempts_of_all_failed hk h.att, hevs, horder.mono hnow, hlast⟩
  · exact .inr ⟨hlen.trans_le h.count, (attempts_toNat h.count h.att).trans (by rw [hlen]), e0, e1, e2, e3, hevs, horder.mono hnow,
      h0, h1, h2, hstop.mono hnow⟩

/-- Settles O55: the time of the failed attempts and of the last, and the end of the command after them. -/
theorem msendDuration : Obligations.MsendDuration := by
  intro a v s hs
  obtain ⟨k, u, c, evs, t, h, hexec, hend, hnow⟩ := exec_msend_run a v s
  refine ⟨t, hexec, fun hc => ?_⟩
  obtain rfl : c = .ok := (congrArg (·.res.code) hend).symm.trans hc
  obtain ⟨-, -, -, htime⟩ := h.ok rfl
  have hvalue : t.res.attempts.value = u.att :=
    (congrArg (·.res.attempts.value) hend).trans (congrArg (·.attempts.value) h.frame.res)
  rw [hvalue, attempts_toNat h.count h.att, Nat.add_sub_cancel]
  exact (Nat.add_le_add_right s.now_le_accessStart _).trans ((htime Config.params_wf.2 hs).trans hnow)

/-! ### MRECV -/

/-- What follows an acknowledged address, if it has ended by some time, has by every later one. -/
theorem ReadEnded.mono {p : Params} {precise : Bool} {t0 x y : Nat} {res res' : Res} {c : Code} {n : BitVec 2} {sda : Pin}
    {evs : List Event} (h : ReadEnded p precise t0 x res c n sda res' evs) (hxy : x ≤ y) :
    ReadEnded p precise t0 y res c n sda res' evs := by
  obtain ⟨bits, ⟨hc, hlen, hbits, hdirs, hmissed, hrest⟩ | ⟨hlen, hres, e2, e3, hevs, hdirs, hbits, hreceived, hstop⟩⟩ := h
  · exact ⟨bits, .inl ⟨hc, hlen, hbits, hdirs, hmissed.mono hxy, hrest⟩⟩
  · exact ⟨bits, .inr ⟨hlen, hres, e2, e3, hevs, hdirs, hbits, hreceived, hstop.mono hxy⟩⟩

/-- The attempts of MasterRecv write ATTEMPTS in RES, and DATA at most besides (R231). -/
theorem ReadFacts.res_eq {p : Params} {a : Byte} {m k : Nat} {s u : State} {evs : List Event} {c : Code}
    (h : ReadFacts p a m k s evs u c) : u.res = { s.res with data := u.res.data, attempts := ⟨u.att, true⟩ } := by
  rcases h.result with ⟨-, -, ⟨_, _, _, -, -, hres⟩, -⟩ | ⟨-, -, -, hres, -⟩ | ⟨-, hres⟩ | ⟨-, -, _, _, _, -, -, hres⟩
  all_goals rw [hres]

/-- MRECV changes what its attempts change, and CODE and BUSY: ACK is left (R231). -/
theorem ReadFacts.frame_to {p : Params} {a : Byte} {m k : Nat} {s u t : State} {evs : List Event} {c : Code}
    (h : ReadFacts p a m k s.accessStart evs u c) (ht : t = (u.withEnv t).ended c) : t = { s.withEnv t with
      scl := { t.scl with dir := .input }, sda := t.sda, acc := t.acc, bitIdx := t.bitIdx, att := u.att, t0 := t.t0
      nPoll := t.nPoll, history := t.history
      res := { s.res with code := t.res.code, busy := false, data := t.res.data, attempts := ⟨u.att, true⟩ } } := by
  have hscl : t.scl.dir = .input := (congrArg (·.scl.dir) ht).trans h.scl
  have hcode : t.res.code = c := congrArg (·.res.code) ht
  have hdata : t.res.data = u.res.data := congrArg (·.res.data) ht
  have hres : t.res = { s.res with code := c, busy := false, data := u.res.data, attempts := ⟨u.att, true⟩ } :=
    (congrArg State.res ht).trans (congrArg (fun r => { r with code := c, busy := false }) h.res_eq)
  refine State.ext (Pin.eq_of_dir_latch hscl rfl) rfl ?_ ?_ ?_ rfl ?_ (by rw [hcode, hdata]; exact hres) rfl rfl ?_ rfl rfl ?_ rfl rfl
    ?_ rfl rfl
  · exact (congrArg State.int ht).trans h.int
  · exact (congrArg State.precise ht).trans h.precise
  · exact (congrArg State.irqOff ht).trans h.irqOff
  · exact (congrArg State.cmd ht).trans h.cmd
  · exact (congrArg State.att ht :)
  · exact (congrArg State.faultContend ht).trans h.faultContend
  · exact (congrArg State.host ht).trans h.host

/-- Settles O56: the attempts of MasterRecv, carried over the end of the command, and the eight bits read back from DATA. -/
theorem mrecvResult : Obligations.MrecvResult := by
  intro a s
  obtain ⟨k, u, c, evs, t, h, hexec, hend, hnow⟩ := exec_mrecv_run a s
  have hhist : t.history = evs.reverse ++ s.history := (congrArg State.history hend).trans h.history
  have hcode : t.res.code = c := congrArg (·.res.code) hend
  have hdata : t.res.data = u.res.data := congrArg (·.res.data) hend
  have hsda : t.sda = u.sda := (congrArg State.sda hend :)
  have ht0 : t.t0 = u.t0 := (congrArg State.t0 hend :)
  refine ⟨t, evs, u.att, hexec, hhist, h.frame_to hend, exec_linesWritten (mrecv_linesOnly a) hexec hhist, ?_⟩
  rw [hcode, hdata, hsda, ht0]
  obtain ⟨fails, hfails, htries⟩ := h.tries
  refine ⟨fails, hfails, ?_⟩
  rcases htries with ⟨hlen, hk, hevs, horder, hlast, hres⟩ | ⟨hlen, e0, e1, e2, hevs, horder, h0, h1, hended⟩
  · exact .inl ⟨hlen, attempts_of_all_failed hk h.att, hevs, horder.mono hnow, hlast, by rw [hres]; rfl⟩
  · refine .inr ⟨hlen.trans_le h.count, (attempts_toNat h.count h.att).trans (by rw [hlen]), e0, e1, ?_⟩
    obtain ⟨bits, ⟨hc, hbits, rfl, hdirs, hmissed, hin, hres⟩ | ⟨hbits, ⟨acc, hres⟩, e2, e3, rfl, hdirs, rfl, hreceived, hstop⟩⟩ :=
      hended.mono hnow
    · exact ⟨e2, h0, h1, .inl ⟨hc, hin, by rw [hres]; rfl, hevs, horder.mono hnow, hmissed, _, by omega, hbits, rfl, hdirs⟩⟩
    · have hbyte := eightShiftsFillAcc acc _ hbits
      rw [← List.append_assoc (e0 ++ e1) e2 e3] at hevs horder
      exact ⟨e2, h0, h1, .inr ⟨_, e3, by rw [hres], hevs, horder.mono hnow, hdirs, hbyte.symm, hbyte.symm ▸ hreceived, hstop⟩⟩

/-- How long an MRECV that completed took (R235). -/
theorem ReadFacts.time_of_ok {p : Params} {a : Byte} {m k : Nat} {s u : State} {evs : List Event}
    (h : ReadFacts p a m k s evs u .ok) (hp : p.wf) (hs : s.precise = false) :
    s.now + (k * failedAttemptNs p + (16 * p.tBitNs + p.tHalfNs) + (15 * p.tBitNs + p.tHalfNs) + p.tBitNs) ≤ u.now := by
  rcases h.result with ⟨-, -, -, -, htime⟩ | ⟨hc, -⟩ | ⟨hc, -⟩ | ⟨hc, -⟩
  · exact htime hp.2 hs
  · cases hc
  · cases hc
  · cases hc

/-- Settles O58: the time of the failed attempts and of the last, and the end of the command after them. -/
theorem mrecvDuration : Obligations.MrecvDuration := by
  intro a s hs
  obtain ⟨k, u, c, evs, t, h, hexec, hend, hnow⟩ := exec_mrecv_run a s
  refine ⟨t, hexec, fun hc => ?_⟩
  obtain rfl : c = .ok := (congrArg (·.res.code) hend).symm.trans hc
  have hvalue : t.res.attempts.value = u.att :=
    (congrArg (·.res.attempts.value) hend).trans (congrArg (·.attempts.value) h.res_eq)
  rw [hvalue, attempts_toNat h.count h.att, Nat.add_sub_cancel]
  exact (Nat.add_le_add_right s.now_le_accessStart _).trans ((h.time_of_ok Config.params_wf hs).trans hnow)

end Sys2Proof.Machine
end

section
/-!
A reset of the block during a command (70_reset_and_hazards.md R281): it ends the command where the steps taken before it left it,
whatever host reads of RES came first.
-/

namespace Sys2Proof.Machine

/-- The reset values of CODE and BUSY (10_state.md R49). -/
@[simp] theorem State.blockReset_code (s : State) : s.blockReset.res.code = .ok := rfl
@[simp] theorem State.blockReset_busy (s : State) : s.blockReset.res.busy = false := rfl

/-- Reads of RES during a command and then a reset: the reset meets the instant `k` steps into what the reads left of the command, and
none of its steps comes after. -/
theorem runWithMoves_reads_reset (ks : List Nat) (k : Nat) (c : Prog Bool) (s : State) :
    runWithMoves (ks.map (fun j => (j, .read resAddr 4)) ++ [(k, .reset)]) c s =
      .next ((afterReads ks c s).2.runFor k (afterReads ks c s).1).1.blockReset := by
  rw [runWithMoves_reads, runWithMoves_reset]

/-- Settles O10: the line is the reads and the reset as moves of one command (`runWithMoves_reads_reset`), and what it leaves is a
block reset. -/
theorem resetDuringCommandEndsIt : Obligations.ResetDuringCommandEndsIt := by
  intro program s w ks k hline hb
  have hstep : stepOf program s = .next (State.advance
      ((afterReads ks (commandOfWord w) (s.accept w)).2.runFor k
        (afterReads ks (commandOfWord w) (s.accept w)).1).1.blockReset) := by
    rw [stepOf_of_lineOf_during hline, duringCommand_idle hb, runWithMoves_reads_reset]
    rfl
  refine ⟨_, _, rfl, hstep, rfl, State.blockReset_code _, State.blockReset_busy _,
    fun l => (State.blockReset_pin _ l).trans (resetLeavesEngineIdle.1 l), ?_⟩
  rintro rfl
  rfl

end Sys2Proof.Machine
end
